-- ==== Sys2Proof/Word.lean ====
section
/-! DEFINITION. The word types of the GV9 (R4, R6): bytes, 32-bit registers and 64-bit pairs. -/
namespace Sys2Proof

/-- A byte of memory (R4). -/
abbrev Byte := BitVec 8
/-- A 32-bit register (R163). -/
abbrev Word := BitVec 32
/-- A 64-bit register pair, or an 8-byte word (R4). -/
abbrev DWord := BitVec 64

end Sys2Proof
end

