-- ==== Sys2Proof/Config.lean ====
section
/-! DEFINITION. What an implementation fixes and what the manual leaves open: the free values have no body, so nothing can be proved of them. -/
namespace Sys2Proof.Config

/-- Fresh free values, applied to a counter the step advances: values the manual calls undefined (R116, R157, R266, R273, R282)
or promises no sequence of (R302). Log entry 4. -/
opaque freeValue : Nat → BitVec 64
/-- How an error report names a line, a register, a field or a record in bits [63:8] of its cause word, by the kind of thing and the thing
(R83, R105, R308, R323). Log entry 28. -/
opaque reportName : Nat → Nat → BitVec 56
/-- The result candidate of an approximate function (R229) by function number, type code and input bits: one value per input on every run. Log entry 5. -/
opaque approx : Nat → Nat → BitVec 64 → BitVec 64
/-- Environment outcomes that the manual leaves to the part: signature checks (R394), self-tests (R374, R376). Applied to a counter. Log entry 6. -/
opaque chance : Nat → Bool
/-- Firmware digests and key material are not given by the manual (R394 to R396). Log entry 6. -/
opaque digest : Nat → BitVec 384
/-- The parts of the cipher of R25, by round, key, tweak and half of a 16-byte unit: nothing is known of them. Log entry 7. -/
opaque xtsRound : Nat → Nat → Nat → BitVec 64 → BitVec 64
/-- The last value of the row 12 column remap that a part carries (R13): which physical row a column leaves out. Log entry 12. -/
def leftOutRow (_cluster _column : Nat) : Nat := 12
/-- The executing package's own number (R26). Log entry 12. -/
def packageNumber : Nat := 0
/-- What a byte of memory that nothing has written reads as. Log entry 3. -/
def unwrittenByte : BitVec 8 := 0
/-- Usable bytes of package GDDR7: 120 GiB (R23, R26). -/
def gddrBytes : Nat := 0x1E00000000
/-- Frames of surface memory on one stack (R46). -/
def framesPerStack : Nat := 131072
/-- Entries of one stack's frame table (R53). -/
def frameTableLen : Nat := 262144

end Sys2Proof.Config
end

