-- ==== Sys2Proof/Syntax.lean ====
section
/-! DEFINITION. The abstract syntax: operands, types, modifiers, and one constructor of `Instr` for every row of spec/opcode_table.json: the Hexlin instructions (R180) and the device steps (spec/95). -/
namespace Sys2Proof

/-- Operand types, in the order of their TYPE codes (R98). -/
inductive Ty where
  | b32 | s32 | n32 | f32 | b64 | s64 | n64 | f64 | f16 | bf16 | f16x2 | bf16x2 | s8 | n8 | s16 | n16
  | nf (k : BitVec 3)
  deriving DecidableEq, Repr, Inhabited

/-- Special registers, in the order of their codes from 0x160 (R163). -/
inductive Special where
  | tid | lane | group | role | teamX | teamY | teamZ | gridX | gridY | gridZ | cluster | core
  | clk | clkHi | time | timeHi | pix | gen
  deriving DecidableEq, Repr, Inhabited

/-- An operand field (R163), a predicate field (R212), or a field that holds a number or a type code. -/
inductive Operand where
  | g (n : BitVec 8)
  | k (n : BitVec 6)
  | q (n : BitVec 4)
  | h (n : BitVec 4)
  | sp (s : Special)
  | p (n : BitVec 3)
  | lit (v : BitVec 32)
  | num (n : BitVec 9)
  | tyc (t : Ty)
  | none
  deriving DecidableEq, Repr, Inhabited

/-- The guard: predicate and negation (R161, R162). -/
structure Guard where
  neg : Bool := false
  p : BitVec 3 := 7
  deriving DecidableEq, Repr, Inhabited

/-- Rounding directions (R102). -/
inductive Rnd where | rn | rz | ru | rd
  deriving DecidableEq, Repr, Inhabited

/-- Format V (R166): guard, operands, type, SUB and modifiers. -/
structure VF where
  guard : Guard := {}
  dst : Operand := .none
  a : Operand := .none
  b : Operand := .none
  c : Operand := .none
  ty : Ty := .b32
  sub : BitVec 4 := 0
  rnd : Rnd := .rn
  sat : Bool := false
  na : Bool := false
  nb : Bool := false
  deriving DecidableEq, Repr, Inhabited

/-- Scopes of the phase machine (R146, R169). -/
inductive Scope where | team | cluster | device | system
  deriving DecidableEq, Repr, Inhabited

/-- Declared uses of an M-format access (R151); codes 6 and 7 trap. -/
inductive Use where | plain | unpaired | commute | noorder | quantum | spec | u6 | u7
  deriving DecidableEq, Repr, Inhabited

/-- Atomic operations (R168, R239). -/
inductive AtomOp where | add | sub | and | or | xor | min | max | exch | cas | fadd | incWrap | decWrap
  deriving DecidableEq, Repr, Inhabited

/-- Format M (R169): base, data, signed 9-bit offset or the operand that SC names. -/
structure MF where
  guard : Guard := {}
  dst : Operand := .none
  base : Operand := .none
  data : Operand := .none
  c : Operand := .none
  ty : Ty := .b32
  op : AtomOp := .add
  scope : Scope := .team
  use : Use := .plain
  deriving DecidableEq, Repr, Inhabited

/-- Format E (R170): guard and operands; an entry's own fields are arguments of its constructor. -/
structure EF where
  guard : Guard := {}
  dst : Operand := .none
  a : Operand := .none
  b : Operand := .none
  c : Operand := .none
  deriving DecidableEq, Repr, Inhabited

/-- The party that issues: a group of a team, or the engine member of a role (R160, R260). -/
inductive Member where
  | group (g : Nat)
  | engine (role : Nat)
  deriving DecidableEq, Repr, Inhabited

/-- A party: a team by its unique number, and a member of it. -/
structure Party where
  team : Nat := 0
  mem : Member := .group 0
  deriving DecidableEq, Repr, Inhabited

/-- A unit that carries its own self-test (R374). -/
inductive TestUnit where
  | gddr (stack granule : Nat) | bank (stack bank : Nat) | core (cluster idx : Nat) | link (n : Nat)
  deriving DecidableEq, Repr, Inhabited

/-- Where an element of a collective packet belongs: the SEQ of its collective, the rank that contributes it and its byte offset (R265). -/
structure PacketPlace where
  seq : Nat := 0
  rank : Nat := 0
  off : Nat := 0
  deriving DecidableEq, Repr, Inhabited

/-- One constructor per row of the opcode table. The instructions carry their fields; the device steps carry what names the party,
the context (`x`), the queue or the location that the step is about. -/
inductive Instr where
  -- CTRL (R190)
  | nop (f : VF) | bra (g : Guard) (off : BitVec 32) | brx (f : VF) | call (g : Guard) (dst : Operand) (off : BitVec 32)
  | callx (f : VF) | ret (f : VF) | exit (f : VF) | trap (f : VF) | tret (f : VF) | trapf (f : VF) | brk (f : VF) | sleep (f : VF)
  | sleepExpiry (p : Party) (lane : Nat)
  -- SYNC (R283)
  | wait (f : VF) | waittl (f : VF) | waitct (f : VF) | waitEnd (p : Party) (lane : Nat) | phase (f : VF) | bar (f : VF)
  | tbinit (f : VF) | tbexp (f : VF) | tbarv (f : VF) | tbwait (f : VF) | barrierNetworkClock
  | xfer (f : VF) (ch snd rcv : BitVec 3) | roleq (f : VF) (src dst : BitVec 3) | gangset (f : VF) | driftset (f : VF)
  | kset (f : VF) | spawn (f : VF) | launch (f : VF)
  -- INT (R202)
  | mov (f : VF) | movsGet (f : VF) | movsSet (f : VF) | iadd (f : VF) | isub (f : VF) | imul (f : VF) | imulh (f : VF)
  | imad (f : VF) | imadw (f : VF) | imin (f : VF) | imax (f : VF) | iclamp (f : VF) | iabs (f : VF)
  | and (f : VF) | or (f : VF) | xor (f : VF) | andn (f : VF) | shl (f : VF) | shr (f : VF) | sar (f : VF) | shf (f : VF)
  | bfe (f : VF) | bfi (f : VF) | popc (f : VF) | clz (f : VF) | brev (f : VF) | prmt (f : VF) | iset (f : VF) | isel (f : VF)
  | plog (f : VF) (table : BitVec 8) | lea (f : VF) | place (f : VF) | shfl (f : VF) | vote (f : VF) | redux (f : VF) | idp4 (f : VF)
  -- FP (R221)
  | fadd (f : VF) | fsub (f : VF) | fmul (f : VF) | ffma (f : VF) | fmin (f : VF) | fmax (f : VF) | fset (f : VF) | fclass (f : VF)
  | frcp (f : VF) | frsq (f : VF) | fsqrt (f : VF) | fdiv (f : VF) | fexp2 (f : VF) | flog2 (f : VF) | fsin (f : VF) | fcos (f : VF)
  | ftanh (f : VF) | frnd (f : VF) | fscale (f : VF) | fcvt (f : VF) | i2f (f : VF) | f2i (f : VF) | hfma2 (f : VF) | fdot2 (f : VF)
  | fpack (f : VF) | funpk (f : VF)
  -- MEM (R237)
  | lds (f : MF) | sts (f : MF) | atoms (f : MF) | ldsr (f : MF) | stsr (f : MF) | atomsr (f : MF) | mapr (f : MF) | unmapr (f : MF)
  | flushr (f : MF) | mapLineFill (team map line : Nat) | atomg (f : MF) | sld (f : MF) | sst (f : MF) | atomf (f : MF)
  | ldref (f : MF) | stref (f : MF) | ldh (f : MF) | sth (f : MF) | atomh (f : MF) | newobj (f : MF) | pin (f : MF) | unpin (f : MF)
  | refeq (f : MF)
  -- ENG (R262)
  | cpy (f : EF) (ctx : BitVec 2) | cpyg (f : EF) (ctx : BitVec 2) | cpys (f : EF) (ctx : BitVec 2) | cpyw (f : EF) (ctx : BitVec 2)
  | chain (f : EF) (ctx : BitVec 2) | cpyx (f : EF) (ctx : BitVec 2) | coll (f : EF) (ctx : BitVec 2)
  | recordAccept (team ctx : Nat) | recordChunkDelivered (team ctx recno : Nat) | recordComplete (team ctx recno : Nat)
  | chainRecordPoll (team ctx : Nat) | skip (team ctx : Nat) | abort (team ctx : Nat)
  | cdres (f : EF) (tag : BitVec 3) | cdrel (f : EF) (tag : BitVec 3) | cdpush (f : EF) (sz : BitVec 2) (tag : BitVec 3)
  | streamAppend (team tag : Nat)
  | mma (f : EF) (acc : BitVec 4) (aty bty : Option Ty) | mmag (f : EF) (acc : BitVec 4) (aty bty : Option Ty)
  | mmaSlice (cluster core : Nat) | tileOpComplete (cluster core : Nat)
  | accrd (f : EF) (acc : BitVec 4) (ty : Ty) (rnd : Rnd) | accwr (f : EF) (acc : BitVec 4) (ty : Ty)
  | accst (f : EF) (acc : BitVec 4) (ty : Ty) (sf : Bool) | accrel (f : EF) (acc : BitVec 4) | accSlotCleared (cluster core slot : Nat)
  | vxm (f : EF) | vxmPass (team : Nat) | vxmcfg (f : EF) (wfmt : BitVec 3)
  | salloc (f : EF) | sfree (f : EF) | sprio (f : EF) | prim (f : EF) | exprt (f : EF) (kill : Bool) | hevac (f : EF)
  -- SYS (R283)
  | movsr (f : VF) | movsw (f : VF) | tlbinvAll (f : VF) | tlbinvPage (f : VF) | rng (f : VF) | perfc (f : VF)
  -- issue and ordering
  | clauseFetch (p : Party) | issueClock (cluster core : Nat) | registerWriteback (team ix : Nat)
  | pooledAtomic (team ix : Nat) | drain (cluster ix : Nat) (out : Bool) | combine (cluster ix : Nat) (out : Bool)
  -- surfaces and raster
  | spillTile (x handle stack : Nat) | tileRefill (x handle t : Nat) | surfaceFramesFreed (x handle : Nat)
  | rasterise (x stack : Nat) | fragmentTeamLaunch (x stack cluster : Nat) | exportApply (x handle px py : Nat)
  -- heap
  | relCtlStart (x : Nat) (ctl : BitVec 32) | flipAck (x cluster core : Nat) | relocateObject (x die : Nat)
  -- registers with behaviour of their own
  | rtCtlCopy (fn : Nat) | rtCtlCommit (fn : Nat) | regionTableDrained | ptRootWrite (x : Nat) (v : BitVec 64)
  | ptGenWrite (x : Nat) (v : BitVec 64) | srfCarveWrite (fn stack : Nat) (v : BitVec 32) | carveShrinkDone (stack : Nat)
  | surfQuotaWrite (x : Nat) (v : BitVec 64) | ctOffWrite (die : Nat) (v : BitVec 64)
  | registerWrite (fn off : Nat) (wide : Bool) (v : BitVec 64) | hsemTake (fn n : Nat) | hsemGive (fn n : Nat)
  -- command queues and launches
  | cqTailDoorbell (fn q : Nat) (v : BitVec 32) | queueEntryNop (q : Nat) | queueEntryLaunch (q : Nat)
  | queueEntryTlbInvalidate (q : Nat) | queueEntryFaultReplay (q : Nat) | queueEntrySignal (q : Nat) | queueEntryWait (q : Nat)
  | queueEntryReserved (q : Nat) | queueRingFault (q : Nat) | replayRelease (x : Nat)
  | ready (x gen mem : Nat) | refuse (x gen mem : Nat) | go (x gen : Nat) (tstart : BitVec 64) | tstartReached (x gen : Nat)
  | startBarrierTimeout (x gen : Nat) | startAbort (x gen : Nat)
  | unitPlace (cluster : Nat) | unitSteal (cluster : Nat) | thermalSample (cluster core temp droops : Nat)
  | teamEnd (team : Nat) | gridRetire (x gen : Nat) | errorReport (x gen cause : Nat)
  | taskEvaluate (x cluster ix : Nat) | taskRun (x cluster : Nat)
  -- faults, debug and pre-emption
  | steepEnd (team group : Nat) | dbgHalt (fn x : Nat) | dbgResume (fn x : Nat) | teamParked (x : Nat)
  | preStop (fn x : Nat) | cutDrainDone (x : Nat) | preResume (fn x : Nat) | restorePlace (x : Nat)
  -- reliability
  | memoryError (addr symbols : Nat) | rollback (x gen : Nat) | selfTest (u : TestUnit) | iftStart (fn : Nat) (v : BitVec 32)
  | inFieldTest | dieLost (d : Nat) | dieCtlOff (fn : Nat) (v : BitVec 32) | evacuateStack
  | ckptStart (fn : Nat) | ckptRestore (fn : Nat) | ckptFinish (ok : Bool)
  -- host, fabric and trust
  | hostLinkDown (fn : Nat) | hsemLinkRelease (fn : Nat) | peerRequest (src addr : Nat) (wr : Bool) (at_ : Option AtomOp) (ty : Ty) (v cmp : BitVec 64)
  | burzilPortDown (port : Nat) | requestUndeliverable (p : Party) (lane : Nat) (addr : BitVec 64) | collAbort (fn x grp : Nat)
  | abortToken (x grp attempt : Nat) | collectivePacket (x grp attempt : Nat) (addr : PacketPlace) (v : BitVec 32)
  | syncMessage (offs : BitVec 32) | flCtlEnable (fn : Nat) (v : BitVec 32) | frameStart | scanOutFrame (n : Nat)
  | trustDieBoot | getVersion (fn : Nat) | getCapabilities (fn : Nat) | negotiateAlgorithms (fn : Nat) | getDigests (fn : Nat)
  | getCertificate (fn : Nat) | challenge (fn : Nat) | getMeasurements (fn : Nat)
  | tmCmdGrant (fn x slot : Nat) | tmCmdRevoke (fn slot : Nat) | thermalThrottle
  | forwardedLaunchPacket (x gen : Nat) (pkt : List (BitVec 64)) | hostLinkTrained (fn rate width : Nat)
  | hostAtomicopCompletion (p : Party) (lane : Nat) (ok : Bool)
  deriving DecidableEq, Repr, Inhabited

end Sys2Proof
end

