-- ==== Sys2Proof/WellFormed.lean ====
section
/-! DEFINITION. The shape of every instruction entry (R180, R190, R202, R221, R237, R262, R283) and the check that an instruction fits its entry. -/
namespace Sys2Proof

/-- Clause classes (R173). -/
inductive Cls where | vec | mem | sync | cpy | mtx | gmv | srf | sys
  deriving DecidableEq, Repr, Inhabited

/-- The literal column of the opcode map (R180). -/
inductive LitForm where | no | opt | must
  deriving DecidableEq, Repr, Inhabited

/-- The mnemonics of the opcode map (R180); MOVS and TLBINV stand for both of their rows. -/
inductive Mn where
  | nop | bra | brx | call | callx | ret | exit | trap | tret | trapf
  | brk | sleep | wait | waittl | waitct | phase | bar | tbinit | tbexp | tbarv
  | tbwait | xfer | roleq | gangset | driftset | kset | spawn | launch | mov | movs
  | iadd | isub | imul | imulh | imad | imadw | imin | imax | iclamp | iabs
  | and | or | xor | andn | shl | shr | sar | shf | bfe | bfi
  | popc | clz | brev | prmt | iset | isel | plog | lea | place | shfl
  | vote | redux | idp4 | fadd | fsub | fmul | ffma | fmin | fmax | fset
  | fclass | frcp | frsq | fsqrt | fdiv | fexp2 | flog2 | fsin | fcos | ftanh
  | frnd | fscale | fcvt | i2f | f2i | hfma2 | fdot2 | fpack | funpk | lds
  | sts | atoms | ldsr | stsr | atomsr | mapr | unmapr | flushr | atomg | sld
  | sst | atomf | ldref | stref | ldh | sth | atomh | newobj | pin | unpin
  | refeq | cpy | cpyg | cpys | cpyw | chain | cpyx | coll | cdres | cdrel
  | cdpush | mma | mmag | accrd | accwr | accst | accrel | vxm | vxmcfg | salloc
  | sfree | sprio | prim | exprt | hevac | movsr | movsw | tlbinv | rng | perfc
  deriving DecidableEq, Repr, Inhabited

/-- The opcode of a mnemonic (R180). -/
def Mn.op : Mn → BitVec 9
  | .nop => 0x001 | .bra => 0x002 | .brx => 0x003 | .call => 0x004 | .callx => 0x005 | .ret => 0x006
  | .exit => 0x007 | .trap => 0x008 | .tret => 0x009 | .trapf => 0x00A | .brk => 0x00B | .sleep => 0x00C
  | .wait => 0x040 | .waittl => 0x041 | .waitct => 0x042 | .phase => 0x043 | .bar => 0x044 | .tbinit => 0x045
  | .tbexp => 0x046 | .tbarv => 0x047 | .tbwait => 0x048 | .xfer => 0x049 | .roleq => 0x04A | .gangset => 0x04B
  | .driftset => 0x04C | .kset => 0x04D | .spawn => 0x04E | .launch => 0x04F | .mov => 0x080 | .movs => 0x081
  | .iadd => 0x082 | .isub => 0x083 | .imul => 0x084 | .imulh => 0x085 | .imad => 0x086 | .imadw => 0x087
  | .imin => 0x088 | .imax => 0x089 | .iclamp => 0x08A | .iabs => 0x08B | .and => 0x08C | .or => 0x08D
  | .xor => 0x08E | .andn => 0x08F | .shl => 0x090 | .shr => 0x091 | .sar => 0x092 | .shf => 0x093
  | .bfe => 0x094 | .bfi => 0x095 | .popc => 0x096 | .clz => 0x097 | .brev => 0x098 | .prmt => 0x099
  | .iset => 0x09A | .isel => 0x09B | .plog => 0x09C | .lea => 0x09D | .place => 0x09E | .shfl => 0x09F
  | .vote => 0x0A0 | .redux => 0x0A1 | .idp4 => 0x0A2 | .fadd => 0x100 | .fsub => 0x101 | .fmul => 0x102
  | .ffma => 0x103 | .fmin => 0x104 | .fmax => 0x105 | .fset => 0x106 | .fclass => 0x107 | .frcp => 0x108
  | .frsq => 0x109 | .fsqrt => 0x10A | .fdiv => 0x10B | .fexp2 => 0x10C | .flog2 => 0x10D | .fsin => 0x10E
  | .fcos => 0x10F | .ftanh => 0x110 | .frnd => 0x111 | .fscale => 0x112 | .fcvt => 0x113 | .i2f => 0x114
  | .f2i => 0x115 | .hfma2 => 0x116 | .fdot2 => 0x117 | .fpack => 0x118 | .funpk => 0x119 | .lds => 0x180
  | .sts => 0x181 | .atoms => 0x182 | .ldsr => 0x183 | .stsr => 0x184 | .atomsr => 0x185 | .mapr => 0x186
  | .unmapr => 0x187 | .flushr => 0x188 | .atomg => 0x189 | .sld => 0x18A | .sst => 0x18B | .atomf => 0x18C
  | .ldref => 0x18D | .stref => 0x18E | .ldh => 0x18F | .sth => 0x190 | .atomh => 0x191 | .newobj => 0x192
  | .pin => 0x193 | .unpin => 0x194 | .refeq => 0x195 | .cpy => 0x1C0 | .cpyg => 0x1C1 | .cpys => 0x1C2
  | .cpyw => 0x1C3 | .chain => 0x1C4 | .cpyx => 0x1C5 | .coll => 0x1C6 | .cdres => 0x1C7 | .cdrel => 0x1C8
  | .cdpush => 0x1C9 | .mma => 0x1CA | .mmag => 0x1CB | .accrd => 0x1CC | .accwr => 0x1CD | .accst => 0x1CE
  | .accrel => 0x1CF | .vxm => 0x1D0 | .vxmcfg => 0x1D1 | .salloc => 0x1D2 | .sfree => 0x1D3 | .sprio => 0x1D4
  | .prim => 0x1D5 | .exprt => 0x1D6 | .hevac => 0x1D7 | .movsr => 0x1E0 | .movsw => 0x1E1 | .tlbinv => 0x1E2
  | .rng => 0x1E3 | .perfc => 0x1E4

/-- The mnemonic of an opcode, none for the unassigned values (R180). -/
def Mn.ofOp (w : BitVec 9) : Option Mn :=
  match w.toNat with
  | 0x001 => some .nop | 0x002 => some .bra | 0x003 => some .brx | 0x004 => some .call | 0x005 => some .callx
  | 0x006 => some .ret | 0x007 => some .exit | 0x008 => some .trap | 0x009 => some .tret | 0x00A => some .trapf
  | 0x00B => some .brk | 0x00C => some .sleep | 0x040 => some .wait | 0x041 => some .waittl | 0x042 => some .waitct
  | 0x043 => some .phase | 0x044 => some .bar | 0x045 => some .tbinit | 0x046 => some .tbexp | 0x047 => some .tbarv
  | 0x048 => some .tbwait | 0x049 => some .xfer | 0x04A => some .roleq | 0x04B => some .gangset | 0x04C => some .driftset
  | 0x04D => some .kset | 0x04E => some .spawn | 0x04F => some .launch | 0x080 => some .mov | 0x081 => some .movs
  | 0x082 => some .iadd | 0x083 => some .isub | 0x084 => some .imul | 0x085 => some .imulh | 0x086 => some .imad
  | 0x087 => some .imadw | 0x088 => some .imin | 0x089 => some .imax | 0x08A => some .iclamp | 0x08B => some .iabs
  | 0x08C => some .and | 0x08D => some .or | 0x08E => some .xor | 0x08F => some .andn | 0x090 => some .shl
  | 0x091 => some .shr | 0x092 => some .sar | 0x093 => some .shf | 0x094 => some .bfe | 0x095 => some .bfi
  | 0x096 => some .popc | 0x097 => some .clz | 0x098 => some .brev | 0x099 => some .prmt | 0x09A => some .iset
  | 0x09B => some .isel | 0x09C => some .plog | 0x09D => some .lea | 0x09E => some .place | 0x09F => some .shfl
  | 0x0A0 => some .vote | 0x0A1 => some .redux | 0x0A2 => some .idp4 | 0x100 => some .fadd | 0x101 => some .fsub
  | 0x102 => some .fmul | 0x103 => some .ffma | 0x104 => some .fmin | 0x105 => some .fmax | 0x106 => some .fset
  | 0x107 => some .fclass | 0x108 => some .frcp | 0x109 => some .frsq | 0x10A => some .fsqrt | 0x10B => some .fdiv
  | 0x10C => some .fexp2 | 0x10D => some .flog2 | 0x10E => some .fsin | 0x10F => some .fcos | 0x110 => some .ftanh
  | 0x111 => some .frnd | 0x112 => some .fscale | 0x113 => some .fcvt | 0x114 => some .i2f | 0x115 => some .f2i
  | 0x116 => some .hfma2 | 0x117 => some .fdot2 | 0x118 => some .fpack | 0x119 => some .funpk | 0x180 => some .lds
  | 0x181 => some .sts | 0x182 => some .atoms | 0x183 => some .ldsr | 0x184 => some .stsr | 0x185 => some .atomsr
  | 0x186 => some .mapr | 0x187 => some .unmapr | 0x188 => some .flushr | 0x189 => some .atomg | 0x18A => some .sld
  | 0x18B => some .sst | 0x18C => some .atomf | 0x18D => some .ldref | 0x18E => some .stref | 0x18F => some .ldh
  | 0x190 => some .sth | 0x191 => some .atomh | 0x192 => some .newobj | 0x193 => some .pin | 0x194 => some .unpin
  | 0x195 => some .refeq | 0x1C0 => some .cpy | 0x1C1 => some .cpyg | 0x1C2 => some .cpys | 0x1C3 => some .cpyw
  | 0x1C4 => some .chain | 0x1C5 => some .cpyx | 0x1C6 => some .coll | 0x1C7 => some .cdres | 0x1C8 => some .cdrel
  | 0x1C9 => some .cdpush | 0x1CA => some .mma | 0x1CB => some .mmag | 0x1CC => some .accrd | 0x1CD => some .accwr
  | 0x1CE => some .accst | 0x1CF => some .accrel | 0x1D0 => some .vxm | 0x1D1 => some .vxmcfg | 0x1D2 => some .salloc
  | 0x1D3 => some .sfree | 0x1D4 => some .sprio | 0x1D5 => some .prim | 0x1D6 => some .exprt | 0x1D7 => some .hevac
  | 0x1E0 => some .movsr | 0x1E1 => some .movsw | 0x1E2 => some .tlbinv | 0x1E3 => some .rng | 0x1E4 => some .perfc
  | _ => none

/-- The clause class of a mnemonic, none for the class-neutral CTRL block (R180). -/
def Mn.cls : Mn → Option Cls
  | .nop | .bra | .brx | .call | .callx | .ret | .exit | .trap | .tret | .trapf | .brk | .sleep => none
  | .wait | .waittl | .waitct | .phase | .bar | .tbinit | .tbexp | .tbarv | .tbwait | .xfer | .roleq | .gangset | .driftset | .kset | .spawn | .launch => some .sync
  | .mov | .movs | .iadd | .isub | .imul | .imulh | .imad | .imadw | .imin | .imax | .iclamp | .iabs | .and | .or | .xor | .andn | .shl | .shr | .sar | .shf | .bfe | .bfi | .popc | .clz | .brev | .prmt | .iset | .isel | .plog | .lea | .place | .shfl | .vote | .redux | .idp4 | .fadd | .fsub | .fmul | .ffma | .fmin | .fmax | .fset | .fclass | .frcp | .frsq | .fsqrt | .fdiv | .fexp2 | .flog2 | .fsin | .fcos | .ftanh | .frnd | .fscale | .fcvt | .i2f | .f2i | .hfma2 | .fdot2 | .fpack | .funpk => some .vec
  | .lds | .sts | .atoms | .ldsr | .stsr | .atomsr | .mapr | .unmapr | .flushr | .atomg | .sld | .sst | .atomf | .ldref | .stref | .ldh | .sth | .atomh | .newobj | .pin | .unpin | .refeq => some .mem
  | .cpy | .cpyg | .cpys | .cpyw | .chain | .cpyx | .coll => some .cpy
  | .cdres | .cdrel | .cdpush | .mma | .mmag | .accrd | .accwr | .accst | .accrel => some .mtx
  | .vxm | .vxmcfg => some .gmv
  | .salloc | .sfree | .sprio | .prim | .exprt => some .srf
  | .hevac | .movsr | .movsw | .tlbinv | .rng | .perfc => some .sys

/-- The literal column of R180. -/
def Mn.litForm : Mn → LitForm
  | .bra | .call => .must
  | .trap | .brk | .sleep | .waittl | .tbinit | .tbexp | .tbarv | .gangset | .driftset | .kset | .mov | .iadd | .isub | .imul | .imulh | .imin | .imax | .and | .or | .xor | .andn | .shl | .shr | .sar | .prmt | .fadd | .fsub | .fmul | .fmin | .fmax | .fscale | .movsr | .movsw => .opt
  | _ => .no
/-- What a 9-bit field of an entry holds. `src` and `dstr` are register operands under R163 and R164, `g…` the strict g fields of R237. -/
inductive Kind where
  /-- must hold 0x1FF -/
  | unused
  /-- a source register, or zero; `w` says whether it is a pair -/
  | src (w : Bool)
  /-- a destination register, or discarded -/
  | dstr (w : Bool)
  /-- a k register, or discarded (KSET) -/
  | kreg (w : Bool)
  /-- a g register, or a pair, and nothing else (R237) -/
  | greg (w : Bool)
  /-- as `greg`, or 0x1FF (R237 "or —") -/
  | gOpt (w : Bool)
  | href | pred
  /-- a caddy tag q0 to q7 (R269) -/
  | ctag
  /-- the first of three, or four, consecutive g registers (R269, R280) -/
  | trio | quad
  /-- a raw number of at most `max` (R284, R285) -/
  | num (max : Nat)
  /-- the 9-bit offset of R169 -/
  | off
  /-- must be zero (R237) -/
  | zero
  /-- a TYPE code of the given list (R232, R233) -/
  | tyc (l : List Ty)
  deriving DecidableEq, Repr

/-- TYPE codes (R98). -/
def Ty.code : Ty → BitVec 5
  | .b32 => 0 | .s32 => 1 | .n32 => 2 | .f32 => 3 | .b64 => 4 | .s64 => 5 | .n64 => 6 | .f64 => 7
  | .f16 => 8 | .bf16 => 9 | .f16x2 => 10 | .bf16x2 => 11 | .s8 => 12 | .n8 => 13 | .s16 => 14 | .n16 => 15
  | .nf k => 16 + k.setWidth 5

/-- The type of a TYPE code; codes 24 to 31 are reserved (R167). -/
def Ty.ofCode (c : BitVec 5) : Option Ty :=
  match c.toNat with
  | 0 => some .b32 | 1 => some .s32 | 2 => some .n32 | 3 => some .f32 | 4 => some .b64 | 5 => some .s64 | 6 => some .n64
  | 7 => some .f64 | 8 => some .f16 | 9 => some .bf16 | 10 => some .f16x2 | 11 => some .bf16x2 | 12 => some .s8 | 13 => some .n8
  | 14 => some .s16 | 15 => some .n16
  | _ => if c.toNat < 24 then some (.nf (c.setWidth 3)) else none

/-- Width in bits of the value of a type (R98); a narrow scalar is held in the low bits of one register. -/
def Ty.width : Ty → Nat
  | .b64 | .s64 | .n64 | .f64 => 64
  | .f16 | .bf16 | .s16 | .n16 => 16
  | .s8 | .n8 => 8
  | .nf _ => 8
  | _ => 32

/-- A 64-bit type makes its operands pairs (R163). -/
def Ty.wide (t : Ty) : Bool := t.width == 64

def Rnd.code : Rnd → BitVec 2 | .rn => 0 | .rz => 1 | .ru => 2 | .rd => 3
def Rnd.ofCode (c : BitVec 2) : Rnd := if c = 0 then .rn else if c = 1 then .rz else if c = 2 then .ru else .rd
def Scope.code : Scope → BitVec 2 | .team => 0 | .cluster => 1 | .device => 2 | .system => 3
def Scope.ofCode (c : BitVec 2) : Scope := if c = 0 then .team else if c = 1 then .cluster else if c = 2 then .device else .system
def Use.code : Use → BitVec 3
  | .plain => 0 | .unpaired => 1 | .commute => 2 | .noorder => 3 | .quantum => 4 | .spec => 5 | .u6 => 6 | .u7 => 7
def Use.ofCode (c : BitVec 3) : Use :=
  match c.toNat with
  | 0 => .plain | 1 => .unpaired | 2 => .commute | 3 => .noorder | 4 => .quantum | 5 => .spec | 6 => .u6 | _ => .u7
def AtomOp.code : AtomOp → BitVec 4
  | .add => 0 | .sub => 1 | .and => 2 | .or => 3 | .xor => 4 | .min => 5 | .max => 6 | .exch => 7 | .cas => 8 | .fadd => 9
  | .incWrap => 10 | .decWrap => 11
def AtomOp.ofCode (c : BitVec 4) : AtomOp :=
  match c.toNat with
  | 0 => .add | 1 => .sub | 2 => .and | 3 => .or | 4 => .xor | 5 => .min | 6 => .max | 7 => .exch | 8 => .cas | 9 => .fadd
  | 10 => .incWrap | _ => .decWrap

/-- The fields of an entry: accepted types (none when TYPE is not tested), default type of the literal form, accepted SUB range,
whether RND, SAT, NA and NB may be set, and the four operand fields. -/
structure Shape where
  types : List Ty := []
  deft : Ty := .b32
  subLo : Nat := 0
  subHi : Nat := 0
  rnd : Bool := false
  sat : Bool := false
  na : Bool := false
  nb : Bool := false
  dst : Kind := .unused
  a : Kind := .unused
  b : Kind := .unused
  c : Kind := .unused
  deriving DecidableEq, Repr

namespace Shape
def fS : List Ty := [.f32, .f64, .f16, .bf16]
def fP : List Ty := [.f16x2, .bf16x2]
def fT : List Ty := [.f32, .f16, .bf16]
def nfs : List Ty := [.nf 0, .nf 1, .nf 2, .nf 3, .nf 4, .nf 5, .nf 6, .nf 7]
def fltN : List Ty := fS ++ nfs
def ints : List Ty := [.s32, .n32, .s64, .n64]
def allInts : List Ty := [.s8, .n8, .s16, .n16, .s32, .n32, .s64, .n64]
def bits : List Ty := [.b32, .b64]
/-- The L/S types of R237. -/
def ls : List Ty := [.s8, .n8, .s16, .n16, .b32, .b64]

/-- The types that an atomic accepts under some operation: for a TYPE test beside a SUB that reason 6 refuses. -/
def atomAny (k : Nat) : List Ty :=
  [.b32, .s32, .n32, .f32, .f16x2, .bf16x2] ++ if k = 1 then [.b64, .s64, .n64] else if k = 2 then [.n64] else []
/-- The accepted types of an atomic per operation and block (R239): `k` 0 scratchpad, 1 global and heap, 2 surface. -/
def atomTypes (k : Nat) (op : Nat) : List Ty :=
  if op = 9 then [.f32, .f16x2, .bf16x2]
  else if op = 5 ∨ op = 6 then
    [.s32, .n32] ++ (if k = 1 then [.s64, .n64] else if k = 2 ∧ op = 6 then [.n64] else [])
  else if op = 10 ∨ op = 11 then (if k = 0 then atomAny 0 else [.n32])
  else if op ≤ 8 then [.b32, .s32, .n32] ++ (if k = 1 then [.b64, .s64, .n64] else [])
  else atomAny k

/-- A VEC entry with up to three source operands of TYPE's width (R202, R221). -/
def alu (types : List Ty) (deft : Ty) (w : Bool) (n : Nat) : Shape :=
  { types, deft, dst := .dstr w, a := .src w, b := if n ≥ 2 then .src w else .unused, c := if n ≥ 3 then .src w else .unused }
end Shape

open Shape in
/-- The shape of an entry for a word whose MOD field is `mod`; `hb` says that SA names an h register, `lit` that the word is in the literal form. -/
def shape (mn : Mn) (mod : BitVec 14) (hb lit : Bool) : Shape :=
  let ty := (Ty.ofCode (mod.extractLsb' 9 5)).getD .b32
  let w := !lit && ty.wide
  let sub := (mod.extractLsb' 5 4).toNat
  match mn with
  | .nop | .exit | .tret | .trapf => { types := [.b32] }
  | .bra => {}
  | .call => { dst := .dstr true }
  | .brx | .ret => { types := [.b64], a := .src true }
  | .callx => { types := [.b64], dst := .dstr true, a := .src true }
  | .trap | .brk | .sleep => { types := [.b32], b := .src false }
  | .wait => { types := [.b32], dst := .num 63, a := .num 63, b := .num 63, c := .num 63 }
  | .waittl => { types := bits, dst := .num 6, b := .src w }
  | .waitct => { types := [.b64], subHi := 1, a := .src (sub = 0), b := .src true }
  | .phase => { types := [.b32], subLo := 4, subHi := 15 }
  | .bar => { types := [.b32], subHi := 15, a := .src false }
  | .tbinit | .tbexp | .tbwait => { types := [.b32], a := .src false, b := .src false }
  | .tbarv => { types := [.b32], dst := .dstr false, a := .src false, b := .src false }
  | .xfer => { dst := .dstr true, a := .src true }
  | .roleq => { dst := .dstr false, a := .src false }
  | .gangset | .driftset => { types := [.b32], b := .src false }
  | .kset => { types := bits, dst := .kreg w, b := .src w }
  | .spawn => { types := [.b32], dst := .dstr false, a := .src false }
  | .launch => { types := [.b64], dst := .dstr false, a := .src true }
  | .mov => { types := bits, dst := .dstr w, a := if lit then .unused else .src w }
  | .movs => if sub = 1 then { types := [.b32], subHi := 1, a := .src false, b := .src false }
             else { types := [.b32], subHi := 1, dst := .dstr false }
  | .iadd | .isub | .imul => { alu ints .s32 w 2 with sat := true, na := true, nb := true }
  | .imulh | .imin | .imax => { alu ints .s32 w 2 with na := true, nb := true }
  | .imad => { alu ints .s32 w 3 with sat := true, na := true, nb := true }
  | .imadw => { types := [.s32, .n32], sat := true, na := true, nb := true, dst := .dstr true, a := .src false, b := .src false, c := .src true }
  | .iclamp => { alu ints .s32 w 3 with na := true, nb := true }
  | .iabs => { alu [.s32, .s64] .s32 w 1 with sat := true, na := true }
  | .and | .or | .xor | .andn => alu bits .b32 w 2
  | .shl | .shr => { alu bits .b32 w 1 with b := .src false }
  | .sar => { alu [.s32, .s64] .s32 w 1 with b := .src false }
  | .shf => { alu [.b32] .b32 false 3 with subHi := 3 }
  | .bfe => alu [.s32, .n32] .s32 false 3
  | .bfi => alu [.b32] .b32 false 3
  | .popc | .clz => { types := bits, dst := .dstr false, a := .src w }
  | .brev => alu bits .b32 w 1
  | .prmt => alu [.b32] .b32 false 3
  | .iset => { types := ints, subHi := 5, na := true, nb := true, dst := .pred, a := .src w, b := .src w }
  | .isel => { alu bits .b32 w 2 with c := .pred }
  | .plog => { dst := .pred, a := .pred, b := .pred, c := .pred }
  | .lea => { types := [.s32, .n32], nb := true, dst := .dstr true, a := .src true, b := .src false, c := .src false }
  | .place => alu [.b32] .b32 false 3
  | .shfl => { alu bits .b32 w 1 with subHi := 3, b := .src false, c := .src false }
  | .vote => { types := [.b32], subHi := 5, dst := if sub ≤ 1 ∨ sub = 5 then .pred else .dstr false, a := if sub = 5 then .src false else .pred }
  | .redux => { types := if 3 ≤ sub ∧ sub ≤ 5 then [.b32] else if sub ≤ 7 then [.s32, .n32] else [.b32, .s32, .n32], subHi := 7, sat := sub = 0 ∨ sub = 6 ∨ sub = 7,
                dst := .dstr false, a := .src false }
  | .idp4 => { alu [.s32] .s32 false 3 with subHi := 7, sat := true }
  | .fadd | .fsub | .fmul => { alu (fS ++ fP) .f32 w 2 with rnd := true, sat := true, na := true, nb := true }
  | .ffma => { alu fS .f32 w 3 with rnd := true, sat := true, na := true, nb := true }
  | .fmin | .fmax => { alu (fS ++ fP) .f32 w 2 with subHi := 1, na := true, nb := true }
  | .fset => { types := fS, subHi := 12, na := true, nb := true, dst := .pred, a := .src w, b := .src w }
  | .fclass => { types := fS, dst := .dstr false, a := .src w }
  | .frcp | .fsqrt => { alu fS .f32 w 1 with rnd := true, na := true }
  | .frsq => { alu fS .f32 w 1 with na := true }
  | .fdiv => { alu fS .f32 w 2 with rnd := true, sat := true, na := true, nb := true }
  | .fexp2 | .flog2 | .fsin | .fcos | .ftanh => { alu fT .f32 false 1 with na := true }
  | .frnd => { alu fS .f32 w 1 with subHi := 1, rnd := true, na := true }
  | .fscale => { alu fS .f32 w 1 with rnd := true, sat := true, na := true, b := .src false }
  | .fcvt => { types := fltN, rnd := true, sat := true, na := true, dst := .dstr w, c := .tyc fltN }
  | .i2f => { types := fltN, rnd := true, sat := true, dst := .dstr w, c := .tyc allInts }
  | .f2i => { types := allInts, rnd := true, na := true, dst := .dstr w, c := .tyc fltN }
  | .hfma2 => { alu fP .f32 false 3 with subHi := 3, rnd := true, sat := true, na := true, nb := true }
  | .fdot2 => { alu fP .f32 false 3 with rnd := true, sat := true, na := true, nb := true }
  | .fpack => { alu fP .f32 false 2 with rnd := true, sat := true, na := true, nb := true }
  | .funpk => { alu fP .f32 false 1 with subHi := 1, na := true }
  | .lds | .ldsr => { types := ls, dst := .greg w, a := .greg false, c := .off }
  | .sts | .stsr => { types := ls, a := .greg false, b := .greg w, c := .off }
  | .atoms | .atomsr => { types := atomTypes 0 sub, subHi := 9, dst := .gOpt false, a := .greg false, b := .greg false, c := .off }
  | .mapr => { types := [.b64], a := .greg false, b := .greg true, c := .greg false }
  | .unmapr | .flushr => { types := [.b32], a := .greg false, c := .zero }
  | .atomg => { types := atomTypes 1 sub, subHi := 11, dst := .gOpt w, a := .greg true, b := .greg w, c := .off }
  | .sld => { types := ls, dst := .greg w, a := .greg true, c := .off }
  | .sst => { types := ls, a := .greg true, b := .greg w, c := .off }
  | .atomf => { types := atomTypes 2 sub, subHi := 11, dst := .gOpt w, a := .greg true, b := .greg w, c := .off }
  | .ldref => { types := if hb then [.b64] else [.b64, .b32], dst := .href, a := if hb then .href else .greg w, c := .off }
  | .stref => { types := if hb then [.b64] else [.b64, .b32], a := if hb then .href else .greg w, b := .href, c := .off }
  | .ldh => { types := ls, dst := .greg w, a := .href, c := .off }
  | .sth => { types := ls, a := .href, b := .greg w, c := .off }
  | .atomh => { types := atomTypes 1 sub, subHi := 11, dst := .gOpt w, a := .href, b := .greg w, c := .off }
  | .newobj => { types := [.b32], dst := .href, a := .greg false, b := .greg false, c := .pred }
  | .pin => { types := [.b64], dst := .greg true, a := .href, c := .zero }
  | .unpin => { types := [.b64], a := .href, c := .zero }
  | .refeq => { types := [.b64], dst := .pred, a := .href, b := .href, c := .zero }
  | .cpy | .cpyg | .cpys | .cpyw | .cpyx | .coll => { dst := .dstr false, a := .src false }
  | .chain | .cdres => { a := .src true }
  | .cdrel | .accrel => {}
  | .cdpush => { a := .src (mod.extractLsb' 3 2 = 3) }
  | .mma | .mmag => { a := .ctag, b := .ctag, c := .trio }
  | .accrd => { dst := .dstr false, a := .src false }
  | .accwr => { a := .src false, b := .src false }
  | .accst => { a := .src (mod.getLsbD 4), b := if mod.getLsbD 4 then .unused else .src false }
  | .vxm => { dst := .dstr false, a := .src false, b := .src false }
  | .vxmcfg => { a := .src false, b := .src false, c := .src false }
  | .salloc => { dst := .dstr false, a := .src false }
  | .sfree => { a := .src false }
  | .sprio => { a := .src false, b := .src false }
  | .prim => { dst := .pred, a := .src false, b := .src false }
  | .exprt => { a := .quad, b := .src false }
  | .hevac => { dst := .dstr false, a := .src false, b := .src false, c := .src false }
  | .movsr => { types := bits, dst := .dstr w, b := .src false }
  | .movsw => { types := bits, a := .src w, b := .src false }
  | .tlbinv => { types := [.b64], subHi := 1, a := if sub = 1 then .src true else .unused }
  | .rng => { types := [.b32, .b64, .f32], dst := .dstr w }
  | .perfc => { types := [.b64], dst := .dstr true, a := .src false }

/-- The source operand of FCVT, I2F and F2I: its width is that of the source type held in SC (R232, R233). -/
def convSrc (mn : Mn) (c : Option Ty) (s : Shape) : Shape :=
  match mn with
  | .fcvt | .i2f | .f2i => { s with a := .src ((c.getD .b32).wide) }
  | _ => s

/-- An instruction spread over the fields of a word (R161): the mnemonic, the guard, four operands and MOD. A literal stands in `b`. -/
structure View where
  mn : Mn
  guard : Guard := {}
  dst : Operand := .none
  a : Operand := .none
  b : Operand := .none
  c : Operand := .none
  mod : BitVec 14 := 0
  deriving DecidableEq, Repr, Inhabited

/-- The MOD field of format V (R166). -/
def VF.mod (f : VF) : BitVec 14 :=
  f.ty.code ++ f.sub ++ f.rnd.code ++ BitVec.ofBool f.sat ++ BitVec.ofBool f.na ++ BitVec.ofBool f.nb
/-- The MOD field of format M (R169). -/
def MF.mod (f : MF) : BitVec 14 := f.ty.code ++ f.op.code ++ f.scope.code ++ f.use.code
def VF.viewAs (mn : Mn) (f : VF) (mod : BitVec 14) : View :=
  { mn, guard := f.guard, dst := f.dst, a := f.a, b := f.b, c := f.c, mod }
def VF.view (mn : Mn) (f : VF) : View := f.viewAs mn f.mod
def MF.view (mn : Mn) (f : MF) : View :=
  { mn, guard := f.guard, dst := f.dst, a := f.base, b := f.data, c := f.c, mod := f.mod }
def EF.view (mn : Mn) (f : EF) (mod : BitVec 14) : View :=
  { mn, guard := f.guard, dst := f.dst, a := f.a, b := f.b, c := f.c, mod }

/-- The ATY and BTY codes of R269; none accepts whatever the stream holds. -/
def elemCode : Option Ty → BitVec 4
  | some .f32 => 1 | some .f16 => 2 | some .bf16 => 3 | some (.nf k) => 8 + k.setWidth 4 | _ => 0
/-- The element type of a code (R269); codes 4 to 7 are reserved. -/
def elemOfCode (c : BitVec 4) : Option Ty :=
  if c = 1 then some .f32 else if c = 2 then some .f16 else if c = 3 then some .bf16
  else if c.getLsbD 3 then some (.nf (c.setWidth 3)) else none

/-- The fields of an instruction; none for a device step, which has no encoding. -/
def Instr.view : Instr → Option View
  | .nop f => some (f.view .nop)
  | .bra g off => some { mn := .bra, guard := g, b := .lit off }
  | .brx f => some (f.view .brx)
  | .call g dst off => some { mn := .call, guard := g, dst, b := .lit off }
  | .callx f => some (f.view .callx)
  | .ret f => some (f.view .ret)
  | .exit f => some (f.view .exit)
  | .trap f => some (f.view .trap)
  | .tret f => some (f.view .tret)
  | .trapf f => some (f.view .trapf)
  | .brk f => some (f.view .brk)
  | .sleep f => some (f.view .sleep)
  | .wait f => some (f.view .wait)
  | .waittl f => some (f.view .waittl)
  | .waitct f => some (f.view .waitct)
  | .phase f => some (f.view .phase)
  | .bar f => some (f.view .bar)
  | .tbinit f => some (f.view .tbinit)
  | .tbexp f => some (f.view .tbexp)
  | .tbarv f => some (f.view .tbarv)
  | .tbwait f => some (f.view .tbwait)
  | .xfer f ch snd rcv => some (f.viewAs .xfer (ch ++ snd ++ rcv ++ (0 : BitVec 5)))
  | .roleq f src dst => some (f.viewAs .roleq (src ++ dst ++ (0 : BitVec 8)))
  | .gangset f => some (f.view .gangset)
  | .driftset f => some (f.view .driftset)
  | .kset f => some (f.view .kset)
  | .spawn f => some (f.view .spawn)
  | .launch f => some (f.view .launch)
  | .mov f => some (f.view .mov)
  | .movsGet f => some (f.view .movs)
  | .movsSet f => some (f.view .movs)
  | .iadd f => some (f.view .iadd)
  | .isub f => some (f.view .isub)
  | .imul f => some (f.view .imul)
  | .imulh f => some (f.view .imulh)
  | .imad f => some (f.view .imad)
  | .imadw f => some (f.view .imadw)
  | .imin f => some (f.view .imin)
  | .imax f => some (f.view .imax)
  | .iclamp f => some (f.view .iclamp)
  | .iabs f => some (f.view .iabs)
  | .and f => some (f.view .and)
  | .or f => some (f.view .or)
  | .xor f => some (f.view .xor)
  | .andn f => some (f.view .andn)
  | .shl f => some (f.view .shl)
  | .shr f => some (f.view .shr)
  | .sar f => some (f.view .sar)
  | .shf f => some (f.view .shf)
  | .bfe f => some (f.view .bfe)
  | .bfi f => some (f.view .bfi)
  | .popc f => some (f.view .popc)
  | .clz f => some (f.view .clz)
  | .brev f => some (f.view .brev)
  | .prmt f => some (f.view .prmt)
  | .iset f => some (f.view .iset)
  | .isel f => some (f.view .isel)
  | .plog f table => some (f.viewAs .plog ((0 : BitVec 1) ++ table ++ (0 : BitVec 5)))
  | .lea f => some (f.view .lea)
  | .place f => some (f.view .place)
  | .shfl f => some (f.view .shfl)
  | .vote f => some (f.view .vote)
  | .redux f => some (f.view .redux)
  | .idp4 f => some (f.view .idp4)
  | .fadd f => some (f.view .fadd)
  | .fsub f => some (f.view .fsub)
  | .fmul f => some (f.view .fmul)
  | .ffma f => some (f.view .ffma)
  | .fmin f => some (f.view .fmin)
  | .fmax f => some (f.view .fmax)
  | .fset f => some (f.view .fset)
  | .fclass f => some (f.view .fclass)
  | .frcp f => some (f.view .frcp)
  | .frsq f => some (f.view .frsq)
  | .fsqrt f => some (f.view .fsqrt)
  | .fdiv f => some (f.view .fdiv)
  | .fexp2 f => some (f.view .fexp2)
  | .flog2 f => some (f.view .flog2)
  | .fsin f => some (f.view .fsin)
  | .fcos f => some (f.view .fcos)
  | .ftanh f => some (f.view .ftanh)
  | .frnd f => some (f.view .frnd)
  | .fscale f => some (f.view .fscale)
  | .fcvt f => some (f.view .fcvt)
  | .i2f f => some (f.view .i2f)
  | .f2i f => some (f.view .f2i)
  | .hfma2 f => some (f.view .hfma2)
  | .fdot2 f => some (f.view .fdot2)
  | .fpack f => some (f.view .fpack)
  | .funpk f => some (f.view .funpk)
  | .lds f => some (f.view .lds)
  | .sts f => some (f.view .sts)
  | .atoms f => some (f.view .atoms)
  | .ldsr f => some (f.view .ldsr)
  | .stsr f => some (f.view .stsr)
  | .atomsr f => some (f.view .atomsr)
  | .mapr f => some (f.view .mapr)
  | .unmapr f => some (f.view .unmapr)
  | .flushr f => some (f.view .flushr)
  | .atomg f => some (f.view .atomg)
  | .sld f => some (f.view .sld)
  | .sst f => some (f.view .sst)
  | .atomf f => some (f.view .atomf)
  | .ldref f => some (f.view .ldref)
  | .stref f => some (f.view .stref)
  | .ldh f => some (f.view .ldh)
  | .sth f => some (f.view .sth)
  | .atomh f => some (f.view .atomh)
  | .newobj f => some (f.view .newobj)
  | .pin f => some (f.view .pin)
  | .unpin f => some (f.view .unpin)
  | .refeq f => some (f.view .refeq)
  | .cpy f ctx => some (f.view .cpy ((0 : BitVec 12) ++ ctx))
  | .cpyg f ctx => some (f.view .cpyg ((0 : BitVec 12) ++ ctx))
  | .cpys f ctx => some (f.view .cpys ((0 : BitVec 12) ++ ctx))
  | .cpyw f ctx => some (f.view .cpyw ((0 : BitVec 12) ++ ctx))
  | .chain f ctx => some (f.view .chain ((0 : BitVec 12) ++ ctx))
  | .cpyx f ctx => some (f.view .cpyx ((0 : BitVec 12) ++ ctx))
  | .coll f ctx => some (f.view .coll ((0 : BitVec 12) ++ ctx))
  | .cdres f tag => some (f.view .cdres ((0 : BitVec 11) ++ tag))
  | .cdrel f tag => some (f.view .cdrel ((0 : BitVec 11) ++ tag))
  | .cdpush f sz tag => some (f.view .cdpush ((0 : BitVec 9) ++ sz ++ tag))
  | .mma f acc aty bty => some (f.view .mma (acc ++ elemCode aty ++ elemCode bty ++ (0 : BitVec 2)))
  | .mmag f acc aty bty => some (f.view .mmag (acc ++ elemCode aty ++ elemCode bty ++ (0 : BitVec 2)))
  | .accrd f acc ty rnd => some (f.view .accrd (acc ++ ty.code ++ rnd.code ++ (0 : BitVec 3)))
  | .accwr f acc ty => some (f.view .accwr (acc ++ ty.code ++ (0 : BitVec 5)))
  | .accst f acc ty sf => some (f.view .accst (acc ++ ty.code ++ BitVec.ofBool sf ++ (0 : BitVec 4)))
  | .accrel f acc => some (f.view .accrel (acc ++ (0 : BitVec 10)))
  | .vxm f => some (f.view .vxm 0)
  | .vxmcfg f wfmt => some (f.view .vxmcfg ((0 : BitVec 11) ++ wfmt))
  | .salloc f => some (f.view .salloc 0)
  | .sfree f => some (f.view .sfree 0)
  | .sprio f => some (f.view .sprio 0)
  | .prim f => some (f.view .prim 0)
  | .exprt f kill => some (f.view .exprt ((0 : BitVec 13) ++ BitVec.ofBool kill))
  | .hevac f => some (f.view .hevac 0)
  | .movsr f => some (f.view .movsr)
  | .movsw f => some (f.view .movsw)
  | .tlbinvAll f => some (f.view .tlbinv)
  | .tlbinvPage f => some (f.view .tlbinv)
  | .rng f => some (f.view .rng)
  | .perfc f => some (f.view .perfc)
  | .sleepExpiry _ _ | .waitEnd _ _ | .barrierNetworkClock | .mapLineFill _ _ _
  | .recordAccept _ _ | .recordChunkDelivered _ _ _ | .recordComplete _ _ _ | .chainRecordPoll _ _
  | .skip _ _ | .abort _ _ | .streamAppend _ _ | .mmaSlice _ _
  | .tileOpComplete _ _ | .accSlotCleared _ _ _ | .vxmPass _ | .clauseFetch _
  | .issueClock _ _ | .registerWriteback _ _ | .pooledAtomic _ _ | .drain _ _ _
  | .combine _ _ _ | .spillTile _ _ _ | .tileRefill _ _ _ | .surfaceFramesFreed _ _
  | .rasterise _ _ | .fragmentTeamLaunch _ _ _ | .exportApply _ _ _ _ | .relCtlStart _ _
  | .flipAck _ _ _ | .relocateObject _ _ | .rtCtlCopy _ | .rtCtlCommit _
  | .regionTableDrained | .ptRootWrite _ _ | .ptGenWrite _ _ | .srfCarveWrite _ _ _
  | .carveShrinkDone _ | .surfQuotaWrite _ _ | .ctOffWrite _ _ | .registerWrite _ _ _ _
  | .hsemTake _ _ | .hsemGive _ _ | .cqTailDoorbell _ _ _ | .queueEntryNop _
  | .queueEntryLaunch _ | .queueEntryTlbInvalidate _ | .queueEntryFaultReplay _ | .queueEntrySignal _
  | .queueEntryWait _ | .queueEntryReserved _ | .queueRingFault _ | .replayRelease _
  | .ready _ _ _ | .refuse _ _ _ | .go _ _ _ | .tstartReached _ _
  | .startBarrierTimeout _ _ | .startAbort _ _ | .unitPlace _ | .unitSteal _
  | .thermalSample _ _ _ _ | .teamEnd _ | .gridRetire _ _ | .errorReport _ _ _
  | .taskEvaluate _ _ _ | .taskRun _ _ | .steepEnd _ _ | .dbgHalt _ _
  | .dbgResume _ _ | .teamParked _ | .preStop _ _ | .cutDrainDone _
  | .preResume _ _ | .restorePlace _ | .memoryError _ _ | .rollback _ _
  | .selfTest _ | .iftStart _ _ | .inFieldTest | .dieLost _
  | .dieCtlOff _ _ | .evacuateStack | .ckptStart _ | .ckptRestore _
  | .ckptFinish _ | .hostLinkDown _ | .hsemLinkRelease _ | .peerRequest _ _ _ _ _ _ _
  | .burzilPortDown _ | .requestUndeliverable _ _ _ | .collAbort _ _ _ | .abortToken _ _ _
  | .collectivePacket _ _ _ _ _ | .syncMessage _ | .flCtlEnable _ _ | .frameStart
  | .scanOutFrame _ | .trustDieBoot | .getVersion _ | .getCapabilities _
  | .negotiateAlgorithms _ | .getDigests _ | .getCertificate _ | .challenge _
  | .getMeasurements _ | .tmCmdGrant _ _ _ | .tmCmdRevoke _ _ | .thermalThrottle
  | .forwardedLaunchPacket _ _ _ | .hostLinkTrained _ _ _ | .hostAtomicopCompletion _ _ _ => none

/-- The inverse of `Instr.view` on the fields of a word that passed the checks. -/
def View.instr (v : View) : Instr :=
  let sub := v.mod.extractLsb' 5 4
  let vf : VF := { guard := v.guard, dst := v.dst, a := v.a, b := v.b, c := v.c,
                   ty := (Ty.ofCode (v.mod.extractLsb' 9 5)).getD .b32, sub, rnd := Rnd.ofCode (v.mod.extractLsb' 3 2),
                   sat := v.mod.getLsbD 2, na := v.mod.getLsbD 1, nb := v.mod.getLsbD 0 }
  let vp : VF := { guard := v.guard, dst := v.dst, a := v.a, b := v.b, c := v.c }
  let mf : MF := { guard := v.guard, dst := v.dst, base := v.a, data := v.b, c := v.c,
                   ty := (Ty.ofCode (v.mod.extractLsb' 9 5)).getD .b32, op := AtomOp.ofCode sub,
                   scope := Scope.ofCode (v.mod.extractLsb' 3 2), use := Use.ofCode (v.mod.extractLsb' 0 3) }
  let ef : EF := { guard := v.guard, dst := v.dst, a := v.a, b := v.b, c := v.c }
  let ctx := v.mod.extractLsb' 0 2
  let tag := v.mod.extractLsb' 0 3
  let acc := v.mod.extractLsb' 10 4
  let aty := (Ty.ofCode (v.mod.extractLsb' 5 5)).getD .b32
  let off : BitVec 32 := match v.b with | .lit w => w | _ => 0
  match v.mn with
  | .nop => .nop vf
  | .brx => .brx vf
  | .callx => .callx vf
  | .ret => .ret vf
  | .exit => .exit vf
  | .trap => .trap vf
  | .tret => .tret vf
  | .trapf => .trapf vf
  | .brk => .brk vf
  | .sleep => .sleep vf
  | .wait => .wait vf
  | .waittl => .waittl vf
  | .waitct => .waitct vf
  | .phase => .phase vf
  | .bar => .bar vf
  | .tbinit => .tbinit vf
  | .tbexp => .tbexp vf
  | .tbarv => .tbarv vf
  | .tbwait => .tbwait vf
  | .gangset => .gangset vf
  | .driftset => .driftset vf
  | .kset => .kset vf
  | .spawn => .spawn vf
  | .launch => .launch vf
  | .mov => .mov vf
  | .iadd => .iadd vf
  | .isub => .isub vf
  | .imul => .imul vf
  | .imulh => .imulh vf
  | .imad => .imad vf
  | .imadw => .imadw vf
  | .imin => .imin vf
  | .imax => .imax vf
  | .iclamp => .iclamp vf
  | .iabs => .iabs vf
  | .and => .and vf
  | .or => .or vf
  | .xor => .xor vf
  | .andn => .andn vf
  | .shl => .shl vf
  | .shr => .shr vf
  | .sar => .sar vf
  | .shf => .shf vf
  | .bfe => .bfe vf
  | .bfi => .bfi vf
  | .popc => .popc vf
  | .clz => .clz vf
  | .brev => .brev vf
  | .prmt => .prmt vf
  | .iset => .iset vf
  | .isel => .isel vf
  | .lea => .lea vf
  | .place => .place vf
  | .shfl => .shfl vf
  | .vote => .vote vf
  | .redux => .redux vf
  | .idp4 => .idp4 vf
  | .fadd => .fadd vf
  | .fsub => .fsub vf
  | .fmul => .fmul vf
  | .ffma => .ffma vf
  | .fmin => .fmin vf
  | .fmax => .fmax vf
  | .fset => .fset vf
  | .fclass => .fclass vf
  | .frcp => .frcp vf
  | .frsq => .frsq vf
  | .fsqrt => .fsqrt vf
  | .fdiv => .fdiv vf
  | .fexp2 => .fexp2 vf
  | .flog2 => .flog2 vf
  | .fsin => .fsin vf
  | .fcos => .fcos vf
  | .ftanh => .ftanh vf
  | .frnd => .frnd vf
  | .fscale => .fscale vf
  | .fcvt => .fcvt vf
  | .i2f => .i2f vf
  | .f2i => .f2i vf
  | .hfma2 => .hfma2 vf
  | .fdot2 => .fdot2 vf
  | .fpack => .fpack vf
  | .funpk => .funpk vf
  | .movsr => .movsr vf
  | .movsw => .movsw vf
  | .rng => .rng vf
  | .perfc => .perfc vf
  | .lds => .lds mf
  | .sts => .sts mf
  | .atoms => .atoms mf
  | .ldsr => .ldsr mf
  | .stsr => .stsr mf
  | .atomsr => .atomsr mf
  | .mapr => .mapr mf
  | .unmapr => .unmapr mf
  | .flushr => .flushr mf
  | .atomg => .atomg mf
  | .sld => .sld mf
  | .sst => .sst mf
  | .atomf => .atomf mf
  | .ldref => .ldref mf
  | .stref => .stref mf
  | .ldh => .ldh mf
  | .sth => .sth mf
  | .atomh => .atomh mf
  | .newobj => .newobj mf
  | .pin => .pin mf
  | .unpin => .unpin mf
  | .refeq => .refeq mf
  | .cpy => .cpy ef ctx
  | .cpyg => .cpyg ef ctx
  | .cpys => .cpys ef ctx
  | .cpyw => .cpyw ef ctx
  | .chain => .chain ef ctx
  | .cpyx => .cpyx ef ctx
  | .coll => .coll ef ctx
  | .vxm => .vxm ef
  | .salloc => .salloc ef
  | .sfree => .sfree ef
  | .sprio => .sprio ef
  | .prim => .prim ef
  | .hevac => .hevac ef
  | .bra => .bra v.guard off
  | .call => .call v.guard v.dst off
  | .xfer => .xfer vp (v.mod.extractLsb' 11 3) (v.mod.extractLsb' 8 3) (v.mod.extractLsb' 5 3)
  | .roleq => .roleq vp (v.mod.extractLsb' 11 3) (v.mod.extractLsb' 8 3)
  | .movs => if sub = 1 then .movsSet vf else .movsGet vf
  | .tlbinv => if sub = 1 then .tlbinvPage vf else .tlbinvAll vf
  | .plog => .plog vp (v.mod.extractLsb' 5 8)
  | .cdres => .cdres ef tag
  | .cdrel => .cdrel ef tag
  | .cdpush => .cdpush ef (v.mod.extractLsb' 3 2) tag
  | .mma => .mma ef acc (elemOfCode (v.mod.extractLsb' 6 4)) (elemOfCode (v.mod.extractLsb' 2 4))
  | .mmag => .mmag ef acc (elemOfCode (v.mod.extractLsb' 6 4)) (elemOfCode (v.mod.extractLsb' 2 4))
  | .accrd => .accrd ef acc aty (Rnd.ofCode (v.mod.extractLsb' 3 2))
  | .accwr => .accwr ef acc aty
  | .accst => .accst ef acc aty (v.mod.getLsbD 4)
  | .accrel => .accrel ef acc
  | .vxmcfg => .vxmcfg ef tag
  | .exprt => .exprt ef (v.mod.getLsbD 0)

def Operand.isLit : Operand → Bool | .lit _ => true | _ => false
def Operand.isQ : Operand → Bool | .q _ => true | _ => false
def Operand.isH : Operand → Bool | .h _ => true | _ => false
def Operand.isNone : Operand → Bool | .none => true | _ => false
/-- The special registers that a 64-bit operand may name, by their even codes (R163). -/
def Special.wide : Special → Bool | .clk | .time => true | _ => false
/-- Whether an operand may stand in a field (R163, R164, R212, R237, R269, R280, R284). -/
def Operand.fits : Kind → Operand → Bool
  | .unused, o => o.isNone
  | .src w, o =>
    match o with
    | .g n => !w || n.getLsbD 0 == false
    | .k n => !w || n.getLsbD 0 == false
    | .sp s => !w || s.wide
    | .q _ | .none => true
    | _ => false
  | .dstr w, o =>
    match o with
    | .g n => !w || n.getLsbD 0 == false
    | .q _ | .none => true
    | _ => false
  | .kreg w, o => match o with | .k n => !w || n.getLsbD 0 == false | .none => true | _ => false
  | .greg w, o => match o with | .g n => !w || n.getLsbD 0 == false | _ => false
  | .gOpt w, o => match o with | .g n => !w || n.getLsbD 0 == false | .none => true | _ => false
  | .href, o => o.isH
  | .pred, o => match o with | .p _ | .none => true | _ => false
  | .ctag, o => match o with | .q n => n.toNat < 8 | _ => false
  | .trio, o => match o with | .g n => n.toNat ≤ 253 | _ => false
  | .quad, o => match o with | .g n => n.toNat ≤ 252 | _ => false
  | .num m, o => match o with | .num n => n.toNat ≤ m | _ => false
  | .off, o => match o with | .num _ => true | _ => false
  | .zero, o => o == .num 0
  | .tyc l, o => match o with | .tyc t => l.contains t | _ => false

def Mn.isLoad : Mn → Bool | .lds | .ldsr | .sld | .ldref | .ldh => true | _ => false
def Mn.isAtomic : Mn → Bool | .atoms | .atomsr | .atomg | .atomf | .atomh => true | _ => false
/-- The bits of MOD that an entry assigns (R166, R169, R170, R214, R262, R283). -/
def modMask (mn : Mn) (s : Shape) : BitVec 14 :=
  match mn with
  | .bra | .call | .vxm | .salloc | .sfree | .sprio | .prim | .hevac => 0
  | .cpy | .cpyg | .cpys | .cpyw | .chain | .cpyx | .coll => 0x0003
  | .cdres | .cdrel | .vxmcfg => 0x0007
  | .cdpush => 0x001F
  | .mma | .mmag => 0x3FFC
  | .accrd => 0x3FF8
  | .accwr => 0x3FE0
  | .accst => 0x3FF0
  | .accrel => 0x3C00
  | .exprt => 0x0001
  | .plog => 0x1FE0
  | .xfer => 0x3FE0
  | .roleq => 0x3F00
  | _ =>
    if mn.cls = some .mem then 0x3FFF
    else 0x3FE0 ||| (if s.rnd then 0x18 else 0) ||| (if s.sat then 4 else 0) ||| (if s.na then 2 else 0) ||| (if s.nb then 1 else 0)
/-- NA and NB are errors on .b and .n operand types (R166); for FCVT and F2I the negated operand is a float (R232, R233). -/
def negTypeOk (mn : Mn) (mod : BitVec 14) : Bool :=
  match mn with
  | .fcvt | .f2i => true
  | _ =>
    if mn.cls ≠ some .vec ∨ mn = .plog then true
    else match Ty.ofCode (mod.extractLsb' 9 5) with
      | some .b32 | some .b64 | some .n32 | some .n64 | some .n8 | some .n16 => mod.extractLsb' 0 2 = 0
      | _ => true
/-- Reason 5: TYPE, ATY and BTY (R167, R269, R270); `c` is the source type of a conversion. -/
def typeOk (mn : Mn) (s : Shape) (mod : BitVec 14) : Bool :=
  match mn with
  | .mma | .mmag => !(4 ≤ (mod.extractLsb' 6 4).toNat && (mod.extractLsb' 6 4).toNat ≤ 7) && !(4 ≤ (mod.extractLsb' 2 4).toNat && (mod.extractLsb' 2 4).toNat ≤ 7)
  | .accrd | .accwr | .accst => match Ty.ofCode (mod.extractLsb' 5 5) with | some t => Shape.fT.contains t | none => false
  | _ => s.types.isEmpty || match Ty.ofCode (mod.extractLsb' 9 5) with | some t => s.types.contains t | none => false
/-- Reason 6: SUB, and the operations that a use of an atomic excludes (R152, R154, R168). -/
def subOk (mn : Mn) (s : Shape) (mod : BitVec 14) : Bool :=
  let sub := (mod.extractLsb' 5 4).toNat
  let use := (mod.extractLsb' 0 3).toNat
  s.types.isEmpty || (s.subLo ≤ sub && sub ≤ s.subHi &&
    !(mn.isAtomic && use == 2 && !(sub ≤ 6 || sub == 9)) && !(mn.isAtomic && use == 5 && (sub == 7 || sub == 8)))
/-- Reason 10: USE and SCOPE (R151, R237). -/
def useOk (mn : Mn) (mod : BitVec 14) : Bool :=
  let use := (mod.extractLsb' 0 3).toNat
  let scope := (mod.extractLsb' 3 2).toNat
  if mn.cls ≠ some .mem then true
  else if mn.isLoad then (use == 0 && scope == 0) || (use == 4 && 2 ≤ scope)
  else if mn.isAtomic then use == 0 || (scope == 0 && (use == 1 || use == 2 || use == 3 || use == 5))
  else use == 0 && scope == 0

/-- The shape of an entry for the fields of `v`. -/
def View.shape (v : View) : Shape :=
  convSrc v.mn (match v.c with | .tyc t => some t | _ => none) (Sys2Proof.shape v.mn v.mod v.a.isH v.b.isLit)
/-- No queue register in two fields (R164). -/
def View.qOnce (v : View) : Bool :=
  let l := [v.dst, v.a, v.b, v.c].filter Operand.isQ
  l.eraseDups.length == l.length
/-- The conditions that single entries add: XFER (R290), ROLEQ (R293), commute and cas atomics (R152, R239). -/
def View.extra (v : View) : Bool :=
  match v.mn with
  | .xfer => v.mod.extractLsb' 8 3 != v.mod.extractLsb' 5 3
  | .roleq => v.guard == {}
  | mn => !(mn.isAtomic && (v.mod.extractLsb' 0 3 == 2#3 && !v.dst.isNone || v.mod.extractLsb' 5 4 == 8#4 && v.dst.isNone))
/-- Whether the fields make an instruction of the entry (R161 to R172). -/
def View.wf (v : View) : Bool :=
  (match v.mn.litForm with | .no => !v.b.isLit | .opt => true | .must => v.b.isLit) &&
  (!v.b.isLit || v.c.isNone && v.mod == (if v.shape.types.isEmpty then 0 else v.shape.deft.code ++ (0 : BitVec 9))) &&
  typeOk v.mn v.shape v.mod && subOk v.mn v.shape v.mod && v.mod &&& ~~~ modMask v.mn v.shape == 0 && negTypeOk v.mn v.mod &&
  v.dst.fits v.shape.dst && v.a.fits v.shape.a && (v.b.isLit || v.b.fits v.shape.b && v.c.fits v.shape.c) &&
  v.qOnce && v.extra && useOk v.mn v.mod

/-- A format V instruction whose entry gives MOD a division of its own holds nothing in the usual fields. -/
def VF.plain (f : VF) : Bool := f.ty == .b32 && f.sub == 0 && f.rnd == .rn && !f.sat && !f.na && !f.nb
/-- What a constructor adds to the check of its fields. -/
def Instr.own : Instr → Bool
  | .plog f _ | .xfer f _ _ _ | .roleq f _ _ => f.plain
  | .movsGet f | .tlbinvAll f => f.sub == 0
  | .movsSet f | .tlbinvPage f => f.sub == 1
  | .mma _ _ a b | .mmag _ _ a b => elemOfCode (elemCode a) == a && elemOfCode (elemCode b) == b
  | _ => true
/-- Well-formed instructions: those that the encodings of R161 to R180 can hold. A device step is not one. -/
def Instr.wf (i : Instr) : Bool :=
  match i.view with
  | some v => v.wf && i.own
  | none => false

end Sys2Proof
end

