-- ==== Sys2Proof/Decode.lean ====
section
/-! DEFINITION. Decoding an instruction word with the static checks of R179 (reasons 1 to 8, and the USE and SCOPE part of reason 10), clause headers (R173), and the encoder. Total on any bits; a rejection carries its reason and field. -/
namespace Sys2Proof

/-- Why a word is rejected: the reason of R179 and the field it names (1 DST, 2 SA, 3 SB, 4 SC; 0 none). -/
structure Bad where
  reason : Nat
  field : Nat := 0
  deriving DecidableEq, Repr, Inhabited

/-- The code of an operand (R163, R212). -/
def Operand.code : Operand → BitVec 9
  | .g n => 0#1 ++ n
  | .k n => 0x4#3 ++ n
  | .q n => 0x14#5 ++ n
  | .h n => 0x15#5 ++ n
  | .sp s => 0x160 + BitVec.ofNat 9 s.ctorIdx
  | .p n => 0#6 ++ n
  | .num n => n
  | .tyc t => 0#4 ++ t.code
  | .lit _ => 0x1FF
  | .none => 0x1FF

/-- The special registers in code order (R163). -/
def specials : List Special :=
  [.tid, .lane, .group, .role, .teamX, .teamY, .teamZ, .gridX, .gridY, .gridZ, .cluster, .core, .clk, .clkHi, .time, .timeHi, .pix, .gen]
/-- The register operand of a code (R163); none for the reserved codes. -/
def Operand.ofCode (c : BitVec 9) : Option Operand :=
  if c.toNat < 0x100 then some (.g (c.setWidth 8))
  else if c.toNat < 0x140 then some (.k (c.setWidth 6))
  else if c.toNat < 0x150 then some (.q (c.setWidth 4))
  else if c.toNat < 0x160 then some (.h (c.setWidth 4))
  else if c.toNat < 0x172 then (specials[c.toNat - 0x160]?).map .sp
  else if c = 0x1FF then some .none
  else Option.none
/-- Reserved operand codes (R163). -/
def reservedCode (c : BitVec 9) : Bool := 0x172 ≤ c.toNat && c.toNat ≤ 0x1FE
/-- Fields that hold a number or a type code are no operand fields. -/
def Kind.isOperand : Kind → Bool | .num _ | .off | .zero | .tyc _ => false | _ => true
/-- The operand a field of a given kind holds, if it fits. -/
def Kind.parse (k : Kind) (c : BitVec 9) : Option Operand :=
  let o : Option Operand :=
    match k with
    | .pred => if c.toNat < 8 then some (.p (c.setWidth 3)) else if c = 0x1FF then some .none else none
    | .num _ | .off | .zero => some (.num c)
    | .tyc _ => if c.toNat < 24 then (Ty.ofCode (c.setWidth 5)).map .tyc else none
    | _ => Operand.ofCode c
  o.filter (Operand.fits k)

/-- The fields of a word (R161). -/
structure Raw where
  op : BitVec 9
  l : Bool
  guard : Guard
  dst : BitVec 9
  a : BitVec 9
  b : BitVec 9
  c : BitVec 9
  mod : BitVec 14
  lit : BitVec 32
  deriving DecidableEq, Repr

def rawOf (w : BitVec 64) : Raw :=
  { op := w.extractLsb' 55 9, l := w.getLsbD 54, guard := { neg := w.getLsbD 53, p := w.extractLsb' 50 3 },
    dst := w.extractLsb' 41 9, a := w.extractLsb' 32 9, b := w.extractLsb' 23 9, c := w.extractLsb' 14 9,
    mod := w.extractLsb' 0 14, lit := w.extractLsb' 0 32 }

/-- MOD as the word runs: in the literal form the default type and zeros (R172). -/
def Raw.modOf (r : Raw) (mn : Mn) : BitVec 14 :=
  if r.l then (let s := shape mn 0 false true; if s.types.isEmpty then 0 else s.deft.code ++ (0 : BitVec 9)) else r.mod
/-- The shape a raw word is read under. -/
def Raw.shapeOf (r : Raw) (mn : Mn) : Shape :=
  convSrc mn (if r.c.toNat < 24 then Ty.ofCode (r.c.setWidth 5) else none)
    (shape mn (r.modOf mn) (0x150 ≤ r.a.toNat && r.a.toNat < 0x160) r.l)
/-- The operand fields of a word with their kinds and their numbers in TRAP_AUX[10:8]. -/
def Raw.fields (r : Raw) (s : Shape) : List (Nat × Kind × BitVec 9) :=
  [(1, s.dst, r.dst), (2, s.a, r.a)] ++ if r.l then [] else [(3, s.b, r.b), (4, s.c, r.c)]

/-- The first field that meets a condition. -/
def firstField (l : List (Nat × Kind × BitVec 9)) (p : Kind → BitVec 9 → Bool) : Option Nat :=
  (l.find? (fun x => p x.2.1 x.2.2)).map (·.1)

/-- The first field that names a queue register named by an earlier one (R164). -/
def dupQ (seen : List (BitVec 9)) : List (Nat × Kind × BitVec 9) → Option Nat
  | [] => none
  | (n, k, c) :: l =>
    if k.isOperand && 0x140 ≤ c.toNat && c.toNat < 0x150 then (if seen.contains c then some n else dupQ (c :: seen) l) else dupQ seen l

/-- The view of a word whose fields parse. -/
def Raw.view (r : Raw) (mn : Mn) : Option View := do
  let s := r.shapeOf mn
  let dst ← s.dst.parse r.dst
  let a ← s.a.parse r.a
  let b ← if r.l then some (.lit r.lit) else s.b.parse r.b
  let c ← if r.l then some .none else s.c.parse r.c
  some { mn, guard := r.guard, dst, a, b, c, mod := r.modOf mn }

/-- The control block, whose MOD holds nothing but TYPE: another SUB there is reason 7, and so is any code but 0x1FF in an unused field (R190); of NOP
another TYPE too (R192). -/
def Mn.isCtrl (mn : Mn) : Bool := mn.op.toNat < 0x010
/-- The static checks of R179 in their order; none when every one passes. -/
def Raw.bad (r : Raw) (mn : Mn) : Option Bad :=
  let s := r.shapeOf mn
  let m := r.modOf mn
  let fs := r.fields s
  if (match mn.litForm with | .no => r.l | .opt => false | .must => !r.l) then some { reason := 3 }
  else match firstField fs (fun k c => k.isOperand && reservedCode c && !(mn.isCtrl && k == .unused)) with
  | some n => some { reason := 4, field := n }
  | none =>
    if !typeOk mn s m || (firstField fs (fun k c => match k with | .tyc _ => (k.parse c).isNone | _ => false)).isSome then some { reason := if mn == .nop then 7 else 5 }
    else if !subOk mn s m then some { reason := if mn.isCtrl then 7 else 6 }
    else if m &&& ~~~ modMask mn s != 0 || !negTypeOk mn m ||
        (firstField fs (fun k c => match k with | .unused | .num _ => (k.parse c).isNone | _ => false)).isSome ||
        (mn.isAtomic && m.extractLsb' 0 3 == 2#3 && r.dst != 0x1FF) ||
        (mn == .xfer && m.extractLsb' 8 3 == m.extractLsb' 5 3) || (mn == .roleq && r.guard != {}) then some { reason := 7 }
    else match firstField fs (fun k c => (k.parse c).isNone) with
    | some n => some { reason := 8, field := min n ((dupQ [] fs).getD n) }
    | none =>
      if mn.isAtomic && m.extractLsb' 5 4 == 8#4 && r.dst == 0x1FF then some { reason := 8, field := 1 }
      else match r.view mn with
      | some v =>
        if !v.qOnce then some { reason := 8, field := if v.a.isQ && v.a == v.dst then 2 else if v.b.isQ && (v.b == v.a || v.b == v.dst) then 3 else 4 }
        else if !useOk mn m then some { reason := 10 } else none
      | none => some { reason := 8 }

/-- Decoding a slot word (R179): the instruction, or the first failing static check. -/
def decodeWord (w : BitVec 64) : Except Bad Instr :=
  if w = 0 then .error { reason := 1 }
  else match Mn.ofOp (rawOf w).op with
  | none => .error { reason := 2 }
  | some mn =>
    match (rawOf w).bad mn with
    | some b => .error b
    | none => match (rawOf w).view mn with
      | some v => .ok v.instr
      | none => .error { reason := 8 }

/-- The word of the fields of an instruction (R161, R172). -/
def View.word (v : View) : BitVec 64 :=
  let top := v.mn.op ++ BitVec.ofBool v.b.isLit ++ BitVec.ofBool v.guard.neg ++ v.guard.p ++ v.dst.code ++ v.a.code
  match v.b with
  | .lit w => top ++ w
  | b => top ++ b.code ++ v.c.code ++ v.mod
/-- The word of an instruction; a device step has none and answers zero, which is no instruction. -/
def encode (i : Instr) : BitVec 64 := match i.view with | some v => v.word | none => 0

/-- A clause header (R173). -/
structure Header where
  ecls : BitVec 4
  cnt : BitVec 4
  role : BitVec 8
  ldw : BitVec 6
  stw : BitVec 6
  cpw : BitVec 6
  tlw : BitVec 6
  y : Bool
  f : Bool
  rsv : BitVec 22
  deriving DecidableEq, Repr, Inhabited

def headerOf (w : BitVec 64) : Header :=
  { ecls := w.extractLsb' 60 4, cnt := w.extractLsb' 56 4, role := w.extractLsb' 48 8, ldw := w.extractLsb' 42 6, stw := w.extractLsb' 36 6,
    cpw := w.extractLsb' 30 6, tlw := w.extractLsb' 24 6, y := w.getLsbD 23, f := w.getLsbD 22, rsv := w.extractLsb' 0 22 }
/-- The number of slots of a clause. -/
def Header.slots (h : Header) : Nat := h.cnt.toNat + 1
/-- The clause class of an ECLS code (R173). -/
def Cls.ofCode (c : BitVec 4) : Option Cls := [Cls.vec, .mem, .sync, .cpy, .mtx, .gmv, .srf, .sys][c.toNat]?
/-- The ECLS code of a class. -/
def Cls.code (c : Cls) : BitVec 4 := BitVec.ofNat 4 c.ctorIdx

/-- The check of an executing member over the header and its slots (R177, R178): the reason of an illegal clause. -/
def clauseBad (addr : Nat) (hdr : BitVec 64) (slots : List (BitVec 64)) : Option Nat :=
  let h := headerOf hdr
  match Cls.ofCode h.ecls with
  | none => some 1
  | some cls =>
    if h.rsv != 0 then some 2
    else if addr / 0x10000 != (addr + 8 * h.slots) / 0x10000 then some 5
    else
      let rec go (n : Nat) : List (BitVec 64) → Option Nat
        | [] => none
        | w :: ws =>
          match Mn.ofOp (w.extractLsb' 55 9) with
          | none => go (n - 1) ws
          | some .nop => go (n - 1) ws
          | some mn =>
            match mn.cls with
            | some c => if c == cls then go (n - 1) ws else some 3
            | none => if n == 0 then go (n - 1) ws else some 4
      go (slots.length - 1) slots

/-- The instruction that an instruction word of `nbits` bits holds: the word is stored little-endian (R4), bits above `nbits` zero. -/
def decodeTableWord (nbits w : Nat) : Option Instr :=
  match decodeWord (BitVec.ofNat 64 (w % 2 ^ nbits)) with
  | .ok i => some i
  | .error _ => none

end Sys2Proof
end

