-- ==== Sys2Proof/Machine/State.lean ====
section
/-! DEFINITION. The state of the GV9 as plain data: threads, groups, teams, cores, clusters, dies, contexts, command queues, the shared registers, memory, and the model's own agenda; faults, refusals and the state after reset. -/
namespace Sys2Proof.Machine

/-- Memory: the bytes that are not `Config.unwrittenByte`, by storage key, keys strictly rising (Ops.lean says which keys stand for what). -/
abbrev Memory := List Host.Cell

/-! ## Threads and groups -/

/-- What an ineligible thread waits for (R175, R258, R286, R288 to R293, R129, R356). A wait that ends lets the instruction go on. -/
inductive Wait where
  /-- WAIT and clause wait fields: the four counters of R175 -/
  | counters (ld st cp tl : Nat)
  /-- WAITTL: timeline counter and target -/
  | tl (n target : Nat)
  /-- WAITCT: the home locations of the counter and the target -/
  | ct (locs : List Nat) (target : Nat)
  /-- BAR: the barrier and the phase arrived at -/
  | bar (n phase : Nat)
  /-- TBWAIT: the record's location and the ticket -/
  | tb (loc ticket : Nat)
  /-- XFER, by a member of the receiving role -/
  | receiver (ch n : Nat)
  /-- ROLEQ -/
  | roleq (src dst : Nat)
  /-- a read or a write of a queue register that cannot go on (R165) -/
  | operand
  /-- a demand fault's batch (R353) -/
  | batch (n : Nat)
  /-- the fault ring lacks room for a demand fault's batch (R353) -/
  | room
  /-- the rendezvous latch of R129 -/
  | gang
  /-- LAUNCH until the packet is accepted or refused (R297) -/
  | answer
  /-- an atomic to host memory until the host completes it: the location and the address, and of a heal the loaded and the resolved value (R27, R136) -/
  | host (loc : Nat) (va : DWord) (old new : DWord := 0)
  /-- a SYNC, SYS or SALLOC result that still enters a caddy stream (R121, R259) -/
  | stream
  /-- a fill, a refill, a copier, a flip, a full queue or ring: the instruction is issued again (R238) -/
  | retry
  deriving DecidableEq, Repr, Inhabited

/-- The life of a thread (R195, R305, R359). -/
inductive Life where | unused | live | ended
  deriving DecidableEq, Repr, Inhabited

/-- A fragment's place in its pixel's order (R67, R278). -/
structure Ticket where
  x : Nat := 0
  surf : Nat := 0
  depth : Nat := 0
  px : Nat := 0
  py : Nat := 0
  seq : Nat := 0
  /-- the depth at the thread's first instruction (R278, R280) -/
  z : Word := 0
  deriving DecidableEq, Repr, Inhabited

/-- One thread (R304, R305, R345). -/
structure Thread where
  life : Life := .unused
  pc : DWord := 0
  g : Vector Word 256 := .replicate 256 0
  p : BitVec 7 := 0
  h : Vector DWord 16 := .replicate 16 0
  flags : BitVec 5 := 0
  rngctr : DWord := 0
  trapPc : DWord := 0
  trapCause : Byte := 0
  trapAddr : DWord := 0
  trapLanes : Word := 0
  trapAux : DWord := 0
  inh : Bool := false
  hfl : BitVec 5 := 0
  en : BitVec 5 := 0
  /-- where the thread stands inside a clause: the header's address and the slot; `pc` is then the slot's address (R312, R347) -/
  mid : Option (DWord × Nat) := none
  /-- the clause of the slot that TRAP_PC named when the trap was taken: its header's address and its number of slots -/
  trapMid : Option (DWord × Nat) := none
  /-- clocks left of a SLEEP (R200) -/
  sleep : Nat := 0
  /-- parked at a breakpoint or halt (R359) -/
  parked : Bool := false
  wait : Option Wait := none
  /-- poison of g and h registers (R368) -/
  gPoison : BitVec 256 := 0
  hPoison : BitVec 16 := 0
  /-- registers unknown in run-ahead (R354) -/
  gUnk : BitVec 256 := 0
  pUnk : BitVec 8 := 0
  hUnk : BitVec 16 := 0
  ticket : Option Ticket := none
  /-- the ticket that the thread has exported, which a second EXPRT names (R54 sub-cause 0x06, R280) -/
  spent : Option Ticket := none
  deriving DecidableEq, Repr, Inhabited

/-- A clause being run: its lanes, its header's address and word, the fetched slots and the next slot (R173, R312, R358). -/
structure Run where
  lanes : Word := 0
  hdr : DWord := 0
  hword : DWord := 0
  words : List DWord := []
  idx : Nat := 0
  /-- surfaces that the instruction at the next slot named when it issued; it is held at a refill since (R63) -/
  held : List Nat := []
  /-- the instruction at the next slot is stalled on FLIPBUSY (R138) -/
  flip : Bool := false
  /-- the core clock in which the instruction at the next slot was last issued and held by its unit: in the next one it holds back no younger head -/
  stall : Option Nat := none
  /-- the physical pages of the entries that the TLBINV at the next slot has removed (R301) -/
  inval : List Nat := []
  /-- an engine member's clause that the fetcher has read in part: the header's location and the slots read (R317) -/
  part : Option (Nat × List DWord) := none
  deriving DecidableEq, Repr, Inhabited

/-- A page that a batch asks for: virtual page, sub-cause, access code and party kind of R353. -/
structure MissPage where
  page : Nat := 0
  sub : Nat := 2
  acc : Nat := 0
  kind : Nat := 0
  deriving DecidableEq, Repr, Inhabited

/-- The details of a trap: cause, TRAP_ADDR, TRAP_AUX, TRAP_LANES and where TRAP_PC stands (R345). -/
structure Trap where
  cause : Nat := 0
  addr : DWord := 0
  aux : DWord := 0
  lanes : Word := 0
  pc : DWord := 0
  mid : Option (DWord × Nat) := none
  deriving DecidableEq, Repr, Inhabited
/-- A steep checkpoint: the path's threads as they stood at the faulting slot, and the batch so far (R354, R355). -/
structure Steep where
  lanes : Word := 0
  saved : Vector Thread 32 := .replicate 32 {}
  run : Run := {}
  pages : List MissPage := []
  count : Nat := 0
  fault : Trap := {}
  deriving DecidableEq, Repr, Inhabited

/-- A group (R304), or an engine member, which is a group of one lane with its operand file in g0 to g15 (R260, R319). -/
structure Group where
  /-- 1 a group; 2 to 5 copy context, 6 matrix, 7 array, 8 surface port (R307) -/
  kind : Nat := 1
  role : Nat := 0
  quota : Nat := 16
  threads : Vector Thread 32 := .replicate 32 {}
  /-- the class counters (R175) -/
  ldCnt : Nat := 0
  stCnt : Nat := 0
  cpCnt : Nat := 0
  tlCnt : Nat := 0
  vxc : DWord := 0
  /-- lanes pushed or bytes entered by the instruction that stands part-way (R261); a cut shows it in PIX (R360) -/
  pushed : Nat := 0
  /-- the copy instruction that stands part-way, as `CopyRec.inst` -/
  pushInst : Nat := 0
  /-- entries that the latest instruction of a lane took from queue registers: register, lane, value (R165) -/
  popped : List (Nat × Nat × DWord) := []
  pix : Word := 0
  run : Option Run := none
  /-- paths parked mid-clause (R312) -/
  blocked : List Run := []
  /-- fairness timers of the paths, by program counter (R313) -/
  timers : List (DWord × Nat) := []
  /-- the clause just run asked for a yield; the lanes of the issue group that ran last (R313) -/
  yield : Bool := false
  last : Word := 0
  /-- the clock at which the issue group arrived at the head (R314) -/
  age : Nat := 0
  steep : Option Steep := none
  /-- XFERs made per channel (R290) -/
  xfers : Vector Nat 8 := .replicate 8 0
  /-- an engine member that stopped (R320) -/
  stopped : Bool := false
  deriving DecidableEq, Repr, Inhabited

/-! ## Teams -/

/-- A line of a map: 0 invalid, 1 clean, 2 dirty, with the mask of written bytes (R80, R81). -/
structure Line where
  st : Nat := 0
  mask : BitVec 256 := 0
  deriving DecidableEq, Repr, Inhabited
/-- A mapped region of the team's window (R80). -/
structure MapEntry where
  base : Nat := 0
  len : Nat := 0
  va : DWord := 0
  lines : List Line := []
  deriving DecidableEq, Repr, Inhabited

/-- Where a copy record came from (R88, R90). -/
inductive RecSrc where | pushed (word : Word) | queue | chain (addr : DWord)
  deriving DecidableEq, Repr, Inhabited
/-- A numbered copy record that has not completed. -/
structure CopyRec where
  no : Nat := 0
  w : Vector DWord 8 := .replicate 8 0
  src : RecSrc := .queue
  /-- the KIND that the pushing instruction stands for (R263) -/
  want : Option Nat := none
  /-- the party whose copy counter counts it, and its instruction: four times the first record's number, and the context (R175) -/
  owner : Option Party := none
  inst : Nat := 0
  accepted : Bool := false
  /-- the index list of a gather, read at acceptance (R85) -/
  idx : List Nat := []
  /-- bytes delivered and bytes added to the counter (R90) -/
  delivered : Nat := 0
  counted : Nat := 0
  /-- STATUS once decided (R89) -/
  status : Nat := 0
  deriving DecidableEq, Repr, Inhabited
/-- An aligned 32-bit element of another rank's contribution to a collective, as a packet brought it (R265, R266, R386). -/
structure CollPacket where
  grp : Nat := 0
  attempt : Nat := 0
  seq : Nat := 0
  rank : Nat := 0
  /-- byte offset in the rank's contribution -/
  addr : Nat := 0
  v : Word := 0
  deriving DecidableEq, Repr, Inhabited
/-- A copy context of a team (R84 to R96). -/
structure CopyCtx where
  chan : DWord := 0
  recno : Word := 0
  fstat : Nat := 0
  parked : Bool := false
  stopped : Bool := false
  faddr : DWord := 0
  /-- the counter address of the failed record (R92) -/
  fcnt : Option DWord := none
  /-- where a surface fault of the failed record lies (R54) -/
  fsurf : DWord := 0
  fsub : Nat := 0
  recs : List CopyRec := []
  next : Nat := 0
  partialRec : List Word := []
  compq : List Word := []
  batch : Option Nat := none
  /-- an ABORT that waits until the word 0 of a record can be written (R92, R32) -/
  aborting : Bool := false
  deriving DecidableEq, Repr, Inhabited

/-- A timeline counter: numbers given, the counter, and completed numbers above it (R258). -/
structure Timeline where
  given : Nat := 0
  done : Nat := 0
  above : List Nat := []
  deriving DecidableEq, Repr, Inhabited

/-- A caddy stream (R118, R121): the reservation's words, bytes not yet parsed, bytes queued by producers in order, poisoned positions. -/
structure Stream where
  w0 : DWord := 0
  head : Nat := 0
  tail : Nat := 0
  raw : List Byte := []
  /-- producers waiting or part-way: the party and lane (for a copy record the role 64 + context and the record's number), and the bytes still to enter -/
  pend : List (Option (Party × Nat) × List Byte) := []
  poison : List Nat := []
  deriving DecidableEq, Repr, Inhabited

/-- A team barrier (R288): phases completed, the open phase's count in count mode, the roles of all-threads mode, and its arrivals. -/
structure Barrier where
  phase : Nat := 0
  count : Option Nat := none
  roles : Byte := 0
  arrived : List (Nat × Nat) := []
  deriving DecidableEq, Repr, Inhabited
/-- A hand-over channel (R290, R291): entries with value, poison and the members that have received them, arrivals of senders with their
values and poison, completed count. -/
structure Channel where
  entries : List (Nat × DWord × Bool × List Member) := []
  arrivals : List (Nat × Member × Option (DWord × Bool)) := []
  done : Nat := 0
  deriving DecidableEq, Repr, Inhabited
/-- A group's arrival at a ROLEQ (R293): the roles, the group, its amount. -/
structure RoleqArr where
  src : Nat := 0
  dst : Nat := 0
  group : Nat := 0
  n : Nat := 0
  status : Option Nat := none
  deriving DecidableEq, Repr, Inhabited
/-- A member of the rendezvous latch (R129); it has its number from its issue (R258). -/
structure GangArr where
  no : Nat := 0
  group : Nat := 0
  acc : Nat := 0
  a : Nat := 0
  b : Nat := 0
  m : Nat := 0
  n : Nat := 0
  k : Nat := 0
  deriving DecidableEq, Repr, Inhabited

/-- An entry of a write buffer (R144); the elements of a retired ACCST stand at their homes already, and leave the buffer for nowhere (R127, R156). -/
structure WEntry where
  writer : Party × Nat := ({}, 0)
  visible : Bool := false
  homed : Bool := false
  cells : List Host.Cell := []
  deriving DecidableEq, Repr, Inhabited
/-- An entry of a merge buffer or outbound queue: plain bytes, or an update entry with the launches that issued it, by context and generation
(R144, R152, R369). -/
inductive MEntry where
  | plain (cells : List Host.Cell)
  | update (loc : Nat) (op : AtomOp) (ty : Ty) (v : DWord) (by_ : List (Nat × Nat) := [])
  deriving DecidableEq, Repr, Inhabited
/-- A pooled atomic (R145, R151): the instruction's number, lane, home location, operation, and the destination it answers to. -/
structure Pooled where
  no : Nat := 0
  who : Party := {}
  lane : Nat := 0
  loc : Nat := 0
  op : AtomOp := .add
  ty : Ty := .b32
  v : DWord := 0
  cmp : DWord := 0
  use : Use := .unpaired
  /-- counted in the load counter, else in the store counter (R175) -/
  load : Bool := false
  dst : Operand := .none
  deriving DecidableEq, Repr, Inhabited
/-- A register write that has not landed (R316), with the number of its instruction when a class counter counts it (R175). -/
structure PendWrite where
  no : Nat := 0
  who : Party := {}
  lane : Nat := 0
  dst : Operand := .none
  wide : Bool := false
  v : DWord := 0
  poison : Bool := false
  /-- consecutive clocks in which it lost its bank (R316) -/
  lost : Nat := 0
  deriving DecidableEq, Repr, Inhabited

/-- The phase-machine parts of a team (R144). The snapshot is kept as the values that differ from the present overlay of the cluster. -/
structure Order where
  buf : List WEntry := []
  snap : List Host.Cell := []
  pool : List Pooled := []
  pend : List PendWrite := []
  deriving DecidableEq, Repr, Inhabited

/-- A VXM that waits for its passes (R273): party, rows of (lane, x word, y word, pointer), passes done, the VXC it was issued under. -/
structure VxmOp where
  who : Party := {}
  no : Nat := 0
  rows : List (Nat × Word × Word × Word) := []
  vxc : DWord := 0
  done : Nat := 0
  deriving DecidableEq, Repr, Inhabited

/-- Where a team stands and what launched it (R304, R306, R339, R364). -/
structure TeamId where
  uid : Nat := 0
  ctx : Nat := 0
  gen : Nat := 0
  depth : Nat := 1
  seed : DWord := 0
  unit : Nat := 0
  x : Nat := 0
  y : Nat := 0
  z : Nat := 0
  gx : Nat := 0
  gy : Nat := 0
  gz : Nat := 0
  cluster : Nat := 0
  /-- logical core 16·y + x of the cluster (R13) -/
  core : Nat := 0
  rect : Bool := false
  entry : DWord := 0
  task : Bool := false
  deriving DecidableEq, Repr, Inhabited

/-- What a team's descriptor fixes, and its registers (R307, R299). -/
structure TeamRegs where
  spBase : Nat := 0
  spSize : Nat := 0
  cdBase : Nat := 0
  cdSize : Nat := 0
  accq : Nat := 0
  qmap : DWord := 0
  gang : Word := 0
  /-- a gang member exited without issuing (R129 reason 5) -/
  gangDead : Bool := false
  drift : Nat := 16
  kinds : Vector Nat 8 := .replicate 8 0
  chor : Bool := false
  priv : Bool := false
  prog : Bool := false
  repro : Bool := false
  hepoch : Word := 0
  k : Vector Word 64 := .replicate 64 0
  kPoison : BitVec 64 := 0
  fmt : Vector Word 8 := .replicate 8 0
  perf : Vector Nat 12 := .replicate 12 0
  deriving DecidableEq, Repr, Inhabited

/-- Where a team is in its life (R195, R362, R364). -/
inductive Phase where | running | ending | saved
  deriving DecidableEq, Repr, Inhabited

/-- A tile operation in the matrix engine's order (R126). -/
inductive TileOp where
  /-- MMA or one member of an MMAG: party, accumulator, A and B tags, M, N, K, slices done, whether issued in a gang -/
  | mma (who : Party) (no acc a b m n k done : Nat) (gang : Bool)
  /-- ACCWR: row, lanes with values -/
  | wr (who : Party) (no acc row : Nat) (vals : List (Nat × Word))
  /-- ACCST: the storing lane, and the locations and types of the elements, row-major -/
  | st (who : Party) (lane no acc : Nat) (ty : Ty) (dest : List (List Nat))
  /-- the place of an ACCRD or ACCREL that waits for earlier operations on its tag, with the number that the next operation takes (R126) -/
  | place (who : Party) (no acc : Nat)
  /-- the next pass of a team's VXM, whose array is unavailable (R274) -/
  | vxm (uid : Nat)
  deriving DecidableEq, Repr, Inhabited

/-- An accumulator slot (R124): 32 × 32 FP32 elements, row-major, those that are not +0 listed; the poisoned ones (R368). -/
structure AccSlot where
  elems : List (Nat × Word) := []
  poison : List Nat := []
  clearing : Bool := false
  bound : Bool := false
  deriving DecidableEq, Repr, Inhabited

/-- What a saved team takes with it from its core: scratchpad and caddy bytes by offset from its windows, poisoned sectors, barrier records,
accumulators by tag, and tile operations that stopped (R362, R364). -/
structure Image where
  sp : List Host.Cell := []
  cd : List Host.Cell := []
  poison : List (Nat × BitVec 32) := []
  tbars : List (Nat × Bool) := []
  accs : List (Nat × AccSlot) := []
  tiles : List TileOp := []
  deriving DecidableEq, Repr, Inhabited
/-- A team. -/
structure Team where
  id : TeamId := {}
  phase : Phase := .running
  regs : TeamRegs := {}
  groups : List Group := []
  engines : List Group := []
  ord : Order := {}
  maps : List MapEntry := []
  tl : Vector Timeline 7 := .replicate 7 {}
  streams : Vector Stream 8 := .replicate 8 {}
  /-- accumulator tag to slot (R124) -/
  accs : Vector (Option Nat) 16 := .replicate 16 none
  copy : Vector CopyCtx 4 := .replicate 4 {}
  vxms : List VxmOp := []
  bars : Vector Barrier 16 := .replicate 16 {}
  chans : Vector Channel 8 := .replicate 8 {}
  roleq : List RoleqArr := []
  latch : List GangArr := []
  /-- child grids not yet retired (R195) -/
  children : Nat := 0
  /-- parking or parked under R359 -/
  parking : Bool := false
  /-- killed under R350 -/
  killed : Bool := false
  /-- its launch is rolled back: it leaves its core without the steps of R195 once what it issued has drained (R372) -/
  discard : Bool := false
  img : Image := {}
  deriving DecidableEq, Repr, Inhabited

end Sys2Proof.Machine
namespace Sys2Proof
open Machine

/-- How a saved team lies in its block of a context's image: R364 names what the parts hold and not where it stands in them, so the block's length
beyond its first 256 bytes, in units of 256, and its 64-bit words are nothing but functions of the team (DESIGN CHOICE, log entry 16). -/
opaque Config.blockUnits : Team → Nat
opaque Config.blockWord : Team → Nat → BitVec 64
/-- The team that a block stands for which software has changed since the save: a free value (DESIGN CHOICE, log entry 16). -/
opaque Config.blockTeam : Nat → Team

end Sys2Proof
namespace Sys2Proof.Machine

/-! ## Cores, clusters and dies -/

/-- A translation held by a TLB (R34, R35): context, 1 MiB group or single page, and the cached attributes. -/
structure TlbEntry where
  ctx : Nat := 0
  single : Bool := false
  /-- virtual group or page number -/
  vn : Nat := 0
  /-- physical page of index 0 of the group, or of the page -/
  pn : Nat := 0
  mask : BitVec 16 := 0
  /-- KEY, HEAP, SNAP, X, W, MIG of the entries -/
  key : Nat := 0
  heap : Bool := false
  snap : Bool := false
  x : Bool := false
  w : Bool := false
  mig : Bool := false
  deriving DecidableEq, Repr, Inhabited

/-- A table pointer held by a walker's cache (R34): context, level 3 to 1, the bits of the virtual address above that level, the next table. -/
structure PtrEntry where
  ctx : Nat := 0
  level : Nat := 0
  vn : Nat := 0
  next : Nat := 0
  deriving DecidableEq, Repr, Inhabited

/-- A core (R16, R34, R124, R126, R343, R354, R374). -/
structure Core where
  clk : DWord := 0
  tlb : List TlbEntry := []
  slots : Vector AccSlot 16 := .replicate 16 {}
  tiles : List TileOp := []
  steepUsed : Nat := 0
  /-- the last sensor reading and the consecutive hot or cool runs (R343) -/
  temp : Nat := 0
  droops : Nat := 0
  hot : Bool := false
  hotRuns : Nat := 0
  /-- an upset that only the shadow units can see: the bits that come out flipped, by lane of a vector result and by place of an engine's (R115) -/
  upset : List (Nat × DWord) := []
  /-- retired by a self-test (R374) -/
  retired : Bool := false
  tainted : Bool := false
  /-- the round robin of the engine fetcher: where it goes on, by team and role (R317) -/
  fetchTurn : Nat := 0
  /-- clocks for which an issue group whose reads exceed a bank still holds the issue slots (R314) -/
  slotBusy : Nat := 0
  deriving DecidableEq, Repr, Inhabited

/-- A continuation record waiting in a task queue (R321, R322). -/
structure TaskRec where
  w : Vector DWord 4 := .replicate 4 0
  /-- the spawning team's launch, ENTRY, depth, TMODE and registers (R324) -/
  gen : Nat := 0
  spawner : TeamId := {}
  regs : TeamRegs := {}
  eligible : Bool := false
  /-- the ring slot that holds the record while it is in the backing (R322) -/
  ring : Option Nat := none
  deriving DecidableEq, Repr, Inhabited
/-- One cluster's queue of one context (R322). -/
structure TaskQueue where
  base : DWord := 0
  len : Word := 0
  /-- records in push order: the first 512 are the on-chip head, the others lie in the ring -/
  recs : List TaskRec := []
  /-- the ring slot that the next record for the backing takes -/
  tail : Nat := 0
  deriving DecidableEq, Repr, Inhabited

/-- A cluster's part of a launch: the units `lo` to `hi - 1` that it has not placed (R339). -/
structure Part where
  x : Nat := 0
  gen : Nat := 0
  lo : Nat := 0
  hi : Nat := 0
  deriving DecidableEq, Repr, Inhabited

/-- A transaction-barrier operation on its way to the barrier network (R158), in the order of R158's keys (core, group or context, lane or record). -/
inductive TbOp where
  | init (loc expa : Nat)
  | exp (loc bytes : Nat)
  /-- a thread's arrival: bytes carried and the destination of its ticket -/
  | arv (loc bytes : Nat) (who : Party) (lane : Nat) (dst : Operand)
  /-- a copy record's arrival -/
  | copy (loc bytes : Nat)
  deriving DecidableEq, Repr, Inhabited
structure TbPost where
  key : Nat := 0
  op : TbOp := .init 0 0
  deriving DecidableEq, Repr, Inhabited

/-- A cluster (R13, R14, R144, R322, R339, R376). -/
structure Cluster where
  enabled : Bool := true
  offline : Bool := false
  /-- the physical row that each column leaves out (R13) -/
  leftOut : Vector Nat 16 := .replicate 16 12
  merge : List MEntry := []
  outq : List MEntry := []
  /-- transaction-barrier records in use, by location, and whether a plain store left one undefined (R157); operations of the coming clock (R158) -/
  tbars : List (Nat × Bool) := []
  tbOps : List TbPost := []
  tlb : List TlbEntry := []
  /-- the walker's cache of table pointers (R34) -/
  ptrs : List PtrEntry := []
  tasks : Vector TaskQueue 64 := .replicate 64 {}
  parts : List Part := []
  /-- a test is due, and the launch generations placed since the last pass (R376) -/
  testDue : Bool := false
  placed : List (Nat × Nat) := []
  deriving DecidableEq, Repr, Inhabited

/-- A die (R10, R20 to R22, R378): its counter and the registers that turn it into common time. -/
structure Die where
  cnt : DWord := 0
  off : DWord := 0
  rate : Word := 0
  residue : Word := 0
  /-- the greatest sum that a read of `$time` has returned (R22) -/
  lastTime : Option Int := none
  released : Bool := false
  lost : Bool := false
  /-- a lost compute die whose GDDR7 controller still answers (R378, R380) -/
  answers : Bool := false
  deriving DecidableEq, Repr, Inhabited

/-! ## Surfaces, heap and launches of a context -/

/-- What waits at a home bank for a tile's frame or refill, in the order in which it came: a byte stored, or an update; `pos` is 256 times the
spill index plus the byte of the tile (R55). -/
inductive TileWait where
  | byte (pos : Nat) (b : Byte)
  | op (pos : Nat) (op : AtomOp) (ty : Ty) (v : DWord)
  deriving DecidableEq, Repr, Inhabited

/-- A surface as the device caches it (R49, R50): the entry's words, the tile states by spill index (R53; a tile not listed is clear, code 2),
the touch time of each stack (R60), and whether an SFREE still drains (R63). -/
structure Surface where
  handle : Nat := 0
  w : Vector DWord 4 := .replicate 4 0
  tiles : List (Nat × Nat) := []
  touch : Vector Nat 2 := .replicate 2 0
  draining : Bool := false
  /-- stores and updates at the home bank for tiles that wait for a frame or a refill, oldest first (R55) -/
  waiting : List TileWait := []
  deriving DecidableEq, Repr, Inhabited
/-- An entry of a stack's frame table (R53): its index, the surface that holds it, and its physical frame, none when absent. -/
structure FrameEntry where
  ix : Nat := 0
  x : Nat := 0
  handle : Nat := 0
  frame : Option Nat := none
  deriving DecidableEq, Repr, Inhabited

/-- The victim that a context's quota request spills on a stack, and the frame being spilled (R59 to R63). -/
structure Victim where
  h : Nat := 0
  frame : Option Nat := none
  deriving DecidableEq, Repr, Inhabited

/-- An accepted primitive (R66, R67, R277). -/
structure Prim where
  seq : Nat := 0
  /-- the issuing team, and the number that tl6 gave the primitive -/
  id : TeamId := {}
  tlno : Nat := 0
  vtx : Vector DWord 8 := .replicate 8 0
  state : Vector DWord 4 := .replicate 4 0
  desc : Vector DWord 16 := .replicate 16 0
  declined : Bool := false
  /-- bank sides that have rasterised it -/
  done : List Nat := []
  /-- fragments not yet handed to a team, by stack -/
  frags : List (Nat × Nat × Nat) := []
  deriving DecidableEq, Repr, Inhabited
/-- An export waiting for its place in the pixel's order (R70, R71, R280). -/
structure Export where
  ticket : Ticket := {}
  kill : Bool := false
  col : Vector Word 4 := .replicate 4 0
  z : Word := 0
  state : Vector DWord 4 := .replicate 4 0
  /-- the exporting team, for its count of refills (R303) -/
  team : Nat := 0
  deriving DecidableEq, Repr, Inhabited
/-- The raster sequencer of a context (R66, R67). -/
structure Raster where
  seq : Nat := 0
  prims : List Prim := []
  exports : List Export := []
  deriving DecidableEq, Repr, Inhabited

/-- A batch of demand faults (R353), the party that waits on it, and the fault that a KILL raises (R356). -/
structure Batch where
  no : Nat := 0
  pages : List MissPage := []
  who : Option Party := none
  fault : Trap := {}
  deriving DecidableEq, Repr, Inhabited
/-- A batch of a group's or engine member's path that waits for room in the fault ring, with the lanes that wait (R353, R355). -/
structure LateBatch where
  who : Party := {}
  lanes : Word := 0
  pages : List MissPage := []
  fault : Trap := {}
  deriving DecidableEq, Repr, Inhabited
/-- The relocation state of a context beside its registers (R137, R138, R405). -/
structure Reloc where
  listed : List Nat := []
  copying : Bool := false
  /-- to-region of each engine -/
  dest : Vector (Option Nat) 2 := .replicate 2 none
  /-- position of each engine's walk: region index in the list and granule -/
  pos : Vector (Nat × Nat) 2 := .replicate 2 (0, 0)
  batch : Vector (Option Nat) 2 := .replicate 2 none
  /-- the object that an engine's batch is about (R357) -/
  failed : Vector (Option Nat) 2 := .replicate 2 none
  /-- objects asked for by waiting writers (R137) -/
  asked : List Nat := []
  /-- cores (of the device) that have yet to acknowledge the flip -/
  acks : List Nat := []
  deriving DecidableEq, Repr, Inhabited

/-- A launch (R333 to R338, R306). -/
structure Launch where
  gen : Nat := 0
  pkt : Vector DWord 8 := .replicate 8 0
  desc : Vector DWord 16 := .replicate 16 0
  depth : Nat := 1
  /-- the generation of the parent's launch and the team that launched a child -/
  parent : Option Nat := none
  spawner : Nat := 0
  /-- the command queue, the class and the privilege of the launch -/
  queue : Option Nat := none
  cls : Nat := 0
  priv : Bool := false
  k : Vector Word 64 := .replicate 64 0
  /-- spread launches: the packages that are ready, and the states of R338 -/
  ready : List Nat := []
  go : Bool := false
  tstart : DWord := 0
  accepted : DWord := 0
  failed : Bool := false
  error : Nat := 0
  /-- pages copied before the launch's first write, with the pool frames that hold them (R371) -/
  snaps : List (Nat × Nat) := []
  /-- a write went without its snapshot (R371) -/
  noReplay : Bool := false
  replays : Nat := 0
  /-- a replay that waits for an evacuation (R378), and a die that its context touched was lost -/
  held : Bool := false
  dieLost : Bool := false
  started : Bool := false
  /-- it has read a page that is lost (R372, R379) -/
  lostRead : Bool := false
  /-- it is being rolled back: its teams leave their cores, and then it begins again (R372) -/
  rolling : Bool := false
  deriving DecidableEq, Repr, Inhabited

/-- The registers of a context (R38, R58, R59, R130, R138, R153, R253, R326 to R388). -/
inductive CReg where
  | ptRoot | ptGen | keyAllow | stBase | clrBase | rsBase | surfQuota | rastThr | surfStat
  | heapVbase | heapNreg | hrtBase | heapCol | relList | relCtl | relStat | heapAlloc | quantum | trapBase
  | fltCfg | fltBase | fltTail | fltHead | preStat | saveBase | saveLen | dbgStat | rasCfg | snapStat | snapPool
  | ctxGen | ctxTdm | cgBase
  deriving DecidableEq, Repr, Inhabited

/-- Reset values of the context registers, as their tables give them. -/
def CReg.reset : CReg → DWord
  | .keyAllow => 1 | .rastThr => 0x100 | .quantum => 0x400 | .fltBase => 0x0A | .rasCfg => 4 | _ => 0

/-- The context registers in order. -/
def CReg.all : List CReg :=
  [.ptRoot, .ptGen, .keyAllow, .stBase, .clrBase, .rsBase, .surfQuota, .rastThr, .surfStat, .heapVbase, .heapNreg, .hrtBase,
   .heapCol, .relList, .relCtl, .relStat, .heapAlloc, .quantum, .trapBase, .fltCfg, .fltBase, .fltTail, .fltHead, .preStat, .saveBase,
   .saveLen, .dbgStat, .rasCfg, .snapStat, .snapPool, .ctxGen, .ctxTdm, .cgBase]

/-- A replay held by the walker (R356): the batch, ALL, KILL, NEEDGEN, and the queue that it stood in. -/
structure Replay where
  batch : Nat := 0
  all : Bool := false
  kill : Bool := false
  need : DWord := 0
  queue : Nat := 0
  deriving DecidableEq, Repr, Inhabited
/-- A context (R326, R328). -/
structure Context where
  regs : Vector DWord 33 := .ofFn fun i => (CReg.all[i.val]?.map CReg.reset).getD 0
  surfaces : List Surface := []
  /-- of a quota request: the victim of each stack, and the surfaces that a spill fault passed over, by stack and handle (R59, R62) -/
  victims : Vector (Option Victim) 2 := .replicate 2 none
  passed : List (Nat × Nat) := []
  raster : Raster := {}
  reloc : Reloc := {}
  launches : List Launch := []
  batches : List Batch := []
  late : List LateBatch := []
  nextBatch : Nat := 1
  /-- replays that wait for PT_GEN, oldest first (R356) -/
  replays : List Replay := []
  /-- generations that ended with an error report (R392) -/
  failed : List Nat := []
  /-- teams of the saved image, kept beside its bytes (R364) -/
  saved : List Team := []
  stopping : Bool := false
  /-- packets of collectives that no record has completed yet (R265, R266) -/
  packets : List CollPacket := []
  deriving DecidableEq, Repr, Inhabited

/-- A command queue (R329). -/
structure Queue where
  base : DWord := 0
  cfg : Word := 0x40000
  tail : Word := 0
  head : Word := 0
  stopped : Bool := false
  batch : Option Nat := none
  /-- the physical pages of the entries that TLB invalidate entries not yet retired have removed (R301, R332) -/
  inval : List Nat := []
  deriving DecidableEq, Repr, Inhabited

/-! ## Shared registers and the rest of the device -/

/-- Registers that the device has once (R42, R48, R337, R343, R375, R376, R380, R388, R391, R394, R397). -/
inductive DReg where
  | rtSel | rtStat | srfCarve0 | srfCarve1 | thermCfg | lbCfg | bootStat | pwrStat | tsCfg | tsStat
  | flCtl | flT0 | flPer | flWord | ckptDesc | ckptStat | soDesc0 | soDesc1 | soDesc2 | soDesc3 | soMiss0 | soMiss1 | soMiss2 | soMiss3
  | rasBase | rasTail | rasHead | dieStat | evacPool0 | evacPool1 | evacPin | evacStat | iftStat
  deriving DecidableEq, Repr, Inhabited
/-- Reset values, as the tables of the registers give them. -/
def DReg.reset : DReg → DWord
  | .rtStat => 0x10000 | .srfCarve0 | .srfCarve1 => 1 | .thermCfg => 0x0800005A | .lbCfg => 0x03E80005 | .pwrStat => 1200 | .rasBase => 0x0A
  | _ => 0

/-- The device registers in order. -/
def DReg.all : List DReg :=
  [.rtSel, .rtStat, .srfCarve0, .srfCarve1, .thermCfg, .lbCfg, .bootStat, .pwrStat, .tsCfg, .tsStat, .flCtl, .flT0, .flPer,
   .flWord, .ckptDesc, .ckptStat, .soDesc0, .soDesc1, .soDesc2, .soDesc3, .soMiss0, .soMiss1, .soMiss2, .soMiss3, .rasBase, .rasTail, .rasHead, .dieStat, .evacPool0,
   .evacPool1, .evacPin, .evacStat, .iftStat]

/-- A region table entry (R40): words 0 and 1. -/
structure RtEntry where
  w0 : DWord := 0
  w1 : DWord := 0
  deriving DecidableEq, Repr, Inhabited

/-- A response of the DOE mailbox (R395). -/
inductive Answer where
  /-- SPDM 1.3 -/
  | version (major minor : Nat)
  /-- whether secure sessions are offered -/
  | capabilities (sessions : Bool)
  /-- SHA-384 and Ed25519, the only ones -/
  | algorithms (sha384 ed25519 : Bool)
  | digests (d : BitVec 384)
  | certificate (d : BitVec 384)
  | challengeAuth (measured : BitVec 384) (ed25519 : DWord)
  /-- measurement blocks by index, the Ed25519 signature, and block 0xF0: the ML-DSA-65 signature -/
  | measurements (blocks : List (Nat × BitVec 384)) (ed25519 mldsa65 : DWord)
  deriving DecidableEq, Repr, Inhabited
/-- What belongs to one physical function (R383, R395, R396). -/
structure Function where
  linkUp : Bool := false
  /-- MSI-X vectors raised, oldest first -/
  msix : List Nat := []
  tmStat : Word := 0
  /-- the last SPDM response of the mailbox -/
  mailbox : Option Answer := none
  rate : Nat := 0
  width : Nat := 0
  /-- when the link went down while the function held HSEM0 (R383) -/
  downAt : Option Nat := none
  /-- non-fatal AER error messages sent for refused writes (R331) -/
  aer : Nat := 0
  deriving DecidableEq, Repr, Inhabited

/-- A message of a start barrier that leaves the package: to a member of the launch domain table by its index, or to the launch's origin (R338). -/
inductive SpreadMsg where
  /-- a launch packet with its context, its class and its generation -/
  | packet (mem ctx cls gen : Nat) (pkt : Vector DWord 8)
  | ready (gen : Nat)
  | refuse (gen : Nat)
  | go (mem gen : Nat) (tstart : DWord)
  | abort (mem gen : Nat)
  /-- a scan-out stream passes to its backup package (R393) -/
  | stream (pkg n : Nat)
  deriving DecidableEq, Repr, Inhabited
/-- The device's shared state. -/
structure Device where
  regs : Vector DWord 33 := .ofFn fun i => (DReg.all[i.val]?.map DReg.reset).getD 0
  ldt : Vector Word 64 := .replicate 64 0
  bankA : Vector RtEntry 64 := .replicate 64 {}
  bankB : Vector RtEntry 64 := .replicate 64 {}
  /-- the queue of each class that the command processor served last (R332) -/
  cpTurn : Vector Nat 5 := .replicate 5 0
  hsem : Vector Nat 16 := .replicate 16 0
  fns : Vector Function 2 := .replicate 2 {}
  /-- VIOL_ADDR and VIOL_INFO (R331) -/
  viol : DWord := 0
  violInfo : Word := 0
  /-- each stack's frame table (R53); a frame is in use when an entry names it (R46) -/
  frameTab : Vector (List FrameEntry) 2 := .replicate 2 []
  /-- poisoned 32-byte sectors of storage, with the bytes written since (R57, R75, R367) -/
  poison : List (Nat × BitVec 32) := []
  /-- GDDR7 blocks written under a key: storage block, the key's tag, and the tweak (R25) -/
  keyed : List (Nat × Nat × Nat) := []
  /-- key slots 1 to 63: context that owns the slot, and the slot's generation (R396) -/
  slotOwner : Vector (Option Nat) 64 := .replicate 64 none
  slotGen : Vector Nat 64 := .replicate 64 0
  portsUp : Vector Bool 16 := .replicate 16 true
  /-- LINK_SPLIT: two x8 links, one for each function (R383) -/
  split : Bool := false
  /-- consecutive Sync readings that speak against LOCKED (R389), and the servo's slew of the counters, as CT_RATE counts -/
  syncRuns : Nat := 0
  slew : Int := 0
  /-- the next frame (R390) -/
  frame : Nat := 0
  /-- of each scan-out stream: frames started and not yet sent, the last good frame's context and handle (0 when missing or freed), and the last frame sent: its number, the
  handle it shows, and whether that one is reprojected (R391, R392) -/
  soDue : Vector (List Nat) 4 := .replicate 4 []
  soGood : Vector (Nat × Nat) 4 := .replicate 4 (0, 0)
  soSent : Vector (Option (Nat × Nat × Bool)) 4 := .replicate 4 none
  /-- streams that have passed to their backup package (R393) -/
  soAway : Vector Bool 4 := .replicate 4 false
  correctable : Vector Nat 2 := .replicate 2 0
  retiredBanks : List (Nat × Nat) := []
  /-- link lanes that failed their test: replaced under the link's standard, and left out so that the link runs degraded (R374) -/
  linkRepaired : List Nat := []
  linkDegraded : List Nat := []
  /-- correctable errors of each unit since its last test (R374), and records of the ring overwritten (R375) -/
  errs : List (TestUnit × Nat) := []
  rasOvf : Nat := 0
  /-- slices that a shrinking carve-out still holds, by stack; 0 when not shrinking (R47) -/
  carveHeld : Vector Nat 2 := .replicate 2 0
  /-- attempts of the collective groups, by context and group (R386) -/
  attempts : List (Nat × Nat × Nat) := []
  /-- a checkpoint in progress: 1 writing, 2 restoring; the descriptor that START read, and the image as it was then: its bytes and its poisoned
  sectors, by their places in it (R381, R382, R387) -/
  ckpt : Nat := 0
  ckptDesc : Vector DWord 8 := .replicate 8 0
  ckptImg : Memory := []
  ckptBad : List Nat := []
  /-- start-barrier messages sent over the transport, oldest first (R338) -/
  sent : List SpreadMsg := []
  deriving DecidableEq, Repr, Inhabited

/-- The machine. -/
structure State where
  mem : Memory := []
  teams : List Team := []
  nextUid : Nat := 1
  cores : Vector Core 1152 := .replicate 1152 {}
  clusters : Vector Cluster 6 := .replicate 6 {}
  dies : Vector Die 6 := .replicate 6 {}
  ctxs : Vector Context 64 := .replicate 64 {}
  queues : Vector Queue 64 := .replicate 64 {}
  dev : Device := {}
  /-- the model's own: device steps and inputs to take next, issued parties, the party of the running instruction, free values taken, clock -/
  agenda : List Instr := []
  slots : List Party := []
  cur : Party := {}
  freeCtr : Nat := 0
  clock : Nat := 0
  deriving DecidableEq, Repr, Inhabited

/-- Why the machine stops. -/
inductive Fault where
  /-- Raised by DIE_LOST for the I/O die or the trust die: the package is lost (R378), the spec gives it no further step. Safe. -/
  | packageLost (die : Nat)
  deriving DecidableEq, Repr, Inhabited

/-- Why an instruction has no meaning here. -/
inductive Refusal where
  /-- Raised by an arm of `exec` whose instruction the model does not yet give a meaning. Safe. -/
  | notModelled (mnemonic : String)
  deriving DecidableEq, Repr, Inhabited

/-- The outcome of a step. -/
abbrev Outcome := Host.Outcome State Fault Refusal

/-- The machine right after reset (R2, R5, R394): nothing resident, every register at its reset value, memory with nothing listed, and
the trust die's boot due as the first step. -/
def State.reset : State := { agenda := [.trustDieBoot] }

end Sys2Proof.Machine
end

