-- ==== Sys2Proof/Machine/Memory.lean ====
section
/-! DEFINITION. Memory as canonical cells, and what physically stores a byte: the region table, encrypted blocks, poison marks (R24 to R27, R40, R41, R46, R75, R367). -/
namespace Sys2Proof.Machine

/-! ## Vectors and bit fields -/

/-- Entry `i`, the default beyond the end. -/
def vget {α : Type} [Inhabited α] {n : Nat} (v : Vector α n) (i : Nat) : α := v[i]?.getD default
/-- `v` with entry `i` replaced; unchanged beyond the end. -/
def vset {α : Type} {n : Nat} (v : Vector α n) (i : Nat) (a : α) : Vector α n := v.setIfInBounds i a
def vmod {α : Type} [Inhabited α] {n : Nat} (v : Vector α n) (i : Nat) (f : α → α) : Vector α n := vset v i (f (vget v i))

/-- Bits `lo + len - 1 : lo` of a word, as a number. -/
def fld {w : Nat} (x : BitVec w) (lo len : Nat) : Nat := (x.extractLsb' lo len).toNat
/-- A word with bits `lo + len - 1 : lo` replaced by those of `v`. -/
def setFld {w : Nat} (x : BitVec w) (lo len : Nat) (v : Nat) : BitVec w :=
  let m : BitVec w := BitVec.ofNat w ((2 ^ len - 1) <<< lo)
  (x &&& ~~~ m) ||| (BitVec.ofNat w ((v % 2 ^ len) <<< lo))
/-- Bit `i` set or cleared. -/
def setBit {w : Nat} (x : BitVec w) (i : Nat) (b : Bool) : BitVec w := setFld x i 1 b.toNat
/-- A field read as a two's-complement number. -/
def sfld {w : Nat} (x : BitVec w) (lo len : Nat) : Int := (x.extractLsb' lo len).toInt
/-- The numbers of the set bits, ascending. -/
def bitsOf {w : Nat} (x : BitVec w) : List Nat := (List.range w).filter x.getLsbD
/-- The word whose set bits are the numbers of a list. -/
def ofBits (w : Nat) (l : List Nat) : BitVec w := l.foldl (fun m i => m ||| BitVec.ofNat w (1 <<< i)) 0
def ceilDiv (a b : Nat) : Nat := if b = 0 then 0 else (a + b - 1) / b

/-- A list in the order of `le`, equal elements in their old order. -/
def insertBy {α : Type} (le : α → α → Bool) (a : α) : List α → List α
  | [] => [a]
  | b :: l => if le b a then b :: insertBy le a l else a :: b :: l
def sortBy {α : Type} (le : α → α → Bool) (l : List α) : List α := l.foldl (fun acc a => insertBy le a acc) []

/-- Little-endian bytes of a number (R4). -/
def leBytes (n v : Nat) : List Byte := (List.range n).map fun i => BitVec.ofNat 8 (v >>> (8 * i))
/-- The number that little-endian bytes hold (R4). -/
def ofLe (l : List Byte) : Nat := l.foldr (fun b acc => acc * 256 + b.toNat) 0

/-! ## Canonical cells -/

/-- The byte at a key. -/
def Memory.read (m : Memory) (a : Nat) : Byte :=
  match m with
  | [] => Config.unwrittenByte
  | (k, v) :: m => if k = a then v else Memory.read m a
/-- Write one byte and keep the canonical form: writing the byte that unwritten memory holds removes the entry. -/
def Memory.write (m : Memory) (a : Nat) (b : Byte) : Memory :=
  match m with
  | [] => if b = Config.unwrittenByte then [] else [(a, b)]
  | (k, v) :: m =>
    if a < k then (if b = Config.unwrittenByte then (k, v) :: m else (a, b) :: (k, v) :: m)
    else if k = a then (if b = Config.unwrittenByte then m else (a, b) :: m)
    else (k, v) :: Memory.write m a b
/-- Every key is above `lo` and rising, and no entry holds the unwritten byte. -/
def Memory.wfFrom (lo : Nat) (m : Memory) : Bool :=
  match m with
  | [] => true
  | (k, v) :: m => decide (lo ≤ k) && decide (v ≠ Config.unwrittenByte) && Memory.wfFrom (k + 1) m
/-- The canonical form: keys strictly rising, no entry equal to what an unlisted key reads as. -/
def Memory.wf (m : Memory) : Bool := Memory.wfFrom 0 m

/-- A byte of a list of cells, none where it has no entry (write buffers, snapshots). -/
def cellAt (l : List Host.Cell) (a : Nat) : Option Byte := (l.find? (·.1 == a)).map (·.2)
/-- Insert or replace a cell; keys stay sorted. -/
def cellPut (l : List Host.Cell) (a : Nat) (b : Byte) : List Host.Cell :=
  match l with
  | [] => [(a, b)]
  | (k, v) :: l => if a < k then (a, b) :: (k, v) :: l else if k = a then (a, b) :: l else (k, v) :: cellPut l a b
def cellDrop (l : List Host.Cell) (a : Nat) : List Host.Cell := l.filter (·.1 != a)

/-! ## Storage keys

Locations are what accesses and homes name (R144): below 2^52 a physical address (R26); from `scratchBase` a scratchpad byte; from `texelBase`
a texel byte; with the tag of an encrypted page's key times 2^64 added (R25, R396). Storage keys are what holds the byte: a device offset of a stack,
a surface frame, a scratchpad, a caddy, or a host or peer address as it stands. -/

def scratchBase : Nat := 2 ^ 52
def gddrBase : Nat := 2 ^ 55
def frameBase : Nat := 2 ^ 56
def caddyBase : Nat := 2 ^ 57
def texelBase : Nat := 2 ^ 60
def keyUnit : Nat := 2 ^ 64
/-- The number of a core of the device from its cluster and logical index. -/
def coreNo (cluster core : Nat) : Nat := 192 * cluster + core
def scratchLoc (cluster core off : Nat) : Nat := scratchBase + 2 ^ 18 * coreNo cluster core + off
def caddyKey (cluster core off : Nat) : Nat := caddyBase + 2 ^ 16 * coreNo cluster core + off
def frameKey (stack frame off : Nat) : Nat := frameBase + 2 ^ 29 * stack + 4096 * frame + off
def isScratch (a : Nat) : Bool := scratchBase ≤ a && a < gddrBase
def isTexel (a : Nat) : Bool := texelBase ≤ a && a < keyUnit
def isHost (a : Nat) : Bool := 2 ^ 48 ≤ a && a < 3 * 2 ^ 48
def isPeer (a : Nat) : Bool := 2 ^ 51 ≤ a && a < 2 ^ 52
/-- Host and peer homes, whose merge entries go through the outbound queue (R144, R146). -/
def isRemote (loc : Nat) : Bool := isHost (loc % keyUnit) || (isPeer (loc % keyUnit) && (loc % keyUnit) / 2 ^ 38 % 2 ^ 13 != Config.packageNumber)

/-- A device register. -/
def State.dreg (s : State) (r : DReg) : DWord := vget s.dev.regs r.ctorIdx
def State.setDreg (s : State) (r : DReg) (v : DWord) : State := { s with dev := { s.dev with regs := vset s.dev.regs r.ctorIdx v } }
/-- A register of a context. -/
def State.creg (s : State) (x : Nat) (r : CReg) : DWord := vget (vget s.ctxs x).regs r.ctorIdx
def State.setCtx (s : State) (x : Nat) (c : Context) : State := { s with ctxs := vset s.ctxs x c }
def State.ctx (s : State) (x : Nat) : Context := vget s.ctxs x
def State.modCtx (s : State) (x : Nat) (f : Context → Context) : State := s.setCtx x (f (s.ctx x))
def State.setCreg (s : State) (x : Nat) (r : CReg) (v : DWord) : State :=
  s.modCtx x fun c => { c with regs := vset c.regs r.ctorIdx v }

/-- Whether a stack is offline and its contents have been evacuated (R379, R380). -/
def State.stackOff (s : State) (n : Nat) : Bool := (s.dreg .dieStat).getLsbD (6 + n) && !(s.dreg .dieStat).getLsbD 0
/-- Whether requests to a stack's GDDR7 are answered uncorrectable: it is offline, or its compute die is lost (R378, R379). -/
def State.stackDead (s : State) (n : Nat) : Bool := s.stackOff n || (vget s.dies n).lost && !(vget s.dies n).answers

/-- Whether any home can hold poisoned data. -/
def State.anyPoison (s : State) : Bool := !s.dev.poison.isEmpty || s.stackDead 0 || s.stackDead 1

/-- The fields of a region table entry (R40). -/
def RtEntry.mode (e : RtEntry) : Nat := fld e.w0 32 2
def RtEntry.len (e : RtEntry) : Nat := fld e.w0 16 16
def RtEntry.base (e : RtEntry) : Nat := fld e.w0 0 16
def RtEntry.off (e : RtEntry) (stack : Nat) : Nat := if stack = 0 then fld e.w1 0 16 else fld e.w1 32 16
/-- The active bank (R42). -/
def State.activeBank (s : State) : Vector RtEntry 64 := if fld (s.dreg .rtStat) 0 1 = 0 then s.dev.bankA else s.dev.bankB
def State.shadowBank (s : State) : Vector RtEntry 64 := if fld (s.dreg .rtStat) 0 1 = 0 then s.dev.bankB else s.dev.bankA

/-- Routing of a GDDR7 physical address by one entry (R41). -/
def RtEntry.route (e : RtEntry) (pa : Nat) : Option (Nat × Nat) :=
  if e.mode = 0 ∨ pa / 2 ^ 21 < e.base ∨ e.base + e.len ≤ pa / 2 ^ 21 then none
  else
    let d := pa - e.base * 2 ^ 21
    if e.mode = 1 then
      let g := d / 4096
      let stack := g % 2
      some (stack, e.off stack * 2 ^ 21 + (g / 2) * 4096 + d % 4096)
    else some (e.mode - 2, e.off (e.mode - 2) * 2 ^ 21 + d)
/-- Routing of a GDDR7 physical address by the active bank: the stack and the device offset, none when no entry matches (R41). -/
def State.route (s : State) (pa : Nat) : Option (Nat × Nat) := s.activeBank.toList.findSome? (·.route pa)

/-- Whether a request to a GDDR7 physical address waits: the entry that matches it changed with the last commit, and requests that were
routed under its older generation are still in flight (R44). -/
def State.rtHeld (s : State) (pa : Nat) : Bool :=
  (s.dreg .rtStat).getLsbD 1 && s.activeBank.toList.any fun e => (e.route pa).isSome && fld e.w0 48 16 == fld (s.dreg .rtStat) 16 16

/-- The physical address of a location in this package's GDDR7 that a peer address may name too (R26). -/
def ownPa (a : Nat) : Nat := if isPeer a && a / 2 ^ 38 % 2 ^ 13 == Config.packageNumber then a % 2 ^ 38 else a
/-- As `rtHeld`, for a location. -/
def State.locHeld (s : State) (loc : Nat) : Bool := (s.dreg .rtStat).getLsbD 1 && s.rtHeld (ownPa (loc % keyUnit))

/-- Whether a physical address may be accessed at all (R26, R33 sub-cause 0x08). -/
def State.paOk (s : State) (pa : Nat) : Bool :=
  if pa < Config.gddrBytes then (s.route pa).isSome
  else if isHost pa then true
  else if isPeer pa then
    if pa / 2 ^ 38 % 2 ^ 13 = Config.packageNumber then pa % 2 ^ 38 < Config.gddrBytes && (s.route (pa % 2 ^ 38)).isSome else true
  else false
/-- A peer refuses an offset of 120 GiB or more (R26). -/
def peerRefuses (pa : Nat) : Bool := isPeer pa && Config.gddrBytes ≤ pa % 2 ^ 38

/-- The storage key of a location that is no texel. -/
def State.storage (s : State) (a : Nat) : Nat :=
  let g (pa : Nat) : Nat := match s.route pa with | some (st, off) => gddrBase + 2 ^ 36 * st + off | none => pa
  if a < Config.gddrBytes then g a
  else if isPeer a && a / 2 ^ 38 % 2 ^ 13 == Config.packageNumber then g (a % 2 ^ 38)
  else a
def isGddrKey (k : Nat) : Bool := gddrBase ≤ k && k < frameBase

/-- A context has reached the dies of a stack: its SRAM die, and with `gddr` its compute die's GDDR7 too (R10, R377). -/
def State.reachStack (s : State) (x n : Nat) (gddr : Bool) : State :=
  s.setCreg x .ctxTdm (setBit (if gddr then setBit (s.creg x .ctxTdm) n true else s.creg x .ctxTdm) (2 + n) true)

/-! ### Encrypted blocks (R25, R396)

A block is kept as it was written, with the key and the tweak that it was written under; what another key or tweak makes of it goes through the
cipher, which works on the four 16-byte units of a block, each by itself: a permutation of units of which nothing else is known (log entry 7). -/

/-- A unit one way through the cipher, for a key and the unit's own tweak. -/
def unitEnc (key tweak : Nat) (d : BitVec 128) : BitVec 128 :=
  let r := (List.range 4).foldl (fun (h : BitVec 64 × BitVec 64) i => (h.2, h.1 ^^^ Config.xtsRound i key tweak h.2)) (d.extractLsb' 0 64, d.extractLsb' 64 64)
  (r.2 ++ r.1 : BitVec 128)
/-- And back. -/
def unitDec (key tweak : Nat) (d : BitVec 128) : BitVec 128 :=
  let r := [3, 2, 1, 0].foldl (fun (h : BitVec 64 × BitVec 64) i => (h.2 ^^^ Config.xtsRound i key tweak h.1, h.1)) (d.extractLsb' 0 64, d.extractLsb' 64 64)
  (r.2 ++ r.1 : BitVec 128)
/-- A block, unit by unit. -/
def byUnits (f : Nat → BitVec 128 → BitVec 128) (d : BitVec 512) : BitVec 512 :=
  (f 3 (d.extractLsb' 384 128) ++ f 2 (d.extractLsb' 256 128) ++ f 1 (d.extractLsb' 128 128) ++ f 0 (d.extractLsb' 0 128) : BitVec 512)
/-- A block under a key and the tweak of its data unit (R25). -/
def xtsEnc (key tweak : Nat) (d : BitVec 512) : BitVec 512 := byUnits (fun i => unitEnc key (4 * tweak + i)) d
def xtsDec (key tweak : Nat) (d : BitVec 512) : BitVec 512 := byUnits (fun i => unitDec key (4 * tweak + i)) d
/-- The tag of the key that a slot holds: the slot with its generation; slot 0 is plaintext. An access keeps the tag that its translation
found, and so completes under that key though the slot is revoked meanwhile (R396). -/
def State.slotTag (s : State) (slot : Nat) : Nat := if slot = 0 then 0 else slot + 64 * vget s.dev.slotGen slot
/-- The key and tweak that an access under a tag uses at a physical address: the tweak is bits [51:6]. -/
def keyTag (tag a : Nat) : Nat × Nat := if tag = 0 then (0, 0) else (tag, ownPa a / 64)
/-- A context has reached a location: in GDDR7, the stack that its region table entry names (R377). -/
def State.reachLoc (s : State) (x loc : Nat) : State :=
  if ownPa (loc % keyUnit) < Config.gddrBytes then (match s.route (ownPa (loc % keyUnit)) with | some (n, _) => s.reachStack x n true | none => s) else s
/-- A context has reached a run of locations of at most 4 KiB, which touches no stack that its ends do not. -/
def State.reachRun (s : State) (x : Nat) (locs : List Nat) : State :=
  match locs.head?, locs.getLast? with
  | some a, some b => (s.reachLoc x a).reachLoc x b
  | _, _ => s
def State.blockTag (s : State) (blk : Nat) : Nat × Nat := ((s.dev.keyed.find? (·.1 == blk)).map (·.2)).getD (0, 0)
/-- A stored block as another key and tweak make it out. -/
def State.seenBlock (s : State) (r : Nat × Nat) (blk : Nat) : BitVec 512 :=
  let w := s.blockTag blk
  let d := BitVec.ofNat 512 (ofLe ((List.range 64).map fun i => s.mem.read (64 * blk + i)))
  let c := if w.1 = 0 then d else xtsEnc w.1 w.2 d
  if r.1 = 0 then c else xtsDec r.1 r.2 c
/-- The byte at a physical address or another store's location, read under the key of a tag (R25). -/
def State.physRead (s : State) (tag a : Nat) : Byte :=
  let k := s.storage a
  if isGddrKey k && s.blockTag (k / 64) != keyTag tag a then (s.seenBlock (keyTag tag a) (k / 64)).extractLsb' (8 * (k % 64)) 8
  else s.mem.read k
/-- The 64 bytes of a block. -/
def Memory.putBlock (m : Memory) (blk : Nat) (d : BitVec 512) : Memory :=
  (List.range 64).foldl (fun (m : Memory) i => m.write (64 * blk + i) (d.extractLsb' (8 * i) 8)) m
/-- A GDDR7 block brought under a key and tweak before a byte of it is written (R24, R25: a read-modify-write of the block). -/
def State.rekey (s : State) (tag a : Nat) : State :=
  let blk := s.storage a / 64
  let r := keyTag tag a
  if s.blockTag blk = r then s
  else
    let d := s.seenBlock r blk
    let keyed := s.dev.keyed.filter (·.1 != blk)
    { s with mem := s.mem.putBlock blk d, dev := { s.dev with keyed := if r.1 = 0 then keyed else (blk, r) :: keyed } }
/-- Write one byte of storage under the key of a tag. -/
def State.physWrite (s : State) (tag a : Nat) (b : Byte) : State :=
  let s := if isGddrKey (s.storage a) then s.rekey tag a else s
  { s with mem := s.mem.write (s.storage a) b }

/-! ## Poison marks -/

def State.poisonedKey (s : State) (k : Nat) : Bool := s.dev.poison.any (·.1 == k / 32)
/-- Mark the sector of a storage key poisoned; in GDDR7 the whole 64-byte block (R24, R57, R75). -/
def State.poisonKey (s : State) (k : Nat) : State :=
  let secs := if isGddrKey k || frameBase ≤ k && k < caddyBase then [k / 64 * 2, k / 64 * 2 + 1] else [k / 32]
  { s with dev := { s.dev with poison := secs.map (·, 0) ++ s.dev.poison.filter (fun e => !secs.contains e.1) } }
/-- Clean bytes written to storage keys: a scratchpad sector or surface line is clean once every byte of it has been written since the
poison arose; a GDDR7 block only when one write carries the whole block (R24, R57, R75, R367). -/
def State.cleanKeys (s : State) (ks : List Nat) : State :=
  if s.dev.poison.isEmpty then s else
  let upd (e : Nat × BitVec 32) : Nat × BitVec 32 :=
    (e.1, e.2 ||| ofBits 32 ((ks.filter (· / 32 == e.1)).map (· % 32)))
  let p := s.dev.poison.map upd
  let full (sec : Nat) : Bool := (p.find? (·.1 == sec)).map (·.2) == some (BitVec.allOnes 32)
  let whole (sec : Nat) : Bool := (List.range 64).all fun i => ks.contains (sec / 2 * 64 + i)
  let keep (e : Nat × BitVec 32) : Bool :=
    if isGddrKey (32 * e.1) then !whole e.1
    else if frameBase ≤ 32 * e.1 && 32 * e.1 < caddyBase then !(full (e.1 / 2 * 2) && full (e.1 / 2 * 2 + 1))
    else !full e.1
  { s with dev := { s.dev with poison := p.filter keep } }

/-- Physical access by the device itself: table walks, rings, images, in plaintext or under a key slot (R37). -/
def State.readPaBytes (s : State) (slot pa n : Nat) : List Byte := (List.range n).map fun i => s.physRead (s.slotTag slot) (pa + i)
def State.readPa (s : State) (slot pa n : Nat) : Nat := ofLe (s.readPaBytes slot pa n)

end Sys2Proof.Machine
end

