-- ==== Sys2Proof/Machine/Flags.lean ====
section
/-! DEFINITION. Number formats, exact values, rounding, saturation and the FLAGS that a delivery raises (R98 to R114, R229). -/
namespace Sys2Proof.Machine

/-! ## Flags (R101) -/

def fINV : BitVec 5 := 16
def fDZ : BitVec 5 := 8
def fOF : BitVec 5 := 4
def fUF : BitVec 5 := 2
def fNX : BitVec 5 := 1

/-- An exact value: NaN (signalling or quiet), an infinity, or (-1)^neg · m · 2^e. -/
inductive FVal where
  | nan (sig : Bool)
  | inf (neg : Bool)
  | fin (neg : Bool) (m : Nat) (e : Int)
  deriving DecidableEq, Repr, Inhabited

/-- An IEEE format by exponent and fraction widths (R98). -/
structure FFmt where
  eb : Nat
  mb : Nat
  deriving DecidableEq, Repr, Inhabited
def f64F : FFmt := { eb := 11, mb := 52 }
def f32F : FFmt := { eb := 8, mb := 23 }
def f16F : FFmt := { eb := 5, mb := 10 }
def bf16F : FFmt := { eb := 8, mb := 7 }
def FFmt.bias (f : FFmt) : Int := 2 ^ (f.eb - 1) - 1
def FFmt.emin (f : FFmt) : Int := 1 - f.bias
/-- The canonical quiet NaN (R98). -/
def FFmt.qnan (f : FFmt) : Nat := (2 ^ f.eb - 1) * 2 ^ f.mb + 2 ^ (f.mb - 1)
def FFmt.infBits (f : FFmt) : Nat := (2 ^ f.eb - 1) * 2 ^ f.mb
def FFmt.signBit (f : FFmt) (neg : Bool) : Nat := if neg then 2 ^ (f.eb + f.mb) else 0

/-- The value of a bit pattern (R98, R100). -/
def FFmt.decode (f : FFmt) (b : Nat) : FVal :=
  let neg := b / 2 ^ (f.eb + f.mb) % 2 = 1
  let e := b / 2 ^ f.mb % 2 ^ f.eb
  let m := b % 2 ^ f.mb
  if e = 2 ^ f.eb - 1 then (if m = 0 then .inf neg else .nan (m / 2 ^ (f.mb - 1) = 0))
  else if e = 0 then .fin neg m (f.emin - f.mb)
  else .fin neg (2 ^ f.mb + m) ((e : Int) - f.bias - f.mb)

/-! ## Exact arithmetic -/

def FVal.isNan : FVal → Bool | .nan _ => true | _ => false
def FVal.isSig : FVal → Bool | .nan s => s | _ => false
def FVal.isInf : FVal → Bool | .inf _ => true | _ => false
def FVal.isZero : FVal → Bool | .fin _ m _ => m == 0 | _ => false
def FVal.neg : FVal → Bool | .nan _ => false | .inf n => n | .fin n _ _ => n
/-- NA and NB: the sign flips, a NaN stays (R220). -/
def FVal.negIf (b : Bool) (v : FVal) : FVal :=
  match v with | .nan s => .nan s | .inf n => .inf (n != b) | .fin n m e => .fin (n != b) m e
/-- Invalid of the operands: a signalling NaN (R100). -/
def sigInv (l : List FVal) : BitVec 5 := if l.any FVal.isSig then fINV else 0

/-- The signed integer a finite value is at a common exponent. -/
def FVal.scaled (v : FVal) (e : Int) : Int :=
  match v with
  | .fin n m k => let x : Int := m * 2 ^ (k - e).toNat; if n then -x else x
  | _ => 0
def FVal.exp : FVal → Int | .fin _ _ e => e | _ => 0
/-- Exact sum with the flags of its special cases; an exact zero sum of opposite signs is +0, or -0 under rd (R224). -/
def FVal.add (rnd : Rnd) (a b : FVal) : FVal × BitVec 5 :=
  match a, b with
  | .nan _, _ | _, .nan _ => (.nan false, 0)
  | .inf x, .inf y => if x = y then (.inf x, 0) else (.nan false, fINV)
  | .inf x, _ => (.inf x, 0)
  | _, .inf y => (.inf y, 0)
  | .fin x m e, .fin y n k =>
    let lo := min e k
    let s := a.scaled lo + b.scaled lo
    if s = 0 then
      if m = 0 ∧ n = 0 ∧ x = y then (.fin x 0 0, 0) else (.fin (rnd == .rd) 0 0, 0)
    else (.fin (s < 0) s.natAbs lo, 0)
/-- Exact product; infinity times zero is NaN and invalid (R100). -/
def FVal.mul (a b : FVal) : FVal × BitVec 5 :=
  match a, b with
  | .inf x, .fin y n _ => if n = 0 then (.nan false, fINV) else (.inf (x != y), 0)
  | .fin x m _, .inf y => if m = 0 then (.nan false, fINV) else (.inf (x != y), 0)
  | .inf x, .inf y => (.inf (x != y), 0)
  | .fin x m e, .fin y n k => (.fin (x != y) (m * n) (e + k), 0)
  | _, _ => (.nan false, 0)
/-- Product and sum; the flags of both (R224). -/
def FVal.fma (rnd : Rnd) (a b c : FVal) : FVal × BitVec 5 :=
  let (p, f) := a.mul b
  let (r, g) := p.add rnd c
  (r, f ||| (if p.isNan then 0 else g))
/-- Bits of the quotient kept beyond the result's precision, the last one sticky. -/
def guardBits : Nat := 130
/-- Quotient with a sticky last bit (R228). -/
def FVal.div (a b : FVal) : FVal × BitVec 5 :=
  match a, b with
  | .nan _, _ | _, .nan _ => (.nan false, 0)
  | .inf _, .inf _ => (.nan false, fINV)
  | .inf x, .fin y _ _ => (.inf (x != y), 0)
  | .fin x _ _, .inf y => (.fin (x != y) 0 0, 0)
  | .fin x m e, .fin y n k =>
    if n = 0 then (if m = 0 then (.nan false, fINV) else (.inf (x != y), fDZ))
    else
      let g := guardBits + n.log2
      let q := m * 2 ^ g / n
      let r := m * 2 ^ g % n
      (.fin (x != y) (2 * q + (if r = 0 then 0 else 1)) (e - k - g - 1), 0)
/-- Floor of a square root, bit by bit from 2^k down. -/
def isqrt (n : Nat) : Nat → Nat → Nat
  | 0, acc => if (acc + 1) * (acc + 1) ≤ n then acc + 1 else acc
  | k + 1, acc => isqrt n k (if (acc + 2 ^ (k + 1)) * (acc + 2 ^ (k + 1)) ≤ n then acc + 2 ^ (k + 1) else acc)
/-- Square root with a sticky last bit (R228). -/
def FVal.sqrt (a : FVal) : FVal × BitVec 5 :=
  match a with
  | .nan _ => (.nan false, 0)
  | .inf n => if n then (.nan false, fINV) else (.inf false, 0)
  | .fin n m e =>
    if m = 0 then (.fin n 0 0, 0)
    else if n then (.nan false, fINV)
    else
      let odd := e % 2 != 0
      let m' := (if odd then 2 * m else m) * 2 ^ (2 * guardBits)
      let e' := if odd then e - 1 else e
      let q := isqrt m' (m'.log2 / 2 + 1) 0
      (.fin false (2 * q + (if q * q = m' then 0 else 1)) (e' / 2 - guardBits - 1), 0)
/-- Compare two values that are not NaN. -/
def FVal.cmp (a b : FVal) : Ordering :=
  match a, b with
  | .inf x, .inf y => if x = y then .eq else if x then .lt else .gt
  | .inf x, _ => if x then .lt else .gt
  | _, .inf y => if y then .gt else .lt
  | _, _ => let lo := min a.exp b.exp; compare (a.scaled lo) (b.scaled lo)

/-! ## Rounding (R100, R102, R110) -/

/-- Whether a magnitude with remainder `rem` of `2^s` units is rounded away from zero. -/
def roundAway (rnd : Rnd) (neg : Bool) (n rem s : Nat) : Bool :=
  match rnd with
  | .rn => 2 * rem > 2 ^ s || (2 * rem == 2 ^ s && n % 2 == 1)
  | .rz => false
  | .ru => !neg && rem != 0
  | .rd => neg && rem != 0
/-- `m · 2^e` in units of `2^q`: the rounded count and whether it is inexact. -/
def roundTo (rnd : Rnd) (neg : Bool) (m : Nat) (e q : Int) : Nat × Bool :=
  if q ≤ e then (m * 2 ^ (e - q).toNat, false)
  else
    let s := (q - e).toNat
    let n := m / 2 ^ s
    let rem := m % 2 ^ s
    (if roundAway rnd neg n rem s then n + 1 else n, rem != 0)
/-- Whether an overflow goes to infinity (IEEE 754-2019). -/
def overToInf (rnd : Rnd) (neg : Bool) : Bool := match rnd with | .rn => true | .rz => false | .ru => !neg | .rd => neg
/-- RoundToFormat for an IEEE format (R100, R110): the bits and the flags of the rounding. -/
def FFmt.round (f : FFmt) (rnd : Rnd) (v : FVal) : Nat × BitVec 5 :=
  match v with
  | .nan _ => (f.qnan, 0)
  | .inf n => (f.infBits + f.signBit n, 0)
  | .fin neg m e =>
    if m = 0 then (f.signBit neg, 0)
    else
      let top : Int := (m.log2 : Int) + e
      let lo : Int := f.emin - f.mb
      let q := max (top - f.mb) lo
      let (n, ix) := roundTo rnd neg m e q
      let huge : Bool := (2 ^ f.eb - 2) * 2 ^ f.mb + 2 ^ f.mb ≤ (q - lo).toNat * 2 ^ f.mb + n
      if huge then
        ((if overToInf rnd neg then f.infBits else f.infBits - 1) + f.signBit neg, fOF ||| fNX)
      else
        let tiny := top < f.emin && !((roundTo rnd neg m e (top - f.mb)).1 == 2 ^ (f.mb + 1) && top + 1 == f.emin)
        ((q - lo).toNat * 2 ^ f.mb + n + f.signBit neg, (if ix then fNX else 0) ||| (if ix && tiny then fUF else 0))

/-- The largest finite value. -/
def FFmt.maxFin (f : FFmt) : FVal := .fin false (2 ^ (f.mb + 1) - 1) (2 ^ (f.eb - 1) - 1 - f.mb)

/-! ## The narrow family (R104 to R107) -/

namespace Nf
def bias (f : Word) : Int := sfld f 24 8
def exp (f : Word) : Nat := fld f 21 3
def man (f : Word) : Nat := fld f 18 3
def sgn (f : Word) : Nat := fld f 17 1
def special (f : Word) : Nat := fld f 15 2
def sub (f : Word) : Bool := f.getLsbD 14
def width (f : Word) : Nat := sgn f + exp f + man f
/-- R105; 0 marks an unset register. -/
def ok (f : Word) : Bool :=
  2 ≤ width f && width f ≤ 8 && special f != 3 && fld f 0 14 == 0 &&
  (special f != 1 || (sgn f == 1 && 1 ≤ exp f)) && (special f != 2 || (2 ≤ exp f && 1 ≤ man f)) &&
  (exp f != 0 || (special f == 0 && !sub f))
/-- DecodeNarrow (R106). -/
def decode (f : Word) (code0 : Nat) : FVal :=
  let w := width f
  let code := code0 % 2 ^ w
  if exp f = 0 then
    if sgn f = 1 ∧ 2 ^ (w - 1) ≤ code then .fin true (2 ^ w - code) (-(bias f)) else .fin false code (-(bias f))
  else
    let s := sgn f = 1 ∧ code / 2 ^ (w - 1) = 1
    let e := code / 2 ^ man f % 2 ^ exp f
    let m := code % 2 ^ man f
    if special f = 1 ∧ code = 2 ^ (w - 1) then .nan false
    else if special f = 2 ∧ e = 2 ^ exp f - 1 then (if m = 0 then .inf s else .nan false)
    else if e = 0 then
      if sub f then .fin s m (1 - bias f - man f) else .fin s 0 0
    else .fin s (2 ^ man f + m) ((e : Int) - bias f - man f)
/-- The largest finite code without its sign (R107). -/
def maxCode (f : Word) : Nat :=
  if special f = 2 then (2 ^ exp f - 2) * 2 ^ man f + 2 ^ man f - 1 else 2 ^ (exp f + man f) - 1
/-- EncodeNarrow (R107): the code and the flags. -/
def encode (f : Word) (rnd : Rnd) (v : FVal) : Nat × BitVec 5 :=
  let w := width f
  let sbit (n : Bool) : Nat := if n && sgn f == 1 then 2 ^ (w - 1) else 0
  let maxOf (n : Bool) : Nat :=
    if exp f = 0 then (if sgn f = 1 then (if n then 2 ^ (w - 1) else 2 ^ (w - 1) - 1) else 2 ^ w - 1)
    else maxCode f + sbit n
  match v with
  | .nan sig =>
    (match special f with | 0 => (0, fINV) | 1 => (2 ^ (w - 1), if sig then fINV else 0) | _ => (2 ^ (exp f + man f) - 1, if sig then fINV else 0))
  | .inf n =>
    if n ∧ sgn f = 0 then (0, fINV ||| fNX)
    else if special f = 2 then ((2 ^ exp f - 1) * 2 ^ man f + sbit n, 0)
    else (maxOf n, fINV)
  | .fin neg m e =>
    if m = 0 then (if neg ∧ sgn f = 1 ∧ 1 ≤ exp f ∧ special f ≠ 1 then (2 ^ (w - 1), 0) else (0, 0))
    else if neg ∧ sgn f = 0 then (0, fNX)
    else if exp f = 0 then
      let (n, ix) := roundTo rnd neg m e (-(bias f))
      let lim := if sgn f = 1 then (if neg then 2 ^ (w - 1) else 2 ^ (w - 1) - 1) else 2 ^ w - 1
      if lim < n then (maxOf neg, fOF ||| fNX)
      else ((if neg ∧ n ≠ 0 then 2 ^ w - n else n), if ix then fNX else 0)
    else
      let top : Int := (m.log2 : Int) + e
      let emin : Int := 1 - bias f
      let mb := man f
      let lo : Int := emin - mb
      let z (n : Nat) : Nat := if n = 0 ∧ special f = 1 then 0 else n + sbit neg
      let tiny := top < emin && !((roundTo rnd neg m e (top - mb)).1 == 2 ^ (mb + 1) && top + 1 == emin)
      if !sub f && top < emin then
        -- between zero and the smallest normal, as though adjacent codes; a tie goes to zero (R107)
        let away : Bool := match rnd with
          | .rn => m * 2 ^ (e - min e (emin - 1)).toNat > 2 ^ (emin - 1 - min e (emin - 1)).toNat
          | .rz => false | .ru => !neg | .rd => neg
        (if away then 2 ^ mb + sbit neg else z 0, fNX ||| (if tiny then fUF else 0))
      else
        let q := max (top - mb) lo
        let (n, ix) := roundTo rnd neg m e q
        let code := (q - lo).toNat * 2 ^ mb + n
        let big : FVal := .fin false (2 ^ mb + maxCode f % 2 ^ mb) ((maxCode f / 2 ^ mb : Nat) - bias f - mb)
        if (FVal.fin false m e).cmp big = .gt then
          -- beyond the largest finite value, by the exact value (R107, R108)
          (if special f ≠ 2 then maxOf neg
           else (if maxCode f < code then (if overToInf rnd neg then (2 ^ exp f - 1) * 2 ^ man f else maxCode f) else code) + sbit neg, fOF ||| fNX)
        else
          ((if n = 0 then z 0 else code + sbit neg), (if ix then fNX else 0) ||| (if ix && tiny then fUF else 0))
end Nf

/-! ## Delivery by type -/

/-- The IEEE format of a scalar type or of a packed type's element. -/
def Ty.ffmt : Ty → Option FFmt
  | .f64 => some f64F | .f32 => some f32F | .f16 | .f16x2 => some f16F | .bf16 | .bf16x2 => some bf16F | _ => none
def Ty.packed : Ty → Bool | .f16x2 | .bf16x2 => true | _ => false
/-- The exact value of a float or narrow operand in a register (R98, R99, R106). -/
def fvalue (fmt : Vector Word 8) (t : Ty) (b : DWord) : FVal :=
  match t with
  | .nf k => Nf.decode (vget fmt k.toNat) b.toNat
  | _ => match Ty.ffmt t with | some f => f.decode (b.toNat % 2 ^ (1 + f.eb + f.mb)) | none => .fin false 0 0
/-- RoundToFormat for any float or narrow type (R110). -/
def roundTy (fmt : Vector Word 8) (t : Ty) (rnd : Rnd) (v : FVal) : DWord × BitVec 5 :=
  match t with
  | .nf k => let (c, f) := Nf.encode (vget fmt k.toNat) rnd v; (BitVec.ofNat 64 c, f)
  | _ => match Ty.ffmt t with | some f => let (b, g) := f.round rnd v; (BitVec.ofNat 64 b, g) | none => (0, 0)
/-- Saturation of a float result to [+0, 1] (R103); clamping a value that differs is inexact (R100). -/
def satF (fmt : Vector Word 8) (t : Ty) (r : DWord × BitVec 5) : DWord × BitVec 5 :=
  let v := fvalue fmt t r.1
  match v with
  | .nan _ => (0, r.2 ||| fINV)
  | _ =>
    if v.isZero then (0, r.2)
    else if v.neg then (0, r.2 ||| fNX)
    else if v.cmp (.fin false 1 0) = .gt then ((roundTy fmt t .rn (.fin false 1 0)).1, r.2 ||| fNX)
    else r
/-- Out (R220): round, then saturate. -/
def fout (fmt : Vector Word 8) (t : Ty) (rnd : Rnd) (sat : Bool) (v : FVal) : DWord × BitVec 5 :=
  let r := roundTy fmt t rnd v
  if sat then satF fmt t r else r
/-- The canonical quiet NaN of a type. -/
def nanOf (fmt : Vector Word 8) (t : Ty) : DWord := (roundTy fmt t .rn (.nan false)).1

/-- Signed types. -/
def Ty.signed : Ty → Bool | .s32 | .s64 | .s8 | .s16 => true | _ => false
/-- Val (R201, R99): the exact integer of an operand under its type. -/
def ival (t : Ty) (b : DWord) : Int :=
  let w := t.width
  let n := b.toNat % 2 ^ w
  if Ty.signed t ∧ 2 ^ (w - 1) ≤ n then (n : Int) - 2 ^ w else n
def minOf (t : Ty) : Int := if Ty.signed t then -(2 ^ (t.width - 1)) else 0
def maxOf (t : Ty) : Int := if Ty.signed t then 2 ^ (t.width - 1) - 1 else 2 ^ t.width - 1
/-- The register bits of an integer result: 8 and 16 bits extend to 32 (R99). -/
def intBits (t : Ty) (v : Int) : DWord :=
  let w := t.width
  let n := (v % 2 ^ w).toNat
  if w < 32 ∧ Ty.signed t ∧ 2 ^ (w - 1) ≤ n then BitVec.ofNat 64 (n + 2 ^ 32 - 2 ^ w) else BitVec.ofNat 64 n
/-- Deliver (R201). -/
def deliver (t : Ty) (sat : Bool) (v : Int) : DWord :=
  intBits t (if sat then max (minOf t) (min v (maxOf t)) else v)
/-- A float value to an integer type (R110, R233): NaN gives 0, out of range the nearer bound, each invalid. -/
def toInt (t : Ty) (rnd : Rnd) (v : FVal) : DWord × BitVec 5 :=
  match v with
  | .nan _ => (0, fINV)
  | .inf n => (intBits t (if n then minOf t else maxOf t), fINV)
  | .fin neg m e =>
    let (n, ix) := roundTo rnd neg m e 0
    let x : Int := if neg then -(n : Int) else n
    if x < minOf t then (intBits t (minOf t), fINV)
    else if maxOf t < x then (intBits t (maxOf t), fINV)
    else (intBits t x, if ix then fNX else 0)
/-- An integer as an exact value. -/
def ofInt (x : Int) : FVal := .fin (x < 0) x.natAbs 0

/-! ## FP32 arithmetic of the engines and the bank units -/

def f32v (b : Nat) : FVal := f32F.decode (b % 2 ^ 32)
def f32r (v : FVal) : Nat := (f32F.round .rn v).1
def f32add (a b : Nat) : Nat := f32r ((f32v a).add .rn (f32v b)).1
def f32mul (a b : Nat) : Nat := f32r ((f32v a).mul (f32v b)).1
/-- Element-wise fadd of the atomics (R79, R239): rn, NaN canonical. -/
def atomFadd (t : Ty) (a b : Nat) : Nat :=
  match Ty.ffmt t with
  | none => 0
  | some f =>
    if Ty.packed t then
      let e (i : Nat) : Nat := (f.round .rn ((f.decode (a / 2 ^ (16 * i) % 2 ^ 16)).add .rn (f.decode (b / 2 ^ (16 * i) % 2 ^ 16))).1).1
      e 0 + 2 ^ 16 * e 1
    else (f.round .rn ((f.decode a).add .rn (f.decode b)).1).1
/-- AtomicResult (R239). -/
def atomicResult (op : AtomOp) (t : Ty) (old b cmp : DWord) : DWord :=
  let w := t.width
  let tr (v : Nat) : DWord := BitVec.ofNat 64 (v % 2 ^ w)
  let le : Bool := ival t old ≤ ival t b
  match op with
  | .add => tr (old.toNat + b.toNat)
  | .sub => tr (old.toNat + 2 ^ 64 - b.toNat)
  | .and => tr (old &&& b).toNat
  | .or => tr (old ||| b).toNat
  | .xor => tr (old ^^^ b).toNat
  | .min => if le then tr old.toNat else tr b.toNat
  | .max => if le then tr b.toNat else tr old.toNat
  | .exch => tr b.toNat
  | .cas => if tr old.toNat = tr cmp.toNat then tr b.toNat else tr old.toNat
  | .fadd => tr (atomFadd t (old.toNat % 2 ^ w) (b.toNat % 2 ^ w))
  | .incWrap => if (tr b.toNat).toNat ≤ (tr old.toNat).toNat then 0 else tr (old.toNat + 1)
  | .decWrap => if tr old.toNat = 0 ∨ (tr b.toNat).toNat < (tr old.toNat).toNat then tr b.toNat else tr (old.toNat + 2 ^ 64 - 1)

/-- CanonicalSum (R114) on FP32 bits: the accumulator and the products' exact values, 32 at a time through a pairwise tree. -/
def pairTree (fuel : Nat) (l : List Nat) : Nat :=
  match fuel, l with
  | 0, l => l.headD 0
  | _, [v] => v
  | k + 1, l => pairTree k ((List.range (l.length / 2)).map fun t => f32add (l.getD (2 * t) 0) (l.getD (2 * t + 1) 0))
def canonicalSum (c : Nat) (prods : List FVal) (slices : Nat) : Nat :=
  (List.range slices).foldl (fun acc j =>
    f32add acc (pairTree 6 ((List.range 32).map fun t => match prods[32 * j + t]? with | some v => f32r v | none => 0))) c

/-- The exact sum of finite values. -/
def exactSum (l : List FVal) : FVal := l.foldl (fun a v => (a.add .rn v).1) (.fin false 0 0)
def FVal.abs (v : FVal) : FVal := match v with | .nan s => .nan s | .inf _ => .inf false | .fin _ m e => .fin false m e
/-- An FP32 candidate within `bound` (a multiple `k · 2^e` of `scale`) of an exact value. -/
def within (cand : Nat) (exact scale : FVal) (k : Nat) (e : Int) : Bool :=
  match f32v cand with
  | .fin n m x =>
    let d := ((FVal.fin n m x).add .rn (exact.negIf true)).1.abs
    let b := (scale.mul (.fin false k e)).1
    d.cmp b != .gt
  | _ => false

end Sys2Proof.Machine
end

