-- ==== Sys2Proof/Machine/Translate.lean ====
section
/-! DEFINITION. Translation: page tables, the tests of R33 in their order, and the TLBs with their merged entries (R28 to R37). -/
namespace Sys2Proof.Machine

/-- What an access does to a page: a thread's read, write or atomic, an engine's write, a clause fetch (R32, R33). -/
inductive Acc where | read | write | engine | fetch
  deriving DecidableEq, Repr, Inhabited
/-- A failed translation: sub-cause, and the level of sub-cause 0x02 (R33). Sub-cause 0, which no trap carries, is the model's own: nothing
failed, and the access waits for the region table (R44). -/
structure XFail where
  sub : Nat
  level : Nat := 0
  deriving DecidableEq, Repr, Inhabited
def XFail.held (f : XFail) : Bool := f.sub == 0
/-- The trap cause of a failed translation (R33). -/
def XFail.cause (f : XFail) (a : Acc) : Nat :=
  match f.sub with
  | 2 => (match a with | .fetch => 0x08 | .read => 0x09 | _ => 0x0A)
  | 3 | 5 => 0x0A
  | 4 => 0x08
  | _ => 0x0B
/-- TRAP_AUX of a failed translation (R33). -/
def XFail.aux (f : XFail) : DWord := BitVec.ofNat 64 (f.sub + if f.sub = 2 then f.level * 256 else 0)

/-- The attributes of a mapped page (R31). -/
structure Page where
  pn : Nat := 0
  key : Nat := 0
  heap : Bool := false
  mig : Bool := false
  snap : Bool := false
  x : Bool := false
  w : Bool := false
  deriving DecidableEq, Repr, Inhabited
def Page.ofPte (e : DWord) : Page :=
  { pn := fld e 16 36, key := fld e 58 6, heap := e.getLsbD 7, mig := e.getLsbD 6, snap := e.getLsbD 5, x := e.getLsbD 3, w := e.getLsbD 2 }
/-- Reserved bits of a level-0 entry and of a table pointer (R30, R31). -/
def pteRsv (e : DWord) : Bool := fld e 52 6 != 0 || fld e 8 8 != 0 || e.getLsbD 4 || e.getLsbD 1
def ptrRsv (e : DWord) : Bool := fld e 52 12 != 0 || fld e 1 12 != 0

/-- Whether a context may name a key slot (R25, R38). -/
def State.keyOk (s : State) (x key : Nat) : Bool := (s.creg x .keyAllow).getLsbD key

/-- A pointer that the walker's cache of a cluster holds: the next table below a level (R34). -/
def State.ptr? (s : State) (cl : Option Nat) (x va level : Nat) : Option Nat :=
  match cl with
  | none => none
  | some c => ((vget s.clusters c).ptrs.find? fun e => e.ctx == x && e.level == level && e.vn == va / 2 ^ (16 + 10 * level)).map (·.next)
/-- What a walker reads of a table below the root, by the pointer's own tests (test 4 of R33). -/
def State.ptrRead (s : State) (key va table level : Nat) : Except XFail Nat :=
  let a := table + 8 * (va / 2 ^ (16 + 10 * level) % 1024)
  let e := BitVec.ofNat 64 (s.readPa key a 8)
  let next := fld e 13 39 * 2 ^ 13
  if s.rtHeld a then .error { sub := 0 }
  else if !e.getLsbD 0 then .error { sub := 2, level }
  else if ptrRsv e then .error { sub := 6 }
  else if next + 8192 > Config.gddrBytes || (s.route next).isNone then .error { sub := 8 } else .ok next
/-- The tables from a level down, through the pointer cache of cluster `cl`: the physical address of the level-0 entry and the entry (test 4 of R33). -/
def State.walkFrom (s : State) (cl : Option Nat) (x key va table : Nat) : Nat → Except XFail (Nat × DWord)
  | 0 =>
    let a := table + 8 * (va / 2 ^ 16 % 1024)
    let e := BitVec.ofNat 64 (s.readPa key a 8)
    if s.rtHeld a then .error { sub := 0 }
    else if !e.getLsbD 0 then .error { sub := 2, level := 0 }
    else if pteRsv e then .error { sub := 6 } else .ok (a, e)
  | l + 1 =>
    match s.ptr? cl x va (l + 1) with
    | some next => s.walkFrom cl x key va next l
    | none => match s.ptrRead key va table (l + 1) with
      | .error f => .error f
      | .ok next => s.walkFrom cl x key va next l
/-- The pointers that such a walk reads, the highest level first, each with where it stands. -/
def State.walkPtrs (s : State) (cl : Option Nat) (x key va table : Nat) : Nat → List (Nat × PtrEntry)
  | 0 => []
  | l + 1 =>
    match s.ptr? cl x va (l + 1) with
    | some next => s.walkPtrs cl x key va next l
    | none => match s.ptrRead key va table (l + 1) with
      | .error _ => []
      | .ok next => (table + 8 * (va / 2 ^ (16 + 10 * (l + 1)) % 1024), { ctx := x, level := l + 1, vn := va / 2 ^ (16 + 10 * (l + 1)), next }) :: s.walkPtrs cl x key va next l
/-- The tests of R33 before the tables (tests 1 to 3). -/
def State.rootFail (s : State) (x va : Nat) : Option XFail :=
  let r := s.creg x .ptRoot
  if 2 ^ 56 ≤ va then some { sub := 1 }
  else if !r.getLsbD 0 then some { sub := 2, level := 3 }
  else if !s.keyOk x (fld r 58 6) then some { sub := 7 } else none
def State.rootOf (s : State) (x : Nat) : Nat := fld (s.creg x .ptRoot) 13 39 * 2 ^ 13
/-- A walk from the root (tests 1 to 4 of R33). DESIGN CHOICE (log entry 20): a root table outside package GDDR7, or unrouted, is sub-cause
0x08, tested after test 3 and before the level-3 entry; R33's order names no test of it. -/
def State.walk (s : State) (cl : Option Nat) (x va : Nat) : Except XFail (Nat × DWord) :=
  match s.rootFail x va with
  | some f => .error f
  | none =>
    let root := s.rootOf x
    if root + 8192 > Config.gddrBytes || (s.route root).isNone then .error { sub := 8 }
    else s.walkFrom cl x (fld (s.creg x .ptRoot) 58 6) va root 3

/-- The address of a region's entry in the region state table (R131). -/
def State.hrtAddr (s : State) (x rg : Nat) : Nat := fld (s.creg x .hrtBase) 12 40 * 4096 + 16 * rg
/-- A physical address that a table read can use (R135). -/
def State.tableOk (s : State) (a : Nat) : Bool := a < Config.gddrBytes && (s.route a).isSome
/-- What the raw-heap rule finds at a virtual address: PINS of its region is 0, or lies where no table can be read (R32, R131, R135, R141). -/
def State.unpinned (s : State) (x va : Nat) : Option XFail :=
  let base := fld (s.creg x .heapVbase) 21 35 * 2 ^ 21
  let rg := (va - base) / 2 ^ 21
  if va < base ∨ fld (s.creg x .heapNreg) 0 16 ≤ rg then some { sub := 0xA }
  else if !s.tableOk (s.hrtAddr x rg) then some { sub := 8 }
  else if s.readPa 0 (s.hrtAddr x rg) 8 / 2 ^ 32 % 2 ^ 16 = 0 then some { sub := 0xA } else none

/-- The tests of R33 at the page (test 5); `raw` marks a raw global access (R32). -/
def State.pageTests (s : State) (x va : Nat) (a : Acc) (raw : Bool) (p : Page) : Option XFail :=
  if (a = .write ∨ a = .engine) ∧ !p.w then some { sub := 3 }
  else if a = .fetch ∧ !p.x then some { sub := 4 }
  else if a = .write ∧ p.mig then some { sub := 5 }
  else if !s.keyOk x p.key then some { sub := 7 }
  else if !s.paOk (p.pn * 2 ^ 16 + va % 2 ^ 16) then some { sub := 8 }
  else if raw && p.heap then s.unpinned x va
  else none

/-- The page of a TLB entry that covers an address (R34, R35). -/
def TlbEntry.page? (e : TlbEntry) (x va : Nat) : Option Page :=
  let attrs (pn : Nat) : Page := { pn, key := e.key, heap := e.heap, mig := e.mig, snap := e.snap, x := e.x, w := e.w }
  if e.ctx ≠ x then none
  else if e.single then (if e.vn = va / 2 ^ 16 then some (attrs e.pn) else none)
  else if e.vn = va / 2 ^ 20 ∧ e.mask.getLsbD (va / 2 ^ 16 % 16) then some (attrs (e.pn + va / 2 ^ 16 % 16)) else none
/-- Cached attributes that would fault are walked again (R36); a page under migration is, for every access but a read. -/
def Page.attrsOk (p : Page) (a : Acc) : Bool :=
  !((a = .write ∨ a = .engine) ∧ !p.w) && !(a = .fetch ∧ !p.x) && !(a ≠ .read ∧ p.mig)
/-- The newest entry of a TLB that serves an access. -/
def tlbHit (l : List TlbEntry) (x va : Nat) (a : Acc) : Option (TlbEntry × Page) :=
  l.findSome? fun e => ((e.page? x va).filter (·.attrsOk a)).map fun p => (e, p)

/-- The page of an address as core `core` of the device finds it: from its TLB, its cluster's, or the tables (R34, R36). -/
def State.pageOf (s : State) (core : Option Nat) (x va : Nat) (a : Acc) : Except XFail Page :=
  let hit : Option (TlbEntry × Page) :=
    match core with
    | some c => (tlbHit (vget s.cores c).tlb x va a).or (tlbHit (vget s.clusters (c / 192)).tlb x va a)
    | none => none
  match s.rootFail x va with
  | some f => .error f
  | none =>
    match hit with
    | some (_, p) => .ok p
    | none => match s.walk (core.map (· / 192)) x va with
      | .ok (_, e) => .ok (Page.ofPte e)
      | .error f => .error f

/-- A translation: the location an address names, or the first failing test; at the end the refusal of a peer, and the wait of a request
that its region table entry holds. An address of this package in the peer range is the GDDR7 address, and only GDDR7 has a key (R25, R26, R33, R44). -/
def State.xlate (s : State) (core : Option Nat) (x va : Nat) (a : Acc) (raw : Bool := true) : Except XFail (Nat × Page) :=
  match s.pageOf core x va a with
  | .error f => .error f
  | .ok p =>
    let pa := ownPa (p.pn * 2 ^ 16 + va % 2 ^ 16)
    match s.pageTests x va a raw p with
    | some f => .error f
    | none =>
      if peerRefuses pa then .error { sub := 8 }
      else if s.rtHeld pa then .error { sub := 0 }
      else .ok ((if pa < Config.gddrBytes then s.slotTag p.key * keyUnit else 0) + pa, p)

/-- The entry a walk makes for the missed page: the group of 16 with its validity mask, or a single page when MIG = 1 (R35). DESIGN CHOICE (log
entry 20): a page whose PFN minus its position in the group is negative, or no multiple of 1 MiB, has no 1 MiB-aligned physical group and is cached alone. -/
def State.tlbEntry (s : State) (cl : Option Nat) (x va : Nat) : Option TlbEntry :=
  match s.walk cl x va with
  | .error _ => none
  | .ok (a, e) =>
    let p := Page.ofPte e
    let attrs : TlbEntry := { ctx := x, key := p.key, heap := p.heap, snap := p.snap, x := p.x, w := p.w, mig := p.mig }
    let j := va / 2 ^ 16 % 16
    if p.mig || p.pn % 16 != j then some { attrs with single := true, vn := va / 2 ^ 16, pn := p.pn }
    else
      let key := fld (s.creg x .ptRoot) 58 6
      let ok (i : Nat) : Bool :=
        let f := BitVec.ofNat 64 (s.readPa key (a - 8 * j + 8 * i) 8)
        f.getLsbD 0 && !pteRsv f && Page.ofPte f == { p with pn := p.pn - j + i, mig := false }
      some { attrs with vn := va / 2 ^ 20, pn := p.pn - j, mask := ofBits 16 ((List.range 16).filter ok) }
/-- Remove the last entry of a list that meets a test. -/
def dropLast {α : Type} (f : α → Bool) (l : List α) : List α := (l.reverse.eraseP f).reverse
/-- The set of a cluster's TLB that an entry stands in: 2,048 entries in 8 ways (R34); the low bits of the group number name it (log entry 20). -/
def TlbEntry.set (e : TlbEntry) : Nat := (if e.single then e.vn / 16 else e.vn) % 256
/-- Put an entry at the head of a TLB: an entry of the same groups and attributes gains the mask bits instead (R35); beyond `cap` entries
that `same` picks, the oldest of them is dropped. -/
def tlbInsert (cap : Nat) (same : TlbEntry → Bool) (l : List TlbEntry) (e : TlbEntry) : List TlbEntry :=
  if l.any fun f => { f with mask := e.mask } == e then l.map fun f => if { f with mask := e.mask } == e then { f with mask := f.mask ||| e.mask } else f
  else e :: (if cap ≤ (l.filter same).length then dropLast same l else l)
/-- The entries of a TLB without what they say of one page (R36: an entry is refreshed from what a walk reads). -/
def tlbForget (l : List TlbEntry) (x va : Nat) : List TlbEntry :=
  l.filterMap fun e =>
    if (e.page? x va).isNone then some e
    else if e.single then none
    else
      let m := e.mask &&& ~~~ BitVec.ofNat 16 (2 ^ (va / 2 ^ 16 % 16))
      if m = 0 then none else some { e with mask := m }
def State.coreTlb (s : State) (core : Nat) (f : List TlbEntry → List TlbEntry) : State := { s with cores := vmod s.cores core fun c => { c with tlb := f c.tlb } }
def State.clusterTlb (s : State) (cl : Nat) (f : List TlbEntry → List TlbEntry) : State := { s with clusters := vmod s.clusters cl fun c => { c with tlb := f c.tlb } }
/-- Whether an access misses in the core's TLB (R303 event 9). -/
def State.tlbMiss (s : State) (core x va : Nat) (a : Acc) : Bool := (tlbHit (vget s.cores core).tlb x va a).isNone
/-- What the TLBs of a core and its cluster say of a page is forgotten where it would fault for an access (R36). -/
def State.tlbRefresh (s : State) (core x va : Nat) (a : Acc) : State :=
  if (tlbHit (vget s.cores core).tlb x va a).isSome || (tlbHit (vget s.clusters (core / 192)).tlb x va a).isSome then s
  else (s.coreTlb core (tlbForget · x va)).clusterTlb (core / 192) (tlbForget · x va)
/-- The TLBs after core `core` looked an address up (R34 to R36): on a miss the cluster's entry comes to the core, or a walk's to both, and the
pointers that the walk read to the walker's cache of 256; the context reached the tables (R377). -/
def State.tlbFill (s : State) (core x va : Nat) (a : Acc) : State :=
  let cl := core / 192
  if (tlbHit (vget s.cores core).tlb x va a).isSome then s
  else match tlbHit (vget s.clusters cl).tlb x va a with
  | some (e, _) => s.coreTlb core fun l => tlbInsert 64 (fun _ => true) (tlbForget l x va) e
  | none =>
    let s1 := s.tlbRefresh core x va a
    match s.tlbEntry (some cl) x va with
    | none => s1
    | some e =>
      let ps := s.walkPtrs (some cl) x (fld (s.creg x .ptRoot) 58 6) va (s.rootOf x) 3
      let s2 := (s1.coreTlb core (tlbInsert 64 (fun _ => true) · e)).clusterTlb cl (tlbInsert 8 (·.set == e.set) · e)
      let at0 := match s.walk (some cl) x va with | .ok (a, _) => [a] | .error _ => []
      { s2 with clusters := vmod s2.clusters cl fun c => { c with ptrs := (ps.map (·.2) ++ c.ptrs).take 256 } } |> fun s => (ps.map (·.1) ++ at0).foldl (·.reachLoc x ·) s
/-- As `tlbFill`; and the context reached what the address names (R377). -/
def State.tlbUse (s : State) (core x va : Nat) (a : Acc) : State :=
  match s.xlate (some core) x va a (raw := false) with
  | .ok (loc, _) => (s.tlbFill core x va a).reachLoc x loc
  | .error _ => s.tlbFill core x va a
/-- Whether an entry is a context's, and covers a page where one is given. -/
def TlbEntry.covers (x : Nat) (page : Option Nat) (e : TlbEntry) : Bool :=
  e.ctx == x && (match page with | none => true | some va => e.vn == va / 2 ^ (if e.single then 16 else 20))
/-- The physical pages that an entry names. -/
def TlbEntry.frames (e : TlbEntry) : List Nat :=
  (if e.single then [e.pn] else (bitsOf (e.mask.setWidth 32)).map (e.pn + ·)).map fun n => ownPa (n * 2 ^ 16) / 2 ^ 16
/-- The physical pages of the entries that a removal takes out of the TLBs (R301). -/
def State.tlbFrames (s : State) (x : Nat) (page : Option Nat) : List Nat :=
  (((s.cores.toList.flatMap (·.tlb) ++ s.clusters.toList.flatMap (·.tlb)).filter (·.covers x page)).flatMap TlbEntry.frames).eraseDups
/-- Remove entries from every TLB and pointer cache: all of a context's, or those covering a page and the pointers on its path (R38, R301). -/
def State.tlbDrop (s : State) (x : Nat) (page : Option Nat) : State :=
  let keepPtr (e : PtrEntry) : Bool :=
    e.ctx != x || (match page with | none => false | some va => e.vn != va / 2 ^ (16 + 10 * e.level))
  { s with cores := s.cores.map fun c => { c with tlb := c.tlb.filter (!·.covers x page) },
           clusters := s.clusters.map fun c => { c with tlb := c.tlb.filter (!·.covers x page), ptrs := c.ptrs.filter keepPtr } }

end Sys2Proof.Machine
end

