-- ==== Sys2Proof/Machine/Tiles.lean ====
section
/-! DEFINITION. Surfaces as the banks see them: formats, where a texel lives, tile states and the spill image, read only (R46 to R57, R64, R65, R74). -/
namespace Sys2Proof.Machine

/-- Bytes per texel of a format; 0 for the weight formats and the reserved codes (R51). -/
def fmtBytes : Nat → Nat
  | 0x01 => 1 | 0x04 | 0x0E => 2 | 0x02 | 0x03 | 0x05 | 0x07 | 0x0A => 4 | 0x06 | 0x08 | 0x0B | 0x0C | 0x0D => 8 | 0x09 => 16 | _ => 0
/-- Channel widths from bit 0 upwards (R51). -/
def fmtChans : Nat → List Nat
  | 0x01 => [8] | 0x02 => [8, 8, 8, 8] | 0x03 => [10, 10, 10, 2] | 0x04 | 0x0E => [16] | 0x05 => [16, 16] | 0x06 => [16, 16, 16, 16]
  | 0x07 | 0x0A => [32] | 0x08 | 0x0B | 0x0C => [32, 32] | 0x09 => [32, 32, 32, 32] | 0x0D => [32, 8] | _ => []
/-- What the channels of a format are. -/
inductive ChanKind where | norm | fp16 | fp32 | bf16 | uint | vis | depth | weight
  deriving DecidableEq, Repr, Inhabited
def fmtKind : Nat → ChanKind
  | 0x01 | 0x02 | 0x03 => .norm | 0x04 | 0x05 | 0x06 => .fp16 | 0x07 | 0x08 | 0x09 => .fp32 | 0x0A | 0x0B => .uint | 0x0C => .vis
  | 0x0D => .depth | 0x0E => .bf16 | _ => .weight
def fmtOk (f : Nat) : Bool := (1 ≤ f && f ≤ 0x0E) || f == 0x10 || f == 0x11

namespace Surf
def word (u : Surface) (i : Nat) : DWord := vget u.w i
def format (u : Surface) : Nat := fld (word u 0) 56 8
def width (u : Surface) : Nat := fld (word u 0) 42 14 + 1
def height (u : Surface) : Nat := fld (word u 0) 28 14 + 1
def layers (u : Surface) : Nat := fld (word u 0) 20 8 + 1
def gran (u : Surface) : Nat := 8 * 2 ^ fld (word u 0) 18 2
def comp (u : Surface) : Bool := (word u 0).getLsbD 17
def prio (u : Surface) : Nat := fld (word u 0) 14 3
def pin (u : Surface) : Bool := (word u 0).getLsbD 13
def frameClass (u : Surface) : Bool := (word u 0).getLsbD 12
def valid (u : Surface) : Bool := (word u 0).getLsbD 11
def clrix (u : Surface) : Nat := fld (word u 1) 56 8
def home (u : Surface) (n : Nat) : Nat := if n = 0 then fld (word u 1) 0 18 else fld (word u 1) 32 18
def spill (u : Surface) : Nat := (word u 2).toNat
def tmap (u : Surface) : Nat := (word u 3).toNat
def bytes (u : Surface) : Nat := fmtBytes (format u)
def weight (u : Surface) : Bool := format u == 0x10 || format u == 0x11
def bw (u : Surface) : Nat := ceilDiv (width u) (gran u)
def bh (u : Surface) : Nat := ceilDiv (height u) (gran u)
/-- Blocks of one layer of parity `n` (R52). -/
def bcount (u : Surface) (n : Nat) : Nat := if n = 0 then ceilDiv (bw u * bh u) 2 else bw u * bh u / 2
/-- Blocks of parity `n` before block (bx, by) in row order (R52). -/
def before (u : Surface) (n bx by_ : Nat) : Nat :=
  by_ / 2 * bw u + (if by_ % 2 = 1 then (if n = 0 then ceilDiv (bw u) 2 else bw u / 2) else 0) +
  (if (by_ + n) % 2 = 0 then ceilDiv bx 2 else bx / 2)
def tpb (u : Surface) : Nat := (gran u / 4) * (gran u / 4)
/-- Tiles of the surface on stack side `n` (R52). -/
def tcount (u : Surface) (n : Nat) : Nat := layers u * bcount u n * tpb u
/-- Bytes of a row block of a weight surface, in whole frames (R74). -/
def wblockBytes (u : Surface) : Nat := 4096 * ceilDiv ((if format u = 0x10 then width u * 32 else width u * 16) + width u) 4096
/-- Frames of the surface on stack side `n` (R52, R74). -/
def frames (u : Surface) (n : Nat) : Nat :=
  if weight u then (if n = 0 then ceilDiv (height u / 32) 2 else height u / 32 / 2) * (wblockBytes u / 4096)
  else ceilDiv (tcount u n * 16 * bytes u) 4096
/-- Interleave (R52): bit i of a at 2i, bit i of b at 2i + 1. -/
def interleave (a b : Nat) : Nat := (List.range 7).foldl (fun m i => m + (a / 2 ^ i % 2) * 4 ^ i + 2 * (b / 2 ^ i % 2) * 4 ^ i) 0
/-- The side, the tile index on it, the spill index and the texel in its tile (R52). -/
def place (u : Surface) (x y layer : Nat) : Nat × Nat × Nat × Nat :=
  let g := gran u
  let bx := x / g
  let by_ := y / g
  let n := (bx + by_) % 2
  let m := interleave (x % g / 4) (y % g / 4)
  let loc := (layer * bcount u n + before u n bx by_) * tpb u + m
  (n, loc, (if n = 0 then loc else tcount u 0 + loc), interleave (x % 4) (y % 4))
/-- The side and the tile index of a spill index. -/
def side (u : Surface) (t : Nat) : Nat × Nat := if t < tcount u 0 then (0, t) else (1, t - tcount u 0)
/-- The state of a tile: 0 resident, 1 spilled, 2 clear, 3 spilled with poisoned data (R53). -/
def tile (u : Surface) (t : Nat) : Nat := ((u.tiles.find? (·.1 == t)).map (·.2)).getD 2
end Surf

/-- The stack that holds the blocks of a parity: the other one once a stack is offline (R12, R379). -/
def State.stackOf (s : State) (n : Nat) : Nat := if s.stackOff n then 1 - n else n
/-- A surface that is freed is no stream's last good frame any more (R392). -/
def State.dropGood (s : State) (x h : Nat) : State :=
  { s with dev := { s.dev with soGood := s.dev.soGood.map fun g => if g == (x, h) then (0, 0) else g } }
/-- A surface of a context by handle, valid or still draining. -/
def State.surf? (s : State) (x h : Nat) : Option Surface := (s.ctx x).surfaces.find? (fun u => u.handle == h)
def State.validSurf? (s : State) (x h : Nat) : Option Surface := (s.surf? x h).filter (fun u => h != 0 && Surf.valid u)
def State.setSurf (s : State) (x : Nat) (u : Surface) : State :=
  s.modCtx x fun c => { c with surfaces := c.surfaces.map fun v => if v.handle = u.handle then u else v }
/-- The frame that a frame-table index names on the stack that serves side `n`; none when absent (R53). -/
def State.frameAt (s : State) (x h n ix : Nat) : Option Nat :=
  match (vget s.dev.frameTab (s.stackOf n)).find? (fun e => e.ix == ix && e.x == x && e.handle == h) with
  | some e => e.frame
  | none => none
/-- The storage key of a byte of a surface's storage on side `n`, if its frame is present. -/
def State.surfKey (s : State) (x : Nat) (u : Surface) (n off : Nat) : Option Nat :=
  (s.frameAt x u.handle n (Surf.home u n + off / 4096)).map fun f => frameKey (s.stackOf n) f (off % 4096)

/-- Bytes at a virtual address of a context as the device reads them at the homes; none when the translation fails (R37). -/
def State.readVa (s : State) (x va n : Nat) : Option (List Byte) :=
  (List.range n).mapM fun i =>
    match s.xlate none x (va + i) .read (raw := false) with
    | .ok (loc, _) => some (s.physRead (loc / keyUnit) (loc % keyUnit))
    | .error _ => none
/-- The clear value of a surface (R56); bits [63:40] of a D32FS8 texel read as zero (R51). -/
def State.clearTexel (s : State) (x : Nat) (u : Surface) : List Byte :=
  let bs := s.readPaBytes 0 (fld (s.creg x .clrBase) 12 40 * 4096 + 16 * Surf.clrix u) (Surf.bytes u)
  if Surf.format u = 0x0D then bs.take 5 ++ List.replicate 3 0 else bs

/-! ## The spill code (R64, R65) -/

/-- Bytes of a slot (R64). -/
def Surf.slotBytes (u : Surface) : Nat := 32 * ceilDiv (16 * Surf.bytes u) 32
def Surf.slotAt (u : Surface) (t : Nat) : Nat :=
  Surf.spill u + 4096 * ceilDiv (Surf.tcount u 0 + Surf.tcount u 1) 4096 + t * Surf.slotBytes u
/-- The value of channel `c` of each of the 16 texels, from a tile's bytes. -/
def chanVals (f : Nat) (tile : List Byte) (c : Nat) : List Nat :=
  let lo := ((fmtChans f).take c).sum
  let w := (fmtChans f).getD c 0
  (List.range 16).map fun i => ofLe ((tile.drop (i * fmtBytes f)).take (fmtBytes f)) / 2 ^ lo % 2 ^ w
/-- A w-bit difference read as signed. -/
def sdelta (w v v0 : Nat) : Int :=
  let d := (v + 2 ^ w - v0) % 2 ^ w
  if 2 * d < 2 ^ w then (d : Int) else (d : Int) - 2 ^ w
/-- The least width that holds every difference (R65). -/
def deltaWidth (w : Nat) (ds : List Int) : Nat :=
  ((List.range (w + 1)).find? fun d =>
    if d = 0 then ds.all (· == 0) else ds.all fun x => -(2 ^ (d - 1) : Int) ≤ x && x ≤ 2 ^ (d - 1) - 1).getD w
/-- A tile's bitstream as a number and its length in bits (R65). -/
def tileCode (f : Nat) (tile : List Byte) : Nat × Nat :=
  (List.range (fmtChans f).length).foldl (fun acc c =>
    let w := (fmtChans f).getD c 0
    let vs := chanVals f tile c
    let v0 := vs.headD 0
    let ds := vs.tail.map (sdelta w · v0)
    let d := deltaWidth w ds
    let put (a : Nat × Nat) (v n : Nat) : Nat × Nat := (a.1 + v % 2 ^ n * 2 ^ a.2, a.2 + n)
    ds.foldl (fun a x => put a (x % 2 ^ d).toNat d) (put (put acc d 6) v0 w)) (0, 0)
/-- The descriptor byte and the bytes of the sectors written (R64, R65). DESIGN CHOICE (log entry 19): the bytes of a raw slot beyond the tile's
own, which the spec does not name, are zeros. -/
def tileImage (u : Surface) (tile : List Byte) (raw : Bool) : Byte × List Byte :=
  let (v, n) := tileCode (Surf.format u) tile
  let sect := ceilDiv n 256
  if raw || !Surf.comp u || Surf.slotBytes u / 32 ≤ sect then
    (BitVec.ofNat 8 (128 + 8 * (Surf.slotBytes u / 32)), tile ++ List.replicate (Surf.slotBytes u - tile.length) 0)
  else (BitVec.ofNat 8 (8 * sect), leBytes (32 * sect) v)
/-- A tile's bytes from the bitstream (R65). -/
def tileDecode (f v : Nat) : List Byte :=
  let step (acc : List (List Nat) × Nat) (w : Nat) : List (List Nat) × Nat :=
    let at_ := acc.2
    let d := v / 2 ^ at_ % 64
    let v0 := v / 2 ^ (at_ + 6) % 2 ^ w
    let dv (i : Nat) : Nat :=
      let x := v / 2 ^ (at_ + 6 + w + d * i) % 2 ^ d
      let sx : Int := if d ≠ 0 ∧ 2 ^ d ≤ 2 * x then (x : Int) - 2 ^ d else x
      (((v0 : Int) + sx) % 2 ^ w).toNat
    (acc.1 ++ [v0 :: (List.range 15).map dv], at_ + 6 + w + 15 * d)
  let cols := ((fmtChans f).foldl step ([], 0)).1
  (List.range 16).flatMap fun i =>
    let texel := ((List.range (fmtChans f).length).foldl (fun (a : Nat × Nat) c =>
      (a.1 + ((cols.getD c []).getD i 0) * 2 ^ a.2, a.2 + (fmtChans f).getD c 0)) (0, 0)).1
    leBytes (fmtBytes f) texel

/-- The 16 texels that a tile's storage holds, whatever its state (R55, R56, R62); zeros for a lost one (R379); none when the spill area does not
translate. -/
def State.tileStored (s : State) (x : Nat) (u : Surface) (t : Nat) : Option (List Byte) :=
  let (n, loc) := Surf.side u t
  let sz := 16 * Surf.bytes u
  let clear := (List.replicate 16 (s.clearTexel x u)).flatten
  match Surf.tile u t with
  | 0 => some ((List.range sz).map fun i => match s.surfKey x u n (loc * sz + i) with | some k => s.mem.read k | none => 0)
  | 2 => some clear
  | _ =>
    match s.readVa x (Surf.spill u + t) 1 with
    | some [d] =>
      if d = 0 ∧ Surf.tile u t = 3 then some (List.replicate sz 0)
      else if d.getLsbD 7 then s.readVa x (Surf.slotAt u t) sz
      else (s.readVa x (Surf.slotAt u t) (32 * fld d 3 4)).map fun bs => tileDecode (Surf.format u) (ofLe bs)
    | _ => none

def TileWait.pos : TileWait → Nat
  | .byte p _ => p
  | .op p _ _ _ => p
/-- A tile's bytes after a store or an update that waited for them. -/
def TileWait.apply (bs : List Byte) (w : TileWait) : List Byte :=
  let i := w.pos % 256
  match w with
  | .byte _ b => bs.set i b
  | .op _ o ty v =>
    let n := ty.width / 8
    let new := (atomicResult o ty (BitVec.ofNat 64 (ofLe ((bs.drop i).take n))) v 0).toNat
    bs.take i ++ leBytes n new ++ bs.drop (i + n)
/-- A tile's bytes with everything that waits at its bank, in order (R55). -/
def Surf.settled (u : Surface) (t : Nat) (bs : List Byte) : List Byte :=
  (u.waiting.filter fun w => w.pos / 256 == t).foldl TileWait.apply bs
/-- The 16 texels of a tile: what its storage holds, and on top of it what waits at the bank. -/
def State.tileData (s : State) (x : Nat) (u : Surface) (t : Nat) : Option (List Byte) := (s.tileStored x u t).map (Surf.settled u t)

/-! ## Texel locations -/

def texelLoc (x h layer px py byte : Nat) : Nat :=
  texelBase + ((((x * 4096 + h) * 256 + layer) * 16384 + py) * 16384 + px) * 16 + byte
/-- Context, handle, layer, x, y and byte of a texel location. -/
structure TexelAt where
  x : Nat
  h : Nat
  layer : Nat
  px : Nat
  py : Nat
  byte : Nat
  deriving DecidableEq, Repr
def texelAt (a : Nat) : TexelAt :=
  let v := a - texelBase
  { byte := v % 16, px := v / 2 ^ 4 % 2 ^ 14, py := v / 2 ^ 18 % 2 ^ 14, layer := v / 2 ^ 32 % 256, h := v / 2 ^ 40 % 4096, x := v / 2 ^ 52 }
/-- The storage key of a texel's byte when its tile is resident. -/
def State.texelKeyAt (s : State) (c : TexelAt) : Option Nat :=
  match s.surf? c.x c.h with
  | none => none
  | some u =>
    let (n, loc, t, i) := Surf.place u c.px c.py c.layer
    if Surf.tile u t = 0 then s.surfKey c.x u n ((loc * 16 + i) * Surf.bytes u + c.byte) else none
def State.texelKey (s : State) (a : Nat) : Option Nat := s.texelKeyAt (texelAt a)
/-- Bytes 5 to 7 of a D32FS8 texel, which read as zero (R51, R247). -/
def State.voidByte (s : State) (a : Nat) : Bool :=
  let c := texelAt a
  match s.surf? c.x c.h with
  | some u => Surf.format u == 0x0D && 5 ≤ c.byte
  | none => false
/-- The byte a texel location's home holds (R144). -/
def State.texelRead (s : State) (a : Nat) : Byte :=
  let c := texelAt a
  match s.surf? c.x c.h with
  | none => 0
  | some u =>
    if s.voidByte a then 0
    else
    let (_, _, t, i) := Surf.place u c.px c.py c.layer
    ((s.tileData c.x u t).getD (Surf.settled u t (List.replicate (16 * Surf.bytes u) 0))).getD (i * Surf.bytes u + c.byte) 0

end Sys2Proof.Machine
end

