-- ==== Sys2Proof/Machine/Homes.lean ====
section
/-! DEFINITION. Homes, merge buffers, overlays and snapshots of the phase machine (R144, R147, R155), and plain bytes arriving at homes. -/
namespace Sys2Proof.Machine

/-- The byte a location's home holds (R144). -/
def State.homeRead (s : State) (loc : Nat) : Byte :=
  let a := loc % keyUnit
  if isTexel a then s.texelRead a else s.physRead (loc / keyUnit) a
/-- Whether a location's home holds poisoned data, or lies on a stack whose requests are answered uncorrectable (R57, R367, R379). -/
def State.homePoisoned (s : State) (loc : Nat) : Bool :=
  let a := loc % keyUnit
  if !s.anyPoison then false
  else if isTexel a then (match s.texelKey a with | some k => s.poisonedKey k | none => false)
  else s.poisonedKey (s.storage a) || (isGddrKey (s.storage a) && s.stackDead ((s.storage a - gddrBase) / 2 ^ 36))

def State.homesPoisoned (s : State) (loc n : Nat) : Bool := (List.range n).any fun i => s.homePoisoned (loc + i)

/-- What a merge entry makes of the bytes beneath it (R147, R152). -/
def MEntry.apply (rd : Nat → Byte) : MEntry → Nat → Byte
  | .plain cells => fun l => (cellAt cells l).getD (rd l)
  | .update loc op ty v _ =>
    let w := ty.width / 8
    let old := BitVec.ofNat 64 (ofLe ((List.range w).map fun i => rd (loc + i)))
    let new := atomicResult op ty old v 0
    fun l => if loc ≤ l ∧ l < loc + w then BitVec.ofNat 8 (new.toNat >>> (8 * (l - loc))) else rd l
/-- The locations an entry holds. -/
def MEntry.locs : MEntry → List Nat
  | .plain cells => cells.map (·.1)
  | .update loc _ ty _ _ => (List.range (ty.width / 8)).map (loc + ·)
/-- The overlay value of a location in a cluster (R147); bytes 5 to 7 of a D32FS8 texel read as zero (R247). -/
def State.overlay (s : State) (cl : Nat) : Nat → Byte := fun l =>
  if isTexel (l % keyUnit) && s.voidByte (l % keyUnit) then 0
  else ((vget s.clusters cl).outq ++ (vget s.clusters cl).merge).foldl MEntry.apply s.homeRead l
/-- A location of a team's snapshot (R144, R147). -/
def State.snapRead (s : State) (t : Team) (l : Nat) : Byte := (cellAt t.ord.snap l).getD (s.overlay t.id.cluster l)
/-- After homes or merge buffers changed at `locs`: every team's snapshot goes on holding the values it held (R147: only an acquire changes one). -/
def State.keepSnaps (old new : State) (locs : List Nat) : State :=
  let fix (t : Team) : Team :=
    let o0 := old.overlay t.id.cluster
    let o1 := new.overlay t.id.cluster
    let snap := locs.foldl (fun sn l =>
      if (cellAt sn l).isNone && o0 l != o1 l then cellPut sn l (o0 l) else sn) t.ord.snap
    { t with ord := { t.ord with snap } }
  { new with teams := new.teams.map fix }

/-! ## Teams, groups and threads -/

def State.team? (s : State) (uid : Nat) : Option Team := s.teams.find? (fun t => t.id.uid == uid)
def State.team (s : State) (uid : Nat) : Team := (s.team? uid).getD default
def State.modTeam (s : State) (uid : Nat) (f : Team → Team) : State :=
  { s with teams := s.teams.map fun t => if t.id.uid = uid then f t else t }
/-- A member of a team: a group by index, or the engine member of a role. -/
def Team.member (t : Team) (m : Member) : Group :=
  match m with
  | .group i => t.groups.getD i default
  | .engine r => (t.engines.find? (fun g => g.role == r)).getD default
def Team.modMember (t : Team) (m : Member) (f : Group → Group) : Team :=
  match m with
  | .group i => { t with groups := t.groups.modify i f }
  | .engine r => { t with engines := t.engines.map fun g => if g.role = r then f g else g }
def State.group (s : State) (p : Party) : Group := (s.team p.team).member p.mem
def State.modGroup (s : State) (p : Party) (f : Group → Group) : State := s.modTeam p.team fun t => t.modMember p.mem f
def State.thread (s : State) (p : Party) (l : Nat) : Thread := vget (s.group p).threads l
def State.modThread (s : State) (p : Party) (l : Nat) (f : Thread → Thread) : State :=
  s.modGroup p fun g => { g with threads := vmod g.threads l f }
/-- The device-wide number of a team's core. -/
def Team.coreNo (t : Team) : Nat := Machine.coreNo t.id.cluster t.id.core
def State.modCore (s : State) (c : Nat) (f : Core → Core) : State := { s with cores := vmod s.cores c f }
def State.modCluster (s : State) (c : Nat) (f : Cluster → Cluster) : State := { s with clusters := vmod s.clusters c f }

/-- A fresh free value (log entry 4). -/
def State.fresh (s : State) : DWord × State := (Config.freeValue s.freeCtr, { s with freeCtr := s.freeCtr + 1 })

/-! ## Maps (R80, R81) -/

/-- The map of a team that a scratchpad offset lies in, and the line. -/
def Team.mapAt (t : Team) (off : Nat) : Option (Nat × Nat) :=
  ((List.range t.maps.length).find? fun i =>
    let m := t.maps.getD i default
    m.base ≤ off && off < m.base + m.len).map fun i => (i, (off - (t.maps.getD i default).base) / 256)
def Team.modLine (t : Team) (m line : Nat) (f : Line → Line) : Team :=
  { t with maps := t.maps.modify m fun e => { e with lines := e.lines.modify line f } }
/-- A scratchpad location's core and offset. -/
def scratchCore (a : Nat) : Nat := (a - scratchBase) / 2 ^ 18
def scratchOff (a : Nat) : Nat := (a - scratchBase) % 2 ^ 18
def Team.ownsOff (t : Team) (c off : Nat) : Bool :=
  t.coreNo == c && t.phase != .saved && t.regs.spBase ≤ off && off < t.regs.spBase + t.regs.spSize
/-- A byte written at its bank sets its mask bit in the line of a map; a clean line becomes dirty (R81). A byte that reaches an invalid line
is kept by the fill that comes later. -/
def State.markMap (s : State) (a : Nat) : State :=
  if s.teams.any (fun t => !t.maps.isEmpty) then
    { s with teams := s.teams.map fun t =>
        if t.ownsOff (scratchCore a) (scratchOff a) then
          match t.mapAt (scratchOff a) with
          | some (m, l) => t.modLine m l fun x => { st := if x.st = 1 then 2 else x.st, mask := x.mask ||| BitVec.ofNat 256 (2 ^ (scratchOff a % 256)) }
          | none => t
        else t }
  else s
/-- A plain store or atomic that touches a transaction-barrier record leaves its state undefined (R157). -/
def State.breakBar (s : State) (a : Nat) : State :=
  let cl := scratchCore a / 192
  if (vget s.clusters cl).tbars.any (fun b => b.1 ≤ a && a < b.1 + 16) then
    s.modCluster cl fun c => { c with tbars := c.tbars.map fun b => if b.1 ≤ a ∧ a < b.1 + 16 then (b.1, true) else b }
  else s

/-- One byte arriving at the home of a location that is no texel. -/
def State.putByte (s : State) (loc : Nat) (b : Byte) : State :=
  let a := loc % keyUnit
  let s := s.physWrite (loc / keyUnit) a b
  if isScratch a then (s.markMap a).breakBar a else s
/-- Plain bytes arriving at homes that are no texels, snapshots kept, clean bytes wiping poison (R155, R367). -/
def State.putPlain (s : State) (cells : List Host.Cell) : State :=
  let s' := cells.foldl (fun s c => s.putByte c.1 c.2) s
  let s' := s'.cleanKeys (cells.map fun c => s.storage (c.1 % keyUnit))
  s.keepSnaps s' (cells.map (·.1))
/-- Bytes that the device writes at a physical address in plaintext. -/
def State.writePa (s : State) (pa n v : Nat) : State :=
  s.putPlain ((List.range n).map fun i => (pa + i, BitVec.ofNat 8 (v >>> (8 * i))))

end Sys2Proof.Machine
end

