-- ==== Sys2Proof/Machine/Evict.lean ====
section
/-! DEFINITION. The eviction engine and writes at the home banks: spills, refills, frames, clear-tile fills, and bytes arriving at any home (R55 to R65). -/
namespace Sys2Proof.Machine

/-- How an engine's write to virtual memory ends: done, a failed translation at an address, or a page with MIG = 1 that holds it (R32, R37). -/
inductive EngRes where | ok (s : State) | fail (f : XFail) (va : Nat) | hold
  deriving Repr, Inhabited
/-- The pieces of `n` bytes at an address that lie on one page each: where each begins, and its length. -/
def pagePieces (va n : Nat) : List (Nat × Nat) :=
  (List.range (n / 2 ^ 16 + 2)).filterMap fun j =>
    let lo := max va (2 ^ 16 * (va / 2 ^ 16 + j))
    let hi := min (va + n) (2 ^ 16 * (va / 2 ^ 16 + j + 1))
    if lo < hi then some (lo, hi - lo) else none
/-- The locations of `n` bytes at a virtual address for an engine's access. The bytes of a page lie in a row, and no test of R33 tells them
apart; a failure is that of the first byte of the first page that fails. -/
def State.engLocs (s : State) (core : Option Nat) (x va n : Nat) (a : Acc) (raw : Bool := true) : Except (Nat × XFail) (List Nat) :=
  let piece (q : Nat × Nat) : Except (Nat × XFail) (List Nat) :=
    match s.xlate core x q.1 a raw with
    | .ok (loc, _) => .ok ((List.range q.2).map (loc + ·))
    | .error f => .error (q.1, f)
  ((pagePieces va n).mapM piece).map List.flatten
def State.engHeld (s : State) (x va n : Nat) : Bool :=
  (pagePieces va n).any fun q => match s.pageOf none x q.1 .engine with | .ok p => p.mig | .error _ => false
/-- What stops an engine's write of `n` bytes: a failed translation, or a page with MIG = 1 or a region table entry that holds it. -/
def State.engStop (s : State) (x va n : Nat) : Option EngRes :=
  match s.engLocs none x va n .engine (raw := false) with
  | .error (v, f) => some (if f.held then .hold else .fail f v)
  | .ok _ => if s.engHeld x va n then some .hold else none
/-- Engine bytes at a virtual address, at most 4 KiB, applied at the homes (R155); the context reaches them (R377). -/
def State.engWrite (s : State) (x va : Nat) (bs : List Byte) : EngRes :=
  match s.engLocs none x va bs.length .engine (raw := false) with
  | .error (v, f) => if f.held then .hold else .fail f v
  | .ok locs => if s.engHeld x va bs.length then .hold else .ok ((s.putPlain (locs.zip bs)).reachRun x locs)

/-! ## Frames -/

def State.used (s : State) (x stack : Nat) : Nat := ((vget s.dev.frameTab stack).filter fun e => e.x == x && e.frame.isSome).length
def State.quota (s : State) (x stack : Nat) : Nat := if stack = 0 then fld (s.creg x .surfQuota) 0 18 else fld (s.creg x .surfQuota) 32 18
def State.carve (s : State) (stack : Nat) : Nat := fld (s.dreg (if stack = 0 then .srfCarve0 else .srfCarve1)) 0 5
/-- Whether a slice of a stack is retired: more banks than its two spares have failed (R374). -/
def State.sliceOff (s : State) (stack slice : Nat) : Bool := 2 < (s.dev.retiredBanks.filter fun b => b.1 == stack && b.2 / 64 == slice).length
/-- Slices that hold frames: on a die that answers, not carved, not retired; after a shrink the released ones once their lines are written back (R46, R47, R374). -/
def State.slices (s : State) (stack : Nat) : List Nat :=
  let n := max (s.carve stack) (vget s.dev.carveHeld stack)
  if (vget s.dies (2 + stack)).lost then [] else (List.range (32 - n)).filter fun k => !s.sliceOff stack k
def State.frameUsed (s : State) (stack f : Nat) : Bool := (vget s.dev.frameTab stack).any fun e => e.frame == some f
/-- The lowest free frame (R46, R47). -/
def State.freeFrame? (s : State) (stack : Nat) : Option Nat :=
  (s.slices stack).findSome? fun k => ((List.range 4096).map (4096 * k + ·)).find? fun f => !s.frameUsed stack f
def State.modFrames (s : State) (stack : Nat) (f : List FrameEntry → List FrameEntry) : State :=
  { s with dev := { s.dev with frameTab := vmod s.dev.frameTab stack f } }
def State.setFrame (s : State) (stack x h ix : Nat) (fr : Option Nat) : State :=
  s.modFrames stack fun l => l.map fun e => if e.ix = ix ∧ e.x = x ∧ e.handle = h then { e with frame := fr } else e
/-- The tiles of frame `k` of side `n` of a surface, in ascending order of their index. -/
def frameTiles (u : Surface) (n k : Nat) : List Nat :=
  let per := 4096 / (16 * Surf.bytes u)
  ((List.range per).map (k * per + ·)).filter (· < Surf.tcount u n)
def spillIx (u : Surface) (n loc : Nat) : Nat := if n = 0 then loc else Surf.tcount u 0 + loc

/-! ## Tile states -/

def setTile (u : Surface) (t st : Nat) : Surface := { u with tiles := (t, st) :: u.tiles.filter (·.1 != t) }
/-- The tile-map byte that holds a tile's code, from the states the device keeps (R53). DESIGN CHOICE (log entry 19): the codes of the last
byte beyond the last spill index, which the spec does not name, are 0. -/
def mapByte (u : Surface) (t : Nat) : Byte :=
  BitVec.ofNat 8 ((List.range 4).foldl (fun m i =>
    let k := t / 4 * 4 + i
    m + (if k < Surf.tcount u 0 + Surf.tcount u 1 then Surf.tile u k else 0) * 4 ^ i) 0)
/-- A tile changes state and its map byte is written (R53). Whoever changes the state first makes sure that no page under migration holds the map
byte (R62); where a clear tile's map does not translate, only the device's own state changes (log entry 19). -/
def State.setTileState (s : State) (x h t st : Nat) : State :=
  match s.surf? x h with
  | none => s
  | some u =>
    let u := setTile u t st
    let s := s.setSurf x u
    match s.engWrite x (Surf.tmap u + t / 4) [mapByte u t] with
    | .ok s => s
    | _ => s

/-- The storage keys of a tile's 64-byte lines, when resident. -/
def State.tileKeys (s : State) (x : Nat) (u : Surface) (t : Nat) : List Nat :=
  let (n, loc) := Surf.side u t
  let sz := 16 * Surf.bytes u
  (List.range sz).filterMap fun i => s.surfKey x u n (loc * sz + i)

/-- Spill one tile (R61): resident data is written compressed or raw, a tile equal to the clear value becomes clear, a poisoned one is raw
with state 3; a tile that is clear or spilled is passed over. -/
def State.spillTile (s : State) (x h t : Nat) : EngRes :=
  match s.surf? x h with
  | none => .ok s
  | some u =>
    if Surf.tile u t ≠ 0 then .ok s
    else
      let data := (s.tileData x u t).getD []
      let pois := (s.tileKeys x u t).any s.poisonedKey
      match s.engStop x (Surf.tmap u + t / 4) 1 with
      | some r => r
      | none =>
        if !pois && data == (List.replicate 16 (s.clearTexel x u)).flatten then .ok (s.setTileState x h t 2)
        else
          let (d, img) := tileImage u data pois
          match s.engStop x (Surf.spill u + t) 1 with
          | some r => r
          | none => match s.engWrite x (Surf.slotAt u t) img with
            | .ok s =>
              (match s.engWrite x (Surf.spill u + t) [d] with
               | .ok s => .ok (s.setTileState x h t (if pois then 3 else 1))
               | r => r)
            | r => r

/-- How spills end: all made, a failed translation, or held; what was spilled before stays spilled (R60, R62). -/
inductive SpillEnd where | done | fail | hold
  deriving DecidableEq, Repr, Inhabited
/-- Spill the tiles of one frame from the highest down; the frame is absent afterwards (R61). -/
def State.spillFrame (s : State) (x h n k : Nat) : State × SpillEnd :=
  match s.surf? x h with
  | none => (s, .done)
  | some u =>
    let r := (frameTiles u n k).reverse.foldl (fun (r : State × SpillEnd) loc =>
      match r.2, r.1.spillTile x h (spillIx u n loc) with
      | .done, .ok s => (s, .done) | .done, .fail _ _ => (r.1, .fail) | .done, .hold => (r.1, .hold) | _, _ => r) (s, .done)
    if r.2 = .done then (r.1.setFrame (r.1.stackOf n) x h (Surf.home u n + k) none, .done) else r
/-- A spill fault passes the victim over and is noted (R62, R58). -/
def State.spillFault (s : State) (x h : Nat) : State :=
  s.setCreg x .surfStat (setFld ((s.creg x .surfStat) ||| 2) 16 12 h)

/-- The victims of a context on a stack: by PRIO, then least recently touched there, then handle (R60). -/
def State.victims (s : State) (x n : Nat) : List Surface :=
  let before (a b : Surface) : Bool :=
    let ka := (Surf.prio a, vget a.touch n, a.handle)
    let kb := (Surf.prio b, vget b.touch n, b.handle)
    ka.1 < kb.1 || (ka.1 == kb.1 && (ka.2.1 < kb.2.1 || (ka.2.1 == kb.2.1 && ka.2.2 ≤ kb.2.2)))
  sortBy before ((s.ctx x).surfaces.filter fun u => Surf.valid u && !Surf.pin u && !Surf.frameClass u && !Surf.weight u)
/-- The present frames of a victim on side `n`, highest first. -/
def State.presentFrames (s : State) (x n : Nat) (u : Surface) : List Nat :=
  ((List.range (Surf.frames u n)).filter fun k => (s.frameAt x u.handle n (Surf.home u n + k)).isSome).reverse
/-- Spill victims of a context on side `n` until at most `room` frames are used there; the frame `keep` is never a victim (R60 to R62).
Answers whether the request fits, and whether it is held at a page under migration. -/
def State.evict (s : State) (x n room : Nat) (keep : Option (Nat × Nat)) : State × Bool × Bool :=
  (s.victims x n).foldl (fun (acc : State × Bool × Bool) u =>
    if acc.2.1 || acc.2.2 then acc
    else
      let r := (acc.1.presentFrames x n u).foldl (fun (a : State × Bool × Bool × Bool) k =>
        let (s, fits, held, skip) := a
        if fits || held || skip || keep == some (u.handle, k) then a
        else match s.spillFrame x u.handle n k with
          | (s, .done) => (s, s.used x (s.stackOf n) ≤ room, false, false)
          | (s, .hold) => (s, false, true, false)
          | (s, .fail) => (s.spillFault x u.handle, false, false, true)) (acc.1, acc.2.1, acc.2.2, false)
      (r.1, r.2.1, r.2.2.1)) (s, s.used x (s.stackOf n) ≤ room, false)

/-- How an access that needs a tile's frame ends: the tile resident, the requester's fault, no frame and no victim, or held; whichever it is,
the spills that were made, the spill faults that were noted and a frame that was taken stay (R56, R62). -/
inductive TileRes where | ok (s : State) | fault (s : State) (f : XFail) (va : Nat) | noFrame (s : State) | hold (s : State)
  deriving Repr, Inhabited
/-- Take a frame for the frame-table entry that holds a tile, evicting if the context is at its quota or no frame is free (R54, R62). -/
def State.takeFrame (s : State) (x h n k : Nat) : TileRes :=
  match s.surf? x h with
  | none => .noFrame s
  | some u =>
    if (s.frameAt x h n (Surf.home u n + k)).isSome then .ok s
    else
      let q := s.quota x (s.stackOf n)
      let have_ := s.used x (s.stackOf n)
      let (s, fits, held) := if have_ < q && (s.freeFrame? (s.stackOf n)).isSome then (s, true, false) else s.evict x n (min (q - 1) (have_ - 1)) (some (h, k))
      if held then .hold s
      else if !fits || q == 0 then .noFrame s
      else match s.freeFrame? (s.stackOf n) with
        | none => .noFrame s
        | some f => .ok (s.setFrame (s.stackOf n) x h (Surf.home u n + k) (some f))
/-- A tile's frame receives its bytes, none wait at the bank any more, its lines are marked or cleaned, and the tile is resident (R56, R57, R62). -/
def State.fillTile (s : State) (x h t : Nat) (data : List Byte) (bad : Bool) : State :=
  match s.surf? x h with
  | none => s
  | some u =>
    let (n, loc) := Surf.side u t
    let sz := 16 * Surf.bytes u
    let keys := (List.range sz).filterMap fun i => s.surfKey x u n (loc * sz + i)
    let s1 := (keys.zip data).foldl (fun s c => { s with mem := s.mem.write c.1 c.2 }) s
    let s2 := if bad then keys.foldl (fun s k => s.poisonKey k) s1 else s1.cleanKeys keys
    let s3 := if u.waiting.isEmpty then s2 else s2.setSurf x { u with waiting := u.waiting.filter (·.pos / 256 != t) }
    s3.setTileState x h t 0
/-- Bytes of a slot that a refill reads: the sectors that the descriptor byte counts (R64). -/
def State.slotRead (s : State) (x : Nat) (u : Surface) (t : Nat) : Nat :=
  match s.readVa x (Surf.spill u + t) 1 with | some [d] => 32 * fld d 3 4 | _ => 0
/-- Whether a refill brings poisoned lines: a tile in state 3, or an uncorrectable block among those that hold the descriptor byte and the
sectors read (R57). -/
def State.refillBad (s : State) (x : Nat) (u : Surface) (t : Nat) : Bool :=
  let bad (va n : Nat) : Bool := match s.engLocs none x va n .read (raw := false) with | .ok l => l.any s.homePoisoned | .error _ => false
  Surf.tile u t == 3 || (Surf.tile u t == 1 && (bad (Surf.spill u + t) 1 || bad (Surf.slotAt u t) (s.slotRead x u t)))
/-- The context reaches what a refill reads (R377). -/
def State.refillReach (s : State) (x : Nat) (u : Surface) (t : Nat) : State :=
  let reach (va n : Nat) (s : State) : State := match s.engLocs none x va n .read (raw := false) with | .ok l => s.reachRun x l | .error _ => s
  if Surf.tile u t = 2 then s else reach (Surf.slotAt u t) (s.slotRead x u t) (reach (Surf.spill u + t) 1 s)
/-- Make a tile resident: it takes its frame, then a clear tile is filled with the clear value and a spilled one refilled, poisoned lines marked;
the frame comes before the translations (R54, R56, R57, R62). -/
def State.makeResident (s : State) (x h t : Nat) : TileRes :=
  match s.surf? x h with
  | none => .noFrame s
  | some u =>
    if Surf.tile u t = 0 then .ok s
    else
      let (n, loc) := Surf.side u t
      match s.takeFrame x h n (loc * (16 * Surf.bytes u) / 4096) with
      | .ok s =>
        let probe : Option (Nat × XFail) :=
          if Surf.tile u t = 2 then none
          else match s.engLocs none x (Surf.spill u + t) 1 .read (raw := false), s.engLocs none x (Surf.slotAt u t) (s.slotRead x u t) .read (raw := false),
              s.engLocs none x (Surf.tmap u + t / 4) 1 .engine (raw := false) with
            | .error e, _, _ => some e
            | _, .error e, _ => some e
            | _, _, .error e => some e
            | _, _, _ => none
        match probe with
        | some (va, f) => if f.held then .hold s else .fault s f va
        | none =>
          if s.engHeld x (Surf.tmap u + t / 4) 1 then .hold s
          else .ok ((s.refillReach x u t).fillTile x h t ((s.tileData x u t).getD []) (s.refillBad x u t))
      | r => r

/-- What a store or an update makes of a tile that cannot be made resident yet is kept at the bank for it: none is lost to a spill (R55, log entry 19). -/
def State.keepAt (s : State) (c : TexelAt) (w : Nat → TileWait) : State :=
  match s.surf? c.x c.h with
  | none => s
  | some u =>
    let (_, _, t, i) := Surf.place u c.px c.py c.layer
    s.setSurf c.x { u with waiting := u.waiting ++ [w (256 * t + i * Surf.bytes u + c.byte)] }
/-- One byte arriving at a texel's home bank; bytes 5 to 7 of a D32FS8 texel are discarded (R55, R56, R247). -/
def State.texelPut (s : State) (b : Byte) (c : TexelAt) (void : Bool) : State :=
  match s.surf? c.x c.h with
  | none => s
  | some u =>
    if void then s
    else
      let (_, _, t, _) := Surf.place u c.px c.py c.layer
      match s.makeResident c.x c.h t with
      | .ok s => (match s.texelKeyAt c with | some k => { s with mem := s.mem.write k b }.cleanKeys [k] | none => s)
      | .noFrame s | .fault s _ _ | .hold s => s.keepAt c (.byte · b)
def State.texelWrite (s : State) (a : Nat) (b : Byte) : State := s.texelPut b (texelAt a) (s.voidByte a)

/-- Bytes arriving at their homes, in order, whatever the space; snapshots keep what they held (R144, R155). -/
def State.homeWrite (s : State) (cells : List Host.Cell) : State :=
  let plain := cells.filter fun c => !isTexel (c.1 % keyUnit)
  let texels := cells.filter fun c => isTexel (c.1 % keyUnit)
  let s := if plain.isEmpty then s else s.putPlain plain
  if texels.isEmpty then s
  else (texels.foldl (fun s' c => s'.texelWrite (c.1 % keyUnit) c.2) s) |> fun s' => s.keepSnaps s' (texels.map (·.1))
/-- Poison carried by bytes that arrived at homes (R57, R75, R367). -/
def State.homePoison (s : State) (locs : List Nat) : State :=
  locs.foldl (fun s l =>
    let a := l % keyUnit
    if isTexel a then (match s.texelKey a with | some k => s.poisonKey k | none => s) else s.poisonKey (s.storage a)) s
/-- A value arriving at `n` bytes of a home. -/
def State.homeWriteN (s : State) (loc n v : Nat) : State :=
  s.homeWrite ((List.range n).map fun i => (loc + i, BitVec.ofNat 8 (v >>> (8 * i))))
def State.homeReadN (s : State) (loc n : Nat) : Nat := ofLe ((List.range n).map fun i => s.homeRead (loc + i))
/-- An atomic at a texel whose tile cannot be made resident waits for that (R55). -/
def State.atomStuck (s : State) (loc : Nat) : Bool :=
  let c := texelAt (loc % keyUnit)
  isTexel (loc % keyUnit) && (match s.surf? c.x c.h with
    | none => false
    | some u => match s.makeResident c.x c.h (Surf.place u c.px c.py c.layer).2.2.1 with | .ok _ => false | _ => true)
/-- An atomic operation applied at a home: the old value and the state (R144, R239). -/
def State.homeAtomic (s : State) (op : AtomOp) (ty : Ty) (loc : Nat) (v cmp : DWord) : DWord × State :=
  let n := ty.width / 8
  let old := BitVec.ofNat 64 (s.homeReadN loc n)
  (old, s.homeWriteN loc n (atomicResult op ty old v cmp).toNat)
/-- An update arriving at a home; at a tile that cannot be made resident it waits at the bank (R55, R152). -/
def State.homeUpdate (s : State) (op : AtomOp) (ty : Ty) (loc : Nat) (v : DWord) : State :=
  if s.atomStuck loc then s.keepAt (texelAt (loc % keyUnit)) (.op · op ty v) else (s.homeAtomic op ty loc v 0).2

end Sys2Proof.Machine
end

