-- ==== Sys2Proof/Machine/Operands.lean ====
section
/-! DEFINITION. Operand forms: registers, pairs, uniform and special registers, predicates, queue registers and caddy streams (R121, R163 to R165, R212, R259). -/
namespace Sys2Proof.Machine

/-! ## Register files of a thread -/

/-- A g register, or the pair that an even register names, low word first (R4, R163). -/
def Thread.gread (t : Thread) (n : Nat) (wide : Bool) : DWord :=
  if wide then (vget t.g (n + 1) ++ vget t.g n : BitVec 64) else (vget t.g n).setWidth 64
def Thread.gwrite (t : Thread) (n : Nat) (wide : Bool) (v : DWord) : Thread :=
  if wide then { t with g := vset (vset t.g n (v.setWidth 32)) (n + 1) (v.extractLsb' 32 32) } else { t with g := vset t.g n (v.setWidth 32) }
def Thread.setGPoison (t : Thread) (n : Nat) (wide b : Bool) : Thread :=
  { t with gPoison := if wide then setBit (setBit t.gPoison n b) (n + 1) b else setBit t.gPoison n b }
/-- A predicate as a source: p7 reads true, 0x1FF false (R212). -/
def Thread.pread (t : Thread) : Operand → Bool
  | .p n => n == 7 || t.p.getLsbD n.toNat
  | _ => false
/-- A predicate as a destination: p7 and 0x1FF discard (R212). -/
def Thread.pwrite (t : Thread) (o : Operand) (b : Bool) : Thread :=
  match o with
  | .p n => if n = 7 then t else { t with p := setBit t.p n.toNat b }
  | _ => t
/-- Guard(l) (R160, R162). -/
def Thread.guardOk (t : Thread) (g : Guard) : Bool := (g.p == 7 || t.p.getLsbD g.p.toNat) != g.neg
/-- The fields of TRAP_EN (R345). -/
def Thread.trapEn (t : Thread) : Word :=
  BitVec.ofNat 32 (t.en.toNat + 256 * t.hfl.toNat + (if t.inh then 2 ^ 31 else 0))
/-- Flags raised go to FLAGS, or to HFL inside a handler (R100, R349). -/
def Thread.raise (t : Thread) (f : BitVec 5) : Thread :=
  if t.inh then { t with hfl := t.hfl ||| f } else { t with flags := t.flags ||| f }

/-! ## Special registers (R163, R15, R20 to R22) -/

/-- Common time of a die before it is taken modulo 2^64: COUNT plus the signed OFFSET, held at what was returned before while the sum lies
below it (R21, R22). -/
def Die.sum (d : Die) : Int := (d.lastTime.map (max ((d.cnt.toNat : Int) + d.off.toInt))).getD ((d.cnt.toNat : Int) + d.off.toInt)
def Die.time (d : Die) : DWord := BitVec.ofInt 64 d.sum
/-- The value of `$core` (R15, R163): physical row, column, cluster, die. -/
def State.coreReg (s : State) (t : Team) : Nat :=
  let x := t.id.core % 16
  let y := t.id.core / 16
  let out := vget (vget s.clusters t.id.cluster).leftOut x
  (if y < out then y else y + 1) * 2 ^ 16 + x * 2 ^ 8 + t.id.cluster * 16 + t.id.cluster / 3
def groupIx (p : Party) : Nat := match p.mem with | .group i => i | .engine _ => 0
/-- A special register; a 64-bit operand reads both words of `$clk` or `$time` at one instant (R163). -/
def State.special (s : State) (p : Party) (l : Nat) (sp : Special) (wide : Bool) : DWord :=
  let t := s.team p.team
  let g := t.member p.mem
  let clk := (vget s.cores t.coreNo).clk
  let time := (vget s.dies (t.id.cluster / 3)).time
  let lo (v : DWord) : DWord := if wide then v else (v.setWidth 32).setWidth 64
  let n (v : Nat) : DWord := BitVec.ofNat 64 v
  match sp with
  | .tid => n (32 * groupIx p + l)
  | .lane => n l
  | .group => n (groupIx p)
  | .role => n g.role
  | .teamX => n t.id.x | .teamY => n t.id.y | .teamZ => n t.id.z
  | .gridX => n t.id.gx | .gridY => n t.id.gy | .gridZ => n t.id.gz
  | .cluster => n t.id.cluster
  | .core => n (s.coreReg t)
  | .clk => lo clk | .clkHi => clk >>> 32
  | .time => lo time | .timeHi => time >>> 32
  | .pix => g.pix.setWidth 64
  | .gen => n (t.id.gen % 2 ^ 32)

/-- ReadOp (R160, R163): the bits, a literal's bits, zero for 0x1FF; of a queue register the entry that the instruction has popped for the lane (R165). -/
def State.readOp (s : State) (p : Party) (l : Nat) (wide : Bool) (o : Operand) : DWord :=
  match o with
  | .g n => (s.thread p l).gread n.toNat wide
  | .k n =>
    let k := (s.team p.team).regs.k
    if wide then (vget k (n.toNat + 1) ++ vget k n.toNat : BitVec 64) else (vget k n.toNat).setWidth 64
  | .h n => vget (s.thread p l).h n.toNat
  | .sp x => s.special p l x wide
  | .p _ => if (s.thread p l).pread o then 1 else 0
  | .lit v => v.setWidth 64
  | .num n => n.setWidth 64
  | .q n => (((s.group p).popped.find? fun e => e.1 == n.toNat && e.2.1 == l).map (·.2.2)).getD 0
  | _ => 0
/-- WriteOp for a register destination that is no queue register; 0x1FF and p7 discard, and a k pair is written whole (R160, R295). -/
def State.writeOp (s : State) (p : Party) (l : Nat) (wide : Bool) (o : Operand) (v : DWord) : State :=
  match o with
  | .g n => s.modThread p l fun t => (t.gwrite n.toNat wide v).setGPoison n.toNat wide false
  | .h n => s.modThread p l fun t => { t with h := vset t.h n.toNat v, hPoison := setBit t.hPoison n.toNat false }
  | .p _ => s.modThread p l fun t => t.pwrite o (v != 0)
  | .k n => s.modTeam p.team fun t =>
      let k := if wide then vset (vset t.regs.k n.toNat (v.setWidth 32)) (n.toNat + 1) (v.extractLsb' 32 32) else vset t.regs.k n.toNat (v.setWidth 32)
      let kp := setBit (if wide then setBit t.regs.kPoison (n.toNat + 1) false else t.regs.kPoison) n.toNat false
      { t with regs := { t.regs with k, kPoison := kp } }
  | _ => s
/-- Mark a destination poisoned, where data only moved (R368). -/
def State.poisonOp (s : State) (p : Party) (l : Nat) (wide : Bool) (o : Operand) : State :=
  match o with
  | .g n => s.modThread p l fun t => t.setGPoison n.toNat wide true
  | .h n => s.modThread p l fun t => { t with hPoison := setBit t.hPoison n.toNat true }
  | .k n => s.modTeam p.team fun t => { t with regs := { t.regs with kPoison := setBit (if wide then setBit t.regs.kPoison (n.toNat + 1) true else t.regs.kPoison) n.toNat true } }
  | _ => s
/-- Whether an operand of a lane is poisoned (R368). -/
def State.opPoisoned (s : State) (p : Party) (l : Nat) (wide : Bool) (o : Operand) : Bool :=
  match o with
  | .g n => (s.thread p l).gPoison.getLsbD n.toNat || (wide && (s.thread p l).gPoison.getLsbD (n.toNat + 1))
  | .h n => (s.thread p l).hPoison.getLsbD n.toNat
  | .k n => let k := (s.team p.team).regs.kPoison; k.getLsbD n.toNat || (wide && k.getLsbD (n.toNat + 1))
  | _ => false
/-- Whether an operand of a lane is unknown in run-ahead (R354). -/
def State.opUnknown (s : State) (p : Party) (l : Nat) (wide : Bool) (o : Operand) : Bool :=
  match o with
  | .g n => (s.thread p l).gUnk.getLsbD n.toNat || (wide && (s.thread p l).gUnk.getLsbD (n.toNat + 1))
  | .h n => (s.thread p l).hUnk.getLsbD n.toNat
  | .p n => (s.thread p l).pUnk.getLsbD n.toNat
  | _ => false
def State.setUnknown (s : State) (p : Party) (l : Nat) (wide b : Bool) (o : Operand) : State :=
  match o with
  | .g n => s.modThread p l fun t => { t with gUnk := setBit (if wide then setBit t.gUnk (n.toNat + 1) b else t.gUnk) n.toNat b }
  | .h n => s.modThread p l fun t => { t with hUnk := setBit t.hUnk n.toNat b }
  | .p n => s.modThread p l fun t => { t with pUnk := setBit t.pUnk n.toNat (b && n != 7) }
  | _ => s

/-! ## Caddy streams (R118 to R122) -/

namespace Cds
def etype (w : DWord) : Option Ty := Ty.ofCode (w.extractLsb' 59 5)
def blk (w : DWord) : Nat := match fld w 57 2 with | 0 => 0 | 1 => 16 | 2 => 32 | _ => 64
def skind (w : DWord) : Nat := fld w 55 2
def sfmt (w : DWord) : Nat := fld w 52 3
def base (w : DWord) : Nat := fld w 40 8 * 256
def len (w : DWord) : Nat := fld w 31 9 * 256
def soff (w : DWord) : Nat := fld w 22 9 * 256
def valid (w : DWord) : Bool := w.getLsbD 0
end Cds
/-- Element size in bits of a stream under the team's formats (R120). -/
def elemBits (fmt : Vector Word 8) (t : Ty) : Nat :=
  match t with | .f32 => 32 | .f16 | .bf16 => 16 | .nf k => if Nf.width (vget fmt k.toNat) ≤ 4 then 4 else 8 | _ => 32
def Stream.ebits (st : Stream) (fmt : Vector Word 8) : Nat := elemBits fmt ((Cds.etype st.w0).getD .f32)
/-- CAP (R120). -/
def Stream.cap (st : Stream) (fmt : Vector Word 8) : Nat := Cds.soff st.w0 * 8 / st.ebits fmt
def Stream.scap (st : Stream) : Nat := Cds.len st.w0 - Cds.soff st.w0
/-- Bytes and positions of the unit that a stream takes at a time: an element, a byte of two 4-bit elements, or a packet (R121). -/
def Stream.unit (st : Stream) (fmt : Vector Word 8) : Nat × Nat :=
  let e := st.ebits fmt
  let b := Cds.blk st.w0
  if b = 0 then (if e = 4 then (1, 2) else (e / 8, 1)) else (b * e / 8 + 1, b)
/-- One complete unit written into the caddy at TAIL (R120, R121). -/
def State.streamUnit (s : State) (t : Team) (tag : Nat) (u : List Byte) : State :=
  let st := vget t.streams tag
  let fmt := t.regs.fmt
  let e := st.ebits fmt
  let cap := st.cap fmt
  let (_, n) := st.unit fmt
  let key (off : Nat) : Nat := caddyKey t.id.cluster t.id.core (Cds.base st.w0 + off)
  let els := if Cds.blk st.w0 = 0 then u else u.dropLast
  let s := (List.range els.length).foldl (fun (s : State) i =>
    { s with mem := s.mem.write (key (((st.tail % cap) * e / 8 + i) % Cds.soff st.w0)) (els.getD i 0) }) s
  let s := if Cds.blk st.w0 = 0 then s
    else { s with mem := s.mem.write (key (Cds.soff st.w0 + (st.tail / Cds.blk st.w0) % st.scap)) (u.getLastD 0) }
  s.modTeam t.id.uid fun t => { t with streams := vmod t.streams tag fun st => { st with tail := st.tail + n, raw := [] } }
/-- Bytes entering a stream in order as room allows: the bytes that did not enter (R121). -/
def State.streamEnter (s : State) (uid tag : Nat) (pois : Bool) : List Byte → State × List Byte
  | [] => (s, [])
  | b :: bs =>
    let t := s.team uid
    let st := vget t.streams tag
    let (n, k) := st.unit t.regs.fmt
    if st.cap t.regs.fmt < st.tail + k - st.head then (s, b :: bs)
    else
      let raw := st.raw ++ [b]
      let s := s.modTeam uid fun t => { t with streams := vmod t.streams tag fun st =>
        { st with raw, poison := if pois then (List.range k).map (st.tail + ·) ++ st.poison else st.poison } }
      let s := if raw.length = n then s.streamUnit (s.team uid) tag raw else s
      s.streamEnter uid tag pois bs
/-- The head producer of a stream enters what it can; a lane's entry whose bytes have all entered makes way for the next lane of the same
party, and stays as the mark of a finished instruction otherwise (R121). -/
def State.streamStep (s : State) (uid tag : Nat) : State :=
  match (vget (s.team uid).streams tag).pend with
  | [] => s
  | (who, bs) :: rest =>
    let (s, left) := s.streamEnter uid tag false bs
    let spent := left.isEmpty && (who.isNone || rest.any fun e => e.1.map (·.1) == who.map (·.1))
    let s := s.modTeam uid fun t => { t with streams := vmod t.streams tag fun st => { st with pend := if spent then rest else (who, left) :: rest } }
    match who with
    | some (p, _) => if left.length < bs.length then s.modGroup p fun g => { g with pushed := g.pushed + (bs.length - left.length) } else s
    | none => s
/-- A party's bytes for a stream as one unit: done at once, or queued, and the instruction is issued again until they have all entered
(R121, R259, R261, R268). The flag says that every byte has entered. -/
def State.streamPush (s : State) (p : Party) (lane tag : Nat) (bs : List Byte) : State × Bool :=
  let st := vget (s.team p.team).streams tag
  let mine := fun (e : Option (Party × Nat) × List Byte) => e.1 == some (p, lane)
  let setPend (s : State) (l : List (Option (Party × Nat) × List Byte)) : State :=
    s.modTeam p.team fun t => { t with streams := vmod t.streams tag fun st => { st with pend := l } }
  match st.pend.find? mine with
  | some (_, []) => ((setPend s (st.pend.filter (!mine ·))).modGroup p fun g => { g with pushed := 0, pix := 0 }, true)
  | some _ => (s, false)
  | none =>
    if st.pend.isEmpty then
      let (s, left) := s.streamEnter p.team tag false bs
      if left.isEmpty then (s, true)
      else ((setPend s [(some (p, lane), left)]).modGroup p fun g => { g with pushed := bs.length - left.length }, false)
    else (setPend s (st.pend ++ [(some (p, lane), bs)]), false)

/-! ## Queue registers (R165, R259) -/

/-- What a queue register is bound to. -/
inductive Bind where | unbound | copy (c : Nat) | caddy (tag : Nat)
  deriving DecidableEq, Repr, Inhabited
def Team.bind (t : Team) (q : Nat) : Bind :=
  match fld t.regs.qmap (4 * q) 4 with
  | 0 | 13 | 14 | 15 => .unbound
  | n => if n ≤ 4 then .copy (n - 1) else .caddy (n - 5)
def Team.modCopy (t : Team) (c : Nat) (f : CopyCtx → CopyCtx) : Team := { t with copy := vmod t.copy c f }
/-- The next number of a timeline (R258). -/
def Team.number (t : Team) (n : Nat) : Nat × Team :=
  ((vget t.tl n).given + 1, { t with tl := vmod t.tl n fun x => { x with given := x.given + 1 } })
/-- Record words from their 64 bytes or sixteen 32-bit words. -/
def recOfWords (ws : List Word) : Vector DWord 8 :=
  Vector.ofFn fun i => ((ws.getD (2 * i.val + 1) 0) ++ (ws.getD (2 * i.val) 0) : BitVec 64)
def recOfBytes (bs : List Byte) : Vector DWord 8 :=
  Vector.ofFn fun i => BitVec.ofNat 64 (ofLe ((bs.drop (8 * i.val)).take 8))
/-- Whether a copy context can take `n` more 32-bit writes through a queue register: the sixteenth of a record stalls while the completion
queue holds 16 words (R91). -/
def CopyCtx.queueRoom (c : CopyCtx) (n : Nat) : Bool := c.compq.length < 16 || c.partialRec.length + n < 16
/-- One 32-bit write to a queue register bound to a copy context; the sixteenth assembles and pushes a record (R84, R165). -/
def State.queueWrite (s : State) (uid c : Nat) (w : Word) : State :=
  s.modTeam uid fun t =>
    let cc := vget t.copy c
    let ws := cc.partialRec ++ [w]
    if ws.length < 16 then t.modCopy c fun cc => { cc with partialRec := ws }
    else
      let (n, t) := t.number c
      t.modCopy c fun cc => { cc with partialRec := [], next := n, recs := cc.recs ++ [{ no := n, w := recOfWords ws, src := .queue }] }

/-- The values of one operand field for a list of lanes, in ascending lane order, with the queue entries popped; none when a pop must wait (R165). -/
def State.fetchField (s : State) (p : Party) (lanes : List Nat) (wide : Bool) (o : Operand) : Option (List (Nat × DWord) × State) :=
  match o with
  | .q n =>
    if lanes.isEmpty then some ([], s) else
    match (s.team p.team).bind n.toNat with
    | .copy c =>
      let per := if wide then 2 else 1
      let q := (vget (s.team p.team).copy c).compq
      if q.length < per * lanes.length then none
      else
        let vals := (List.range lanes.length).map fun i =>
          (lanes.getD i 0, if wide then ((q.getD (2 * i + 1) 0) ++ (q.getD (2 * i) 0) : BitVec 64) else (q.getD i 0).setWidth 64)
        some (vals, s.modTeam p.team fun t => t.modCopy c fun cc => { cc with compq := q.drop (per * lanes.length) })
    | _ => none
  | o => some (lanes.map fun l => (l, s.readOp p l wide o), s)
def laneVal (l : List (Nat × DWord)) (i : Nat) : DWord := ((l.find? (·.1 == i)).map (·.2)).getD 0
/-- Results to a destination for a list of lanes, ascending; a queue register takes one or two entries a lane. The flag is false when the
write must wait for room; the state then holds the producer it left with a caddy stream (R165, R259). -/
def State.storeField (s : State) (p : Party) (wide : Bool) (o : Operand) (vals : List (Nat × DWord)) : State × Bool :=
  match o with
  | .q n =>
    if vals.isEmpty then (s, true) else
    let ws := vals.flatMap fun v => if wide then [v.2.setWidth 32, v.2.extractLsb' 32 32] else [v.2.setWidth 32]
    match (s.team p.team).bind n.toNat with
    | .copy c =>
      if (vget (s.team p.team).copy c).queueRoom ws.length then (ws.foldl (fun s w => s.queueWrite p.team c w) s, true) else (s, false)
    | .caddy tag => s.streamPush p ((vals.headD (0, 0)).1) tag (ws.flatMap fun w => leBytes 4 w.toNat)
    | .unbound => (s, true)
  | o => (vals.foldl (fun s v => s.writeOp p v.1 wide o v.2) s, true)
/-- Bytes entering a stream behind its producers; what finds no room waits there in order (R121). -/
def State.streamFeed (s : State) (uid tag : Nat) (bs : List Byte) : State :=
  let set (s : State) (l : List (Option (Party × Nat) × List Byte)) : State :=
    s.modTeam uid fun t => { t with streams := vmod t.streams tag fun st => { st with pend := l } }
  let l := (vget (s.team uid).streams tag).pend
  match l with
  | [] => (match s.streamEnter uid tag false bs with | (s, []) => s | (s, left) => set s [(none, left)])
  | l => set s (l ++ [(none, bs)])
/-- A result that an instruction enters into a stream behind its producers, as room allows; the bytes already entered count in PIX (R121, R259,
R261). -/
def State.streamOwe (s : State) (p : Party) (l tag : Nat) (bs : List Byte) : State :=
  let set (s : State) (q : List (Option (Party × Nat) × List Byte)) : State :=
    s.modTeam p.team fun t => { t with streams := vmod t.streams tag fun st => { st with pend := q } }
  match (vget (s.team p.team).streams tag).pend with
  | [] =>
    let (s, left) := s.streamEnter p.team tag false bs
    (if left.isEmpty then s else set s [(some (p, l), left)]).modGroup p fun g => { g with pushed := g.pushed + (bs.length - left.length) }
  | q => set s (q ++ [(some (p, l), bs)])
/-- A result's 32-bit entries at a queue register: one, or two for a pair (R165). -/
def entriesOf (wide : Bool) (v : DWord) : List Word := if wide then [v.setWidth 32, v.extractLsb' 32 32] else [v.setWidth 32]
/-- WriteOp to any destination by an instruction: a queue register takes one entry, or two for a pair (R165). -/
def State.deliverOp (s : State) (p : Party) (l : Nat) (wide : Bool) (o : Operand) (v : DWord) : State :=
  match o with
  | .q n =>
    (match (s.team p.team).bind n.toNat with
     | .copy c => (entriesOf wide v).foldl (fun s w => s.queueWrite p.team c w) s
     | .caddy tag => s.streamOwe p l tag ((entriesOf wide v).flatMap fun w => leBytes 4 w.toNat)
     | .unbound => s)
  | o => s.writeOp p l wide o v
/-- WriteOp to any destination by a register write that lands after its instruction (R165, R316). -/
def State.landOp (s : State) (p : Party) (l : Nat) (wide : Bool) (o : Operand) (v : DWord) : State :=
  match o with
  | .q n =>
    (match (s.team p.team).bind n.toNat with
     | .copy c => (entriesOf wide v).foldl (fun s w => s.queueWrite p.team c w) s
     | .caddy tag => s.streamFeed p.team tag ((entriesOf wide v).flatMap fun w => leBytes 4 w.toNat)
     | .unbound => s)
  | o => s.writeOp p l wide o v
/-- Whether an instruction may begin that delivers a number of 32-bit entries to a queue register: a copy context must have room; into a caddy
stream the bytes enter as room allows (R91, R165, R259). -/
def State.queueTakes (s : State) (p : Party) (o : Operand) (words : Nat) : Bool :=
  match o with
  | .q n => (match (s.team p.team).bind n.toNat with | .copy c => (vget (s.team p.team).copy c).queueRoom words | _ => true)
  | _ => true
/-- Whether bytes of a party's result have yet to enter a stream. -/
def State.streamOwes (s : State) (p : Party) : Bool :=
  (s.team p.team).streams.toList.any fun st => st.pend.any fun e => (e.1.map (·.1)) == some p && !e.2.isEmpty
/-- A party's result has entered: its place among the producers is given up, and nothing of it stands part-way. -/
def State.streamDone (s : State) (p : Party) : State :=
  (s.modTeam p.team fun t => { t with streams := t.streams.map fun st => { st with pend := st.pend.filter fun e => (e.1.map (·.1)) != some p } }).modGroup p
    fun g => { g with pushed := 0, pix := 0 }

end Sys2Proof.Machine
end

