-- ==== Sys2Proof/Machine/Report.lean ====
section
/-! DEFINITION. The agenda of due steps, MSI-X, and the reliability ring with what a launch that consumed poison starts (R326, R368, R375). -/
namespace Sys2Proof.Machine

/-! ## Launches -/

def State.modLaunch (s : State) (x gen : Nat) (f : Launch → Launch) : State :=
  s.modCtx x fun c => { c with launches := c.launches.map fun l => if l.gen = gen then f l else l }
def State.launch? (s : State) (x gen : Nat) : Option Launch := (s.ctx x).launches.find? (·.gen == gen)
/-- The launch that a child belongs to in the end (R371). -/
def State.rootGen (s : State) (x : Nat) : Nat → Nat → Nat
  | 0, gen => gen
  | k + 1, gen => match (s.launch? x gen).bind (·.parent) with | some g => s.rootGen x k g | none => gen

/-! ## The agenda and small parts -/

/-- A device step that is due (log entry 8). -/
def State.due (s : State) (i : Instr) : State := { s with agenda := s.agenda ++ [i] }
/-- A device step that is due, unless it is already on the agenda. -/
def State.dueOnce (s : State) (i : Instr) : State := if s.agenda.contains i then s else s.due i
def State.ctxOf (s : State) (p : Party) : Nat := (s.team p.team).id.ctx
/-- The function that owns a context or a queue (R326). -/
def fnOf (x : Nat) : Nat := x / 32
/-- An MSI-X vector of a function. -/
def State.msix (s : State) (fn v : Nat) : State :=
  { s with dev := { s.dev with fns := vmod s.dev.fns fn fun f => { f with msix := f.msix ++ [v] } } }
/-! ## The reliability ring (R375) -/

/-- A reliability record: written at the tail of the ring, over the oldest unread one when the ring is full; MSI-X vector 3 on both functions. -/
def State.rasRecord (s : State) (kind utype unit gen time data : Nat) : State :=
  let cap := 2 ^ fld (s.dreg .rasBase) 0 5
  let tail := (s.dreg .rasTail).toNat
  let full := cap ≤ (tail + 2 ^ 32 - (s.dreg .rasHead).toNat) % 2 ^ 32
  let base := fld (s.dreg .rasBase) 12 40 * 4096 + 32 * (tail % cap)
  let ws := [kind * 2 ^ 56 + utype * 2 ^ 48 + s.dev.rasOvf * 2 ^ 40 + unit % 2 ^ 40, gen, time, data]
  let s := (List.range 4).foldl (fun (s : State) i => s.writePa (base + 8 * i) 8 (ws.getD i 0)) s
  let s := s.setDreg .rasTail (BitVec.ofNat 64 ((tail + 1) % 2 ^ 32))
  let s := { s with dev := { s.dev with rasOvf := if full then min 255 (s.dev.rasOvf + 1) else s.dev.rasOvf } }
  (s.msix 0 3).msix 1 3
/-- A record of an event now. -/
def State.rasNow (s : State) (kind utype unit gen data : Nat) : State := s.rasRecord kind utype unit gen (vget s.dies 4).time.toNat data
/-- A record about a core or a cluster; how UNIT names one is a value that the spec leaves open. -/
def State.rasPlace (s : State) (kind utype gen data : Nat) : State :=
  { s with freeCtr := s.freeCtr + 1 }.rasNow kind utype (Config.freeValue s.freeCtr).toNat gen data
/-- Whether a location lies on a lost page: its stack answers every request uncorrectable (R379). -/
def State.lostLoc (s : State) (loc : Nat) : Bool :=
  let k := s.storage (loc % keyUnit)
  isGddrKey k && s.stackDead ((k - gddrBase) / 2 ^ 36)
/-- A launch reads some locations: one that reads a lost page is marked (R372, R379). -/
def State.noteLost (s : State) (x gen : Nat) (locs : List Nat) : State :=
  if (s.stackDead 0 || s.stackDead 1) && locs.any s.lostLoc then s.modLaunch x (s.rootGen x 10 gen) fun l => { l with lostRead := true } else s
/-- The locations that the address of a poisoned datum stands for: itself, and what it translates to (DEDUCED, log entry 17). -/
def State.datumLocs (s : State) (x a : Nat) : List Nat :=
  a :: (match s.engLocs none x a 1 .read (raw := false) with | .ok l => l | .error _ => [])
/-- A launch consumed poisoned data at some locations: the record of it, and its rollback is due (R368, R372). -/
def State.poisonHit (s : State) (x gen : Nat) (locs : List Nat := []) : State :=
  ((s.noteLost x gen locs).rasPlace 2 2 gen 0).dueOnce (.rollback x gen)

end Sys2Proof.Machine
end

