-- ==== Sys2Proof/Machine/Phases.lean ====
section
/-! DEFINITION. The steps of the phase machine: reads, writes, releases, acquires, drains, combinations and atomics at the home (R144 to R156). -/
namespace Sys2Proof.Machine

/-! ## Read and Write (R145) -/

/-- The byte that the write buffer shows a thread: the newest entry of its own, else the newest visible one. -/
def Team.bufByte (t : Team) (w : Party × Nat) (l : Nat) : Option Byte :=
  match t.ord.buf.reverse.findSome? (fun e => if e.writer == w then cellAt e.cells l else none) with
  | some b => some b
  | none => t.ord.buf.reverse.findSome? (fun e => if e.visible then cellAt e.cells l else none)
/-- ReadValue for one byte. -/
def State.seenByte (s : State) (p : Party) (lane l : Nat) : Byte :=
  match (s.team p.team).bufByte (p, lane) l with
  | some b => if isTexel (l % keyUnit) && s.voidByte (l % keyUnit) then 0 else b
  | none => s.snapRead (s.team p.team) l
/-- ReadValue for `n` bytes. -/
def State.seenN (s : State) (p : Party) (lane loc n : Nat) : Nat := ofLe ((List.range n).map fun i => s.seenByte p lane (loc + i))
/-- A read that does not come from the write buffer finds the home's poison (R367, R368). -/
def State.seenPoison (s : State) (p : Party) (lane loc n : Nat) : Bool :=
  s.anyPoison &&
  (List.range n).any fun i => ((s.team p.team).bufByte (p, lane) (loc + i)).isNone && s.homePoisoned (loc + i)
def Team.modOrd (t : Team) (f : Order → Order) : Team := { t with ord := f t.ord }
/-- The cells of a value, `n` bytes from a location. -/
def cellsOf (loc n v : Nat) : List Host.Cell := (List.range n).map fun i => (loc + i, BitVec.ofNat 8 (v >>> (8 * i)))
/-- A Write step: one entry, not visible. -/
def State.bufWrite (s : State) (p : Party) (lane : Nat) (cells : List Host.Cell) : State :=
  s.modTeam p.team fun t => t.modOrd fun o => { o with buf := o.buf ++ [{ writer := (p, lane), cells }] }
/-- The Write steps of a store without the bytes that a higher lane of the instruction stores too: pieces of at most 32 bits (R145, R238). -/
def State.bufWriteBut (s : State) (p : Party) (lane loc n v : Nat) (higher : List Nat) : State :=
  let cells := (cellsOf loc n v).filter fun c => !higher.contains c.1
  [cells.filter (·.1 < loc + 4), cells.filter (loc + 4 ≤ ·.1)].foldl (fun (s : State) c => if c.isEmpty then s else s.bufWrite p lane c) s
/-- The Write steps of a store: pieces of at most 32 bits (R145). -/
def State.bufWriteN (s : State) (p : Party) (lane loc n v : Nat) : State :=
  if n = 8 then (s.bufWrite p lane (cellsOf loc 4 v)).bufWrite p lane (cellsOf (loc + 4) 4 (v / 2 ^ 32))
  else s.bufWrite p lane (cellsOf loc n v)

/-! ## Merge buffers and homes -/

/-- An entry applied at its home (Drain, R145, R152). An update that finds poison there is consumed, with a rollback due for each launch that it
stands for, and leaves the home as it was (R368, R369). -/
def State.applyEntry (s : State) (e : MEntry) : State :=
  match e with
  | .plain cells => s.homeWrite cells
  | .update loc op ty v by_ =>
    if s.homesPoisoned loc (ty.width / 8) then by_.foldl (fun s l => s.poisonHit l.1 l.2 [loc]) s else s.homeUpdate op ty loc v
def MEntry.remote (e : MEntry) : Bool := e.locs.any isRemote
def State.modMerge (s : State) (cl : Nat) (f : List MEntry → List MEntry) : State := s.modCluster cl fun c => { c with merge := f c.merge }
def State.modOutq (s : State) (cl : Nat) (f : List MEntry → List MEntry) : State := s.modCluster cl fun c => { c with outq := f c.outq }
/-- Entries appended to a merge buffer; snapshots go on holding what they held. -/
def State.toMerge (s : State) (cl : Nat) (es : List MEntry) : State :=
  if es.isEmpty then s else s.keepSnaps (s.modMerge cl (· ++ es)) (es.flatMap MEntry.locs)
/-- The head of the merge buffer moves on: to its home, or to the outbound queue for a host or peer home (R146). -/
def State.mergeHead (s : State) (cl : Nat) : State :=
  match (vget s.clusters cl).merge with
  | [] => s
  | e :: _ =>
    if e.remote then (s.modOutq cl (· ++ [e])).modMerge cl List.tail
    else (s.applyEntry e).modMerge cl List.tail
def State.outHead (s : State) (cl : Nat) : State :=
  match (vget s.clusters cl).outq with
  | [] => s
  | e :: _ => (s.applyEntry e).modOutq cl List.tail
/-- `f` taken `n` times. -/
def times (f : State → State) : Nat → State → State
  | 0, s => s
  | n + 1, s => times f n (f s)
def State.flushMerge (s : State) (cl : Nat) : State := times (·.mergeHead cl) (vget s.clusters cl).merge.length s
def State.flushOut (s : State) (cl : Nat) : State := times (·.outHead cl) (vget s.clusters cl).outq.length s

/-! ## Release and acquire (R146, R147) -/

/-- What buffer entries that leave the buffer still have to bring home. -/
def unhomed (l : List WEntry) : List WEntry := l.filter (!·.homed)
/-- The entries of a thread and the visible ones leave the write buffer for the merge buffer, in buffer order. -/
def State.bufToMerge (s : State) (p : Party) (lane : Nat) : State :=
  let t := s.team p.team
  let go (e : WEntry) : Bool := e.writer == (p, lane) || e.visible
  (s.toMerge t.id.cluster ((unhomed (t.ord.buf.filter go)).map fun e => .plain e.cells)).modTeam p.team
    fun t => t.modOrd fun o => { o with buf := o.buf.filter (!go ·) }
def State.release (s : State) (p : Party) (lane : Nat) (sc : Scope) : State :=
  let cl := (s.team p.team).id.cluster
  match sc with
  | .team => s.modTeam p.team fun t => t.modOrd fun o =>
      { o with buf := o.buf.map fun e => if e.writer = (p, lane) then { e with visible := true } else e }
  | .cluster => s.bufToMerge p lane
  | .device => (s.bufToMerge p lane).flushMerge cl
  | .system => ((s.bufToMerge p lane).flushMerge cl).flushOut cl
def State.clearSnap (s : State) (uid : Nat) : State := s.modTeam uid fun t => t.modOrd fun o => { o with snap := [] }
def State.acquire (s : State) (uid : Nat) (sc : Scope) : State :=
  let cl := (s.team uid).id.cluster
  match sc with
  | .team => s
  | .cluster => s.clearSnap uid
  | .device => (s.flushMerge cl).clearSnap uid
  | .system => ((s.flushMerge cl).flushOut cl).clearSnap uid
/-- The same release by several lanes of a party. -/
def State.releaseLanes (s : State) (p : Party) (lanes : List Nat) (sc : Scope) : State := lanes.foldl (fun s l => s.release p l sc) s
/-- Whether some lane of a party has an ACCST that has not retired, and so a store that has not performed (R127, R145). -/
def State.storePending (s : State) (p : Party) (lanes : List Nat) : Bool :=
  (vget s.cores (s.team p.team).coreNo).tiles.any fun | .st w lane _ _ _ _ => w == p && lanes.contains lane | _ => false
/-- Whether the region table holds what a team has buffered, or its cluster has merged or queued, so that a release cannot bring it home yet (R44). -/
def State.flushHeld (s : State) (uid : Nat) : Bool :=
  (s.dreg .rtStat).getLsbD 1 &&
  (let c := vget s.clusters (s.team uid).id.cluster
   ((s.team uid).ord.buf.flatMap fun e => e.cells.map (·.1)).any s.locHeld || ((c.merge ++ c.outq).flatMap MEntry.locs).any s.locHeld)
/-- Whether lanes may release or acquire: their pending pools are empty, their earlier stores have performed (R148), and what moves home is not
held (R44). -/
def State.poolClear (s : State) (p : Party) (lanes : List Nat) : Bool :=
  ((s.team p.team).ord.pool.all fun a => !(a.who == p && lanes.contains a.lane)) && !s.storePending p lanes && !s.flushHeld p.team

/-! ## Atomics (R151 to R154) -/

/-- The thread's own buffer entries that touch the bytes move home, in buffer order. -/
def State.ownHome (s : State) (p : Party) (lane loc n : Nat) : State :=
  let hit (e : WEntry) : Bool := e.writer == (p, lane) && e.cells.any fun c => loc ≤ c.1 && c.1 < loc + n
  let t := s.team p.team
  if t.ord.buf.any hit then
    ((unhomed (t.ord.buf.filter hit)).foldl (fun s e => s.homeWrite e.cells) s).modTeam p.team
      fun t => t.modOrd fun o => { o with buf := o.buf.filter (!hit ·) }
  else s
/-- The Atomic step of an atomic of use plain, noorder or spec. -/
def State.atomicStep (s : State) (p : Party) (lane : Nat) (op : AtomOp) (ty : Ty) (loc : Nat) (v cmp : DWord) : DWord × State :=
  (s.ownHome p lane loc (ty.width / 8)).homeAtomic op ty loc v cmp
/-- The update entry of a party's commute atomic (R152). -/
def State.commute (s : State) (p : Party) (loc : Nat) (op : AtomOp) (ty : Ty) (v : DWord) : State :=
  let id := (s.team p.team).id
  let cl := id.cluster
  let e : MEntry := .update loc op ty v [(id.ctx, id.gen)]
  if isRemote loc then s.keepSnaps (s.modOutq cl (· ++ [e])) e.locs else s.toMerge cl [e]
/-- The register value of an atomic's or a load's result: 8 and 16 bits extend under R99. -/
def loadBits (ty : Ty) (v : Nat) : DWord := intBits ty v
/-- An atomic moved to the pending pool (R145). -/
def State.pool (s : State) (a : Pooled) : State := s.modTeam a.who.team fun t => t.modOrd fun o => { o with pool := o.pool ++ [a] }

/-- Drain (R145): the entry chosen is the oldest of each of its locations. -/
def oldest (l : List MEntry) (i : Nat) : Bool :=
  match l[i]? with
  | none => false
  | some e => (l.take i).all fun f => f.locs.all fun x => !e.locs.contains x
/-- The combined operand of two update entries (R152). -/
def combineOp (op : AtomOp) (ty : Ty) (a b : DWord) : DWord :=
  match op with
  | .add | .sub => atomicResult .add ty a b 0
  | .and => a &&& b | .or => a ||| b | .xor => a ^^^ b
  | op => atomicResult op ty a b 0
/-- Combine (R152): entry `i` and the next entry of the same location become one when they have equal bytes, operation and type. -/
def combineAt (l : List MEntry) (i : Nat) : List MEntry :=
  match l[i]? with
  | some (.update loc op ty v b) =>
    let rest := l.drop (i + 1)
    let n := ty.width / 8
    match rest.findIdx? (fun f => f.locs.any fun x => loc ≤ x && x < loc + n) with
    | some j =>
      (match rest[j]? with
       | some (.update loc2 op2 ty2 v2 b2) =>
         if loc2 = loc ∧ op2 = op ∧ ty2 = ty then l.take i ++ [.update loc op ty (combineOp op ty v v2) (b ++ b2).eraseDups] ++ rest.eraseIdx j else l
       | _ => l)
    | none => l
  | _ => l

end Sys2Proof.Machine
end

