-- ==== Sys2Proof/Machine/Ops.lean ====
section
/-! DEFINITION. The shared operations of the machine: taking a trap and returning from one, fault batches, snapshots of pages, and issuing an instruction: its checks, its steep form, its end (R160 to R179, R312, R345 to R355, R368). -/
namespace Sys2Proof.Machine

/-! ## Page snapshots (R371) -/

/-- Frames of the snapshot pool in use. -/
def State.poolUsed (s : State) (x : Nat) : List Nat := ((s.ctx x).launches.flatMap fun l => l.snaps.map (·.2)).eraseDups
def State.setUsed (s : State) (x : Nat) : State :=
  s.setCreg x .snapStat (setFld (s.creg x .snapStat) 16 16 (s.poolUsed x).length)
/-- The first write of a launch to a page with SNAP = 1: the page at the homes is copied to a free pool frame, or joins the copy another
running launch made; a full pool marks the launch non-replayable (R32, R371). `page` is the location of the page over 2^16. -/
def State.snapPage (s : State) (x gen0 page : Nat) : State :=
  let gen := s.rootGen x 10 gen0
  match s.launch? x gen with
  | none => s
  | some l =>
    if !(s.creg x .rasCfg).getLsbD 0 || l.snaps.any (·.1 == page) then s
    else match (s.ctx x).launches.findSome? (fun o => (o.snaps.find? (·.1 == page)).map (·.2)) with
    | some fr => s.modLaunch x gen fun l => { l with snaps := l.snaps ++ [(page, fr)] }
    | none =>
      let used := s.poolUsed x
      match (List.range (fld (s.creg x .snapPool) 0 16)).find? (fun f => !used.contains f) with
      | none => (s.setCreg x .snapStat (setBit (s.creg x .snapStat) 0 true)).modLaunch x gen fun l => { l with noReplay := true }
      | some fr =>
        let base := fld (s.creg x .snapPool) 16 36 * 2 ^ 16 + fr * 2 ^ 16
        let cells := (List.range (2 ^ 16)).map fun i => (base + i, s.homeRead (page * 2 ^ 16 + i))
        ((s.homeWrite cells).modLaunch x gen fun l => { l with snaps := l.snaps ++ [(page, fr)] }).setUsed x
/-- As `snapPage`, for a location reached through a page's attributes. -/
def State.snapFirst (s : State) (x gen loc : Nat) (p : Page) : State := if p.snap then s.snapPage x gen (loc / 2 ^ 16) else s

/-! ## Fault batches (R353) -/

/-- Where a party stands, for a fault record: cluster, core, group, copy context. -/
structure Where where
  gen : Nat := 0
  cluster : Nat := 0
  core : Nat := 0
  group : Nat := 0
  ctxn : Nat := 0
  deriving DecidableEq, Repr, Inhabited
def State.whereOf (s : State) (p : Party) : Where :=
  let t := s.team p.team
  { gen := t.id.gen, cluster := t.id.cluster, core := t.id.core, group := match p.mem with | .group g => g | .engine _ => 0 }
/-- The words of one fault record. -/
def faultRecord (m : MissPage) (batch : Nat) (last : Bool) (w : Where) : List Nat :=
  [m.page * 2 ^ 16,
   batch % 2 ^ 32 * 2 ^ 32 + (if last then 2 ^ 31 else 0) + m.acc * 2 ^ 28 + m.kind * 2 ^ 24 + m.sub,
   w.gen,
   w.cluster * 2 ^ 40 + w.core * 2 ^ 32 + w.group * 2 ^ 27 + w.ctxn * 2 ^ 25]
/-- Write a batch to the fault ring and raise MSI-X vector 1; none while the ring lacks room for all of it (R353). -/
def State.writeBatch (s : State) (x : Nat) (pages : List MissPage) (w : Where) (who : Option Party) (f : Trap) : Option (Nat × State) :=
  let cap := 2 ^ fld (s.creg x .fltBase) 0 5
  let tail := (s.creg x .fltTail).toNat
  let head := (s.creg x .fltHead).toNat
  if cap < (tail + 2 ^ 32 - head) % 2 ^ 32 + pages.length then none
  else
    let n := (s.ctx x).nextBatch
    let base := fld (s.creg x .fltBase) 12 40 * 4096
    let s := (List.range pages.length).foldl (fun (s : State) i =>
      let ws := faultRecord (pages.getD i {}) n (i + 1 == pages.length) w
      (List.range 4).foldl (fun (s : State) k => s.writePa (base + 32 * ((tail + i) % cap) + 8 * k) 8 (ws.getD k 0)) s) s
    let s := s.setCreg x .fltTail (BitVec.ofNat 64 ((tail + pages.length) % 2 ^ 32))
    let s := s.modCtx x fun c => { c with nextBatch := n + 1, batches := c.batches ++ [{ no := n, pages, who, fault := f }] }
    some (n, s.msix (fnOf x) 1)

/-! ## Taking a trap (R345 to R350, R320) -/

/-- Lanes leave the running path of a group; an emptied path is a switch point (R312). -/
def Group.dropLanes (g : Group) (lanes : Word) : Group :=
  { g with run := match g.run with
      | some r => if r.lanes &&& ~~~ lanes = 0 then none else some { r with lanes := r.lanes &&& ~~~ lanes }
      | none => none }
/-- The number of slots of the clause that a lane of a group runs or stands parked in, as far as it has been fetched. -/
def Group.clauseLen (g : Group) (l : Nat) : Nat :=
  match g.run.filter (·.lanes.getLsbD l) with
  | some r => r.words.length
  | none => ((g.blocked.find? (·.lanes.getLsbD l)).map (·.words.length)).getD 0
/-- The trap registers of a thread that enters its handler at `base`, from a clause of `n` slots (R345, R348). -/
def Thread.enter (t : Thread) (base : DWord) (x : Trap) (n : Nat) : Thread :=
  { t with pc := base, mid := none, inh := true, hfl := 0, trapPc := x.pc, trapMid := x.mid.map (fun m => (m.1, max n (m.2 + 1))), trapCause := BitVec.ofNat 8 x.cause,
           trapAddr := x.addr, trapLanes := x.lanes, trapAux := x.aux, wait := none, sleep := 0 }
def TileOp.team : TileOp → Nat
  | .mma w _ _ _ _ _ _ _ _ _ => w.team | .wr w _ _ _ _ => w.team | .st w _ _ _ _ _ => w.team | .place w _ _ => w.team | .vxm w => w
def TileOp.isPlace : TileOp → Bool | .place _ _ _ => true | _ => false
/-- A party gives up the place that it holds in its matrix engine's order. -/
def State.dropPlace (s : State) (p : Party) : State :=
  s.modCore (s.team p.team).coreNo fun c => { c with tiles := c.tiles.filter fun | .place w _ _ => w != p | _ => true }
/-- A team stops for good (R350): its threads end, pending register writes are discarded, its copy contexts are aborted, streams wait for bytes of its
threads no more, and its exit is due. Tile operations and VXMs that it has issued still perform, as far as they can (R122, R124). -/
def State.stopTeam (s : State) (uid : Nat) : State :=
  let t := s.team uid
  let dead (g : Group) : Group :=
    { g with run := none, blocked := [], steep := none, threads := g.threads.map fun h =>
        if h.life = .live then { h with life := .ended, wait := none, mid := none } else h }
  let s := s.modTeam uid fun t =>
    { t with phase := .ending, killed := true, groups := t.groups.map dead, engines := t.engines.map fun g => { g with run := none, blocked := [], stopped := true },
             ord := { t.ord with pend := [] }, latch := [], streams := t.streams.map fun (st : Stream) => { st with pend := [] } }
  let s := s.modCore t.coreNo fun c => { c with steepUsed := c.steepUsed - (t.groups.filter (·.steep.isSome)).length, tiles := c.tiles.filter fun o => !(o.team == uid && o.isPlace) }
  ((List.range 4).foldl (fun (s : State) c => s.due (.abort uid c)) s).dueOnce (.teamEnd uid)
/-- What the cause word of an error report names: a line by its address, an fmt register, a field by 64 times its word plus its lowest bit, a
task record by its words. -/
inductive Named where | line (va : Nat) | fmt (k : Nat) | field (at_ : Nat) | record (w : Vector DWord 4)
  deriving DecidableEq, Repr
/-- The cause word of an error report that names something (R83, R105, R308, R323, R336). -/
def Named.word (n : Named) (cause : Nat) : Nat :=
  let name := match n with
    | .line va => Config.reportName 1 va
    | .fmt k => Config.reportName 2 k
    | .field a => Config.reportName 3 a
    | .record w => Config.reportName 4 (w.toList.foldr (fun (d : DWord) m => d.toNat + 2 ^ 64 * m) 0)
  cause + 256 * name.toNat
/-- The team is killed (R350): it stops, and the launch ends with an error report. -/
def State.killTeam (s : State) (uid cause : Nat) : State :=
  let t := s.team uid
  (s.stopTeam uid).due (.errorReport t.id.ctx t.id.gen cause)
/-- A trap due for the handler sends the entering lanes of a group to TRAP_BASE; with no handler, or inside one, it is a double fault. -/
def State.enterGroup (s : State) (p : Party) (enter : List Nat) (x : Trap) : State :=
  let base := s.creg (s.ctxOf p) .trapBase
  if base = 0 || enter.any (fun l => (s.thread p l).inh) then s.killTeam p.team 4
  else s.modGroup p fun g =>
    { (g.dropLanes (ofBits 32 enter)) with threads := enter.foldl (fun ts l => vmod ts l (·.enter base x (g.clauseLen l))) g.threads }
/-- The lowest-numbered live thread of a team (R320). -/
def Team.lowestLive (t : Team) : Option (Nat × Nat) :=
  (List.range t.groups.length).findSome? fun g =>
    ((List.range 32).find? fun l => (vget (t.groups.getD g default).threads l).life == .live).map fun l => (g, l)
/-- A member of an engine stops, and the trap is raised in the lowest live thread with TRAP_LANES 0 (R320). -/
def State.memberStop (s : State) (p : Party) (x : Trap) (deliver : Bool) : State :=
  let s := s.modGroup p fun g => { g with stopped := true, run := none, blocked := [] }
  if !deliver then s
  else match (s.team p.team).lowestLive with
  | none => s
  | some (g, l) => s.enterGroup { p with mem := .group g } [l] { x with lanes := 0 }
/-- Taking an exact trap that a handler receives. -/
def State.takeTrap (s : State) (p : Party) (enter : List Nat) (x : Trap) : State :=
  match p.mem with
  | .group _ => s.enterGroup p enter x
  | .engine _ => s.memberStop p x true
/-- Where TRET resumes: at TRAP_PC as the handler left it, inside a clause when that is a slot of the clause the trap named (R197). -/
def Thread.resume (t : Thread) : DWord × Option (DWord × Nat) :=
  (t.trapPc, match t.trapMid with
    | some (hdr, n) => ((List.range n).find? fun k => hdr + BitVec.ofNat 64 (8 * (k + 1)) == t.trapPc).map fun k => (hdr, k)
    | none => none)
/-- TRET of one thread: FLAGS gains HFL, INH and HFL clear, and the thread stands at its TRAP_PC (R197, R349). -/
def Thread.tret (t : Thread) : Thread :=
  { t with flags := t.flags ||| t.hfl, inh := false, hfl := 0, pc := t.resume.1, mid := t.resume.2 }
/-- A member of an engine stops; a group does not. -/
def State.stopMember (s : State) (p : Party) (x : Trap) : State := match p.mem with | .engine _ => s.memberStop p x false | .group _ => s
/-- Poisoned data was consumed, or the shadow unit disagreed (causes 0x21 and 0x22): nothing is delivered to a handler, and the rollback
of the launch is due (R368, R369, R373). -/
def State.rollbackDue (s : State) (p : Party) (x : Trap) : State :=
  let t := s.team p.team
  let s := s.stopMember p x
  let s := if x.cause = 0x22 then s.modCore t.coreNo fun c => { c with upset := [], tainted := true } else s
  let s := if x.cause = 0x22 then s.dueOnce (.selfTest (.core t.id.cluster t.id.core)) else s
  if x.cause = 0x22 then (s.rasPlace 3 2 t.id.gen 0).dueOnce (.rollback t.id.ctx t.id.gen) else s.poisonHit t.id.ctx t.id.gen (s.datumLocs t.id.ctx x.addr.toNat)

/-! ## What issue sees of an instruction -/

/-- An operand field: its number in TRAP_AUX[10:8], the operand, pair or not, destination or source, and how many registers it names. -/
structure Field where
  no : Nat := 0
  o : Operand := .none
  wide : Bool := false
  dst : Bool := false
  regs : Nat := 1
  tag : Bool := false
  deriving DecidableEq, Repr, Inhabited
end Sys2Proof.Machine
namespace Sys2Proof
open Machine
def Kind.wide : Kind → Bool | .src w | .dstr w | .kreg w | .greg w | .gOpt w => w | _ => false
def Kind.regs : Kind → Nat
  | .trio => 3 | .quad => 4 | .src w | .dstr w | .kreg w | .greg w | .gOpt w => if w then 2 else 1 | _ => 1
/-- The operand fields of an instruction; VXM's DST is a source, and the DST of a cas is both (R239, R273). -/
def View.fields (v : View) : List Field :=
  let sh := v.shape
  let mk (no : Nat) (k : Kind) (o : Operand) (d : Bool) : List Field :=
    match k with
    | .num _ | .off | .zero | .tyc _ | .unused => []
    | k => if o.isNone || o.isLit then [] else [{ no, o, wide := Kind.wide k, dst := d, regs := Kind.regs k, tag := k == .ctag }]
  let isCas := v.mn.isAtomic && v.mod.extractLsb' 5 4 == 8#4
  mk 1 sh.dst v.dst (v.mn != .vxm) ++ (if isCas then mk 1 sh.dst v.dst false else []) ++ mk 2 sh.a v.a false ++ mk 3 sh.b v.b false ++ mk 4 sh.c v.c false
/-- The narrow types that an instruction names (R105). -/
def View.nfs (v : View) : List Nat :=
  let ofTy : Ty → List Nat | .nf k => [k.toNat] | _ => []
  match v.mn with
  | .fcvt | .i2f | .f2i => (match Ty.ofCode (v.mod.extractLsb' 9 5) with | some t => ofTy t | none => []) ++ (match v.c with | .tyc t => ofTy t | _ => [])
  | .vxmcfg => [(v.mod.extractLsb' 0 3).toNat]
  | .mma | .mmag =>
    (match elemOfCode (v.mod.extractLsb' 6 4) with | some t => ofTy t | none => []) ++ (match elemOfCode (v.mod.extractLsb' 2 4) with | some t => ofTy t | none => [])
  | _ => []
end Sys2Proof
namespace Sys2Proof.Machine

/-- The registers that a field names, as operands of one register each. -/
def Field.each (f : Field) : List Operand :=
  match f.o with
  | .g n => (List.range f.regs).map fun i => .g (n + BitVec.ofNat 8 i)
  | .k n => (List.range f.regs).map fun i => .k (n + BitVec.ofNat 6 i)
  | o => [o]
/-- The dynamic checks of R179, reasons 9 to 11, in order. -/
def State.dynBad (s : State) (p : Party) (v : View) : Option Bad :=
  let t := s.team p.team
  let g := s.group p
  let quota := match p.mem with | .group _ => g.quota | .engine _ => 16
  let unboundQ (f : Field) : Bool := match f.o with
    | .q n => !f.tag && (match t.bind n.toNat with | .unbound => true | .caddy _ => !f.dst | .copy _ => false)
    | _ => false
  let beyond (f : Field) : Bool := match f.o with | .g n => quota < n.toNat + f.regs | _ => false
  if v.fields.any unboundQ then some { reason := 9 }
  else if v.nfs.any (fun k => !Nf.ok (vget t.regs.fmt k)) then some { reason := 10 }
  else match v.fields.find? beyond with
  | some f => some { reason := 11, field := f.no }
  | none => none
/-- Whether a lane's atomic is out at the host (R27). -/
def Thread.atHost (t : Thread) : Bool := match t.wait with | some (.host _ _ _ _) => true | _ => false
/-- Whether a register, or a predicate as the guard, has a pending write in some lane of the issue group (R176); or an atomic of the instruction
is out at the host, until whose completion the path stands at it (R27, R399). -/
def State.interlocked (s : State) (p : Party) (lanes : List Nat) (v : View) : Bool :=
  let regs := v.fields.flatMap Field.each ++ [.p v.guard.p]
  let o := (s.team p.team).ord
  let hit (who : Party) (lane : Nat) (dst : Operand) (wide : Bool) : Bool :=
    who == p && lanes.contains lane && (Field.each { o := dst, regs := if wide then 2 else 1 }).any regs.contains
  let tickets := (vget s.clusters (s.team p.team).id.cluster).tbOps
  lanes.any (fun l => (s.thread p l).atHost) || o.pend.any (fun w => hit w.who w.lane w.dst w.wide) || o.pool.any (fun a => hit a.who a.lane a.dst a.ty.wide) ||
  tickets.any fun t => match t.op with | .arv _ _ w l d => hit w l d false | _ => false
/-- The class counter that an instruction counts in (R175, R238). -/
inductive Counter where | load | store | copy | tile
  deriving DecidableEq, Repr, Inhabited
end Sys2Proof.Machine
namespace Sys2Proof
open Machine
def View.counter (v : View) : Option Counter :=
  match v.mn with
  | .lds | .ldsr | .sld | .ldref | .ldh | .newobj | .pin | .refeq => some .load
  | .atoms | .atomsr | .atomg | .atomf | .atomh => some (if v.dst.isNone then .store else .load)
  | .sts | .stsr | .sst | .stref | .sth | .mapr | .unmapr | .flushr | .unpin => some .store
  | .cpy | .cpyg | .cpys | .cpyw | .cpyx | .coll => some .copy
  | .mma | .mmag | .accwr | .accst => some .tile
  | _ => none
end Sys2Proof
namespace Sys2Proof.Machine

def Group.count (g : Group) : Counter → Nat | .load => g.ldCnt | .store => g.stCnt | .copy => g.cpCnt | .tile => g.tlCnt
def Group.addCount (g : Group) (c : Counter) (n : Nat) : Group :=
  match c with
  | .load => { g with ldCnt := g.ldCnt + n } | .store => { g with stCnt := g.stCnt + n }
  | .copy => { g with cpCnt := g.cpCnt + n } | .tile => { g with tlCnt := g.tlCnt + n }
def Group.subCount (g : Group) (c : Counter) (n : Nat) : Group :=
  match c with
  | .load => { g with ldCnt := g.ldCnt - n } | .store => { g with stCnt := g.stCnt - n }
  | .copy => { g with cpCnt := g.cpCnt - n } | .tile => { g with tlCnt := g.tlCnt - n }
/-- An instruction that would make its class counter exceed 63 stalls (R175). -/
def State.counterFull (s : State) (p : Party) (v : View) : Bool :=
  match v.counter with | some c => 63 ≤ (s.group p).count c | none => false
end Sys2Proof.Machine
namespace Sys2Proof
open Machine
/-- Instructions that only move data, and so copy poison (R368). -/
def View.moves (v : View) : Bool := match v.mn with | .mov | .shfl | .xfer => true | _ => false
end Sys2Proof
namespace Sys2Proof.Machine

/-- A source that an instruction takes from its lowest lane, while the others are read in every lane: the row of ACCRD and ACCWR (R270). -/
def View.lowOnly (v : View) (f : Field) : Bool := (v.mn == .accrd || v.mn == .accwr) && f.no == 2
/-- Poison that an instruction consumes: a poisoned source register of a lane that reads it (R368). -/
def State.consumes (s : State) (p : Party) (lanes : List Nat) (v : View) : Bool :=
  !v.moves && v.fields.any fun f => !f.dst && (if View.lowOnly v f then lanes.take 1 else lanes).any fun l => f.each.any (s.opPoisoned p l false)

/-! ## Where an instruction leaves its lanes -/

/-- A place to stand: a program counter, and inside a clause its header and slot. -/
abbrev Spot := DWord × Option (DWord × Nat)
def Run.slotPc (r : Run) : DWord := r.hdr + BitVec.ofNat 64 (8 * (r.idx + 1))
def Run.here (r : Run) : Spot := (r.slotPc, some (r.hdr, r.idx))
/-- NextHeader (R189). -/
def nextHeader (hdr : DWord) (hword : DWord) : DWord := hdr + BitVec.ofNat 64 (8 * ((headerOf hword).slots + 1))
def Run.last (r : Run) : Bool := (headerOf r.hword).slots ≤ r.idx + 1
def Run.next (r : Run) : Spot :=
  if r.last then (nextHeader r.hdr r.hword, none) else (r.hdr + BitVec.ofNat 64 (8 * (r.idx + 2)), some (r.hdr, r.idx + 1))
/-- Target (R189). -/
def Run.target (r : Run) (lit : Word) : DWord := r.hdr + BitVec.ofInt 64 (8 * lit.toInt)

/-- The enabled flags that a fence finds raised (R349, R351). -/
def Thread.raisedAt (t : Thread) : BitVec 5 := if t.life = .live ∧ !t.inh then t.flags &&& t.en else 0
/-- The trap fence of R351 over lanes that leave a clause: one trap for each place and set of enabled flags. -/
def State.fence (s : State) (p : Party) (lanes : List Nat) : State :=
  let e (t : Thread) : BitVec 5 := t.raisedAt
  let g := s.group p
  let keys := ((lanes.filter fun l => e (vget g.threads l) != 0).map fun l =>
    let t := vget g.threads l; ((t.pc, t.mid), e t)).eraseDups
  keys.foldl (fun s k =>
    let ls := lanes.filter fun l => let t := vget g.threads l; e t != 0 && ((t.pc, t.mid), e t) == k
    s.takeTrap p ls { cause := 0x18, aux := k.2.setWidth 64, lanes := ofBits 32 ls, pc := k.1.1, mid := k.1.2 }) s
/-- The fence test after a clause: exceptions that were raised trap; in run-ahead they end it (R189, R351, R355). -/
def State.clauseFence (s : State) (p : Party) (lanes : List Nat) : State :=
  match (s.group p).steep, p.mem with
  | some _, .group n => if lanes.any fun l => (s.thread p l).raisedAt != 0 then s.dueOnce (.steepEnd p.team n) else s
  | _, _ => s.fence p lanes
/-- The clock of a party's core. -/
def State.coreClock (s : State) (p : Party) : Nat := (vget s.cores (s.team p.team).coreNo).clk.toNat
/-- The running path leaves an instruction: the lanes in `stay` block at it, those in `dest` go where it says, the others go on to the next slot
or, with the clause at its end, to the next header and the fence test; the group's next head arrives in the next clock. Lanes that block make it a
switch point: the others wait mid-clause to be picked (R173, R189, R312, R314, R351). -/
def State.advance (s : State) (p : Party) (stay : List Nat) (dest : List (Nat × Spot)) : State :=
  match (s.group p).run with
  | none => s
  | some r =>
    let move := (bitsOf r.lanes).filter fun l => !stay.contains l && (vget (s.group p).threads l).life == .live
    let spot (l : Nat) : Spot := ((dest.find? (·.1 == l)).map (·.2)).getD r.next
    let h := headerOf r.hword
    let s := s.modGroup p fun g =>
      { g with
        threads := move.foldl (fun ts l => vmod ts l fun t => { t with pc := (spot l).1, mid := (spot l).2 }) g.threads
        run := if r.last || move.isEmpty || !stay.isEmpty then none else some { r with idx := r.idx + 1, lanes := ofBits 32 move, held := [], flip := false, stall := none, inval := [] }
        blocked := if stay.isEmpty then g.blocked
          else g.blocked ++ { r with lanes := ofBits 32 stay, stall := none } ::
            (if r.last || move.isEmpty then [] else [{ r with idx := r.idx + 1, lanes := ofBits 32 move, held := [], flip := false, stall := none, inval := [] }])
        yield := g.yield || (r.last && h.y)
        age := s.coreClock p + 1 }
    if r.last && h.f then s.clauseFence p move else s

/-- How an instruction's own effect ends. -/
inductive Res where
  /-- performed -/
  | done (s : State)
  /-- performed, and the listed lanes go where it says -/
  | jump (s : State) (dest : List (Nat × Spot))
  /-- an exact trap: cause, lanes that caused it, TRAP_ADDR, TRAP_AUX; TRAP_PC is the slot, or with `after` the next header. Causes 0x21
  (poison consumed) and 0x22 (shadow mismatch) go to no handler and start a rollback -/
  | trap (s : State) (cause : Nat) (lanes : List Nat) (addr aux : DWord) (after : Bool := false)
  /-- a translation that failed for lanes: the access, the failure, the address, and whether it may be a demand
  fault, with its record KIND; `more` are the other addresses that miss -/
  | xfault (s : State) (a : Acc) (f : XFail) (lanes : List Nat) (va : Nat) (demand : Option Nat := none) (more : List Nat := [])
  /-- not performed: issued again at a later clock -/
  | stall (s : State)
  /-- the listed lanes block at the instruction and wait (R312) -/
  | block (s : State) (ws : List (Nat × Wait))
  deriving Inhabited

def State.setWaits (s : State) (p : Party) (ws : List (Nat × Wait)) : State :=
  ws.foldl (fun s w => s.modThread p w.1 fun t => { t with wait := some w.2 }) s
/-- The trap registers of the lanes of a trap that no handler receives (R116, R345). -/
def State.noteTrap (s : State) (p : Party) (lanes : List Nat) (x : Trap) : State :=
  s.modGroup p fun g => { g with threads := lanes.foldl (fun ts l => vmod ts l fun t =>
    { t with trapPc := x.pc, trapCause := BitVec.ofNat 8 x.cause, trapAddr := x.addr, trapLanes := x.lanes, trapAux := x.aux }) g.threads }
/-- The trap of an instruction: the guarded lanes enter, the others go on (R348); causes 0x21 and 0x22 start a rollback (R346). -/
def State.trapAt (s : State) (p : Party) (enter : List Nat) (x : Trap) : State :=
  if x.cause = 0x21 ∨ x.cause = 0x22 then (s.noteTrap p enter x).rollbackDue p x
  else match p.mem with
  | .group _ =>
    let s := s.enterGroup p enter x
    if (s.team p.team).killed then s else s.advance p [] []
  | .engine _ => s.memberStop p x true

/-! ## Demand faults and steep run-ahead (R352 to R355) -/

/-- The access code of a fault record (R353). -/
def Acc.code : Acc → Nat | .read => 0 | .write => 1 | .engine => 1 | .fetch => 3
/-- The access code of an instruction's own access. -/
def accCode (v : View) (a : Acc) : Nat := if v.mn.isAtomic then 2 else a.code
/-- Whether a failed translation is a demand fault in a context (R352). -/
def State.demanded (s : State) (x : Nat) (a : Acc) (f : XFail) : Bool :=
  (s.creg x .fltCfg).getLsbD 0 && (f.sub == 2 || (f.sub == 5 && a == .write))
def Group.unknownDst (g : Group) (lanes : List Nat) (v : View) : Group :=
  let ds := v.fields.filter (·.dst)
  { g with threads := lanes.foldl (fun ts l => vmod ts l fun t =>
      (ds.flatMap Field.each).foldl (fun t o => match o with
        | .g n => { t with gUnk := setBit t.gUnk n.toNat true }
        | .h n => { t with hUnk := setBit t.hUnk n.toNat true }
        | .p n => if n = 7 then t else { t with pUnk := setBit t.pUnk n.toNat true }
        | _ => t) t) g.threads }
/-- What a written batch makes of the state and of the lanes' wait; where none was written, it waits for room in the ring (R353). -/
def State.orLate (s : State) (b : LateBatch) (w : Option (Nat × State)) : State × Wait :=
  match w with
  | some w => (w.2, .batch w.1)
  | none => (s.modCtx (s.ctxOf b.who) fun c => { c with late := c.late ++ [b] }, .room)
/-- A batch for the running path of a group: written with its number; or the ring lacks room and the batch waits for it (R353). -/
def State.giveBatch (s : State) (p : Party) (lanes : Word) (pages : List MissPage) (f : Trap) : State × Wait :=
  s.orLate { who := p, lanes, pages, fault := f } (s.writeBatch (s.ctxOf p) pages (s.whereOf p) (some p) f)
/-- The lanes of a path wait on a batch. -/
def State.pathBatch (s : State) (p : Party) (lanes : List Nat) (pages : List MissPage) (f : Trap) : State :=
  let b := s.giveBatch p (ofBits 32 lanes) pages f
  (b.1.setWaits p (lanes.map fun l => (l, b.2))).advance p lanes []
/-- Batches that waited for room in a context's fault ring are written, oldest first, while there is room; one that no lane waits for any more
is forgotten (R353). -/
def State.writeLate (s : State) (x : Nat) : State :=
  (s.ctx x).late.foldl (fun (s : State) b =>
    let ls := (bitsOf b.lanes).filter fun l => (s.thread b.who l).wait == some .room
    let drop (s : State) : State := s.modCtx x fun c => { c with late := c.late.erase b }
    if ls.isEmpty then drop s
    else if (s.ctx x).late.head? != some b then s
    else match s.writeBatch x b.pages (s.whereOf b.who) (some b.who) b.fault with
    | none => s
    | some w => (drop w.2).setWaits b.who (ls.map fun l => (l, .batch w.1))) s
/-- Pages added to a batch, each once. -/
def missPages (l : List MissPage) (vas : List Nat) (sub acc kind : Nat) : List MissPage :=
  vas.foldl (fun l va => if l.any (·.page == va / 2 ^ 16) then l else l ++ [{ page := va / 2 ^ 16, sub, acc, kind }]) l
/-- A demand fault of a running path: steep mode when the context allows it and a checkpoint buffer is free, else a batch of one page. -/
def State.demandFault (s : State) (p : Party) (v : View) (pages : List MissPage) (f : Trap) : State :=
  let c := (s.team p.team).coreNo
  match (s.group p).run with
  | none => s
  | some r =>
    if (s.creg (s.ctxOf p) .fltCfg).getLsbD 1 && (vget s.cores c).steepUsed < 4 then
      let s := (s.modCore c fun c => { c with steepUsed := c.steepUsed + 1 }).modTeam p.team fun t => { t with regs := { t.regs with perf := vmod t.regs.perf 8 (· + 1) } }
      (s.modGroup p fun g => { (g.unknownDst ((bitsOf r.lanes).filter fun l => (s.thread p l).guardOk v.guard) v) with
        steep := some { lanes := r.lanes, saved := g.threads, run := r, pages := pages.take 33, count := 1, fault := f } }).advance p [] []
    else s.pathBatch p (bitsOf r.lanes) (pages.take 1) f
/-- Steep mode ends: the registers roll back, the checkpoint buffer is freed, and the path stands at the faulting slot, where it waits (R355). -/
def State.leaveSteep (s : State) (p : Party) (st : Steep) (w : Wait) : State :=
  let back (ts : Vector Thread 32) : Vector Thread 32 := (bitsOf st.lanes).foldl (fun ts l =>
    vset ts l { (vget st.saved l) with wait := some w }) ts
  let s := s.modGroup p fun g =>
    { g with steep := none, run := none, threads := back g.threads,
             blocked := (g.blocked.filter fun r => r.lanes &&& st.lanes == 0) ++ [{ st.run with lanes := st.lanes }] }
  s.modCore (s.team p.team).coreNo fun c => { c with steepUsed := c.steepUsed - 1 }
/-- Run-ahead ends and its batch is written, or waits for room in the ring (R353, R355). -/
def State.endSteep (s : State) (p : Party) : State :=
  match (s.group p).steep with
  | none => s
  | some st =>
    let b := s.giveBatch p st.lanes st.pages st.fault
    b.1.leaveSteep p st b.2

/-- What run-ahead does with an instruction (R238, R282, R354, R355). -/
inductive Ahead where | perform | load | skip | stop
  deriving DecidableEq, Repr, Inhabited
end Sys2Proof.Machine
namespace Sys2Proof
open Machine
def View.ahead (v : View) : Ahead :=
  match v.mn with
  | .exit | .trap | .trapf | .brk => .stop
  | .sleep => .skip
  | .lds | .ldsr | .sld | .ldref | .ldh | .refeq => .load
  | .atoms | .atomsr | .atomg | .atomf | .atomh => if v.mod.extractLsb' 0 3 = 5#3 then .load else .skip
  | .movsr | .perfc | .rng => if v.fields.any fun f => f.o.isQ then .skip else .perform
  | mn => match mn.cls with
    | none | some .vec => if v.fields.any fun f => f.o.isQ then .skip else .perform
    | _ => .skip
end Sys2Proof
namespace Sys2Proof.Machine

/-- Whether the path of a member runs ahead. -/
def State.inSteep (s : State) (p : Party) : Bool := (s.group p).steep.isSome

/-- A count of PERFC for a team (R303). -/
def State.perfAdd (s : State) (uid k n : Nat) : State := s.modTeam uid fun t => { t with regs := { t.regs with perf := vmod t.regs.perf k (· + n) } }
/-- The TLBs after a team's core used an address, a miss counted for the team (R34 to R36, R303 event 9). -/
def State.tlbTouch (s : State) (uid core x va : Nat) (a : Acc) : State :=
  (if s.tlbMiss core x va a then s.perfAdd uid 9 1 else s).tlbUse core x va a
/-- An issue group has issued, and performed its instruction in `n` lanes (R303 events 1 and 2). -/
def State.tally (s : State) (p : Party) (n : Nat) : State := (s.perfAdd p.team 1 1).perfAdd p.team 2 n
/-- Run-ahead ends (R355). -/
def State.stopAhead (s : State) (p : Party) : State := s.dueOnce (.steepEnd p.team (groupIx p))
/-- Issue in steep mode. A load that must wait for a fill or a refill is issued again. -/
def State.issueAhead (s : State) (p : Party) (r : Run) (v : View) (body : List Nat → State → Res) : State :=
  let all := bitsOf r.lanes
  let lanes := all.filter fun l => (s.thread p l).guardOk v.guard
  let skip (s : State) : State := (s.modGroup p fun g => g.unknownDst lanes v).advance p [] []
  let known (s : State) (lanes : List Nat) : State :=
    lanes.foldl (fun s l => v.fields.foldl (fun s f => if f.dst then f.each.foldl (fun s o => s.setUnknown p l false false o) s else s) s) s
  match (s.group p).steep with
  | none => s
  | some st =>
    let s1 := s.modGroup p fun g => { g with steep := some { st with count := st.count + 1 } }
    if 256 ≤ st.count || v.ahead == .stop || all.any (fun l => s.opUnknown p l false (.p v.guard.p)) then s.stopAhead p
    else
      let unk := lanes.any fun l => v.fields.any fun f => !f.dst && f.each.any (s.opUnknown p l false)
      if v.ahead = .skip then skip s1
      else if unk then
        (match v.mn with
         | .brx | .callx | .ret => s.stopAhead p
         | _ => skip s1)
      else match body lanes s1 with
      | .done s2 => ((known s2 lanes).tally p lanes.length).advance p [] []
      | .jump s2 dest => ((known s2 lanes).tally p lanes.length).advance p [] dest
      | .block s2 _ => s2.modGroup p fun g => { g with steep := some st }
      | .stall _ => s
      | .xfault _ a f _ va (some kind) more =>
        if s.demanded (s.ctxOf p) a f then
          let pages := missPages st.pages (va :: more) f.sub (accCode v a) kind
          let s2 := s1.modGroup p fun g => { g with steep := some { st with count := st.count + 1, pages := pages.take 33 } }
          if 33 ≤ pages.length then s2.stopAhead p
          else skip s2
        else skip s1
      | _ => skip s1

/-! ## Issue -/

/-- Whether queue registers stand in an instruction of the SYNC or SYS class, or in SALLOC. -/
def queueForm (v : View) : Bool :=
  (v.mn.cls == some .sync || v.mn.cls == some .sys || v.mn == .salloc) && v.fields.any (·.o.isQ)
/-- Whether a queue register is the destination of an instruction. -/
def queueDst (v : View) : Bool := v.fields.any fun f => f.dst && f.o.isQ
/-- A performed instruction leaves its path; one whose result still enters a caddy stream keeps its issue group until it has (R121, R259). -/
def State.leave (s : State) (p : Party) (v : View) : State :=
  if queueDst v && s.streamOwes p then
    let all := match (s.group p).run with | some r => bitsOf r.lanes | none => []
    (s.setWaits p (all.map fun l => (l, .stream))).advance p all []
  else (if queueDst v then s.streamDone p else s).advance p [] []
/-- Instructions that a save never abandons once they have begun (R238, R282). -/
def View.keeps (v : View) : Bool :=
  match v.mn with
  | .mapr | .unmapr | .flushr | .newobj | .pin | .unpin | .tlbinv | .spawn | .launch => true
  | _ => false
/-- The running path leaves its instruction unperformed; it is issued again when the path is picked. -/
def State.setAside (s : State) (p : Party) : State :=
  (s.dropPlace p).modGroup p fun g => { g with run := none, blocked := g.blocked ++ g.run.toList.map ({ · with stall := none }) }
/-- A path that is held stops where it stands: its lanes wait to issue the instruction again (R238, R359, R362, R404). -/
def State.stopHere (s : State) (p : Party) : State :=
  let lanes := match (s.group p).run with | some r => bitsOf r.lanes | none => []
  (s.setWaits p (lanes.map (·, .retry))).setAside p
/-- An instruction that is held is issued again; at a save it is abandoned until the restore, and where its team parks, with nothing of it part-way,
until the resume (R238, R359, R362). DESIGN CHOICE (log entry 31): the clock after one in which its unit held it, it leaves its issue slot and its
port to younger heads (R314). -/
def State.heldOn (s : State) (p : Party) (v : View) : State :=
  if ((s.ctx (s.ctxOf p)).stopping || (s.team p.team).parking && (s.group p).pushed == 0) && !View.keeps v then s.stopHere p
  else s.modGroup p fun g => { g with run := g.run.map ({ · with stall := some (s.coreClock p) }) }
/-- An instruction that a queue register keeps waiting keeps every lane of its issue group at it, whatever its guard (R165; DEDUCED, log entry 27). -/
def State.holdGroup (s : State) (p : Party) (r : Run) : State :=
  (s.setWaits p ((bitsOf r.lanes).map (·, .operand))).advance p (bitsOf r.lanes) []
/-- The end of an issued instruction, from how its effect ended. What the TLBs hold of the page whose translation failed is refreshed (R36). -/
def finish (p : Party) (r : Run) (v : View) (lanes : List Nat) (res : Res) : State :=
  match res with
  | .done s => (s.tally p lanes.length).leave p v
  | .jump s dest => (s.tally p lanes.length).advance p [] dest
  | .trap s cause bad addr aux after =>
    (s.tally p 0).trapAt p lanes { cause, addr, aux, lanes := ofBits 32 bad, pc := if after then r.next.1 else r.slotPc, mid := if after then none else r.here.2 }
  | .xfault s a f bad va demand more =>
    let x : Trap := { cause := f.cause a, addr := BitVec.ofNat 64 va, aux := f.aux, lanes := ofBits 32 bad, pc := r.slotPc, mid := r.here.2 }
    let s := s.tlbRefresh (s.team p.team).coreNo (s.ctxOf p) va a
    (match demand with
     | some kind =>
       if s.demanded (s.ctxOf p) a f then s.demandFault p v (missPages [] (va :: more) f.sub (accCode v a) kind) x
       else (s.tally p 0).trapAt p lanes x
     | none => (s.tally p 0).trapAt p lanes x)
  | .stall s => s.heldOn p v
  | .block s ws =>
    if ws.any fun w => match w.2 with | .host _ _ _ _ => true | _ => false then (s.tally p lanes.length).setWaits p ws
    else if ws.all (fun w => w.2 == .retry) && !(s.team p.team).parking then s.heldOn p v
    else if ws.any (·.2 == .operand) then s.holdGroup p r
    else ((if ws.any (·.2 == .retry) then s else s.tally p lanes.length).setWaits p ws).advance p (ws.map (·.1)) []
/-- `$time` was returned: the die remembers the value (R22). -/
def State.noteTime (s : State) (p : Party) (v : View) (lanes : List Nat) : State :=
  if !lanes.isEmpty && v.fields.any (fun f => !f.dst && (f.o == .sp .time || f.o == .sp .timeHi)) then
    { s with dies := vmod s.dies ((s.team p.team).id.cluster / 3) fun d => { d with lastTime := some d.sum } }
  else s
/-- The lanes that read the sources of an instruction that is not per lane, and those that write its DST (R281 to R283, R290, R293). -/
def State.readers (s : State) (p : Party) (v : View) (lanes : List Nat) : List Nat :=
  let role := (s.group p).role
  match v.mn with
  | .kset | .launch => if p.mem = .group 0 ∧ lanes.contains 0 then [0] else []
  | .waittl | .waitct | .gangset | .driftset | .chain | .cdres | .cdrel | .mma | .mmag | .accst | .accrel | .vxmcfg | .hevac => lanes.take 1
  | .xfer => if role = fld v.mod 8 3 then lanes.take 1 else []
  | .roleq =>
    let gs := (s.team p.team).groups
    let lower := (List.range (groupIx p)).any fun i => let g := gs.getD i default; g.role == role && g.threads.toList.any fun h => h.life == .live
    if role = fld v.mod 11 3 ∧ !lower then lanes.take 1 else []
  | _ => lanes
def State.writers (s : State) (p : Party) (v : View) (lanes : List Nat) : List Nat :=
  match v.mn with
  | .launch => if p.mem = .group 0 ∧ lanes.contains 0 then [0] else []
  | .hevac => lanes.take 1
  | .xfer => if (s.group p).role = fld v.mod 5 3 then lanes else []
  | _ => lanes
/-- One source of such an instruction popped by the lanes that read it, each entry latched for its lane. -/
def State.popField (s : State) (p : Party) (ls : List Nat) (f : Field) : Option State :=
  match f.o with
  | .q n => (s.fetchField p ls f.wide f.o).map fun r =>
    r.2.modGroup p fun g => { g with popped := r.1.map (fun x => (n.toNat, x.1, x.2)) ++ g.popped.filter fun e => !(e.1 == n.toNat && ls.contains e.2.1) }
  | _ => some s
/-- The entries that such an instruction pops; none while one is missing, or while its DST has no room (R165). HEVAC and SALLOC pop their
own sources. -/
def State.pull (s : State) (p : Party) (v : View) (lanes : List Nat) : Option State :=
  let ls := s.readers p v lanes
  let room (f : Field) : Bool := !f.dst || s.queueTakes p f.o ((if f.wide then 2 else 1) * (s.writers p v lanes).length)
  if !v.fields.all room then none
  else if v.mn == .hevac || v.mn == .salloc then some s
  else (v.fields.filter (!·.dst)).foldl (fun acc f => acc.bind fun s => s.popField p ls f) (some s)
/-- A state with the entries of the party's queue registers as they were before. -/
def State.unpop (s0 s : State) (p : Party) : State :=
  s.modTeam p.team fun t => { t with copy := Vector.ofFn fun i => { vget t.copy i.val with compq := (vget (s0.team p.team).copy i.val).compq } }
/-- How an effect ends in a step that remembered a `$time`: one that is to be issued again has returned none (R22). -/
def State.untimed (s : State) : Res → Res
  | .stall t => .stall { t with dies := s.dies }
  | .block t ws => .block (if ws.any fun w => w.2 == .retry || w.2 == .operand then { t with dies := s.dies } else t) ws
  | x => x
/-- How an effect ends that began with pops: an instruction that is to be issued again has popped nothing (R165, R352). -/
def State.fed (s : State) (p : Party) (x : Res) : Res :=
  match x with
  | .stall t => .stall (s.unpop t p)
  | .block t ws => .block (if ws.any fun w => w.2 == .retry then s.unpop t p else t) ws
  | .xfault t a f bad va (some kind) more => .xfault (if s.demanded (s.ctxOf p) a f then s.unpop t p else t) a f bad va (some kind) more
  | x => x
/-- An effect after the pops of its queue registers. -/
def State.feed (s : State) (p : Party) (r : Run) (v : View) (lanes : List Nat) (body : List Nat → State → Res) : Res :=
  if queueForm v then
    match s.pull p v lanes with
    | none => .block s ((bitsOf r.lanes).map fun l => (l, .operand))
    | some s1 => s.fed p (body lanes s1)
  else body lanes s
/-- A thread's memory operations perform in order: behind an ACCST that has not retired none of its lanes' later ones performs (R127, R145). -/
def State.storeHeld (s : State) (p : Party) (lanes : List Nat) (v : View) : Bool := v.mn.cls == some .mem && s.storePending p lanes
/-- Issue of an instruction by the party whose turn it is: the checks of R179 that need the team, the interlock (R176), the class counter
(R175), poison (R368), then its own effect for the lanes whose guard holds (R160). -/
def State.issue (s : State) (i : Instr) (body : List Nat → State → Res) : Outcome :=
  let p := s.cur
  match (s.group p).run, i.view with
  | some r, some v =>
    let all := bitsOf r.lanes
    match s.dynBad p v with
    | some b =>
      if s.inSteep p then .next (if v.mn.cls == some .mem then s.issueAhead p r v fun _ t => .trap t 0x01 [] 0 0 else s.stopAhead p)
      else .next (s.takeTrap p all { cause := 0x01, aux := BitVec.ofNat 64 (b.reason + 256 * b.field), lanes := r.lanes, pc := r.slotPc, mid := r.here.2 })
    | none =>
      if s.interlocked p all v || s.counterFull p v then .next s
      else if s.storeHeld p all v then .next (s.heldOn p v)
      else if s.inSteep p then .next (s.issueAhead p r v body)
      else
        let lanes := all.filter fun l => (s.thread p l).guardOk v.guard
        if s.consumes p (s.readers p v lanes) v then .next (finish p r v lanes (.trap s 0x21 lanes 0 0))
        else .next (finish p r v lanes (s.untimed ((s.noteTime p v lanes).feed p r v lanes body)))
  | _, _ => .next s

/-- The sources of a per-lane operation: SA, SB and SC of the guarded lanes, queue entries popped; none when a pop must wait. -/
def State.sources (s : State) (p : Party) (v : View) (lanes : List Nat) : Option ((Nat → DWord × DWord × DWord) × State) :=
  let sh := v.shape
  match s.fetchField p lanes (Kind.wide sh.a) v.a with
  | none => none
  | some (a, s) =>
    match s.fetchField p lanes (Kind.wide sh.b) v.b with
    | none => none
    | some (b, s) =>
      match s.fetchField p lanes (Kind.wide sh.c) v.c with
      | none => none
      | some (c, s) => some (fun l => (laneVal a l, laneVal b l, laneVal c l), s)
/-- Blocking at a queue operand (R165). -/
def blockOperand (s : State) (lanes : List Nat) : Res := .block s (lanes.map fun l => (l, .operand))
/-- A destination that cannot take its results blocks the instruction, with its sources unread and its place among the stream's producers kept
(R165, R259). -/
def State.unstored (s0 : State) (p : Party) (w : Bool) (o : Operand) (vals : List (Nat × DWord)) : Res :=
  match s0.storeField p w o vals with
  | (s1, false) => blockOperand s1 (vals.map (·.1))
  | (_, true) => blockOperand s0 (vals.map (·.1))
/-- Results to DST; a queue register that cannot take them blocks the instruction with its sources unread (R165, R259). -/
def State.results (s0 s : State) (p : Party) (v : View) (vals : List (Nat × DWord)) : Res :=
  let w := Kind.wide v.shape.dst
  match s.storeField p w v.dst vals with
  | (s1, true) => .done s1
  | (_, false) => s0.unstored p w v.dst vals
/-- The values of SA, SB and SC in each lane. -/
abbrev Src := Nat → DWord × DWord × DWord
/-- An instruction that reads its sources in every guarded lane, makes a check over all of them, then writes a result and flags in each
(R160). `pre` answers a fault, with the lanes that caused it, the address and TRAP_AUX. -/
def State.lanewise (s : State) (i : Instr) (pre : State → Party → List Nat → Src → Option (Nat × List Nat × DWord × DWord))
    (f : State → Party → List Nat → Src → Nat → DWord × BitVec 5) : Outcome :=
  s.issue i fun lanes s0 =>
    let p := s0.cur
    match i.view with
    | none => .done s0
    | some v =>
      match s0.sources p v lanes with
      | none => blockOperand s0 lanes
      | some (src, s) =>
        match pre s0 p lanes src with
        | some (cause, bad, addr, aux) => .trap s cause bad addr aux
        | none =>
          let rs := lanes.map fun l => (l, f s0 p lanes src l)
          let s := rs.foldl (fun s r => if r.2.2 == 0#5 then s else s.modThread p r.1 (·.raise r.2.2)) s
          s0.results s p v (rs.map fun r => (r.1, r.2.1))
/-- A per-lane operation on SA, SB and SC that cannot fault: the whole of R160. -/
def State.perLane (s : State) (i : Instr) (f : DWord → DWord → DWord → DWord × BitVec 5) : Outcome :=
  s.lanewise i (fun _ _ _ _ => none) fun _ _ _ src l => f (src l).1 (src l).2.1 (src l).2.2
/-- A per-lane integer operation: no flags. -/
def State.intLane (s : State) (i : Instr) (f : DWord → DWord → DWord → DWord) : Outcome := s.perLane i fun a b c => (f a b c, 0)

/-! ## Lanes that waited (R312) -/

/-- The run that a blocked lane stands in. -/
def State.blockedRun? (s : State) (p : Party) (lane : Nat) : Option Run := (s.group p).blocked.find? (·.lanes.getLsbD lane)
/-- The runs of blocked lanes without one lane. -/
def Group.unblock (g : Group) (lane : Nat) : Group :=
  { g with blocked := (g.blocked.map fun r => { r with lanes := setBit r.lanes lane false }).filter (·.lanes != 0) }
/-- A run of one lane kept for later, joined with an equal one. -/
def Group.keepRun (g : Group) (r : Run) : Group :=
  if g.blocked.any fun b => { b with lanes := r.lanes } == r then
    { g with blocked := g.blocked.map fun b => if { b with lanes := r.lanes } == r then { b with lanes := b.lanes ||| r.lanes } else b }
  else { g with blocked := g.blocked ++ [r] }
/-- A lane whose wait has ended leaves its instruction: on to the next slot of its clause, or to the next header and the fence test. -/
def State.goOn (s : State) (p : Party) (lane : Nat) : State :=
  match s.blockedRun? p lane with
  | none => s.modThread p lane fun t => { t with wait := none }
  | some r =>
    let s := s.modGroup p fun g =>
      let g := g.unblock lane
      if r.last then g else g.keepRun { r with idx := r.idx + 1, lanes := ofBits 32 [lane], held := [], flip := false, stall := none, inval := [] }
    let s := s.modThread p lane fun t => { t with wait := none, pc := r.next.1, mid := r.next.2 }
    if r.last && (headerOf r.hword).f then s.fence p [lane] else s
/-- Lanes that wait at an instruction take the instruction's trap instead, for which some of them answer (R345, R348). -/
def State.trapLanes (s : State) (p : Party) (r : Run) (enter bad : List Nat) (cause : Nat) (addr aux : DWord) : State :=
  let x : Trap := { cause, addr, aux, lanes := ofBits 32 bad, pc := r.slotPc, mid := r.here.2 }
  let s := s.modGroup p fun g => enter.foldl Group.unblock g
  match p.mem with | .group _ => s.enterGroup p enter x | .engine _ => s.memberStop p x true
/-- A lane that waits at an instruction takes the instruction's trap instead. -/
def State.trapWaiting (s : State) (p : Party) (lane cause : Nat) (addr aux : DWord) : State :=
  match s.blockedRun? p lane with
  | none => s
  | some r => s.trapLanes p r [lane] [lane] cause addr aux

/-! ## What a step takes next -/

/-- The instruction that a party stands at, from the fetched words of its clause (R173, R179): the word of its slot, decoded. -/
def Run.word (r : Run) : DWord := r.words.getD r.idx 0
/-- An illegal encoding: an exact trap 0x01 that every lane of the issue group enters (R179). -/
def State.illegal (s : State) (p : Party) (r : Run) (b : Bad) : State :=
  s.takeTrap p (bitsOf r.lanes) { cause := 0x01, aux := BitVec.ofNat 64 (b.reason + 256 * b.field), lanes := r.lanes, pc := r.slotPc, mid := r.here.2 }
/-- The cores of the device that hold teams, each once; the first core when there is none. -/
def State.liveCores (s : State) : List Nat :=
  match ((s.teams.filter fun t => t.phase != .saved).map Team.coreNo).eraseDups with | [] => [0] | l => l
/-- The core whose issue clock comes next, in turn (log entry 8). -/
def State.turnCore (s : State) : Nat := s.liveCores.getD (s.clock % s.liveCores.length) 0
/-- A team of one group with one live lane that stands at the first slot of a fetched one-slot clause holding the word: what a program loaded
from outside the machine looks like to the issue slots (log entry 9). -/
def wordTeam (uid : Nat) (w : DWord) : Team :=
  let hdr : DWord := 0x10000
  let th : Thread := { life := .live, pc := hdr + 8, mid := some (hdr, 0) }
  { id := { uid, gen := 1, entry := hdr },
    groups := [{ quota := 256, threads := vset (.replicate 32 {}) 0 th,
                 run := some { lanes := 1, hdr, hword := 0x00FF_FFFF_FF00_0000, words := [w], idx := 0 } }] }
/-- The state in which the very next step runs the word. -/
def State.placeWord (s : State) (w : DWord) : State :=
  { s with teams := wordTeam s.nextUid w :: s.teams, nextUid := s.nextUid + 1, slots := [{ team := s.nextUid, mem := .group 0 }] }

end Sys2Proof.Machine
end

