-- ==== Sys2Proof/Machine/Access.lean ====
section
/-! DEFINITION. The shared parts of memory instructions: checks over all lanes before any is performed, loads, stores and atomics (R151 to R154, R238, R239). -/
namespace Sys2Proof.Machine

/-- A lane's address after its checks: a location, the first check it fails (by its place in the order of the kind), or a step that must come first. -/
inductive Chk where
  | ok (loc : Nat) (page : Page := {})
  | bad (rank cause : Nat) (addr aux : DWord)
  | xfault (rank : Nat) (f : XFail) (va : Nat) (demand : Option Nat)
  | wait (due : Instr)
  deriving Inhabited

def Chk.rank : Chk → Option Nat | .bad r _ _ _ => some r | .xfault r _ _ _ => some r | _ => none
/-- Checks in order: what the first one finds, else what the second one finds; a step that must come first waits until both pass. -/
def Chk.next (a b : Chk) : Chk :=
  match a, b with
  | .ok _ _, b => b
  | .wait i, .ok _ _ => .wait i
  | .wait _, b => b
  | a, _ => a
/-- A translation that the region table holds is a step that must come first (R44). -/
def Chk.settle : Chk → Chk
  | .xfault r f va d => if f.held then .wait .regionTableDrained else .xfault r f va d
  | c => c
/-- All or nothing (R238): the fault of the earliest check that any lane fails, a wait, or every lane's location. -/
def allLanes (s : State) (a : Acc) (lanes : List Nat) (chk : Nat → Chk) : Res ⊕ List (Nat × Nat × Page) :=
  let cs := lanes.map fun l => (l, (chk l).settle)
  match cs.filterMap fun c => c.2.rank with
  | r :: rs =>
    let k := rs.foldl min r
    let bad := cs.filter fun c => c.2.rank == some k
    let ls := bad.map (·.1)
    (match bad with
     | (_, .bad _ cause addr aux) :: _ => .inl (.trap s cause ls addr aux)
     | (_, .xfault _ f va d) :: more =>
       .inl (.xfault s a f ls va d (more.filterMap fun c => match c.2 with | .xfault _ g w _ => if g.sub = f.sub then some w else none | _ => none))
     | _ => .inl (.done s))
  | [] =>
    match cs.filterMap fun c => match c.2 with | .wait i => some i | _ => none with
    | i :: is => .inl (.block ((i :: is).foldl (fun s i => s.dueOnce i) s) (lanes.map fun l => (l, .retry)))
    | [] => .inr (cs.filterMap fun c => match c.2 with | .ok loc p => some (c.1, loc, p) | _ => none)

/-- The checks of an instruction that has popped queue registers, made on the state `s1` after its pops: a fault consumes the entries, and an
instruction that is to be issued again has popped nothing (R165, R347). -/
def allLanesAfter (s s1 : State) (a : Acc) (lanes : List Nat) (chk : Nat → Chk) : Res ⊕ List (Nat × Nat × Page) :=
  match allLanes s a lanes chk with
  | .inl (.trap _ cause bad addr aux after) => .inl (.trap s1 cause bad addr aux after)
  | .inl (.xfault _ a f bad va demand more) => .inl (.xfault (if s.demanded (s.ctxOf s.cur) a f && demand.isSome then s else s1) a f bad va demand more)
  | r => r
/-- The signed 9-bit offset of R169. -/
def offOf (o : Operand) : Int := match o with | .num n => n.toInt | _ => 0
/-- The bytes of an access. -/
def MF.size (f : MF) : Nat := f.ty.width / 8

/-- Loaded values to DST, each with its poison (R241, R368). -/
def State.loadDst (s : State) (p : Party) (wide : Bool) (dst : Operand) (vals : List (Nat × DWord × Bool)) : State :=
  vals.foldl (fun s v => let s := s.writeOp p v.1 wide dst v.2.1; if v.2.2 then s.poisonOp p v.1 wide dst else s) s
/-- The clocks beyond the first that a scratchpad instruction takes: the most distinct words that it asks of one bank (R75). -/
def bankClocks (n : Nat) (locs : List Nat) : Nat :=
  let words := ((locs.filter isScratch).flatMap fun a => (List.range (ceilDiv n 4)).map (a / 4 + ·)).eraseDups
  let banks := words.map fun w => (w / 2 ^ 16, w % 32)
  (banks.map fun b => (banks.filter (· == b)).length).foldl max 0 - 1
/-- Those clocks counted for the team (R303 event 4). -/
def State.countBanks (s : State) (p : Party) (n : Nat) (locs : List Nat) : State :=
  if bankClocks n locs = 0 then s else s.perfAdd p.team 4 (bankClocks n locs)
/-- A load of the lanes' locations: plain through the snapshot, quantum at the homes (R145, R153). -/
def State.loadAll (s : State) (p : Party) (f : MF) (locs : List (Nat × Nat × Page)) : State :=
  let n := MF.size f
  ((s.noteLost (s.ctxOf p) (s.team p.team).id.gen (locs.map (·.2.1))).countBanks p n (locs.map (·.2.1))).loadDst p f.ty.wide f.dst (locs.map fun x =>
    if f.use = .quantum then (x.1, loadBits f.ty (s.homeReadN x.2.1 n), s.homesPoisoned x.2.1 n)
    else (x.1, loadBits f.ty (s.seenN p x.1 x.2.1 n), s.seenPoison p x.1 x.2.1 n))
/-- The Write steps of a store by the lanes, the highest lane providing each common byte (R145, R238); pages copied first where SNAP asks for it
(R371). -/
def State.storeAll (s : State) (p : Party) (f : MF) (locs : List (Nat × Nat × Page)) : State :=
  let n := MF.size f
  let bytes (x : Nat × Nat × Page) : List Nat := (List.range n).map (x.2.1 + ·)
  (List.range locs.length).foldl (fun s' i =>
    let x := locs.getD i default
    (s'.snapFirst (s.ctxOf p) (s.team p.team).id.gen x.2.1 x.2.2).bufWriteBut p x.1 x.2.1 n (s.readOp p x.1 f.ty.wide f.data).toNat
      ((locs.drop (i + 1)).flatMap bytes)) (s.countBanks p n (locs.map (·.2.1)))

/-- Whether PCIe can carry an atomic (R27). -/
def hostAtomic (op : AtomOp) : Bool := op == .add || op == .exch || op == .cas
/-- The atomics of an instruction (R151, R154, R239): plain, commute, or through the pending pool; `home` locations are checked. -/
def State.atomicAll (s : State) (p : Party) (f : MF) (locs : List (Nat × Nat × Page)) : Res :=
  let lanes := locs.map (·.1)
  let n := MF.size f
  let w := f.ty.wide
  let val (l : Nat) : DWord := s.readOp p l w f.data
  let cmp (l : Nat) : DWord := if f.op = .cas then s.readOp p l w f.dst else 0
  let snap (s' : State) : State :=
    locs.foldl (fun s' x => s'.snapFirst (s.ctxOf p) (s.team p.team).id.gen x.2.1 x.2.2) (s'.countBanks p n (locs.map (·.2.1)))
  match locs.filter fun x => s.homesPoisoned x.2.1 n with
  | x :: xs => .trap s 0x21 ((x :: xs).map (·.1)) (BitVec.ofNat 64 (x.2.1 % keyUnit)) 0
  | [] =>
    match f.use with
    | .commute => .done (locs.foldl (fun s' x => s'.commute p x.2.1 f.op f.ty (val x.1)) (snap s))
    | .unpaired | .noorder | .spec =>
      if s.inSteep p then .done (s.loadDst p w f.dst (locs.map fun x => (x.1, loadBits f.ty (s.homeReadN x.2.1 n), false)))
      else
        let no := s.nextUid
        let s' := { snap s with nextUid := no + 1 }
        let load := !f.dst.isNone
        let s' := locs.foldl (fun s' x => s'.pool { no, who := p, lane := x.1, loc := x.2.1, op := f.op, ty := f.ty, v := val x.1, cmp := cmp x.1, use := f.use, load, dst := f.dst }) s'
        .done (if locs.isEmpty then s else s'.modGroup p fun g => g.addCount (if load then .load else .store) 1)
    | _ =>
      if !s.poolClear p lanes || locs.any (fun x => s.atomStuck x.2.1) then .stall s
      else
        let r := locs.foldl (fun (acc : State × List (Nat × DWord × Bool)) x =>
          let s1 := acc.1.release p x.1 f.scope
          let (old, s2) := s1.atomicStep p x.1 f.op f.ty x.2.1 (val x.1) (cmp x.1)
          (s2.acquire p.team f.scope, acc.2 ++ [(x.1, loadBits f.ty old.toNat, false)])) (snap s, [])
        .done (r.1.loadDst p w f.dst r.2)

/-- A register write lands (R316): the oldest pending write of its register, and the class counter falls with the last lane (R175). -/
def State.uncount (s : State) (p : Party) (no : Nat) (c : Counter) : State :=
  let o := (s.team p.team).ord
  if no = 0 || o.pool.any (·.no == no) || o.pend.any (·.no == no) then s else s.modGroup p fun g => g.subCount c 1
def execRegisterWriteback (team ix : Nat) (s : State) : Outcome :=
  let o := (s.team team).ord
  match o.pend[ix]? with
  | none => .next s
  | some w =>
    if (o.pend.take ix).any (fun v => v.who == w.who && v.lane == w.lane && v.dst == w.dst) then .next s
    else
      let s := s.modTeam team fun t => t.modOrd fun o => { o with pend := o.pend.eraseIdx ix }
      let s := if (s.thread w.who w.lane).life = .ended then s else s.landOp w.who w.lane w.wide w.dst w.v
      .next (s.uncount w.who w.no .load)
/-- An atomic leaves the pending pool by its Atomic step (R145, R151): noorder atomics of a lane to common bytes in program order; an
unpaired one moves no buffer entry. It waits for a tile's refill and for the region table (R44, R55). The old value goes to the destination as a pending register write. -/
def execPooledAtomic (team ix : Nat) (s : State) : Outcome :=
  let o := (s.team team).ord
  match o.pool[ix]? with
  | none => .next s
  | some a =>
    let n := a.ty.width / 8
    let before (b : Pooled) : Bool := b.who == a.who && b.lane == a.lane && b.use == .noorder && a.use == .noorder && decide (b.loc < a.loc + n) && decide (a.loc < b.loc + b.ty.width / 8)
    if (o.pool.take ix).any before || s.atomStuck a.loc || s.locHeld a.loc then .next s
    else if s.homesPoisoned a.loc n then .next (s.poisonHit (s.team team).id.ctx (s.team team).id.gen [a.loc])
    else
      let s := s.modTeam team fun t => t.modOrd fun o => { o with pool := o.pool.eraseIdx ix }
      let (old, s) := if a.use = .unpaired then s.homeAtomic a.op a.ty a.loc a.v a.cmp else s.atomicStep a.who a.lane a.op a.ty a.loc a.v a.cmp
      if a.dst.isNone then .next (s.uncount a.who a.no .store)
      else .next (s.modTeam team fun t => t.modOrd fun o => { o with pend := o.pend ++ [{ no := a.no, who := a.who, lane := a.lane, dst := a.dst, wide := a.ty.wide, v := loadBits a.ty old.toNat }] })

/-- Whether an entry cannot go to its home yet: the region table holds it, or it is an update of a tile that cannot be made resident (R44, R55). -/
def State.entryHeld (s : State) (e : MEntry) : Bool :=
  e.locs.any s.locHeld || (match e with | .update loc _ _ _ _ => s.atomStuck loc | .plain _ => false)
/-- Drain (R145): an entry that is the oldest of its locations moves to its home, from the merge buffer or from the outbound queue. -/
def execDrain (cluster ix : Nat) (out : Bool) (s : State) : Outcome :=
  let c := vget s.clusters cluster
  let l := if out then c.outq else c.merge
  match l[ix]? with
  | none => .next s
  | some e =>
    if !oldest l ix || (!out && e.locs.any fun x => c.outq.any fun f => f.locs.contains x) || s.entryHeld e then .next s
    else
      let s := s.applyEntry e
      .next (if out then s.modOutq cluster (·.eraseIdx ix) else s.modMerge cluster (·.eraseIdx ix))
/-- Combine (R152): two adjacent update entries of one location become one. -/
def execCombine (cluster ix : Nat) (out : Bool) (s : State) : Outcome :=
  let l := if out then (vget s.clusters cluster).outq else (vget s.clusters cluster).merge
  let s' := if out then s.modOutq cluster (combineAt · ix) else s.modMerge cluster (combineAt · ix)
  .next (s.keepSnaps s' ((l[ix]?.map MEntry.locs).getD []))

end Sys2Proof.Machine
end

