-- ==== Sys2Proof/Machine/Float.lean ====
section
/-! DEFINITION. Floating point and conversion, rounded exactly (R220 to R228, R230 to R236). -/
namespace Sys2Proof.Machine

/-- The team's narrow formats (R104). -/
def State.fmtOf (s : State) (p : Party) : Vector Word 8 := (s.team p.team).regs.fmt
/-- The element type of a packed type. -/
def eltTy : Ty → Ty | .f16x2 => .f16 | .bf16x2 => .bf16 | t => t
/-- Element `i` of a packed register. -/
def elt (x : DWord) (i : Nat) : DWord := BitVec.ofNat 64 (fld x (16 * i) 16)

/-! ## The shadow units (R115, R116, R222) -/

/-- The exponent that R115 compares: zero and subnormal values count with the least normal exponent. -/
def FVal.expo (emin : Int) : FVal → Int | .fin _ m e => if m = 0 then emin else max ((m.log2 : Int) + e) emin | _ => emin
/-- The implicit bit and six mantissa bits of a value at an exponent. -/
def FVal.top7 (x : Int) : FVal → Nat
  | .fin _ m e => if x - 6 ≤ e then m * 2 ^ (e - (x - 6)).toNat else m / 2 ^ (x - 6 - e).toNat
  | _ => 0
/-- Whether an operand's exponent lies more than 6 above an exponent. DESIGN CHOICE (log entry 31): an infinity has no exponent, and so is no
operand that lets checks 3 and 4 be skipped; R115 names none for it. -/
def FVal.dwarfs (x : Int) : FVal → Bool | .fin _ m e => m != 0 && decide (x + 6 < (m.log2 : Int) + e) | _ => false
/-- The checks of R115 on what the main unit writes, against the value that the shadow unit computes, among the operands and addends. -/
def shadowBad (emin : Int) (main c : FVal) (ops : List FVal) : Bool :=
  if main.isNan != c.isNan || main.isInf != c.isInf then true
  else if main.isNan then false
  else if !main.isZero && !c.isZero && main.neg != c.neg then true
  else if main.isInf || ops.any (·.dwarfs (main.expo emin)) then false
  else
    let x := main.expo emin
    let y := c.expo emin
    decide (1 < (x - y).natAbs) || decide (4 < (2 * (main.top7 x : Int) - (c.top7 y : Int) * 2 ^ (y - x + 1).toNat).natAbs)
/-- What the shadow unit of an instruction checks: the floating-point type of its result, none where it recomputes the whole result (R222), and the
operands and addends of an element. -/
structure Shadow where
  ty : Option Ty
  ops : Vector Word 8 → DWord → DWord → DWord → Nat → List FVal
/-- The least normal exponent of a type. DESIGN CHOICE (log entry 31): a narrow format with EXP = 0 has no normal range, and 1 − BIAS stands for it. -/
def eminOf (fmt : Vector Word 8) : Ty → Int
  | .nf k => 1 - Nf.bias (vget fmt k.toNat)
  | t => ((Ty.ffmt t).map FFmt.emin).getD 0
def eltOf (t : Ty) (x : DWord) (i : Nat) : DWord := if Ty.packed t then elt x i else x
/-- Whether the shadow unit finds a written result wrong. -/
def Shadow.bad (k : Shadow) (fmt : Vector Word 8) (a b c main good : DWord) : Bool :=
  match k.ty with
  | none => main != good
  | some t => (if Ty.packed t then [0, 1] else [0]).any fun i =>
    shadowBad (eminOf fmt (eltTy t)) (fvalue fmt (eltTy t) (eltOf t main i)) (fvalue fmt (eltTy t) (eltOf t good i)) (k.ops fmt a b c i)
/-- Results and operands of one type; `fused` adds the product that is an addend. -/
def Shadow.of (t : Ty) (fused : Bool := false) : Shadow :=
  { ty := some t
    ops := fun fmt a b c i =>
      let v (x : DWord) : FVal := fvalue fmt (eltTy t) (eltOf t x i)
      [v a, v b, v c] ++ if fused then [((v a).mul (v b)).1] else [] }
/-- A conversion: one operand of another type. -/
def Shadow.conv (t : Ty) (src : Vector Word 8 → DWord → FVal) : Shadow := { ty := some t, ops := fun fmt a _ _ _ => [src fmt a] }
/-- A result that is not floating-point. -/
def Shadow.whole : Shadow := { ty := none, ops := fun _ _ _ _ _ => [] }
/-- The bits of a lane's results that an upset of the core flips. -/
def State.flips (s : State) (p : Party) (l : Nat) : DWord := (((vget s.cores (s.team p.team).coreNo).upset.find? (·.1 == l)).map (·.2)).getD 0
/-- Whether an instruction writes its result at all. -/
def Instr.writesDst (i : Instr) : Bool := match i.view with | some v => !v.dst.isNone && v.dst != .p 7 | none => false
/-- The lanes whose written result the shadow unit finds wrong: trap 0x22, exact (R116, R222). -/
def State.shadow (s : State) (p : Party) (i : Instr) (k : Shadow) (f : DWord → DWord → DWord → DWord × BitVec 5) (lanes : List Nat) (src : Src) :
    Option (Nat × List Nat × DWord × DWord) :=
  if (vget s.cores (s.team p.team).coreNo).upset.isEmpty || !Instr.writesDst i then none
  else
    match lanes.filter fun l =>
      let (a, b, c) := src l
      let good := (f a b c).1
      k.bad (s.fmtOf p) a b c (good ^^^ s.flips p l) good with
    | [] => none
    | bad => some (0x22, bad, 0, 0)
/-- A per-lane floating-point operation under the team's formats. -/
def State.fpLane (s : State) (i : Instr) (k : Shadow) (f : Vector Word 8 → DWord → DWord → DWord → DWord × BitVec 5) : Outcome :=
  s.lanewise i (fun s p lanes src => s.shadow p i k (f (s.fmtOf p)) lanes src) fun s p _ src l =>
    let r := f (s.fmtOf p) (src l).1 (src l).2.1 (src l).2.2
    (r.1 ^^^ s.flips p l, r.2)

/-- An operation on each element of a packed type, or on the scalar; flags are joined (R220). -/
def perElem (t : Ty) (f : DWord → DWord → DWord → DWord × BitVec 5) (a b c : DWord) : DWord × BitVec 5 :=
  if Ty.packed t then
    let r0 := f (elt a 0) (elt b 0) (elt c 0)
    let r1 := f (elt a 1) (elt b 1) (elt c 1)
    (BitVec.ofNat 64 (r0.1.toNat % 2 ^ 16 + r1.1.toNat % 2 ^ 16 * 2 ^ 16), r0.2 ||| r1.2)
  else f a b c
/-- Src (R220). -/
def fsrc (fmt : Vector Word 8) (t : Ty) (neg : Bool) (x : DWord) : FVal := (fvalue fmt t x).negIf neg
/-- Out, with the flags of the operands and of the operation (R100, R220). -/
def deliverF (fmt : Vector Word 8) (t : Ty) (rnd : Rnd) (sat : Bool) (ops : List FVal) (v : FVal × BitVec 5) : DWord × BitVec 5 :=
  let r := fout fmt t rnd sat v.1
  (r.1, r.2 ||| v.2 ||| sigInv ops)

/-- A two-operand operation rounded once (R224). -/
def fpTwo (f : VF) (op : FVal → FVal → FVal × BitVec 5) (fmt : Vector Word 8) (a b c : DWord) : DWord × BitVec 5 :=
  perElem f.ty (fun a b _ =>
    let x := fsrc fmt (eltTy f.ty) f.na a
    let y := fsrc fmt (eltTy f.ty) f.nb b
    deliverF fmt (eltTy f.ty) f.rnd f.sat [x, y] (op x y)) a b c
def execFadd (f : VF) (s : State) : Outcome := s.fpLane (.fadd f) (.of f.ty) (fpTwo f fun x y => x.add f.rnd y)
def execFsub (f : VF) (s : State) : Outcome := s.fpLane (.fsub f) (.of f.ty) (fpTwo f fun x y => x.add f.rnd (y.negIf true))
def execFmul (f : VF) (s : State) : Outcome := s.fpLane (.fmul f) (.of f.ty) (fpTwo f FVal.mul)
def execFdiv (f : VF) (s : State) : Outcome := s.fpLane (.fdiv f) (.of f.ty) (fpTwo f FVal.div)
/-- FFMA: one rounding (R224). -/
def execFfma (f : VF) (s : State) : Outcome :=
  s.fpLane (.ffma f) (.of f.ty true) fun fmt a b c =>
    let x := fsrc fmt f.ty f.na a
    let y := fsrc fmt f.ty f.nb b
    let z := fsrc fmt f.ty false c
    deliverF fmt f.ty f.rnd f.sat [x, y, z] (x.fma f.rnd y z)
/-- B' of HFMA2: which element of b each element multiplies (R234). -/
def VF.rearranged (f : VF) (b : DWord) : DWord :=
  let pick (i : Nat) : Nat := match f.sub.toNat with | 0 => i | 1 => 0 | 2 => 1 | _ => 1 - i
  BitVec.ofNat 64 ((elt b (pick 0)).toNat + (elt b (pick 1)).toNat * 2 ^ 16)
/-- HFMA2: per element, with b rearranged (R234). -/
def execHfma2 (f : VF) (s : State) : Outcome :=
  let k := Shadow.of f.ty true
  s.fpLane (.hfma2 f) { k with ops := fun fmt a b c i => k.ops fmt a (VF.rearranged f b) c i } fun fmt a b c =>
    let b' := VF.rearranged f b
    perElem f.ty (fun a b c =>
      let x := fsrc fmt (eltTy f.ty) f.na a
      let y := fsrc fmt (eltTy f.ty) f.nb b
      let z := fsrc fmt (eltTy f.ty) false c
      deliverF fmt (eltTy f.ty) f.rnd f.sat [x, y, z] (x.fma f.rnd y z)) a b' c
/-- FDOT2: two products and an .f32 addend, one rounding (R235). -/
def execFdot2 (f : VF) (s : State) : Outcome :=
  s.fpLane (.fdot2 f) { ty := some .f32, ops := fun fmt a b c _ =>
      let v (x : DWord) (i : Nat) : FVal := fvalue fmt (eltTy f.ty) (elt x i)
      [v a 0, v a 1, v b 0, v b 1, fvalue fmt .f32 c, ((v a 0).mul (v b 0)).1, ((v a 1).mul (v b 1)).1] } fun fmt a b c =>
    let x (i : Nat) := fsrc fmt (eltTy f.ty) f.na (elt a i)
    let y (i : Nat) := fsrc fmt (eltTy f.ty) f.nb (elt b i)
    let z := fsrc fmt .f32 false c
    let p0 := (x 0).mul (y 0)
    let p1 := (x 1).mul (y 1)
    let q := p0.1.add f.rnd p1.1
    let r := q.1.add f.rnd z
    let ops := [x 0, y 0, x 1, y 1, z]
    let infs := [p0.1, p1.1, z].filter FVal.isInf
    deliverF fmt .f32 f.rnd f.sat ops (r.1, p0.2 ||| p1.2 ||| (if infs.any FVal.neg && infs.any (!·.neg) then fINV else 0))

/-! ## Minimum, compare, classify (R225 to R227) -/

/-- Order with −0 below +0. -/
def FVal.below (a b : FVal) : Bool := a.cmp b == .lt || (a.cmp b == .eq && a.neg && !b.neg)
def fminVal (prop mx : Bool) (a b : FVal) : FVal :=
  if a.isNan && b.isNan then .nan false
  else if a.isNan then (if prop then .nan false else b)
  else if b.isNan then (if prop then .nan false else a)
  else if mx then (if a.below b then b else a) else (if b.below a then b else a)
def fpMin (f : VF) (mx : Bool) (fmt : Vector Word 8) (a b c : DWord) : DWord × BitVec 5 :=
  perElem f.ty (fun a b _ =>
    let x := fsrc fmt (eltTy f.ty) f.na a
    let y := fsrc fmt (eltTy f.ty) f.nb b
    deliverF fmt (eltTy f.ty) .rn false [x, y] (fminVal (f.sub == 1) mx x y, 0)) a b c
def execFmin (f : VF) (s : State) : Outcome := s.fpLane (.fmin f) (.of f.ty) (fpMin f false)
def execFmax (f : VF) (s : State) : Outcome := s.fpLane (.fmax f) (.of f.ty) (fpMin f true)
/-- The float compares of R168. -/
def fcmp (sub : Nat) (a b : FVal) : Bool :=
  let un := a.isNan || b.isNan
  let o := a.cmp b
  match sub with
  | 0 => !un && o == .eq | 1 => un || o != .eq | 2 => !un && o == .lt | 3 => !un && o != .gt | 4 => !un && o == .gt
  | 5 => !un && o != .lt | 6 => !un | 7 => un | 8 => un || o == .lt | 9 => un || o != .gt | 10 => un || o == .gt
  | 11 => un || o != .lt | _ => un || o == .eq
def execFset (f : VF) (s : State) : Outcome :=
  s.fpLane (.fset f) .whole fun fmt a b _ =>
    let x := fsrc fmt f.ty f.na a
    let y := fsrc fmt f.ty f.nb b
    (if fcmp f.sub.toNat x y then 1 else 0,
     if 2 ≤ f.sub.toNat ∧ f.sub.toNat ≤ 5 then (if x.isNan || y.isNan then fINV else 0) else sigInv [x, y])
/-- The class of a bit pattern (R227). -/
def fclass (t : Ty) (b : Nat) : Nat :=
  match Ty.ffmt t with
  | none => 0
  | some f =>
    let sub := b / 2 ^ f.mb % 2 ^ f.eb = 0
    match f.decode b with
    | .nan sg => if sg then 0 else 1
    | .inf n => if n then 2 else 9
    | .fin n m _ => if m = 0 then (if n then 5 else 6) else if sub then (if n then 4 else 7) else (if n then 3 else 8)
def execFclass (f : VF) (s : State) : Outcome :=
  s.fpLane (.fclass f) .whole fun _ a _ _ => (BitVec.ofNat 64 (2 ^ fclass f.ty (a.toNat % 2 ^ f.ty.width)), 0)

/-! ## Reciprocal, square root, integral values, scaling (R228, R230, R231) -/

def fpOne (f : VF) (op : FVal → FVal × BitVec 5) (fmt : Vector Word 8) (a : DWord) : DWord × BitVec 5 :=
  let x := fsrc fmt f.ty f.na a
  deliverF fmt f.ty f.rnd f.sat [x] (op x)
def execFrcp (f : VF) (s : State) : Outcome := s.fpLane (.frcp f) (.of f.ty) fun fmt a _ _ => fpOne f (fun x => (FVal.fin false 1 0).div x) fmt a
def execFsqrt (f : VF) (s : State) : Outcome := s.fpLane (.fsqrt f) (.of f.ty) fun fmt a _ _ => fpOne f FVal.sqrt fmt a
/-- FRND: an integral value of the same sign; only `.x` reports inexact (R230). -/
def execFrnd (f : VF) (s : State) : Outcome :=
  s.fpLane (.frnd f) (.of f.ty) fun fmt a _ _ =>
    let x := fsrc fmt f.ty f.na a
    let r : FVal × Bool := match x with
      | .fin n m e => let (k, ix) := roundTo f.rnd n m e 0; (.fin n k 0, ix)
      | v => (v, false)
    ((roundTy fmt f.ty .rn r.1).1, sigInv [x] ||| (if f.sub == 1 && r.2 then fNX else 0))
def execFscale (f : VF) (s : State) : Outcome :=
  s.fpLane (.fscale f) (.of f.ty) fun fmt a b _ =>
    let n := max (-5000) (min 5000 (ival .s32 b))
    fpOne f (fun x => (match x with | .fin g m e => .fin g m (e + n) | v => v, 0)) fmt a

/-! ## Conversions (R232, R233, R236) -/

/-- The type named in SC. -/
def VF.srcTy (f : VF) : Ty := match f.c with | .tyc t => t | _ => .b32
def execFcvt (f : VF) (s : State) : Outcome :=
  s.fpLane (.fcvt f) (.conv f.ty fun fmt a => fsrc fmt (VF.srcTy f) false a) fun fmt a _ _ =>
    let x := fsrc fmt (VF.srcTy f) f.na a
    deliverF fmt f.ty f.rnd f.sat [x] (x, 0)
def execI2f (f : VF) (s : State) : Outcome :=
  s.fpLane (.i2f f) (.conv f.ty fun _ a => ofInt (ival (VF.srcTy f) a)) fun fmt a _ _ => deliverF fmt f.ty f.rnd f.sat [] (ofInt (ival (VF.srcTy f) a), 0)
def execF2i (f : VF) (s : State) : Outcome :=
  s.fpLane (.f2i f) .whole fun fmt a _ _ =>
    let x := fsrc fmt (VF.srcTy f) f.na a
    let r := toInt f.ty f.rnd x
    (r.1, r.2 ||| sigInv [x])
def execFpack (f : VF) (s : State) : Outcome :=
  s.fpLane (.fpack f) { ty := some f.ty, ops := fun fmt a b _ i => [fvalue fmt .f32 (if i = 0 then a else b)] } fun fmt a b _ =>
    let x := fsrc fmt .f32 f.na a
    let y := fsrc fmt .f32 f.nb b
    let r0 := deliverF fmt (eltTy f.ty) f.rnd f.sat [x] (x, 0)
    let r1 := deliverF fmt (eltTy f.ty) f.rnd f.sat [y] (y, 0)
    (BitVec.ofNat 64 (r0.1.toNat + r1.1.toNat * 2 ^ 16), r0.2 ||| r1.2)
def execFunpk (f : VF) (s : State) : Outcome :=
  s.fpLane (.funpk f) (.conv .f32 fun fmt a => fvalue fmt (eltTy f.ty) (elt a (f.sub.toNat % 2))) fun fmt a _ _ =>
    let x := fsrc fmt (eltTy f.ty) f.na (elt a (f.sub.toNat % 2))
    deliverF fmt .f32 .rn false [x] (x, 0)

end Sys2Proof.Machine
end

