-- ==== Sys2Proof/Machine/Approx.lean ====
section
/-! DEFINITION. The approximate functions (R229): the part's own result where it keeps the bound, checked against a value computed to some 300 bits; the exact cases and special operands as the tables state. -/
namespace Sys2Proof.Machine

/-! ## Fixed-point evaluation: integers in units of 2^-512 -/

def fxBits : Nat := 512
def fxOne : Int := 2 ^ fxBits
def fxMul (a b : Int) : Int := a * b / fxOne
/-- The sum of `n` terms from term `k`, of which `t` is the first; `next k t` is the term after it. -/
def fxSeries (next : Nat → Int → Int) : Nat → Nat → Int → Int → Int
  | 0, _, _, acc => acc
  | n + 1, k, t, acc => fxSeries next n (k + 1) (next k t) (acc + t)
/-- e^x by its Taylor series. -/
def fxExp (x : Int) : Int := fxSeries (fun k t => fxMul t x / ((k : Int) + 1)) 240 0 fxOne 0
/-- sin x and cos x by their Taylor series, for x within a turn. -/
def fxSin (x : Int) : Int := fxSeries (fun k t => -(fxMul (fxMul t x) x / ((2 * (k : Int) + 2) * (2 * k + 3)))) 120 0 x 0
def fxCos (x : Int) : Int := fxSeries (fun k t => -(fxMul (fxMul t x) x / ((2 * (k : Int) + 1) * (2 * k + 2)))) 120 0 fxOne 0
/-- Σ z^(2k+1) / (2k+1) over `n` terms from power `p` = z^(2k+1), every second term negative when `alt`: atanh z, or atan z. -/
def fxOdd (alt : Bool) (z : Int) : Nat → Nat → Int → Int → Int
  | 0, _, _, acc => acc
  | n + 1, k, p, acc =>
    let t := p / (2 * (k : Int) + 1)
    fxOdd alt z n (k + 1) (fxMul (fxMul p z) z) (if alt && k % 2 == 1 then acc - t else acc + t)
/-- ln y = 2 atanh((y − 1)/(y + 1)), for y in [1, 2]. -/
def fxLn (y : Int) : Int :=
  let z := (y - fxOne) * fxOne / (y + fxOne)
  2 * fxOdd false z 170 0 z 0
def fxLn2 : Int := fxLn (2 * fxOne)
/-- 2π, by Machin's formula. -/
def fxTwoPi : Int :=
  let a := fxOne / 5
  let b := fxOne / 239
  8 * (4 * fxOdd true a 120 0 a 0 - fxOdd true b 40 0 b 0)
/-- 2π held to 128 bits: 125 of them below the point (R229). -/
def fxTwoPi128 : Int := (fxTwoPi + 2 ^ (fxBits - 126)) / 2 ^ (fxBits - 125) * 2 ^ (fxBits - 125)
/-- A finite value in units of 2^-512. -/
def fxOf (v : FVal) : Int :=
  match v with
  | .fin n m e => let x : Int := if 0 ≤ e + fxBits then m * 2 ^ (e + fxBits).toNat else m / 2 ^ (-(e + fxBits)).toNat; if n then -x else x
  | _ => 0
def fxVal (x : Int) (e : Int := 0) : FVal := .fin (x < 0) x.natAbs (e - fxBits)

/-! ## Exact values of the functions -/

inductive AppFn where | rsq | exp2 | log2 | sin | cos | tanh
  deriving DecidableEq, Repr
/-- log2 of a positive finite value. -/
def log2Val (m : Nat) (e : Int) : Int :=
  let k := m.log2
  let y : Int := (m : Int) * 2 ^ fxBits / 2 ^ k
  ((k : Int) + e) * fxOne + fxLn y * fxOne / fxLn2
/-- The value of a function at a finite operand, to about 2^-300; `alt` reduces an angle by the 128-bit 2π. -/
def appExact (fn : AppFn) (alt : Bool) (a : FVal) : FVal :=
  match fn with
  | .rsq => ((FVal.fin false 1 0).div (a.sqrt).1).1
  | .exp2 =>
    let x := fxOf a
    let n := x / fxOne
    if 4096 < n then .fin false 1 4096 else if n < -4096 then .fin false 1 (-4096)
    else fxVal (fxExp (fxMul (x % fxOne) fxLn2)) n
  | .log2 => (match a with | .fin _ m e => fxVal (log2Val m e) | v => v)
  | .sin => fxVal (fxSin (fxOf a % (if alt then fxTwoPi128 else fxTwoPi)))
  | .cos => fxVal (fxCos (fxOf a % (if alt then fxTwoPi128 else fxTwoPi)))
  | .tanh =>
    let x := fxOf a
    if 92 * fxOne ≤ 10 * x ∨ 10 * x ≤ -92 * fxOne then .fin a.neg 1 0
    else let y := fxExp (2 * x); fxVal ((y - fxOne) * fxOne / (y + fxOne))

/-- One unit in the last place of an exact value in a format, times `k` (R229). -/
def ulps (f : FFmt) (v : FVal) (k : Nat) : FVal :=
  match v with
  | .fin _ m e => if m = 0 then .fin false k (f.emin - f.mb) else .fin false k (max ((m.log2 : Int) + e) f.emin - f.mb)
  | v => v
def FVal.le (a b : FVal) : Bool := a.cmp b != .gt
def FVal.maxv (a b : FVal) : FVal := if a.le b then b else a
/-- The error bound of a function at an operand with an exact value (R229). -/
def appBound (fn : AppFn) (f : FFmt) (a v : FVal) : FVal :=
  match fn with
  | .rsq => ulps f v 1
  | .exp2 => ulps f v 2
  | .log2 => if (FVal.fin false 1 (-1)).le a && a.le (.fin false 2 0) then .fin false 1 (-22) else ulps f v 2
  | .sin | .cos => .fin false 1 (-22)
  | .tanh => FVal.maxv (ulps f v 2) (.fin false 1 (-24))
/-- A candidate's value; an infinity counts as the next value beyond the largest finite. -/
def candVal (f : FFmt) (b : Nat) : FVal :=
  match f.decode b with | .inf n => .fin n 1 (2 ^ (f.eb - 1)) | v => v
/-- The margin for the evaluation itself in fixed point. -/
def appMargin : FVal := .fin false 1 (-250)
/-- Whether a positive number c lies within u of 1 / √a: (c − u)² a ≤ 1 ≤ (c + u)² a, without rounding. -/
def rsqNear (a c u : FVal) : Bool :=
  let lo := (c.add .rn (u.negIf true)).1
  let hi := (c.add .rn u).1
  let sq (x : FVal) : FVal := ((x.mul x).1.mul a).1
  (lo.neg || (sq lo).le (.fin false 1 0)) && !hi.neg && (FVal.fin false 1 0).le (sq hi)
/-- Whether a result keeps the bound: FRSQ's exactly, the others within the margin of the evaluation. -/
def appOk (fn : AppFn) (f : FFmt) (a : FVal) (b : Nat) : Bool :=
  let near (alt : Bool) : Bool :=
    let v := appExact fn alt a
    if fn = .rsq then rsqNear a (candVal f b) (appBound fn f a v)
    else (((candVal f b).add .rn (v.negIf true)).1.abs).le ((appBound fn f a v).add .rn appMargin).1
  match candVal f b with
  | .nan _ => false
  | _ => near false || ((fn == .sin || fn == .cos) && near true)
/-- Operands whose result is exact: FRSQ of 4^k, FEXP2 of a representable power, FLOG2 of a power of two (R229). -/
def appIsExact (fn : AppFn) (f : FFmt) (a : FVal) : Bool :=
  match fn, a with
  | .rsq, .fin _ m e => m == 2 ^ m.log2 && ((m.log2 : Int) + e) % 2 == 0
  | .exp2, .fin n m e =>
    let x := fxOf (.fin n m e)
    x % fxOne == 0 && decide (f.emin - f.mb ≤ x / fxOne) && decide (x / fxOne < 2 ^ (f.eb - 1))
  | .log2, .fin _ m _ => m == 2 ^ m.log2
  | _, _ => false
/-- Special operands and results (R229): the bits and flags in a format. -/
def appSpecial (fn : AppFn) (f : FFmt) (a : FVal) : Option (Nat × BitVec 5) :=
  let one : Nat := (2 ^ (f.eb - 1) - 1) * 2 ^ f.mb
  match fn, a with
  | _, .nan sg => some (f.qnan, if sg then fINV else 0)
  | .rsq, .inf n => some (if n then (f.qnan, fINV) else (0, 0))
  | .rsq, .fin n m _ => if m = 0 then some (f.infBits + f.signBit n, fDZ) else if n then some (f.qnan, fINV) else none
  | .exp2, .inf n => some (if n then 0 else f.infBits, 0)
  | .exp2, .fin _ m _ => if m = 0 then some (one, 0) else none
  | .log2, .inf n => some (if n then (f.qnan, fINV) else (f.infBits, 0))
  | .log2, .fin n m _ => if m = 0 then some (f.infBits + f.signBit true, fDZ) else if n then some (f.qnan, fINV) else none
  | .sin, .inf _ | .cos, .inf _ => some (f.qnan, fINV)
  | .sin, .fin n m _ | .tanh, .fin n m _ => if m = 0 then some (f.signBit n, 0) else none
  | .cos, .fin _ m _ => if m = 0 then some (one, 0) else none
  | .tanh, .inf n => some (one + f.signBit n, 0)
/-- Tiny in a format: below its smallest normal. -/
def tinyBits (f : FFmt) (b : Nat) : Bool := b / 2 ^ f.mb % 2 ^ f.eb == 0
/-- The result in .f32 or .f64: a special or exact one, FTANH's ±1, or the part's own result where it keeps the bound (log entry 5), else the
correctly rounded one. The flag says whether it differs from the exact value. -/
def appResult (fn : AppFn) (f : FFmt) (code : Nat) (a : FVal) (bits : DWord) : Nat × BitVec 5 × Bool :=
  match appSpecial fn f a with
  | some (b, g) => (b, g, false)
  | none =>
    let r := f.round .rn (appExact fn false a)
    if appIsExact fn f a then (r.1, 0, false)
    else if fn = .tanh && (FVal.fin false 91 0).le ((FVal.abs a).mul (.fin false 10 0)).1 then ((2 ^ (f.eb - 1) - 1) * 2 ^ f.mb + f.signBit a.neg, fNX, true)
    else
      let c := (Config.approx fn.ctorIdx code bits).toNat % 2 ^ (1 + f.eb + f.mb)
      let b := if appOk fn f a c then c else r.1
      let huge := b % 2 ^ (f.eb + f.mb) == f.infBits
      (b, fNX ||| (if huge then fOF else 0) ||| (if tinyBits f b then fUF else 0), true)
/-- An approximate function on a register (R229): a .f16 or .bf16 result is the .f32 result rounded with rn. -/
def appLane (fn : AppFn) (f : VF) (fmt : Vector Word 8) (a : DWord) : DWord × BitVec 5 :=
  let x := fsrc fmt f.ty f.na a
  if f.ty = .f64 then
    let r := appResult fn f64F 7 x (BitVec.ofNat 64 (f64F.round .rn x).1)
    (BitVec.ofNat 64 r.1, r.2.1)
  else
    let r := appResult fn f32F 3 x (BitVec.ofNat 64 (f32F.round .rn x).1)
    let flags := r.2.1
    match Ty.ffmt f.ty with
    | some g =>
      if f.ty = .f32 then (BitVec.ofNat 64 r.1, flags)
      else
        let q := g.round .rn (f32F.decode r.1)
        let nx := r.2.2 || q.2 &&& fNX != 0
        (BitVec.ofNat 64 q.1,
         (flags &&& (fINV ||| fDZ ||| fOF)) ||| (q.2 &&& fOF) ||| (if nx then fNX ||| (if tinyBits g q.1 then fUF else 0) else 0))
    | none => (0, 0)

def execFrsq (f : VF) (s : State) : Outcome := s.fpLane (.frsq f) (.of f.ty) fun fmt a _ _ => appLane .rsq f fmt a
def execFexp2 (f : VF) (s : State) : Outcome := s.fpLane (.fexp2 f) (.of f.ty) fun fmt a _ _ => appLane .exp2 f fmt a
def execFlog2 (f : VF) (s : State) : Outcome := s.fpLane (.flog2 f) (.of f.ty) fun fmt a _ _ => appLane .log2 f fmt a
def execFsin (f : VF) (s : State) : Outcome := s.fpLane (.fsin f) (.of f.ty) fun fmt a _ _ => appLane .sin f fmt a
def execFcos (f : VF) (s : State) : Outcome := s.fpLane (.fcos f) (.of f.ty) fun fmt a _ _ => appLane .cos f fmt a
def execFtanh (f : VF) (s : State) : Outcome := s.fpLane (.ftanh f) (.of f.ty) fun fmt a _ _ => appLane .tanh f fmt a

end Sys2Proof.Machine
end

