-- ==== Sys2Proof/Machine/Control.lean ====
section
/-! DEFINITION. Control transfer: the CTRL block (R189 to R200) and the end of a sleep. -/
namespace Sys2Proof.Machine

/-- NOP has no effect in any lane (R192). -/
def execNop (f : VF) (s : State) : Outcome := s.issue (.nop f) fun _ s => .done s

/-- Guarded lanes go to the clause at a literal offset (R193). -/
def execBra (g : Guard) (off : BitVec 32) (s : State) : Outcome :=
  s.issue (.bra g off) fun lanes s =>
    match (s.group s.cur).run with
    | none => .done s
    | some r => .jump s (lanes.map fun l => (l, (r.target off, none)))

/-- A transfer to the pair SA, with an optional link to DST: an alignment fault when a lane's target is no multiple of 8 (R193, R194). -/
def State.transfer (s : State) (i : Instr) : Outcome :=
  s.issue i fun lanes s0 =>
    let p := s0.cur
    match i.view, (s0.group p).run with
    | some v, some r =>
      (match s0.sources p v lanes with
       | none => blockOperand s0 lanes
       | some (src, s) =>
         let bad := lanes.filter fun l => (src l).1.toNat % 8 != 0
         match bad with
         | b :: _ => .trap s 0x0C bad (src b).1 0
         | [] =>
           let dest := lanes.map fun l => (l, ((src l).1, none))
           match s.storeField p true v.dst (lanes.map fun l => (l, r.next.1)) with
           | (s, true) => .jump s dest
           | (_, false) => s0.unstored p true v.dst (lanes.map fun l => (l, r.next.1)))
    | _, _ => .done s0
/-- BRX: guarded lanes go to the address in the pair (R193). -/
def execBrx (f : VF) (s : State) : Outcome := s.transfer (.brx f)
/-- CALLX: as BRX, and the link is written (R194). -/
def execCallx (f : VF) (s : State) : Outcome := s.transfer (.callx f)
/-- RET: the effect and the fates of BRX (R194). -/
def execRet (f : VF) (s : State) : Outcome := s.transfer (.ret f)
/-- CALL: the link is written, and guarded lanes go to the clause at a literal offset (R194). -/
def execCall (g : Guard) (dst : Operand) (off : BitVec 32) (s : State) : Outcome :=
  s.issue (.call g dst off) fun lanes s0 =>
    match (s0.group s0.cur).run with
    | none => .done s0
    | some r =>
      match s0.storeField s0.cur true dst (lanes.map fun l => (l, r.next.1)) with
      | (s, true) => .jump s (lanes.map fun l => (l, (r.target off, none)))
      | (s, false) => blockOperand s lanes

/-- Whether every thread of a team has ended. -/
def Team.allEnded (t : Team) : Bool := t.groups.all fun g => g.threads.toList.all fun h => h.life != .live
/-- Threads of a party end. Engine members of a team without live threads stop fetching; the team's exit is due (R195, R319). -/
def State.endThreads (s : State) (p : Party) (lanes : List Nat) : State :=
  let s := s.modGroup p fun g => { g with threads := lanes.foldl (fun ts l => vmod ts l fun t => { t with life := .ended, wait := none, sleep := 0 }) g.threads }
  let s := lanes.foldl (fun s l =>
    match (s.thread p l).ticket with
    | none => s
    | some k => s.dueOnce (.exportApply k.x k.surf k.px k.py)) s
  if (s.team p.team).allEnded then
    (s.modTeam p.team fun t => { t with engines := t.engines.map fun g => { g with run := none, blocked := [], stopped := g.stopped, threads := g.threads.map fun h => { h with wait := none } } }).dueOnce (.teamEnd p.team)
  else s
/-- A thread of a gang member that has not issued its MMAG exits (R129 reason 5): the team remembers it. -/
def State.gangExit (s : State) (p : Party) : State :=
  match p.mem with
  | .group g =>
    let t := s.team p.team
    if t.regs.gang.getLsbD g && !t.latch.any (·.group == g) then s.modTeam p.team fun t => { t with regs := { t.regs with gangDead := true } } else s
  | .engine _ => s
/-- EXIT ends each thread whose guard holds (R195). A fragment thread gives up its ticket (R67). -/
def execExit (f : VF) (s : State) : Outcome :=
  s.issue (.exit f) fun lanes s =>
    if lanes.isEmpty then .done s else .done ((s.gangExit s.cur).endThreads s.cur lanes)

/-- TRAP raises 0x29 in the guarded lanes, past the clause (R196); the code is read in the lowest of them. -/
def execTrap (f : VF) (s : State) : Outcome :=
  s.issue (.trap f) fun lanes s0 =>
    let p := s0.cur
    match (Instr.trap f).view with
    | none => .done s0
    | some v =>
      match s0.sources p v lanes with
      | none => blockOperand s0 lanes
      | some (src, s) =>
        match lanes with
        | [] => .done s0
        | l :: _ => .trap s 0x29 lanes 0 ((src l).2.1.setWidth 32).toNat true
/-- TRET returns each guarded thread from its handler; those that are in no handler raise 0x29 (R197, R349). -/
def execTret (f : VF) (s : State) : Outcome :=
  s.issue (.tret f) fun lanes s =>
    let p := s.cur
    let inside := lanes.filter fun l => (s.thread p l).inh
    let outside := lanes.filter fun l => !(s.thread p l).inh
    let s1 := inside.foldl (fun s l => s.modThread p l Thread.tret) s
    let x (r : Run) : Trap := { cause := 0x29, aux := 2 ^ 32, lanes := ofBits 32 outside, pc := r.slotPc, mid := r.here.2 }
    .jump (match outside, (s.group p).run with | _ :: _, some r => s1.takeTrap p outside (x r) | _, _ => s1)
      (inside.map fun l => (l, (s.thread p l).resume))
/-- TRAPF: the trap fence (R198, R351). Lanes whose enabled flags are set take 0x18 past the clause. -/
def execTrapf (f : VF) (s : State) : Outcome :=
  s.issue (.trapf f) fun lanes s =>
    let p := s.cur
    .done (match (s.group p).run with
      | none => s
      | some r =>
        let s' := s.modGroup p fun g => { g with threads := lanes.foldl (fun ts l => vmod ts l fun t => { t with pc := r.next.1, mid := r.next.2 }) g.threads }
        s'.fence p lanes)
/-- DBG_STAT after a BRK (R359): COUNT; GROUP of the first BRK since the last RESUME; and unless the team is parking already, PARKED clears, and
BRK is set where no team of the context parks yet. -/
def State.brkStat (s : State) (p : Party) : DWord :=
  let st := s.creg (s.ctxOf p) .dbgStat
  let n := fld st 24 8
  let st1 := setFld st 24 8 (min 255 (n + 1))
  let st2 := if n = 0 then setFld st1 16 5 (groupIx p) else st1
  if (s.team p.team).parking then st2
  else setBit (if s.teams.any fun t => t.id.ctx == s.ctxOf p && t.parking then st2 else setBit st2 1 true) 0 false
/-- BRK raises 0x28 with each thread's own code: the thread parks past the clause, and its team begins to park; a BRK of a parking team is only counted (R199, R359). -/
def execBrk (f : VF) (s : State) : Outcome :=
  s.issue (.brk f) fun lanes s0 =>
    let p := s0.cur
    match (Instr.brk f).view, (s0.group p).run with
    | some v, some r =>
      (match s0.sources p v lanes with
       | none => blockOperand s0 lanes
       | some (src, s) =>
         match lanes with
         | [] => .done s0
         | _ :: _ =>
           let x := s.ctxOf p
           let st := s.brkStat p
           let park (l : Nat) (t : Thread) : Thread :=
             { t with parked := true, trapPc := r.next.1, trapMid := none, trapCause := 0x28, trapAddr := 0, trapLanes := ofBits 32 lanes,
                      trapAux := ((src l).2.1.setWidth 32).setWidth 64 }
           let s := s.modGroup p fun g => { g with threads := lanes.foldl (fun ts l => vmod ts l (park l)) g.threads }
           let s := s.setCreg x .dbgStat st
           .done ((s.modTeam p.team fun t => { t with parking := true }).dueOnce (.teamParked x)))
    | _, _ => .done s0

/-- SLEEP: guarded threads are not eligible for n clocks; with n = 0 the group yields (R200). -/
def execSleep (f : VF) (s : State) : Outcome :=
  s.issue (.sleep f) fun lanes s0 =>
    let p := s0.cur
    match (Instr.sleep f).view with
    | none => .done s0
    | some v =>
      match s0.sources p v lanes with
      | none => blockOperand s0 lanes
      | some (src, s) =>
        let n (l : Nat) : Nat := min ((src l).2.1.toNat % 2 ^ 32) 1048575
        let s := lanes.foldl (fun s l => s.modThread p l fun t => { t with sleep := n l }) s
        .done (if lanes.any (fun l => n l == 0) then s.modGroup p fun g => { g with yield := true } else s)
/-- A thread's sleep has run out, or a save ends it: it is eligible at the next clause (R200). -/
def execSleepExpiry (p : Party) (lane : Nat) (s : State) : Outcome := .next (s.modThread p lane fun t => { t with sleep := 0 })

end Sys2Proof.Machine
end

