-- ==== Sys2Proof/Machine/Records.lean ====
section
/-! DEFINITION. The fields of a transfer record (R84 to R86), scratchpad address words and windows (R76 to R78). -/
namespace Sys2Proof.Machine

namespace Rec
def w (r : Vector DWord 8) (i : Nat) : DWord := vget r i
def kind (r : Vector DWord 8) : Nat := fld (w r 0) 60 4
def ssp (r : Vector DWord 8) : Nat := fld (w r 0) 58 2
def dsp (r : Vector DWord 8) : Nat := fld (w r 0) 56 2
def own (r : Vector DWord 8) : Bool := (w r 0).getLsbD 55
def tba (r : Vector DWord 8) : Bool := (w r 0).getLsbD 50
def csp (r : Vector DWord 8) : Nat := fld (w r 0) 49 1
def len (r : Vector DWord 8) : Nat := fld (w r 0) 0 32
def src (r : Vector DWord 8) : DWord := w r 1
def dst (r : Vector DWord 8) : DWord := w r 2
def cnt (r : Vector DWord 8) : DWord := w r 3
def aux (r : Vector DWord 8) : DWord := w r 4
def aux2 (r : Vector DWord 8) : DWord := w r 5
def tbar (r : Vector DWord 8) : Word := (w r 6).setWidth 32
def stride (r : Vector DWord 8) : Nat := fld (aux r) 32 32
def rowb (r : Vector DWord 8) : Nat := fld (aux r) 16 16
end Rec

/-! ## Scratchpad address words (R77) -/

namespace Spw
def off (w : Word) : Nat := fld w 0 18
def dx (w : Word) : Int := sfld w 18 5
def dy (w : Word) : Int := sfld w 23 5
/-- Whether the place is bad, seen from a core of a cluster (R18, R77 steps 1 and 2). -/
def bad (core : Nat) (w : Word) : Bool :=
  let x : Int := (core % 16 : Nat) + dx w
  let y : Int := (core / 16 : Nat) + dy w
  fld w 28 4 != 0 || dx w == -16 || dy w < -11 || 11 < dy w || x < 0 || 15 < x || y < 0 || 11 < y
/-- The logical core that a good place names. -/
def target (core : Nat) (w : Word) : Nat :=
  (((core % 16 : Nat) + dx w) + 16 * ((core / 16 : Nat) + dy w)).toNat
/-- TRAP_AUX of a place fault (R216). -/
def aux (w : Word) : DWord := BitVec.ofNat 64 ((dx w % 256).toNat + 256 * (dy w % 256).toNat)
end Spw

/-- The team of a context whose window on a core holds `n` bytes from an offset (R76, R78). -/
def State.windowAt (s : State) (x cluster core off n : Nat) : Option Team :=
  s.teams.find? fun t => t.id.ctx == x && t.id.cluster == cluster && t.id.core == core && t.phase != .saved &&
    t.regs.spBase ≤ off && off + n ≤ t.regs.spBase + t.regs.spSize
/-- Whether every byte of a range lies in a window of a team of the context on a core; up to `k` windows side by side (R78). -/
def State.inWindows (s : State) (x cluster core : Nat) : Nat → Nat → Nat → Bool
  | 0, off, n => (s.windowAt x cluster core off n).isSome
  | k + 1, off, n =>
    (s.windowAt x cluster core off n).isSome || (match s.windowAt x cluster core off 1 with
      | none => false
      | some t => let m := t.regs.spBase + t.regs.spSize - off; decide (m < n) && s.inWindows x cluster core k (off + m) (n - m))
/-- Where the bytes of a scratchpad range lie, for an operand of a team: the location of its first byte, or the cause of the fault (R77, R78). -/
def State.spRange (s : State) (t : Team) (w : Word) (off n : Nat) : Except Nat Nat :=
  if Spw.bad t.id.core w then .error 0x13
  else
    let c := Spw.target t.id.core w
    if !s.inWindows t.id.ctx t.id.cluster c s.teams.length off n then .error 0x0D else .ok (scratchLoc t.id.cluster c off)
/-- The owner, the map and the line of a scratchpad location that lies in an invalid line (R81). -/
def State.invalidLine (s : State) (loc : Nat) : Option (Nat × Nat × Nat) :=
  s.teams.findSome? fun t =>
    if t.maps.isEmpty || !t.ownsOff (scratchCore loc) (scratchOff loc) then none
    else match t.mapAt (scratchOff loc) with
    | some (m, l) => if ((t.maps.getD m default).lines.getD l default).st = 0 then some (t.id.uid, m, l) else none
    | none => none
/-- The virtual address of a line of a map. -/
def Team.lineVa (t : Team) (m l : Nat) : Nat := (t.maps.getD m default).va.toNat + 256 * l

/-- An accepted record of a team that still delivers into a local scratchpad range (R243, R244). -/
def Team.delivering (t : Team) (base len : Nat) : Bool :=
  t.copy.toList.any fun c => c.recs.any fun r =>
    r.accepted && r.status == 0 && Rec.dsp r.w == 1 && fld (Rec.dst r.w) 18 14 == 0 &&
      (let b := fld (Rec.dst r.w) 0 18
       let n := match Rec.kind r.w with | 1 => Rec.len r.w * Rec.rowb r.w | 2 => 2 ^ 18 | _ => Rec.len r.w
       decide (b < base + len) && decide (base < b + n))

end Sys2Proof.Machine
end

