-- ==== Sys2Proof/Machine/Scratch.lean ====
section
/-! DEFINITION. Scratchpad instructions and mapped regions (R75 to R83, R240 to R244). -/
namespace Sys2Proof.Machine

/-- The checks of a scratchpad access for one lane (R240): place, alignment, bounds, fill. -/
def State.spCheck (s : State) (p : Party) (remote : Bool) (w : Word) (o : Int) (size : Nat) : Chk :=
  let t := s.team p.team
  let off : Int := Spw.off w + o * size
  let here : DWord := BitVec.ofNat 64 (off % 2 ^ 32).toNat
  if (if remote then Spw.bad t.id.core w else fld w 18 14 != 0) then .bad 1 0x13 (w.setWidth 64) (Spw.aux w)
  else if off % size != 0 then .bad 2 0x0C here 0
  else
    let n := off.toNat
    let c := if remote then Spw.target t.id.core w else t.id.core
    let inside := if remote then (s.windowAt t.id.ctx t.id.cluster c n size).isSome else t.regs.spBase ≤ n && n + size ≤ t.regs.spBase + t.regs.spSize
    if off < 0 || 0x30000 ≤ off || !inside then .bad 3 0x0D here 0
    else
      let loc := scratchLoc t.id.cluster c n
      match s.invalidLine loc with
      | none => .ok loc
      | some (u, m, l) =>
        let va := (s.team u).lineVa m l
        match s.xlate (some (coreNo t.id.cluster c)) t.id.ctx va .read with
        | .error f => .xfault 4 f va (some 2)
        | .ok _ => .wait (.mapLineFill u m l)
def MF.base32 (f : MF) (s : State) (p : Party) (l : Nat) : Word := (s.readOp p l false f.base).setWidth 32

/-- A scratchpad load (R241). -/
def State.spLoad (s : State) (i : Instr) (f : MF) (remote : Bool) : Outcome :=
  s.issue i fun lanes s =>
    let p := s.cur
    match allLanes s .read lanes fun l => s.spCheck p remote (MF.base32 f s p l) (offOf f.c) (MF.size f) with
    | .inl r => r
    | .inr locs => .done (s.loadAll p f locs)
/-- A scratchpad store (R241). -/
def State.spStore (s : State) (i : Instr) (f : MF) (remote : Bool) : Outcome :=
  s.issue i fun lanes s =>
    let p := s.cur
    match allLanes s .read lanes fun l => s.spCheck p remote (MF.base32 f s p l) (offOf f.c) (MF.size f) with
    | .inl r => r
    | .inr locs => .done (s.storeAll p f locs)
/-- A scratchpad atomic, in the target word's bank (R242). -/
def State.spAtomic (s : State) (i : Instr) (f : MF) (remote : Bool) : Outcome :=
  s.issue i fun lanes s =>
    let p := s.cur
    match allLanes s .read lanes fun l => s.spCheck p remote (MF.base32 f s p l) (offOf f.c) (MF.size f) with
    | .inl r => r
    | .inr locs => s.atomicAll p f locs

def execLds (f : MF) (s : State) : Outcome := s.spLoad (.lds f) f false
def execLdsr (f : MF) (s : State) : Outcome := s.spLoad (.ldsr f) f true
def execSts (f : MF) (s : State) : Outcome := s.spStore (.sts f) f false
def execStsr (f : MF) (s : State) : Outcome := s.spStore (.stsr f) f true
def execAtoms (f : MF) (s : State) : Outcome := s.spAtomic (.atoms f) f false
def execAtomsr (f : MF) (s : State) : Outcome := s.spAtomic (.atomsr f) f true

/-! ## Maps -/

/-- What a lane of MAPR asks for: the address word, the length, the virtual address. -/
structure MapAsk where
  lane : Nat
  w : Word
  len : Nat
  va : DWord
def overlaps (a n b m : Nat) : Bool := decide (a < b + m) && decide (b < a + n)
/-- The checks of MAPR for one lane, among all (R80, R243). -/
def Team.mapCheck (t : Team) (asks : List MapAsk) (k : Nat) (a : MapAsk) : Chk :=
  let off := Spw.off a.w
  let here : DWord := a.w.setWidth 64
  let n : DWord := BitVec.ofNat 64 a.len
  let clash := (t.maps.any fun m => overlaps off a.len m.base m.len) || asks.any fun b => b.lane != a.lane && overlaps off a.len (Spw.off b.w) b.len
  if fld a.w 18 14 != 0 then .bad 1 0x13 here (Spw.aux a.w)
  else if off % 256 != 0 || a.len % 256 != 0 || a.va.toNat % 256 != 0 then .bad 2 0x0C here n
  else if a.len = 0 then .bad 3 0x0C here n
  else if off < t.regs.spBase || t.regs.spBase + t.regs.spSize < off + a.len then .bad 4 0x0D here n
  else if 8 ≤ t.maps.length + k || clash then .bad 5 0x0D here n
  else if 2 ^ 56 ≤ a.va.toNat then .xfault 6 { sub := 1 } a.va.toNat none
  else .ok 0
/-- Entries for bytes that a test picks reach the bank: those of the cluster's merge buffer, then those of the teams' write buffers (R82, R243). -/
def State.bringHome (s : State) (uids : List Nat) (cl : Nat) (hit : Nat → Bool) : State :=
  let s := ((vget s.clusters cl).merge.filter fun e => e.locs.any hit).foldl (fun s e => s.applyEntry e) s
  let s := s.modMerge cl (·.filter fun e => !e.locs.any hit)
  uids.foldl (fun (s : State) uid =>
    let s := (unhomed ((s.team uid).ord.buf.filter fun e => (e.cells.map (·.1)).any hit)).foldl (fun s e => s.homeWrite e.cells) s
    s.modTeam uid fun t => t.modOrd fun o => { o with buf := o.buf.filter fun e => !(e.cells.map (·.1)).any hit }) s
/-- Whether atomics or ACCSTs that the teams of a core have issued to locations that a test picks have yet to perform. -/
def State.pooledAt (s : State) (core : Nat) (hit : Nat → Bool) : Bool :=
  (s.teams.any fun t => t.coreNo == core && t.ord.pool.any fun a => hit a.loc) ||
  (vget s.cores core).tiles.any fun | .st _ _ _ _ _ dest => dest.any (·.any hit) | _ => false
/-- MAPR binds regions of the window to virtual ranges, every line invalid; what was stored on the core before it is plain bytes, and reaches the
bank first; MAPR waits for the core's atomics that are under way there (R80, R243). -/
def execMapr (f : MF) (s : State) : Outcome :=
  s.issue (.mapr f) fun lanes s =>
    let p := s.cur
    let t := s.team p.team
    let asks := lanes.map fun l => ({ lane := l, w := MF.base32 f s p l, len := (s.readOp p l false f.c).toNat, va := s.readOp p l true f.data } : MapAsk)
    let chk (l : Nat) : Chk :=
      match (List.range asks.length).find? fun k => (asks[k]?.map MapAsk.lane) == some l with
      | some k => (match asks[k]? with | some a => t.mapCheck asks k a | none => .ok 0)
      | none => .ok 0
    match allLanes s .read lanes chk with
    | .inl r => r
    | .inr _ =>
      let hit (l : Nat) : Bool := isScratch l && scratchCore l == t.coreNo && asks.any fun a =>
        decide (Spw.off a.w ≤ scratchOff l) && decide (scratchOff l < Spw.off a.w + a.len)
      if (asks.any fun a => t.delivering (Spw.off a.w) a.len) || s.pooledAt t.coreNo hit then .stall s
      else .done ((s.bringHome ((s.teams.filter fun u => u.coreNo == t.coreNo).map (·.id.uid)) t.id.cluster hit).modTeam p.team fun t => { t with maps := t.maps ++ asks.map fun a =>
        { base := Spw.off a.w, len := a.len, va := a.va, lines := List.replicate (a.len / 256) {} } })

/-- A fill of one line (R81): the bytes whose mask bits are not set take the overlay value in the team's cluster, at the bank and in every
snapshot of the context; the line becomes clean, or dirty where bytes were already written. A failed translation leaves it invalid. -/
def State.fillLine (s : State) (uid m line : Nat) : State :=
  let t := s.team uid
  let e := t.maps.getD m default
  let ln := e.lines.getD line default
  if ln.st ≠ 0 ∨ e.lines.length ≤ line then s
  else match s.xlate (some t.coreNo) t.id.ctx (t.lineVa m line) .read with
  | .error _ => s
  | .ok (loc, _) =>
    let at_ (i : Nat) : Nat := scratchLoc t.id.cluster t.id.core (e.base + 256 * line + i)
    let want : List Nat := (List.range 256).filter fun i => !ln.mask.getLsbD i
    let cells : List Host.Cell := want.map fun i => (at_ i, s.overlay t.id.cluster (loc + i))
    let pois : List Nat := want.filter fun i => s.homePoisoned (loc + i)
    let s1 : State := { s with mem := cells.foldl (fun (m : Memory) (c : Host.Cell) => m.write c.1 c.2) s.mem }
    let s2 := s1.cleanKeys (cells.map (·.1))
    let s3 := pois.foldl (fun (s : State) i => s.poisonKey (at_ i)) s2
    let upd (u : Team) : Team :=
      if u.id.ctx = t.id.ctx then u.modOrd fun o => { o with snap := cells.foldl (fun (sn : List Host.Cell) (c : Host.Cell) => cellPut sn c.1 c.2) o.snap } else u
    let s4 : State := { s3 with teams := s3.teams.map upd }
    ((s4.noteLost t.id.ctx t.id.gen [loc]).tlbTouch uid t.coreNo t.id.ctx (t.lineVa m line) .read).modTeam uid fun u =>
      u.modLine m line fun x => { x with st := if x.mask = 0 then 1 else 2 }
/-- A map line is filled at its first touch (R81). -/
def execMapLineFill (team map line : Nat) (s : State) : Outcome := .next (s.fillLine team map line)

/-- How write-backs end: done, a failed translation of a line, or a page with MIG = 1 that holds the region (R32, R83). -/
inductive WbRes where | ok (s : State) | fail (s : State) (f : XFail) (va : Nat) | hold (s : State)
  deriving Inhabited
/-- Whether a location lies in one of a team's maps. -/
def Team.inMaps (t : Team) (ms : List Nat) (loc : Nat) : Bool :=
  isScratch loc && t.ownsOff (scratchCore loc) (scratchOff loc) &&
    (match t.mapAt (scratchOff loc) with | some (m, _) => ms.contains m | none => false)
/-- One line written back: the bytes whose mask bits are set, with the values the bank holds (R82). -/
def State.writeLine (s : State) (uid m l : Nat) : WbRes :=
  let t := s.team uid
  let e := t.maps.getD m default
  let ln := e.lines.getD l default
  if ln.mask = 0 then .ok s
  else
    let va := t.lineVa m l
    match s.xlate (some t.coreNo) t.id.ctx va .engine with
    | .error f => if f.held then .hold s else .fail s f va
    | .ok (loc, pg) =>
      if pg.mig then .hold s
      else
        let s := s.tlbTouch uid t.coreNo t.id.ctx va .engine
        let at_ (i : Nat) : Nat := scratchLoc t.id.cluster t.id.core (e.base + 256 * l + i)
        let on := bitsOf ln.mask
        let s := s.snapFirst t.id.ctx t.id.gen loc pg
        let bad := on.filter fun i => s.homePoisoned (at_ i)
        let s := s.homeWrite (on.map fun i => (loc + i, s.homeRead (at_ i)))
        let s := s.homePoison (bad.map (loc + ·))
        .ok (s.modTeam uid fun u => u.modLine m l fun x => { st := min x.st 1, mask := 0 })
/-- The dirty lines of the maps written back in order, up to the first that fails (R82, R83). -/
def State.writeBack (s : State) (uid : Nat) (ms : List Nat) : WbRes :=
  let s := s.bringHome [uid] (s.team uid).id.cluster ((s.team uid).inMaps ms)
  (ms.flatMap fun m => (List.range ((s.team uid).maps.getD m default).lines.length).map fun l => (m, l)).foldl
    (fun r x => match r with | .ok s => s.writeLine uid x.1 x.2 | r => r) (WbRes.ok s)
/-- Clean lines become invalid (R82). -/
def State.dropClean (s : State) (uid : Nat) : State :=
  s.modTeam uid fun t => { t with maps := t.maps.map fun m => { m with lines := m.lines.map fun x => if x.st = 1 then {} else x } }
def Team.allMaps (t : Team) : List Nat := List.range t.maps.length

/-- FLUSHR and UNMAPR: the maps that lanes name, written back; `drop` removes them afterwards (R82, R83, R244). -/
def State.flushMaps (s : State) (i : Instr) (f : MF) (drop : Bool) : Outcome :=
  s.issue i fun lanes s =>
    let p := s.cur
    let t := s.team p.team
    let word (l : Nat) : Word := MF.base32 f s p l
    let mapOf (l : Nat) : Option Nat := t.allMaps.find? fun m => (t.maps.getD m default).base == Spw.off (word l)
    let chk (l : Nat) : Chk :=
      if fld (word l) 18 14 != 0 then .bad 1 0x13 ((word l).setWidth 64) (Spw.aux (word l))
      else match mapOf l with
        | none => .bad 2 0x0D ((word l).setWidth 64) 0
        | some m => .ok m
    match allLanes s .read lanes chk with
    | .inl r => r
    | .inr _ =>
      let ms := (lanes.filterMap mapOf).eraseDups
      if ms.any fun m => let e := t.maps.getD m default; t.delivering e.base e.len then .stall s
      else match s.writeBack p.team ms with
      | .hold s => .block s (lanes.map fun l => (l, .retry))
      | .fail s fl va =>
        .xfault s .engine fl (lanes.filter fun l => match mapOf l with
          | some m => let e := t.maps.getD m default; decide (e.va.toNat ≤ va) && decide (va < e.va.toNat + e.len)
          | none => false) va
      | .ok s => .done (if drop then s.modTeam p.team fun t =>
          { t with maps := (t.allMaps.filter fun m => !ms.contains m).map fun m => t.maps.getD m default } else s)
def execUnmapr (f : MF) (s : State) : Outcome := s.flushMaps (.unmapr f) f true
def execFlushr (f : MF) (s : State) : Outcome := s.flushMaps (.flushr f) f false

end Sys2Proof.Machine
end

