-- ==== Sys2Proof/Machine/Global.lean ====
section
/-! DEFINITION. Raw global atomics and atomics to host memory (R27, R28, R32, R33, R245). -/
namespace Sys2Proof.Machine

/-- The address pair plus the scaled offset (R245). -/
def MF.gaddr (f : MF) (s : State) (p : Party) (l size : Nat) : DWord :=
  s.readOp p l true f.base + BitVec.ofInt 64 (offOf f.c * size)
/-- The checks of a raw global access for one lane (R245): the top bits, alignment, translation, the raw-heap rule. -/
def State.globalCheck (s : State) (p : Party) (va : DWord) (size : Nat) (a : Acc) : Chk :=
  let t := s.team p.team
  if 2 ^ 56 ≤ va.toNat then .xfault 1 { sub := 1 } va.toNat none
  else if va.toNat % size != 0 then .bad 2 0x0C va 0
  else match s.xlate (some t.coreNo) t.id.ctx va.toNat a with
  | .error f => if f.sub = 0xA then .xfault 4 f va.toNat none else .xfault 3 f va.toNat (some 0)
  | .ok (loc, pg) => .ok loc pg
/-- An atomic that PCIe cannot carry (R27). -/
def State.hostCheck (f : MF) (va : DWord) (c : Chk) : Chk :=
  match c with
  | .ok loc pg => if isHost (loc % keyUnit) && !hostAtomic f.op then .xfault 6 { sub := 9 } va.toNat none else .ok loc pg
  | c => c
/-- The TLBs after the lanes' accesses (R34). -/
def State.tlbUseAll (s : State) (p : Party) (vas : List Nat) (a : Acc) : State :=
  let t := s.team p.team
  vas.foldl (fun s va => s.tlbTouch p.team t.coreNo t.id.ctx va a) s
/-- Atomics at homes that may lie in host memory: one to the host goes out as an AtomicOp, and the path stands at the instruction until the
completions of its lanes (R27, R399); the others are performed. -/
def State.atomicOut (s : State) (p : Party) (f : MF) (va : Nat → DWord) (locs : List (Nat × Nat × Page)) : Res :=
  let out (x : Nat × Nat × Page) : Bool := isHost (x.2.1 % keyUnit)
  match locs.filter out with
  | [] => s.atomicAll p f locs
  | x :: xs =>
    if s.inSteep p then s.atomicAll p f locs
    else if f.use == .plain && !s.poolClear p ((x :: xs).map (·.1)) then .stall s
    else match s.atomicAll p f (locs.filter (!out ·)) with
    | .done s => .block s ((x :: xs).map fun y => (y.1, .host y.2.1 (va y.1)))
    | r => r

/-- ATOMG (R245). -/
def execAtomg (f : MF) (s : State) : Outcome :=
  s.issue (.atomg f) fun lanes s =>
    let p := s.cur
    let va (l : Nat) : DWord := MF.gaddr f s p l (MF.size f)
    match allLanes s .write lanes fun l => State.hostCheck f (va l) (s.globalCheck p (va l) (MF.size f) .write) with
    | .inl r => r
    | .inr locs => (s.tlbUseAll p (lanes.map fun l => (va l).toNat) .write).atomicOut p f va locs

/-- A lane whose request to the host has completed; with the last of them the path leaves the instruction. -/
def State.hostDone (s : State) (p : Party) (lane : Nat) : State :=
  let s := s.modThread p lane fun t => { t with wait := none }
  match (s.group p).run with
  | some r => if (bitsOf r.lanes).any fun l => (s.thread p l).atHost then s else s.advance p [] []
  | none => s
/-- The trap of an instruction whose path stands at it: every lane whose guard held enters, and none waits any more (R348). -/
def State.trapStanding (s : State) (p : Party) (r : Run) (g : Guard) (bad : List Nat) (cause : Nat) (addr aux : DWord) : State :=
  let s := s.modGroup p fun g => { g with threads := (bitsOf r.lanes).foldl (fun ts l => vmod ts l fun t => { t with wait := none }) g.threads }
  s.trapAt p ((bitsOf r.lanes).filter fun l => (s.thread p l).guardOk g) { cause, addr, aux, lanes := ofBits 32 bad, pc := r.slotPc, mid := r.here.2 }
/-- The host completes an AtomicOp: the atomic, or the compare-and-swap of an LDREF's heal, takes its place at the host's home as its use says, or, on Unsupported Request, the instruction
takes a protection fault with sub-cause 0x09 (R27, R151, R152). -/
def execHostAtomicopCompletion (p : Party) (lane : Nat) (ok : Bool) (s : State) : Outcome :=
  match (s.thread p lane).wait, (s.group p).run with
  | some (.host loc va old new), some r =>
    (match decodeWord r.word with
     | .ok (.ldref f) =>
       if !ok then .next (s.trapStanding p r f.guard [lane] 0x0B va 9)
       else .next (((s.homeAtomic .cas .b64 loc new old).2.writeOp p lane true f.dst new).hostDone p lane)
     | .ok (.atomg f) | .ok (.atomh f) =>
       if !ok then .next (s.trapStanding p r f.guard [lane] 0x0B va 9)
       else
         let v := s.readOp p lane f.ty.wide f.data
         let cmp := if f.op = .cas then s.readOp p lane f.ty.wide f.dst else 0
         let back (r : DWord × State) : State := r.2.loadDst p f.ty.wide f.dst [(lane, loadBits f.ty r.1.toNat, false)]
         (match f.use with
          | .commute => .next ((s.commute p loc f.op f.ty v).hostDone p lane)
          | .unpaired => .next ((back (s.homeAtomic f.op f.ty loc v cmp)).hostDone p lane)
          | .noorder | .spec => .next ((back (s.atomicStep p lane f.op f.ty loc v cmp)).hostDone p lane)
          | _ =>
            if !s.poolClear p [lane] then .next s
            else
              let (old, s) := (s.release p lane f.scope).atomicStep p lane f.op f.ty loc v cmp
              .next ((back (old, s.acquire p.team f.scope)).hostDone p lane))
     | _ => .next s)
  | _, _ => .next s

end Sys2Proof.Machine
end

