-- ==== Sys2Proof/Machine/Surface.lean ====
section
/-! DEFINITION. Texel loads, stores and atomics, and the eviction engine's steps (R46 to R65, R246, R247). -/
namespace Sys2Proof.Machine

/-- A texel address and its access (R246). -/
structure Texel where
  h : Nat
  layer : Nat
  x : Int
  y : Nat
  boff : Nat
  rsv : Bool
  deriving DecidableEq, Repr
def texelOf (a : DWord) (o : Int) : Texel :=
  { h := fld a 52 12, layer := fld a 44 8, x := fld a 18 14 + o, y := fld a 4 14, boff := fld a 0 4, rsv := fld a 32 12 != 0 }
/-- TRAP_ADDR of a surface fault (R54). -/
def surfAddr (x : Int) (y layer : Nat) : DWord := BitVec.ofNat 64 ((x % 65536).toNat + y * 2 ^ 16 + layer * 2 ^ 32)
def surfAux (sub h : Nat) : DWord := BitVec.ofNat 64 (sub + h * 256)
def Texel.fault (t : Texel) (rank sub : Nat) : Chk := .bad rank 0x0F (surfAddr t.x t.y t.layer) (surfAux sub t.h)

/-- What an access does to a surface. -/
inductive SurfOp where | load | store | atomic (op : AtomOp) (ty : Ty)
  deriving DecidableEq, Repr
/-- Operations that a format does not allow (R54 sub-cause 0x03, R247). -/
def SurfOp.bad (o : SurfOp) (fmt boff : Nat) : Bool :=
  fmtBytes fmt == 0 ||
  match o with
  | .atomic .max .n64 => !(fmt == 0x0C && boff == 0)
  | .atomic .fadd .f32 => !(fmt == 0x07 || fmt == 0x08 || fmt == 0x09)
  | .atomic .fadd .f16x2 => !(fmt == 0x05 || fmt == 0x06)
  | .atomic .fadd _ => true
  | _ => false
/-- The checks of a texel access for one lane (R246, R54), and what the home bank must do first: a refill of a spilled tile (R62). An access that
issued before an SFREE of one of the surfaces `held` completes (R63). -/
def State.surfCheck (s : State) (x : Nat) (a : DWord) (o : Int) (size : Nat) (op : SurfOp) (held : List Nat := []) : Chk :=
  let t := texelOf a o
  if t.rsv then t.fault 1 7
  else if t.boff % size != 0 then .bad 2 0x0C (surfAddr t.x t.y t.layer) (surfAux t.boff t.h)
  else match (s.validSurf? x t.h).or (if held.contains t.h then s.surf? x t.h else none) with
  | none => t.fault 3 1
  | some u =>
    if t.x < 0 || (Surf.width u : Int) ≤ t.x || Surf.height u ≤ t.y || Surf.layers u ≤ t.layer then t.fault 4 2
    else if op.bad (Surf.format u) t.boff then t.fault 5 3
    else
      let loc := texelLoc x t.h t.layer t.x.toNat t.y t.boff
      let past : Chk := if Surf.bytes u < t.boff + size then t.fault 7 3 else .ok loc
      let (n, _, ti, _) := Surf.place u t.x.toNat t.y t.layer
      match Surf.tile u ti, op with
      | 0, _ => past
      | 2, .load => past
      | st, _ =>
        (match s.makeResident x t.h ti with
         | .noFrame _ => t.fault 6 4
         | .fault _ f va => if Surf.bytes u < t.boff + size then t.fault 7 3 else .xfault 8 f va (if op = .load then some 0 else none)
         | .hold _ => if Surf.bytes u < t.boff + size then t.fault 7 3 else .wait (.tileRefill x t.h ti)
         | .ok _ => if Surf.bytes u < t.boff + size then t.fault 7 3 else if st = 2 then .ok loc else if n < 2 then .wait (.tileRefill x t.h ti) else .ok loc)
/-- An access homed on side `n` of a surface: its touch time there, bits [41:10] of `$time` (R60), and the stack's SRAM die (R377). -/
def State.touch (s : State) (x h n : Nat) : State :=
  match s.surf? x h with
  | none => s
  | some u => (s.setSurf x { u with touch := vset u.touch n (fld (vget s.dies n).time 10 32) }).reachStack x (s.stackOf n) false
def State.touchLocs (s : State) (locs : List Nat) : State :=
  locs.foldl (fun s l =>
    let c := texelAt (l % keyUnit)
    match s.surf? c.x c.h with
    | none => s
    | some u => s.touch c.x c.h (Surf.place u c.px c.py c.layer).1) s
/-- An access that found no frame, or whose refill failed, leaves the spills that its request made, and the spill faults noted (R62). -/
def State.noFrameOf (s : State) (x : Nat) (t : Texel) : State :=
  match s.surf? x t.h with
  | none => s
  | some u => match s.makeResident x t.h (Surf.place u t.x.toNat t.y t.layer).2.2.1 with | .noFrame s | .fault s _ _ => s | _ => s
/-- The spills that the lanes of a surface fault without a frame, or of a failed refill, leave (R54 sub-cause 0x04, R62). -/
def Res.keepSpills (r : Res) (x : Nat) (at_ : Nat → Nat → Texel) : Res :=
  match r with
  | .trap s cause bad addr aux after =>
    .trap (if cause = 0x0F ∧ aux.toNat % 256 = 4 then bad.foldl (fun (s : State) l => s.noFrameOf x (at_ (aux.toNat / 256) l)) s else s) cause bad addr aux after
  | .xfault s a f bad va d more => .xfault (bad.foldl (fun (s : State) l => s.noFrameOf x (at_ 0 l)) s) a f bad va d more
  | r => r
/-- A texel instruction that waits for refills: they are counted (R303 event 10), and its surfaces are kept for it (R63). -/
def State.awaitTiles (s0 s : State) (p : Party) (hs : List Nat) : State :=
  let isRefill (i : Instr) : Bool := match i with | .tileRefill _ _ _ => true | _ => false
  (s.perfAdd p.team 10 ((s.agenda.filter isRefill).length - (s0.agenda.filter isRefill).length)).modGroup p fun g =>
    { g with run := g.run.map fun r => { r with held := hs } }
/-- A texel instruction: the checks over all lanes, then its own steps. -/
def State.texelOp (s : State) (i : Instr) (f : MF) (op : SurfOp) (go : State → Party → List (Nat × Nat × Page) → Res) : Outcome :=
  s.issue i fun lanes s =>
    let p := s.cur
    let held := match (s.group p).run with | some r => r.held | none => []
    let at_ (l : Nat) : Texel := texelOf (s.readOp p l true f.base) (offOf f.c)
    match allLanes s (if op = .load then .read else .write) lanes fun l =>
        s.surfCheck (s.ctxOf p) (s.readOp p l true f.base) (offOf f.c) (MF.size f) op held with
    | .inl (.block s' ws) => .block (s.awaitTiles s' p (lanes.map fun l => (at_ l).h)) ws
    | .inl r => r.keepSpills (s.ctxOf p) fun _ => at_
    | .inr locs => go (s.touchLocs (locs.map (·.2.1))) p locs
def execSld (f : MF) (s : State) : Outcome := s.texelOp (.sld f) f .load fun s p locs => .done (s.loadAll p f locs)
def execSst (f : MF) (s : State) : Outcome := s.texelOp (.sst f) f .store fun s p locs => .done (s.storeAll p f locs)
def execAtomf (f : MF) (s : State) : Outcome := s.texelOp (.atomf f) f (.atomic f.op f.ty) fun s p locs => s.atomicAll p f locs

/-! ## The eviction engine -/

/-- TILE_REFILL: a spilled or poisoned tile takes a frame and becomes resident (R62). A failure is left to the access that needs the tile. -/
def execTileRefill (x handle t : Nat) (s : State) : Outcome :=
  match s.makeResident x handle t with
  | .ok s | .noFrame s | .fault s _ _ | .hold s => .next s

/-- The victim of a quota request on a stack; a surface that the request passed over stays so, whichever victim stands (R59, R62). -/
def State.setVictim (s : State) (x n : Nat) (v : Option Victim) : State := s.modCtx x fun c => { c with victims := vset c.victims n v }
/-- A quota request ends: no victim stands, and no surface is passed over any more (R59, R62). -/
def State.endRequest (s : State) (x n : Nat) : State :=
  s.modCtx x fun c => { c with victims := vset c.victims n none, passed := c.passed.filter (·.1 != n) }
/-- A victim that a spill fault passes over for the rest of the request (R62). -/
def State.passOver (s : State) (x n h : Nat) : State :=
  (s.spillFault x h).modCtx x fun c => { c with victims := vset c.victims n none, passed := (n, h) :: c.passed }
/-- Whether a context holds more frames on the stack of a side than its quota. -/
def State.aboveQuota (s : State) (x n : Nat) : Bool := s.quota x (s.stackOf n) < s.used x (s.stackOf n)
/-- The victim that a quota request spills next: the one chosen, until the request fits, else the first in order that has a frame and is not
passed over (R60 to R63). -/
def State.victimOf (s : State) (x n : Nat) : Option Nat :=
  match vget (s.ctx x).victims n with
  | some v => some v.h
  | none => if s.aboveQuota x n then ((s.victims x n).find? fun u => !(s.ctx x).passed.contains (n, u.handle) && !(s.presentFrames x n u).isEmpty).map (·.handle) else none
/-- A frame without resident tiles is absent; its surface stays the victim until the request fits. -/
def State.dropFrame (s : State) (x h n k : Nat) (u : Surface) : State :=
  (s.setFrame (s.stackOf n) x h (Surf.home u n + k) none).setVictim x n (some { h })
/-- SPILL_TILE: while a context holds more frames on a stack than its quota, the highest resident tile of the victim there is spilled, and a
frame without resident tiles becomes absent; a frame that is mid-spill is finished first (R59 to R61). A spill fault passes the victim over
(R62), and an SFREE stops it (R63). -/
def execSpillTile (x handle stack : Nat) (s : State) : Outcome :=
  let mid := (vget (s.ctx x).victims stack).bind fun v => if v.h = handle then v.frame else none
  if s.victimOf x stack ≠ some handle then .next s
  else match s.validSurf? x handle with
  | none => .next (s.setVictim x stack none)
  | some u =>
    if mid.isNone && !s.aboveQuota x stack then .next (s.endRequest x stack)
    else match mid.or (s.presentFrames x stack u).head? with
    | none => .next (s.setVictim x stack none)
    | some k =>
      match (frameTiles u stack k).reverse.find? fun loc => Surf.tile u (spillIx u stack loc) == 0 with
      | none => .next (s.dropFrame x handle stack k u)
      | some loc =>
        match s.spillTile x handle (spillIx u stack loc) with
        | .fail _ _ => .next (s.passOver x stack handle)
        | .hold => .next (s.setVictim x stack (some { h := handle, frame := some k }))
        | .ok s =>
          let u' := (s.surf? x handle).getD u
          if (frameTiles u stack k).any fun l => Surf.tile u' (spillIx u stack l) == 0 then .next (s.setVictim x stack (some { h := handle, frame := some k }))
          else .next (s.dropFrame x handle stack k u)

/-- Whether a location is a texel of a surface. -/
def onSurf (x h loc : Nat) : Bool := isTexel (loc % keyUnit) && (let c := texelAt (loc % keyUnit); c.x == x && c.h == h)
/-- Whether a copy record reads or writes a surface (R86). -/
def CopyRec.onSurf (r : CopyRec) (h : Nat) : Bool :=
  (Rec.ssp r.w == 2 && fld (Rec.src r.w) 52 12 == h) || (Rec.dsp r.w == 2 && fld (Rec.dst r.w) 52 12 == h)
/-- Whether some access to a surface that issued before has not drained: buffered, merged or pooled accesses, what waits at the banks, ACCSTs that have
not retired, held instructions, records, exports (R63). -/
def State.surfBusy (s : State) (x h : Nat) : Bool :=
  (s.clusters.toList.any fun c => (c.merge ++ c.outq).any fun e => e.locs.any (onSurf x h)) ||
  (match s.surf? x h with | some u => !u.waiting.isEmpty | none => false) ||
  (s.teams.any fun t => t.id.ctx == x &&
    ((t.ord.buf.any fun e => e.cells.any fun c => onSurf x h c.1) || (t.ord.pool.any fun a => onSurf x h a.loc) ||
     ((vget s.cores t.coreNo).tiles.any fun | .st _ _ _ _ _ dest => dest.any (·.any (onSurf x h)) | _ => false) ||
     (t.groups.any fun g => (g.run.toList ++ g.blocked).any fun r => r.held.contains h) ||
     (t.copy.toList.any fun c => c.recs.any fun r => r.accepted && r.onSurf h) || (t.vxms.any fun v => v.rows.any fun r => fld r.2.2.2 20 12 == h))) ||
  ((s.ctx x).raster.exports.any fun e => e.ticket.surf == h || (e.ticket.depth == h && h != 0)) ||
  ((s.ctx x).raster.prims.any fun q => !q.declined && (fld (vget q.state 0) 52 12 == h || (fld (vget q.state 0) 40 12 == h && h != 0)))
/-- SURFACE_FRAMES_FREED: once every access issued before the SFREE has drained, the surface's frames are free (R63). DESIGN CHOICE (log entry 19):
its texels are locations no more, so no team's snapshot goes on holding them, and a later surface of the same handle has locations of its own. -/
def execSurfaceFramesFreed (x handle : Nat) (s : State) : Outcome :=
  match s.surf? x handle with
  | none => .next s
  | some u =>
    if !u.draining || Surf.valid u || s.surfBusy x handle then .next s
    else
      let gone (e : FrameEntry) : Bool := e.x == x && e.handle == handle
      let s := { s with dev := { s.dev with frameTab := s.dev.frameTab.map fun (l : List FrameEntry) => l.filter fun e => !gone e } }
      let s := { s with teams := s.teams.map fun (t : Team) => t.modOrd fun o => { o with snap := o.snap.filter fun c => !onSurf x handle c.1 } }
      .next (s.modCtx x fun c => { c with surfaces := c.surfaces.filter fun v => v.handle != handle })

end Sys2Proof.Machine
end

