-- ==== Sys2Proof/Machine/Heap.lean ====
section
/-! DEFINITION. The managed heap: references and the Strainer, copies, the reference instructions, the allocator, the colour flip and the relocation engines (R130 to R142, R248 to R255, R404, R405). -/
namespace Sys2Proof.Machine

/-! ## References and tables -/

namespace Ref
def tag (r : DWord) : Nat := fld r 62 2
def col (r : DWord) : Nat := fld r 60 2
def gi (r : DWord) : Nat := fld r 6 54
def weak (r : DWord) : Bool := r.getLsbD 1
def ncd (r : DWord) : Bool := r.getLsbD 0
/-- NullRef of the flags of a reference (R248). -/
def null (r : DWord) : DWord := if fld r 0 2 = 0 then 0 else 0x8000000000000000 + BitVec.ofNat 64 (fld r 0 2)
def withGi (r : DWord) (g : Nat) : DWord := setFld r 6 54 g
end Ref

def State.heapCount (s : State) (x : Nat) : Nat := fld (s.creg x .heapNreg) 0 16
def State.goodCol (s : State) (x : Nat) : Nat := fld (s.creg x .heapCol) 0 2
def State.flipBusy (s : State) (x : Nat) : Bool := (s.creg x .heapCol).getLsbD 2
/-- The virtual address of a granule (R130). -/
def State.granVa (s : State) (x g : Nat) : Nat := fld (s.creg x .heapVbase) 21 35 * 2 ^ 21 + 64 * g
def State.hrt0 (s : State) (x rg : Nat) : DWord := BitVec.ofNat 64 (s.readPa 0 (s.hrtAddr x rg) 8)
def State.setHrt0 (s : State) (x rg : Nat) (v : DWord) : State := s.writePa (s.hrtAddr x rg) 8 v.toNat
def State.rgState (s : State) (x rg : Nat) : Nat := fld (s.hrt0 x rg) 48 3
def State.rgPins (s : State) (x rg : Nat) : Nat := fld (s.hrt0 x rg) 32 16
def State.rgTop (s : State) (x rg : Nat) : Nat := fld (s.hrt0 x rg) 0 16
def State.setRgState (s : State) (x rg v : Nat) : State := s.setHrt0 x rg (setFld (s.hrt0 x rg) 48 3 v)
def State.setRgTop (s : State) (x rg v : Nat) : State := s.setHrt0 x rg (setFld (s.hrt0 x rg) 0 16 v)
/-- The address of a granule's forwarding entry (R131, R134). -/
def State.fwdAddr (s : State) (x g : Nat) : Nat :=
  fld (BitVec.ofNat 64 (s.readPa 0 (s.hrtAddr x (g / 32768) + 8) 8)) 12 40 * 4096 + 8 * (g % 32768)
def State.fwd (s : State) (x g : Nat) : DWord := BitVec.ofNat 64 (s.readPa 0 (s.fwdAddr x g) 8)
def State.setFwd (s : State) (x g : Nat) (v : DWord) : State := s.writePa (s.fwdAddr x g) 8 v.toNat
def fwdTo (g : Nat) : DWord := BitVec.ofNat 64 (2 * 2 ^ 62 + g * 64)
/-- Writing FST 3: the object stays in place (R137 step 2). -/
def State.stay (s : State) (x g : Nat) : State := s.setFwd x g (BitVec.ofNat 64 (3 * 2 ^ 62))

/-! ## StrainerResolve (R135) -/

/-- How a resolution ends: a reference, trap 0x10 with a sub-cause, a table outside package memory, a wait on FLIPBUSY, a wait for the region
table (R44), or an object that a write must see copied first. -/
inductive Rsv where | ok (r : DWord) | bad (sub : Nat) | table | flip | held | copy (g : Nat)
  deriving DecidableEq, Repr, Inhabited
def State.retint (s : State) (x : Nat) (r : DWord) : DWord := setFld r 60 2 (s.goodCol x)
/-- Settle; the count bounds the forwarding chain by the granules a heap can have. -/
def State.settle (s : State) (x : Nat) (write : Bool) : Nat → DWord → Rsv
  | 0, _ => .flip
  | k + 1, r =>
    let rg := Ref.gi r / 32768
    if !s.tableOk (s.hrtAddr x rg) then .table
    else if s.rtHeld (s.hrtAddr x rg) then .held
    else
      let st := s.rgState x rg
      if st = 0 then .bad 6
      else if st = 1 ∨ st = 2 then .ok (s.retint x r)
      else if st = 3 ∧ s.flipBusy x then .flip
      else if !s.tableOk (s.fwdAddr x (Ref.gi r)) then .table
      else if s.rtHeld (s.fwdAddr x (Ref.gi r)) then .held
      else
        let e := s.fwd x (Ref.gi r)
        if fld e 62 2 = 2 then
          if Ref.gi e = 0 then (if Ref.weak r then .ok (Ref.null r) else .bad 5) else s.settle x write k (Ref.withGi r (Ref.gi e))
        else if fld e 62 2 = 3 ∨ st = 4 ∨ st = 5 then .ok (s.retint x r)
        else if !write then .ok r
        else .copy (Ref.gi r)
def State.resolve (s : State) (x : Nat) (write : Bool) (r0 : DWord) : Rsv :=
  let r := if r0 = 0 then Ref.null 0 else r0
  if r = 0 then .ok 0
  else if Ref.tag r ≠ 2 then .bad 1
  else if fld r 2 4 ≠ 0 then .bad 2
  else if Ref.gi r = 0 then .ok r
  else if s.heapCount x = 0 ∨ 32768 * s.heapCount x ≤ Ref.gi r then .bad 3
  else if Ref.col r = s.goodCol x ∧ !s.flipBusy x then .ok r
  else s.settle x write (2 ^ 31) r

/-! ## Objects -/

/-- The location of a byte of the heap, for an access by the device or a thread. -/
def State.heapLoc (s : State) (core : Option Nat) (x va : Nat) (a : Acc) : Except (Nat × XFail) (Nat × Page) :=
  match s.xlate core x va a (raw := false) with
  | .ok r => .ok r
  | .error f => .error (va, f)
/-- A header (R133): its location, SIZE, HST, PINC. -/
structure Hdr where
  loc : Nat
  size : Nat
  hst : Nat
  pinc : Nat
  page : Page := {}
  deriving DecidableEq, Repr
def State.header (s : State) (core : Option Nat) (x g : Nat) (a : Acc := .read) : Except (Nat × XFail) Hdr :=
  match s.heapLoc core x (s.granVa x g) a with
  | .error e => .error e
  | .ok (loc, page) =>
    let w1 := s.homeReadN (loc + 8) 8
    .ok { loc, size := s.homeReadN loc 4, hst := w1 / 256 % 4, pinc := w1 % 256, page }
/-- The locations of bytes that the allocator or a copier writes; the first failed translation otherwise. A page with MIG = 1 makes it wait, as it
does a relocation engine's write (R32; log entry 20). -/
def State.heapLocs (s : State) (core : Option Nat) (x va n : Nat) : Except (Nat × XFail) (List Nat) :=
  match s.engLocs core x va n .engine (raw := false) with
  | .error e => .error e
  | .ok locs => if s.engHeld x va n then .error (va, { sub := 0 }) else .ok locs
/-- The core of the party that a copy or an allocation is made for; an engine's own work has none. -/
def State.coreFor (s : State) (by_ : Option Party) : Option Nat := by_.map fun p => (s.team p.team).coreNo
/-- The pages of a range are copied first where SNAP asks for it, for the launch that the write belongs to (R371). -/
def State.snapSpan (s : State) (by_ : Option Party) (x va n : Nat) : State :=
  match by_ with
  | none => s
  | some p => (List.range (n / 65536 + 2)).foldl (fun s k =>
    match s.xlate none x (va + min (65536 * k) (n - 1)) .engine (raw := false) with
    | .ok (loc, pg) => s.snapFirst x (s.team p.team).id.gen loc pg
    | .error _ => s) s
/-- The TLBs of the core after its Strainer reached the ends of a range (R34). -/
def State.strainSpan (s : State) (by_ : Option Party) (x va n : Nat) (a : Acc) : State :=
  match by_ with
  | none => s
  | some p => [va, va + n - 1].foldl (fun s v => s.tlbTouch p.team (s.team p.team).coreNo x v a) s
/-- Bytes written at homes in the heap at a virtual address. -/
def State.heapWrite (s : State) (by_ : Option Party) (x va : Nat) (bs : List Byte) : Except (Nat × XFail) State :=
  (s.heapLocs none x va bs.length).map fun locs => ((s.snapSpan by_ x va bs.length).homeWrite (locs.zip bs)).reachRun x locs
/-- The lines of granules leave every snapshot of the context (R140, R252). -/
def State.dropSnaps (s : State) (x va n : Nat) : State :=
  match s.engLocs none x va n .read (raw := false) with
  | .error _ => s
  | .ok locs => { s with teams := s.teams.map fun (t : Team) =>
      if t.id.ctx = x then t.modOrd fun o => { o with snap := o.snap.filter fun c => !locs.contains c.1 } else t }
/-- The filler header over the rest of a region (R131, R252). -/
def State.filler (s : State) (by_ : Option Party) (x rg : Nat) : Except (Nat × XFail) State :=
  let top := s.rgTop x rg
  if 32768 ≤ top then .ok s
  else s.heapWrite by_ x (s.granVa x (32768 * rg + top)) (leBytes 4 (64 * (32768 - top)) ++ leBytes 4 0 ++ leBytes 8 0x200)
/-- What keeps a region's entry from being read: it lies where no physical read reaches, sub-cause 0x08, or the region table holds it (R44, R135). -/
def State.entryFail (s : State) (x rg : Nat) : Option XFail :=
  if !s.tableOk (s.hrtAddr x rg) then some { sub := 8 } else if s.rtHeld (s.hrtAddr x rg) then some { sub := 0 } else none
/-- The lowest free region, of a parity where one is asked for, from the entries in order. -/
def State.freeRegion (s : State) (x : Nat) (par : Option Nat) : Except (Nat × XFail) (Option Nat) :=
  ((List.range (s.heapCount x)).filter fun rg => match par with | some d => rg % 2 == d | none => true).foldl (fun acc rg =>
    match acc with
    | .ok none => (match s.entryFail x rg with
      | some f => .error (s.granVa x (32768 * rg), f)
      | none => .ok (if s.rgState x rg = 0 then some rg else none))
    | r => r) (.ok none)
def State.modReloc (s : State) (x : Nat) (f : Reloc → Reloc) : State := s.modCtx x fun c => { c with reloc := f c.reloc }
/-- The to-region of an engine with room for `n` granules (R137 step 1, R405); none when no region is free. -/
def State.toRegion (s : State) (by_ : Option Party) (x die n : Nat) : Except (Nat × XFail) (Option Nat × State) :=
  let cur := vget (s.ctx x).reloc.dest die
  match cur.bind fun rg => (s.entryFail x rg).map fun f => (s.granVa x (32768 * rg), f) with
  | some e => .error e
  | none =>
  match cur.filter fun rg => s.rgTop x rg + n ≤ 32768 with
  | some rg => .ok (some rg, s)
  | none =>
    let closed : Except (Nat × XFail) State := match cur with
      | some rg => (s.filler by_ x rg).map fun s => s.setRgState x rg 2
      | none => .ok s
    match closed with
    | .error e => .error e
    | .ok s =>
      match s.freeRegion x (some die) with
      | .error e => .error e
      | .ok none => .ok (none, s.modReloc x fun r => { r with dest := vset r.dest die none })
      | .ok (some rg) => .ok (some rg, (s.setRgState x rg 1).modReloc x fun r => { r with dest := vset r.dest die (some rg) })
/-- A copier's work on one object whose entry is 0, from the claim to the forwarding entry (R137), by the Strainer of a party's core or by an engine; a
table that no physical read reaches is sub-cause 0x08 (R135). -/
def State.copyObject (s : State) (by_ : Option Party) (x g : Nat) : Except (Nat × XFail) State :=
  if !s.tableOk (s.hrtAddr x (g / 32768)) || !s.tableOk (s.fwdAddr x g) then .error (s.granVa x g, { sub := 8 })
  else if s.rtHeld (s.hrtAddr x (g / 32768)) || s.rtHeld (s.fwdAddr x g) then .error (s.granVa x g, { sub := 0 })
  else
  let core := s.coreFor by_
  match s.header core x g with
  | .error e => .error e
  | .ok h =>
    match s.heapLocs core x (s.granVa x g) h.size with
    | .error e => .error e
    | .ok old =>
      let n := ceilDiv h.size 64
      match s.toRegion by_ x (g / 32768 % 2) n with
      | .error e => .error e
      | .ok (none, s) => .ok (s.stay x g)
      | .ok (some rg, s) =>
        let ng := 32768 * rg + s.rgTop x rg
        match s.heapLocs core x (s.granVa x ng) h.size with
        | .error e => .error e
        | .ok new =>
          let s0 := (s.strainSpan by_ x (s.granVa x g) h.size .engine).strainSpan by_ x (s.granVa x ng) h.size .engine
          let s1 := (((s0.setRgTop x rg (s.rgTop x rg + n)).snapSpan by_ x (s.granVa x ng) h.size).snapSpan by_ x (s.granVa x g) 16).reachRun x [h.loc, new.headD 0]
          let bad := (old.zip new).filter fun p => s.homePoisoned p.1
          let s2 := s1.homeWrite (new.zip (old.map s.homeRead))
          let s3 := s2.homePoison (bad.map (·.2))
          let s4 := s3.homeWriteN (h.loc + 9) 1 1
          .ok ((s4.setFwd x g (fwdTo ng)).dropSnaps x (s.granVa x ng) (64 * n))
/-- CopyOrWait by a thread: small objects are copied by the Strainer, large ones asked of the engine (R137). -/
def State.copyOrWait (s : State) (p : Party) (x g : Nat) : Except (Nat × XFail) State :=
  if fld (s.fwd x g) 62 2 ≠ 0 then .ok s
  else match s.header (s.coreFor (some p)) x g with
  | .error e => .error e
  | .ok h =>
    if h.size ≤ 4096 then s.copyObject (some p) x g
    else .ok (s.modReloc x fun r => if r.asked.contains g then r else { r with asked := r.asked ++ [g] })

/-! ## The instructions -/

/-- Resolution of one reference in every guarded lane: trap 0x10, a wait, or the results (R135, R238). `vals` are the lanes' references. -/
def State.resolveAll (s : State) (p : Party) (write : Bool) (vals : List (Nat × DWord)) : Res ⊕ List (Nat × DWord) :=
  let x := s.ctxOf p
  let rs := vals.map fun v => (v.1, v.2, s.resolve x write v.2)
  let chk (l : Nat) : Chk :=
    match rs.find? (·.1 == l) with
    | some (_, r, .bad k) => .bad 1 0x10 r (BitVec.ofNat 64 k)
    | some (_, r, .table) => .bad 1 0x0B r 8
    | some (_, _, .copy g) => (match s.header (s.coreFor (some p)) x g with
      | .ok h => if fld (s.fwd x g) 62 2 == 0 && s.homePoisoned h.loc then .bad 2 0x21 (BitVec.ofNat 64 (s.granVa x g)) 0 else .ok 0
      | .error _ => .ok 0)
    | _ => .ok 0
  match allLanes s .read (vals.map (·.1)) chk with
  | .inl r => .inl r
  | .inr _ =>
    let wait : List Nat := rs.filterMap fun r => match r.2.2 with | .flip | .held | .copy _ => some r.1 | _ => none
    if wait.isEmpty then .inr (rs.filterMap fun r => match r.2.2 with | .ok v => some (r.1, v) | _ => none)
    else
      let step (acc : Except (Nat × Nat × XFail) State) (r : Nat × DWord × Rsv) : Except (Nat × Nat × XFail) State :=
        match acc, r.2.2 with
        | .ok s, .copy g => if s.inSteep p then .ok s else (match s.copyOrWait p x g with | .ok s => .ok s | .error e => .error (r.1, e.1, e.2))
        | a, _ => a
      let alike (f : XFail) : List (Nat × Nat) := rs.filterMap fun r => match r.2.2 with
        | .copy g => (match s.copyOrWait p x g with | .error (va, e) => if e.sub = f.sub then some (r.1, va) else none | .ok _ => none)
        | _ => none
      let flip : Bool := rs.any fun r => r.2.2 == .flip
      let mark (s : State) : State := s.modGroup p fun g => { g with run := g.run.map fun r => { r with flip } }
      match rs.foldl step (.ok s) with
      | .error (l, va, f) => .inl (if f.held then .block (mark s) (vals.map fun v => (v.1, .retry)) else
        let more := (alike f).filter (·.1 != l)
        .xfault s .write f (l :: more.map (·.1)) va (some 0) (more.map (·.2)))
      | .ok s => .inl (.block (mark s) (vals.map fun v => (v.1, .retry)))
/-- A changed resolution goes back to the h register that supplied it (R136). -/
def State.writeBackRef (s : State) (p : Party) (o : Operand) (old new : List (Nat × DWord)) : State :=
  new.foldl (fun s v => if laneVal old v.1 = v.2 then s else s.writeOp p v.1 true o v.2) s
/-- A field of an object reached through a resolved reference (R133, R135, R139, R251): the null rule, the header, alignment, bounds, translation. -/
def State.fieldCheck (s : State) (p : Party) (r : DWord) (o : Int) (size : Nat) (a : Acc) : Chk :=
  let t := s.team p.team
  let x := t.id.ctx
  let aux : DWord := BitVec.ofNat 64 (o % 2 ^ 32).toNat
  if Ref.gi r = 0 then (if Ref.ncd r then .ok 0 else .bad 2 0x10 r 4)
  else match s.header (some t.coreNo) x (Ref.gi r) with
  | .error (va, f) => .xfault 5 f va (some 0)
  | .ok h =>
    if s.homePoisoned h.loc then .bad 1 0x21 (BitVec.ofNat 64 (s.granVa x (Ref.gi r))) 0
    else if h.hst = 2 then .bad 1 0x10 r 7
    else if o % size != 0 then .bad 3 0x0C r aux
    else if o < 16 || (h.size : Int) < o + size then .bad 4 0x11 r aux
    else
      let va := s.granVa x (Ref.gi r) + o.toNat
      match s.heapLoc (some t.coreNo) x va a with
      | .error (va, f) => .xfault 5 f va (some 0)
      | .ok (loc, pg) => .ok loc pg
def refsOf (s : State) (p : Party) (lanes : List Nat) (o : Operand) : List (Nat × DWord) := lanes.map fun l => (l, s.readOp p l true o)
/-- The lanes of a list of locations that reach an object. -/
def live (rs : List (Nat × DWord)) (locs : List (Nat × Nat × Page)) : List (Nat × Nat × Page) := locs.filter fun x => Ref.gi (laneVal rs x.1) != 0
def nulls (rs : List (Nat × DWord)) (locs : List (Nat × Nat × Page)) : List (Nat × Nat × Page) := locs.filter fun x => Ref.gi (laneVal rs x.1) == 0
/-- The virtual address of a field of an object. -/
def State.fieldVa (s : State) (p : Party) (r : DWord) (o : Int) : Nat := s.granVa (s.ctxOf p) (Ref.gi r) + o.toNat
/-- The TLBs after the Strainer read the headers of the lanes' objects and the fields were reached (R34). -/
def State.strain (s : State) (p : Party) (rs : List (Nat × DWord)) (o : Int) (a : Acc) : State :=
  let hit := rs.filter fun r => Ref.gi r.2 != 0
  (s.tlbUseAll p (hit.map fun r => s.granVa (s.ctxOf p) (Ref.gi r.2)) .read).tlbUseAll p (hit.map fun r => s.fieldVa p r.2 o) a
/-- An access through the reference in SA: resolution, the checks, the write-back of the reference, then `go` with the references and locations. -/
def State.objectOp (s : State) (i : Instr) (f : MF) (write : Bool) (go : State → Party → List (Nat × DWord) → List (Nat × Nat × Page) → Res) : Outcome :=
  s.issue i fun lanes s =>
    let p := s.cur
    let refs := refsOf s p lanes f.base
    match s.resolveAll p write refs with
    | .inl r => r
    | .inr rs =>
      let size := MF.size f
      match allLanes s (if write then .write else .read) lanes fun l =>
          (if f.op = .add && !write then id else State.hostCheck f (BitVec.ofNat 64 (s.fieldVa p (laneVal rs l) (offOf f.c * size)))) (s.fieldCheck p (laneVal rs l) (offOf f.c * size) size (if write then .write else .read)) with
      | .inl r => r
      | .inr locs => go ((s.writeBackRef p f.base refs rs).strain p rs (offOf f.c * size) (if write then .write else .read)) p rs locs
/-- LDH: zero through a null reference with NCD = 1 (R139, R251). -/
def execLdh (f : MF) (s : State) : Outcome :=
  s.objectOp (.ldh f) f false fun s p rs locs =>
    .done ((s.loadAll p f (live rs locs)).loadDst p f.ty.wide f.dst ((nulls rs locs).map fun x => (x.1, 0, false)))
/-- STH: a Write step at the present copy (R251). -/
def execSth (f : MF) (s : State) : Outcome := s.objectOp (.sth f) f true fun s p rs locs => .done (s.storeAll p f (live rs locs))
/-- ATOMH: an atomic at the present copy, zero through a null reference with NCD = 1 (R139, R251). -/
def execAtomh (f : MF) (s : State) : Outcome :=
  s.objectOp (.atomh f) f true fun s p rs locs =>
    let zero (s : State) : State := s.loadDst p f.ty.wide f.dst ((nulls rs locs).map fun x => (x.1, 0, false))
    match s.atomicOut p f (fun l => BitVec.ofNat 64 (s.fieldVa p (laneVal rs l) (offOf f.c * MF.size f))) (live rs locs) with
    | .done s => .done (zero s)
    | .block s ws => .block (zero s) ws
    | r => r

/-- The slots of LDREF and STREF for the guarded lanes (R248): their locations, with the references of an h base resolved and written back. -/
def State.slots8 (s : State) (p : Party) (f : MF) (lanes : List Nat) (write : Bool) : Res ⊕ (State × List (Nat × DWord) × List (Nat × Nat × Page)) :=
  let a : Acc := if write then .write else .read
  match f.base with
  | .h _ =>
    let refs := refsOf s p lanes f.base
    (match s.resolveAll p write refs with
     | .inl r => .inl r
     | .inr rs =>
       match allLanes s a lanes fun l => s.fieldCheck p (laneVal rs l) (offOf f.c * 8) 8 a with
       | .inl r => .inl r
       | .inr locs => .inr ((s.writeBackRef p f.base refs rs).strain p rs (offOf f.c * 8) a, rs, locs))
  | _ =>
    let one : List (Nat × DWord) := lanes.map fun l => (l, Ref.withGi 0 1)
    if f.ty = .b64 then
      match allLanes s a lanes fun l => s.globalCheck p (MF.gaddr f s p l 8) 8 a with
      | .inl r => .inl r
      | .inr locs => .inr (s.tlbUseAll p (lanes.map fun l => (MF.gaddr f s p l 8).toNat) a, one, locs)
    else
      match allLanes s a lanes fun l => s.spCheck p true (MF.base32 f s p l) (offOf f.c) 8 with
      | .inl r => .inl r
      | .inr locs => .inr (s, one, locs)
/-- The heal of one slot: an atomic of use unpaired at the slot's home, only where it still holds the loaded value; a slot that may not be
written is left alone (R136). -/
def State.heal (s : State) (p : Party) (x : Nat × Nat × Page) (v r : DWord) : State :=
  if r = v || (!isScratch (x.2.1 % keyUnit) && !x.2.2.w) || s.inSteep p then s
  else if BitVec.ofNat 64 (s.homeReadN x.2.1 8) = v then
    ((s.snapFirst (s.ctxOf p) (s.team p.team).id.gen x.2.1 x.2.2)).homeWriteN x.2.1 8 r.toNat
  else s
/-- Whether a heal would compare a poisoned home (R368, R369). -/
def State.healPoison (s : State) (p : Party) (x : Nat × Nat × Page) (v r : DWord) : Bool :=
  r != v && v != 0 && (isScratch (x.2.1 % keyUnit) || x.2.2.w) && !s.inSteep p && s.homesPoisoned x.2.1 8
/-- The slot of a lane as its heal finds the page: what a TLB holds that would fault for a write is walked again first (R36). -/
def State.healSlot (s : State) (p : Party) (va : Nat) (x : Nat × Nat × Page) : Nat × Nat × Page :=
  if isScratch (x.2.1 % keyUnit) then x
  else match s.pageOf (some (s.team p.team).coreNo) (s.ctxOf p) va .write with | .ok pg => (x.1, x.2.1, pg) | .error _ => x
/-- Whether a heal goes to host memory, as an AtomicOp that the host completes (R27, R136). -/
def healOut (x : Nat × Nat × Page) (v r : DWord) : Bool := r != v && v != 0 && x.2.2.w && isHost (x.2.1 % keyUnit)
/-- A heal is an atomic: one on a page with MIG = 1 is a write page fault with sub-cause 0x05 (R32, R136). -/
def healCheck (x : Nat × Nat × Page) (v r : DWord) : Chk :=
  if r != v && v != 0 && !isScratch (x.2.1 % keyUnit) && x.2.2.w && x.2.2.mig then .xfault 7 { sub := 5 } 0 (some 0) else .ok 0
/-- The address of the slot of a lane, for a fault of its heal. -/
def State.slotVa (s : State) (p : Party) (f : MF) (rs : List (Nat × DWord)) (l : Nat) : Nat :=
  match f.base with | .h _ => s.fieldVa p (laneVal rs l) (offOf f.c * 8) | _ => (MF.gaddr f s p l 8).toNat
/-- The value of a slot: at the home for USE quantum (R151, R153). -/
def State.slotValue (s : State) (p : Party) (f : MF) (x : Nat × Nat × Page) : DWord × Bool :=
  if f.use = .quantum then (BitVec.ofNat 64 (s.homeReadN x.2.1 8), s.homesPoisoned x.2.1 8)
  else (BitVec.ofNat 64 (s.seenN p x.1 x.2.1 8), s.seenPoison p x.1 x.2.1 8)
/-- LDREF (R249): the slot's reference resolved with intent read, delivered and healed; a null h base with NCD = 1 reads zero. -/
def execLdref (f : MF) (s : State) : Outcome :=
  s.issue (.ldref f) fun lanes s =>
    let p := s.cur
    match s.slots8 p f lanes false with
    | .inl r => r
    | .inr (s1, rs, locs) =>
      match (live rs locs).filter fun x => (s.slotValue p f x).2 with
      | x :: xs => .trap s 0x21 ((x :: xs).map (·.1)) (BitVec.ofNat 64 (x.2.1 % keyUnit)) 0
      | [] =>
        let vals := (live rs locs).map fun x => (x.1, (s.slotValue p f x).1)
        match s.resolveAll p false vals with
        | .inl r => r
        | .inr out =>
          let slots := (live rs locs).map fun x => s.healSlot p (s.slotVa p f rs x.1) x
          match slots.filter fun x => !s.inSteep p && (healCheck x (laneVal vals x.1) (laneVal out x.1)).rank.isSome with
          | x :: xs => .xfault s .write { sub := 5 } ((x :: xs).map (·.1)) (s.slotVa p f rs x.1) (some 0) (xs.map fun y => s.slotVa p f rs y.1)
          | [] =>
          match slots.filter fun x => s.healPoison p x (laneVal vals x.1) (laneVal out x.1) with
          | x :: xs => .trap s 0x21 ((x :: xs).map (·.1)) (BitVec.ofNat 64 (x.2.1 % keyUnit)) 0
          | [] =>
          let out_ (x : Nat × Nat × Page) : Bool := !s.inSteep p && healOut x (laneVal vals x.1) (laneVal out x.1)
          let s2 := slots.foldl (fun s x => if laneVal vals x.1 = 0 || out_ x then s else s.heal p x (laneVal vals x.1) (laneVal out x.1)) s1
          let away := slots.filter out_
          let s3 := (lanes.filter fun l => !away.any (·.1 == l)).foldl (fun s l => s.writeOp p l true f.dst (laneVal out l)) (s2.countBanks p 8 (slots.map (·.2.1)))
          if away.isEmpty then .done s3
          else .block s3 (away.map fun x => (x.1, .host x.2.1 (BitVec.ofNat 64 (s.slotVa p f rs x.1)) (laneVal vals x.1) (laneVal out x.1)))
/-- STREF (R250): SB resolved with intent read and written back, and stored in one Write step; a null reference as NullRef of its flags. -/
def execStref (f : MF) (s : State) : Outcome :=
  s.issue (.stref f) fun lanes s =>
    let p := s.cur
    match s.slots8 p f lanes true with
    | .inl r => r
    | .inr (s1, rs, locs) =>
      let vals := refsOf s1 p lanes f.data
      match s.resolveAll p false vals with
      | .inl r => r
      | .inr out =>
        let s2 := s1.writeBackRef p f.data vals out
        let put (l : Nat) : DWord := let r := laneVal out l; if Ref.gi r = 0 then Ref.null r else r
        let slots := live rs locs
        let bytes (x : Nat × Nat × Page) : List Nat := (List.range 8).map (x.2.1 + ·)
        .done ((List.range slots.length).foldl (fun s' i =>
          let x := slots.getD i default
          let higher := (slots.drop (i + 1)).flatMap bytes
          let cells := (cellsOf x.2.1 8 (put x.1).toNat).filter fun c => !higher.contains c.1
          let s' := s'.snapFirst (s.ctxOf p) (s.team p.team).id.gen x.2.1 x.2.2
          if cells.isEmpty then s' else s'.bufWrite p x.1 cells) (s2.countBanks p 8 (slots.map (·.2.1))))
/-- REFEQ (R255). -/
def execRefeq (f : MF) (s : State) : Outcome :=
  s.issue (.refeq f) fun lanes s =>
    let p := s.cur
    let a := refsOf s p lanes f.base
    let b := refsOf s p lanes f.data
    match s.resolveAll p false a with
    | .inl r => r
    | .inr ra =>
      match s.resolveAll p false b with
      | .inl r => r
      | .inr rb =>
        let s1 := (s.writeBackRef p f.base a ra).writeBackRef p f.data b rb
        .done (lanes.foldl (fun s l => s.writeOp p l false f.dst (if Ref.gi (laneVal ra l) = Ref.gi (laneVal rb l) then 1 else 0)) s1)

/-- PIN and UNPIN (R141, R254): every lane checked and counted, then one Atomic step at device scope for each. -/
def State.pinOp (s : State) (i : Instr) (f : MF) (up : Bool) : Outcome :=
  s.issue i fun lanes s =>
    let p := s.cur
    let t := s.team p.team
    let x := t.id.ctx
    let refs := refsOf s p lanes f.base
    match s.resolveAll p true refs with
    | .inl r => r
    | .inr rs =>
      let chk (l : Nat) : Chk :=
        let r := laneVal rs l
        if Ref.gi r = 0 then (if Ref.ncd r then .ok 0 else .bad 2 0x10 r 4)
        else match s.header (some t.coreNo) x (Ref.gi r) .write with
        | .error (va, e) => .xfault 5 e va (some 0)
        | .ok h =>
          if s.homePoisoned h.loc then .bad 1 0x21 (BitVec.ofNat 64 (s.granVa x (Ref.gi r))) 0
          else if h.hst = 2 then .bad 1 0x10 r 7
          else if isHost (h.loc % keyUnit) then .xfault 5 { sub := 9 } (s.granVa x (Ref.gi r)) none
          else
            let n := (lanes.filter fun k => k ≤ l && Ref.gi (laneVal rs k) == Ref.gi r).length
            let all := (lanes.filter fun k => Ref.gi (laneVal rs k) == Ref.gi r).length
            if (up && h.pinc = 0 || !up && h.pinc = all) && !s.tableOk (s.hrtAddr x (Ref.gi r / 32768)) then .bad 5 0x0B r 8
            else if up && 255 < h.pinc + n then .bad 6 0x12 r 1 else if !up && h.pinc < n then .bad 6 0x12 r 2 else .ok h.loc h.page
      match allLanes s .write lanes chk with
      | .inl (.trap s 0x12 (l :: ls) a u after) =>
        let same := lanes.filter fun k => (l :: ls).any fun b => Ref.gi (laneVal rs b) == Ref.gi (laneVal rs k)
        .trap s 0x12 same a u after
      | .inl r => r
      | .inr locs =>
        if !s.poolClear p lanes then .stall s
        else
          let one (s : State) (y : Nat × Nat × Page) : State :=
            if Ref.gi (laneVal rs y.1) = 0 then s
            else
              let s := (s.release p y.1 .device).snapFirst x t.id.gen y.2.1 y.2.2
              let c := s.homeReadN (y.2.1 + 8) 1
              let s := s.homeWriteN (y.2.1 + 8) 1 (if up then c + 1 else c - 1)
              let rg := Ref.gi (laneVal rs y.1) / 32768
              let s := if up && c = 0 then s.setHrt0 x rg (setFld (s.hrt0 x rg) 32 16 (s.rgPins x rg + 1))
                else if !up && c = 1 then s.setHrt0 x rg (setFld (s.hrt0 x rg) 32 16 (s.rgPins x rg - 1)) else s
              s.acquire p.team .device
          let s1 := locs.foldl one ((s.writeBackRef p f.base refs rs).tlbUseAll p ((rs.filter fun r => Ref.gi r.2 != 0).map fun r => s.granVa x (Ref.gi r.2)) .write)
          .done (if up then lanes.foldl (fun s l =>
            let g := Ref.gi (laneVal rs l)
            s.writeOp p l true f.dst (if g = 0 then 0 else BitVec.ofNat 64 (s.granVa x g))) s1 else s1)
def execPin (f : MF) (s : State) : Outcome := s.pinOp (.pin f) f true
def execUnpin (f : MF) (s : State) : Outcome := s.pinOp (.unpin f) f false

/-- One allocation (R252): the new reference, zero when no region is free. -/
def State.alloc (s : State) (p : Party) (x size ty : Nat) : Except (Nat × XFail) (DWord × State) :=
  let n := ceilDiv size 64
  let ha := s.creg x .heapAlloc
  let cur := fld ha 0 16
  if s.heapCount x = 0 then .ok (0, s.setCreg x .heapAlloc (setBit ha 31 false))
  else
  let fits : Bool := ha.getLsbD 31 && decide (s.rgTop x cur + n ≤ 32768)
  let region : Except (Nat × XFail) (Option Nat × State) :=
    if fits then .ok (some cur, s)
    else
      let closed : Except (Nat × XFail) State :=
        if ha.getLsbD 31 then (s.filler (some p) x cur).map fun s => s.setRgState x cur 2 else .ok s
      match closed with
      | .error e => .error e
      | .ok s =>
        match s.freeRegion x none with
        | .error e => .error e
        | .ok none => .ok (none, s.setCreg x .heapAlloc (setBit ha 31 false))
        | .ok (some rg) => .ok (some rg, (s.setRgState x rg 1).setCreg x .heapAlloc (BitVec.ofNat 64 (2 ^ 31 + rg)))
  match region with
  | .error e => .error e
  | .ok (none, s) => .ok (0, s)
  | .ok (some rg, s) =>
    let g := 32768 * rg + s.rgTop x rg
    let s := (s.setRgTop x rg (s.rgTop x rg + n)).snapSpan (some p) x (s.granVa x g) (64 * n)
    match s.heapWrite (some p) x (s.granVa x g) (leBytes 4 size ++ leBytes 4 ty ++ leBytes 8 0 ++ List.replicate (size - 16) 0) with
    | .error e => .error e
    | .ok s => .ok (BitVec.ofNat 64 (2 * 2 ^ 62 + s.goodCol x * 2 ^ 60 + g * 64), s.dropSnaps x (s.granVa x g) (64 * n))
/-- NEWOBJ (R252): one allocation for each guarded lane, in ascending order. -/
def execNewobj (f : MF) (s : State) : Outcome :=
  s.issue (.newobj f) fun lanes s =>
    let p := s.cur
    let x := s.ctxOf p
    let size (l : Nat) : Nat := (s.readOp p l false f.base).toNat % 2 ^ 32
    let chk (l : Nat) : Chk :=
      if size l % 8 != 0 || size l < 16 || 2097152 < size l then .bad 1 0x11 0 (BitVec.ofNat 64 (size l))
      else if (List.range (s.heapCount x)).any fun rg => !s.tableOk (s.hrtAddr x rg) then .bad 2 0x0B 0 8 else .ok 0
    match allLanes s .write lanes chk with
    | .inl r => r
    | .inr _ =>
      let step (acc : (State × List (Nat × DWord)) × List (Nat × Nat × XFail)) (l : Nat) : (State × List (Nat × DWord)) × List (Nat × Nat × XFail) :=
        match acc.1.1.alloc p x (size l) (s.readOp p l false f.data).toNat with
        | .error (va, e) => (acc.1, acc.2 ++ [(l, va, e)])
        | .ok (r, s2) => ((s2, acc.1.2 ++ [(l, r)]), acc.2)
      match lanes.foldl step ((s, []), []) with
      | (_, (l, va, e) :: es) =>
        if e.held then .block s (lanes.map fun l => (l, .retry))
        else .xfault s .write e (l :: (es.filter (·.2.2.sub == e.sub)).map (·.1)) va
      | ((s1, out), []) => .done (out.foldl (fun s v => (s.writeOp p v.1 true f.dst v.2).writeOp p v.1 false f.c (if v.2 = 0 then 0 else 1)) s1)

/-! ## Evacuation and the flip (R138, R404) -/

def State.setRelStat (s : State) (x lo len v : Nat) : State := s.setCreg x .relStat (setFld (s.creg x .relStat) lo len v)
/-- Why a start is refused: 1 running, 2 the colour, 3 a listed index. -/
def State.evacRefusal (s : State) (x col : Nat) (list : List Nat) : Option Nat :=
  if (s.creg x .relStat).getLsbD 0 then some 1
  else if 4 ≤ col || col == s.goodCol x then some 2
  else if list.any fun rg => s.heapCount x ≤ rg then some 3 else none
/-- The cores that hold a resident team of a context. -/
def State.coresOf (s : State) (x : Nat) : List Nat := ((s.teams.filter fun t => t.id.ctx == x && t.phase != .saved).map Team.coreNo).eraseDups
/-- FLIP_COMPLETE: EPOCH advances, FLIPBUSY clears, and copying begins. -/
def State.flipDone (s : State) (x : Nat) : State :=
  let c := s.creg x .heapCol
  let s := s.setCreg x .heapCol (setBit (setFld c 32 32 (fld c 32 32 + 1)) 2 false)
  ((s.modReloc x fun r => { r with copying := true, pos := .replicate 2 (0, 0) }).dueOnce (.relocateObject x 0)).dueOnce (.relocateObject x 1)
/-- Stages 1 and 2 of R138 up to the announcement. -/
def State.evacuate (s : State) (x col : Nat) (list : List Nat) : State :=
  let ok (s : State) (rg : Nat) : Bool := s.tableOk (s.hrtAddr x rg) && s.rgState x rg == 2 && s.rgPins x rg == 0
  let s := s.setRelStat x 24 8 0
  let s := s.setRelStat x 16 8 0
  let s := list.foldl (fun s rg => if ok s rg then s.setRgState x rg 3 else s.setRelStat x 24 8 (fld (s.creg x .relStat) 24 8 + 1)) s
  let s := s.setRelStat x 0 1 1
  let s := s.setCreg x .heapCol (setBit (setFld (s.creg x .heapCol) 0 2 col) 2 true)
  let cores := s.coresOf x
  let s := s.modReloc x fun r => { r with listed := list.eraseDups, copying := false, asked := [], acks := cores }
  if cores.isEmpty then s.flipDone x else cores.foldl (fun s c => s.dueOnce (.flipAck x (c / 192) (c % 192))) s
/-- A write of REL_CTL (R138). -/
def State.relCtlWrite (s : State) (x : Nat) (ctl : Word) : State :=
  let s := s.setCreg x .relCtl (BitVec.ofNat 64 (fld ctl 2 10 * 4))
  if !ctl.getLsbD 0 then s
  else
    let base := fld (s.creg x .relList) 9 43 * 512
    let list := (List.range (fld ctl 4 8 + 1)).map fun i => s.readPa 0 (base + 2 * i) 2
    match s.evacRefusal x (fld ctl 2 2) list with
    | some _ => (s.setRelStat x 2 1 1)
    | none => (s.evacuate x (fld ctl 2 2) list)
/-- REL_CTL_START: a write of REL_CTL through the control port or MOVSW (R138). -/
def execRelCtlStart (x : Nat) (ctl : BitVec 32) (s : State) : Outcome := .next (s.relCtlWrite x ctl)

/-- Whether a location lies in the heap of a context. -/
def State.inHeap (s : State) (x loc : Nat) : Bool :=
  (List.range (32 * s.heapCount x)).any fun k =>
    match s.heapLoc none x (s.granVa x 0 + 65536 * k) .read with | .ok (l, _) => l / 65536 == loc / 65536 | .error _ => false
/-- The heap lines of a team's write buffer, behind those of its cluster's outbound queue and merge buffer, reach their homes (R138 step 2,
R140). -/
def State.flushHeap (s0 : State) (x uid : Nat) : State :=
  let cl := (s0.team uid).id.cluster
  let s := ((vget s0.clusters cl).outq.filter fun e => e.locs.any (s0.inHeap x)).foldl (fun s e => s.applyEntry e) s0
  let s := s.modOutq cl (·.filter fun e => !e.locs.any (s.inHeap x))
  let s1 := ((vget s.clusters cl).merge.filter fun e => e.locs.any (s.inHeap x)).foldl (fun s e => s.applyEntry e) s
  let s2 := s1.modMerge cl (·.filter fun e => !e.locs.any (s.inHeap x))
  let hit (e : WEntry) : Bool := e.cells.any fun c => s.inHeap x c.1
  let s3 := (unhomed ((s.team uid).ord.buf.filter hit)).foldl (fun s e => s.homeWrite e.cells) s2
  s3.modTeam uid fun t => t.modOrd fun o => { o with buf := o.buf.filter (!hit ·) }
/-- A thread's h registers settled with intent read; one that faults or must wait is left for its next use. -/
def State.settleThread (s : State) (x : Nat) (t : Thread) : Thread :=
  if t.life ≠ .live then t
  else { t with h := t.h.map fun r => match s.resolve x false r with | .ok v => v | _ => r }
/-- A group at rest: no clause of it is part-way. -/
def Group.atRest (g : Group) : Bool := g.run.isNone
def Team.atRest (t : Team) : Bool := t.groups.all (·.atRest) && t.engines.all (·.atRest)
/-- A group at rest for a flip: at a clause boundary, which is also where one stands that has picked a clause and performed nothing of it, or stalled
on FLIPBUSY (R138). -/
def Group.flipRest (g : Group) : Bool :=
  g.atRest || g.run.any fun r => r.flip || (r.idx == 0 && g.pushed == 0 && (bitsOf r.lanes).all fun l => !(vget g.threads l).atHost)
def Team.flipRest (t : Team) : Bool := t.groups.all (·.flipRest) && t.engines.all (·.flipRest)
/-- FLIP_ACK: a core whose teams of the context are at rest flushes, settles and acknowledges (R138, R404). -/
def execFlipAck (x cluster core : Nat) (s : State) : Outcome :=
  let c := coreNo cluster core
  let mine := s.teams.filter fun t => t.id.ctx == x && t.coreNo == c && t.phase != .saved
  if !s.flipBusy x || !(s.ctx x).reloc.acks.contains c then .next s
  else if mine.any fun t => !t.flipRest || (t.ord.pool.any fun a => s.inHeap x a.loc) || s.flushHeld t.id.uid then .next s
  else
    let ep := fld (s.creg x .heapCol) 32 32 + 1
    let one (s : State) (t : Team) : State :=
      let s := s.flushHeap x t.id.uid
      s.modTeam t.id.uid fun u =>
          { u with groups := u.groups.map fun (g : Group) =>
                     { g with threads := g.threads.map (s.settleThread x), steep := g.steep.map fun st => { st with saved := st.saved.map (s.settleThread x) } }
                   regs := { u.regs with hepoch := BitVec.ofNat 32 ep } }
    let s := mine.foldl one s
    let s := s.modReloc x fun r => { r with acks := r.acks.filter (· != c) }
    .next (if (s.ctx x).reloc.acks.isEmpty then s.flipDone x else s)

/-- Whether any object of a region stays in place, walking its objects by size. -/
def State.anyStays (s : State) (x rg : Nat) : Nat → Nat → Bool
  | 0, _ => false
  | k + 1, g =>
    if s.rgTop x rg ≤ g then false
    else match s.header none x (32768 * rg + g) with
    | .error _ => fld (s.fwd x (32768 * rg + g)) 62 2 == 3 || s.anyStays x rg k (g + 1)
    | .ok h => (h.hst != 2 && fld (s.fwd x (32768 * rg + g)) 62 2 == 3) || s.anyStays x rg k (g + max 1 (ceilDiv h.size 64))
/-- EVACUATION_DONE (R138). -/
def State.evacDone (s : State) (x : Nat) : State :=
  ((s.setRelStat x 0 1 0).setRelStat x 1 1 1).modReloc x fun r => { r with copying := false, listed := [], asked := [] }
/-- A failed translation of an engine at an object: a batch of KIND 5, on which the engine waits (R357); a page with MIG = 1, or the region table,
holds it until it is free (R32, R44). -/
def State.engineFault (s : State) (x die g va : Nat) (f : XFail) : State :=
  if f.held then s
  else match s.writeBatch x (missPages [] [va] f.sub 0 5) {} none {} with
    | none => s
    | some (n, s) => s.modReloc x fun r => { r with batch := vset r.batch die (some n), failed := vset r.failed die (some g) }
/-- One object under R137 for an engine, asked for by a writer or not. -/
def State.engineObject (s : State) (x die g : Nat) : State :=
  match s.copyObject none x g with
  | .ok s => (s.modReloc x fun r => { r with asked := r.asked.filter (· != g) }).dueOnce (.relocateObject x die)
  | .error (va, f) => s.engineFault x die g va f
/-- RELOCATE_OBJECT: the engine of a die takes its next object: one that a writer asked for, else the next of its walk (R137, R138). DESIGN CHOICE
(log entry 20): behind an object that stays because its header does not translate (R357) the next object cannot be found, and the walk of the region ends. -/
def execRelocateObject (x die : Nat) (s : State) : Outcome :=
  let r := (s.ctx x).reloc
  if !r.copying || s.flipBusy x || (vget r.batch die).isSome then .next s
  else match r.asked.find? fun g => g / 32768 % 2 == die with
  | some g =>
    if fld (s.fwd x g) 62 2 ≠ 0 then .next ((s.modReloc x fun r => { r with asked := r.asked.filter (· != g) }).dueOnce (.relocateObject x die))
    else .next (s.engineObject x die g)
  | none =>
    match r.listed.findSome? fun rg => if rg % 2 == die then (s.entryFail x rg).map fun f => (rg, f) else none with
    | some (rg, f) => .next (s.engineFault x die (32768 * rg) (s.granVa x (32768 * rg)) f)
    | none =>
    match r.listed.find? fun rg => rg % 2 == die && s.rgState x rg == 3 with
    | none => .next (if r.listed.any fun rg => s.rgState x rg == 3 then s else s.evacDone x)
    | some rg =>
      let g := if (vget r.pos die).1 = rg then (vget r.pos die).2 else 0
      let at_ (s : State) (n : Nat) : State := s.modReloc x fun r => { r with pos := vset r.pos die (rg, n) }
      if s.rgTop x rg ≤ g then
        let stays := s.anyStays x rg 32768 0
        let s := s.setRgState x rg (if stays then 5 else 4)
        .next ((at_ (if stays then s.setRelStat x 16 8 (fld (s.creg x .relStat) 16 8 + 1) else s) 0).dueOnce (.relocateObject x die))
      else
        match s.header none x (32768 * rg + g) with
        | .error (va, f) =>
          if fld (s.fwd x (32768 * rg + g)) 62 2 = 3 then .next ((at_ s (s.rgTop x rg)).dueOnce (.relocateObject x die))
          else .next (s.engineFault x die (32768 * rg + g) va f)
        | .ok h =>
          if h.hst = 2 ∨ s.fwd x (32768 * rg + g) ≠ 0 then .next ((at_ s (g + max 1 (ceilDiv h.size 64))).dueOnce (.relocateObject x die))
          else .next (s.engineObject x die (32768 * rg + g))

end Sys2Proof.Machine
end

