-- ==== Sys2Proof/Machine/Copy.lean ====
section
/-! DEFINITION. The copy contexts: pushes, chains, acceptance, delivery, completion, skip and abort (R84 to R97, R155, R263 to R266, R385, R386). -/
namespace Sys2Proof.Machine

/-! ## Timelines and uniform instructions -/

def Timeline.settle : Nat → Timeline → Timeline
  | 0, x => x
  | k + 1, x => if x.above.contains (x.done + 1) then Timeline.settle k { x with done := x.done + 1, above := x.above.filter (· != x.done + 1) } else x
/-- Operation `n` completes; the counter reads n once operations 1 to n have (R258). -/
def Timeline.finish (x : Timeline) (n : Nat) : Timeline :=
  if n ≤ x.done then x else Timeline.settle (x.above.length + 1) { x with above := n :: x.above }
def State.finishTl (s : State) (uid tl n : Nat) : State := s.modTeam uid fun t => { t with tl := vmod t.tl tl (·.finish n) }
/-- An engine command's release at issue (R149, R256); the pools of its lanes must be empty (R148). -/
def State.engineRelease (s : State) (p : Party) (lanes : List Nat) : State := s.releaseLanes p lanes .cluster
/-- A uniform instruction acts once, in the lowest lane whose guard holds (R256). -/
def uniform (lanes : List Nat) (s : State) (go : Nat → Res) : Res := match lanes with | [] => .done s | l :: _ => go l

/-! ## Pushes (R263) -/

/-- Whether a context holds 16 pushed records that are not accepted. -/
def CopyCtx.full (c : CopyCtx) : Bool := 16 ≤ (c.recs.filter fun r => !r.accepted && (match r.src with | .pushed _ => true | _ => false)).length
/-- One record pushed by a lane. -/
def State.pushRecord (s : State) (p : Party) (c : Nat) (w : Word) (bs : List Byte) (kind inst : Nat) : Nat × State :=
  let (n, t) := (s.team p.team).number c
  let r : CopyRec := { no := n, w := recOfBytes bs, src := .pushed w, want := some kind, owner := some p, inst }
  (n, s.modTeam p.team fun _ => t.modCopy c fun cc => { cc with recs := cc.recs ++ [r], next := n })
/-- The pushes of the lanes from the first that has none; each waits while the context is full. The release at issue comes once, before the first
(R256); the image is read through ReadValue (R145, R263). -/
def State.pushLanes (p : Party) (all : List Nat) (dst a : Operand) (c kind : Nat) : List Nat → State → Res
  | [], s' => .done (s'.modGroup p fun g => { g with pushed := 0, pix := 0 })
  | l :: ls, s' =>
    if (vget (s'.team p.team).copy c).full || !s'.queueTakes p dst 1 then .stall s'
    else match s'.fetchField p [l] false a with
    | none => .stall s'
    | some (vs, s1) =>
      let w : Word := (laneVal vs l).setWidth 32
      match s1.spRange (s1.team p.team) w (Spw.off w) 64 with
      | .error _ => .stall s'
      | .ok loc =>
        let bs := (List.range 64).map fun i => s1.seenByte p l (loc + i)
        let n := ((s1.team p.team).number c).1
        let k := (s1.group p).pushed
        let inst := if k = 0 then 4 * n + c else (s1.group p).pushInst
        let s2 := if k = 0 then s1.engineRelease p all else s1
        let s3 := ((s2.pushRecord p c w bs kind inst).2.deliverOp p l false dst (BitVec.ofNat 64 (n % 2 ^ 32)))
        let s4 := s3.modGroup p fun g => { (if k = 0 then g.addCount .copy 1 else g) with pushed := k + 1, pushInst := inst }
        State.pushLanes p all dst a c kind ls s4
def State.copyPush (s : State) (i : Instr) (f : EF) (c kind : Nat) : Outcome :=
  s.issue i fun lanes s =>
    let p := s.cur
    let rest := lanes.drop (s.group p).pushed
    match s.fetchField p rest false f.a with
    | none => blockOperand s rest
    | some (vs, s1) =>
      match allLanesAfter s s1 .read rest fun l => s.spCheck p true ((laneVal vs l).setWidth 32) 0 64 with
      | .inl r => r
      | .inr _ => if !s.poolClear p lanes then .stall s else State.pushLanes p lanes f.dst f.a c kind rest s
def execCpy (f : EF) (ctx : BitVec 2) (s : State) : Outcome := s.copyPush (.cpy f ctx) f ctx.toNat 0
def execCpyg (f : EF) (ctx : BitVec 2) (s : State) : Outcome := s.copyPush (.cpyg f ctx) f ctx.toNat 1
def execCpys (f : EF) (ctx : BitVec 2) (s : State) : Outcome := s.copyPush (.cpys f ctx) f ctx.toNat 2
def execCpyw (f : EF) (ctx : BitVec 2) (s : State) : Outcome := s.copyPush (.cpyw f ctx) f ctx.toNat 3
def execCpyx (f : EF) (ctx : BitVec 2) (s : State) : Outcome := s.copyPush (.cpyx f ctx) f ctx.toNat 4
def execColl (f : EF) (ctx : BitVec 2) (s : State) : Outcome := s.copyPush (.coll f ctx) f ctx.toNat 5

/-- A link in NEXT form; an address of all zeros ends the chain, whatever space it names (R84). -/
def nextOf (v : DWord) : DWord := if fld v 6 58 = 0 then 0 else v &&& 0xFFFFFFFFFFFFFFC1
/-- Whether a context walks no chain: its channel register's PTR is 0 (R93, R94). -/
def CopyCtx.idle (c : CopyCtx) : Bool := fld c.chan 6 58 == 0
/-- CHAIN (R94, R264). -/
def execChain (f : EF) (ctx : BitVec 2) (s : State) : Outcome :=
  s.issue (.chain f ctx) fun lanes s => uniform lanes s fun l =>
    let p := s.cur
    let c := vget (s.team p.team).copy ctx.toNat
    match s.fetchField p [l] true f.a with
    | none => blockOperand s lanes
    | some (vs, s1) =>
      let v := laneVal vs l
      if fld v 1 5 ≠ 0 then .trap s1 0x0C [l] v 0
      else if v.getLsbD 0 && fld v 32 32 ≠ 0 then .trap s1 0x0D [l] v 0
      else if !s.poolClear p lanes || (!c.idle && !c.parked) then .stall s
      else .done ((s1.engineRelease p lanes).modTeam p.team fun t => t.modCopy ctx.toNat fun c => { c with chan := nextOf v, parked := false })

/-! ## Fields and ranges of a record -/

/-- This package's rank in a collective group (R385). -/
def State.collRank (s : State) (x g : Nat) : Nat := s.readPa 0 (fld (s.creg x .cgBase) 4 48 * 16 + 16 * g) 8 / 2 ^ 13 % 2 ^ 13
/-- A collective group's table entry (R385): valid, ranks, attempt. -/
def State.collGroup (s : State) (x g : Nat) : Bool × Nat × Nat :=
  let w := BitVec.ofNat 64 (s.readPa 0 (fld (s.creg x .cgBase) 4 48 * 16 + 16 * g) 8)
  (w.getLsbD 31, fld w 0 13 + 1, fld w 32 32)
namespace Rec
def edge (r : Vector DWord 8) : Nat := fld (aux r) 0 2
def chm (r : Vector DWord 8) : Nat := fld (aux r) 2 4
def conv (r : Vector DWord 8) : Nat := fld (aux r) 8 2
def grp (r : Vector DWord 8) : Nat := fld (aux r) 52 12
def op (r : Vector DWord 8) : Nat := fld (aux r) 48 4
def ety (r : Vector DWord 8) : Nat := fld (aux r) 43 5
def attempt (r : Vector DWord 8) : Nat := fld (aux r) 0 32
def etyBytes (r : Vector DWord 8) : Nat := if ety r ≤ 3 then 4 else 2
/-- The word of a record that names its surface. -/
def win (r : Vector DWord 8) : DWord := if kind r = 2 then src r else dst r
def hnd (r : Vector DWord 8) : Nat := fld (win r) 52 12
def layer (r : Vector DWord 8) : Nat := fld (win r) 44 8
def x0 (r : Vector DWord 8) : Int := sfld (win r) 29 15
def y0 (r : Vector DWord 8) : Int := sfld (win r) 14 15
def ww (r : Vector DWord 8) : Nat := fld (win r) 7 7 + 1
def wh (r : Vector DWord 8) : Nat := fld (win r) 0 7 + 1
/-- The texel of a window by its place in the order of R87. -/
def texel (r : Vector DWord 8) (i : Nat) : Int × Int := (x0 r + (i % ww r : Nat), y0 r + (i / ww r : Nat))
def fixedBad (r : Vector DWord 8) : Bool :=
  fld (w r 0) 32 17 != 0 || fld (w r 6) 32 32 != 0 || fld (w r 7) 1 5 != 0 || fld (cnt r) 0 3 != 0 || (csp r == 1 && cnt r != 0 && fld (cnt r) 32 32 != 0)
/-- The fields that R84, R85 and R86 fix without reference to a surface. DESIGN CHOICE (log entry 15): AUX[7:6], which no row of R86's table names, is
a format error where it is not zero; and that CONV 0 goes with CHM 0 and no other, which the surface's format has no part in, is tested here, in check 1
of R88, though check 3 names the two fields. -/
def kindBad (r : Vector DWord 8) : Bool :=
  match kind r with
  | 0 => 2 ≤ ssp r || 2 ≤ dsp r || aux r != 0 || aux2 r != 0
  | 1 => 2 ≤ ssp r || dsp r != 1 || fld (aux r) 0 16 != 0 || rowb r == 0 || fld (aux2 r) 32 32 != 0 || fld (aux2 r) 0 2 != 0
  | 2 => ssp r != 2 || !(dsp r == 1 || dsp r == 3) || len r != 0 || fld (aux r) 10 54 != 0 || fld (aux r) 6 2 != 0 || edge r == 3 ||
         (conv r == 0) != (chm r == 0) || (dsp r == 3 && fld (dst r) 3 61 != 0)
  | 3 => ssp r != 1 || dsp r != 2 || aux r != 0 || aux2 r != 0
  | 4 => 2 ≤ ssp r || 2 ≤ dsp r || (ssp r == 1 && dsp r == 1) || fld (aux r) 0 3 != 0 || aux2 r != 0
  | 5 => ssp r != 0 || dsp r != 0 || 6 ≤ op r || !([1, 2, 3, 8, 9].contains (ety r)) || fld (aux r) 32 11 != 0 || len r % etyBytes r != 0
  | _ => true
end Rec

/-- Bytes that one texel of a window read delivers (R86). -/
def Rec.texBytes (r : Vector DWord 8) (u : Surface) : Nat :=
  if Rec.conv r = 0 then Surf.bytes u else (bitsOf (BitVec.ofNat 4 (Rec.chm r))).length * (if Rec.conv r = 3 then 4 else 2)
/-- Bytes that a record delivers in all. -/
def State.recTotal (s : State) (x : Nat) (r : Vector DWord 8) : Nat :=
  match Rec.kind r with
  | 1 => Rec.len r * Rec.rowb r
  | 2 => (match s.surf? x (Rec.hnd r) with | some u => Rec.ww r * Rec.wh r * Rec.texBytes r u | none => 0)
  | 5 =>
    let ranks := (s.collGroup x (Rec.grp r)).2.1
    if Rec.op r = 2 then Rec.len r * ranks else if Rec.op r = 3 then Rec.len r / ranks else Rec.len r
  | _ => Rec.len r
/-- The location of a completion counter (R84, R90): none for no counter. -/
def State.cntLoc (s : State) (t : Team) (r : Vector DWord 8) : Except (Nat × XFail) (Option Nat) :=
  if Rec.cnt r = 0 then .ok none
  else if Rec.csp r = 1 then (match s.spRange t ((Rec.cnt r).setWidth 32) (fld (Rec.cnt r) 0 18) 8 with | .ok l => .ok (some l) | .error _ => .ok none)
  else (s.engLocs (some t.coreNo) t.id.ctx (Rec.cnt r).toNat 8 .engine).map fun l => l.head?

/-- Whether a scratchpad range of a record is out of bounds: a word, bytes beyond its offset, a length. A range on the local core lies in the
team's own window (R76, R88), one at another place in a window there (R78). A range without bytes is not out of bounds. -/
def State.spBad (s : State) (t : Team) (w : DWord) (o n : Nat) : Bool :=
  let a := fld w 0 18 + o
  n != 0 && ((match s.spRange t (w.setWidth 32) a n with | .ok _ => false | .error _ => true) ||
    fld w 18 10 == 0 && !(decide (t.regs.spBase ≤ a) && decide (a + n ≤ t.regs.spBase + t.regs.spSize)))
/-- Whether a stream cannot take a window read (R87, R121, R122): no reservation, a scaled one, or another element format. -/
def State.streamBad (_ : State) (t : Team) (w : Vector DWord 8) : Bool :=
  let st := vget t.streams (fld (Rec.dst w) 0 3)
  let want := match Rec.conv w with | 1 => some Ty.bf16 | 2 => some Ty.f16 | 3 => some Ty.f32 | _ => Cds.etype st.w0
  !Cds.valid st.w0 || Cds.blk st.w0 != 0 || Cds.etype st.w0 != want
/-- The texel that a window read accesses at a place of its order, and whether it lies outside the surface; none where EDGE 1 delivers zeros (R86). -/
def winAccess (u : Surface) (r : Vector DWord 8) (i : Nat) : Option (Int × Int × Bool) :=
  let (a, b) := Rec.texel r i
  let out : Bool := a < 0 || b < 0 || (Surf.width u : Int) ≤ a || (Surf.height u : Int) ≤ b
  let cl (v : Int) (n : Nat) : Int := min (max v 0) ((n : Int) - 1)
  if !out then some (a, b, false)
  else match Rec.edge r with
  | 0 => some (cl a (Surf.width u), cl b (Surf.height u), false)
  | 1 => none
  | _ => some (a, b, true)
/-- The first check of acceptance that fails: its STATUS, and for a surface fault the sub-cause and the texel (R88). `idx` is the index list. A window
read's layer, or a weight surface that it names, is found before its first byte is delivered (R54, R89). DESIGN CHOICE (log entry 15): a weight
write whose row block lies beyond the surface's last is STATUS 2, as an offset beyond the block is; AUX2[31:18], nonzero in an index list's address
word, makes the list a range out of bounds, STATUS 2, and no format error. -/
def State.recCheck (s : State) (t : Team) (r : CopyRec) (idx : List Nat) : Option (Nat × Nat × Int × Nat) :=
  let w := r.w
  let x := t.id.ctx
  let k := Rec.kind w
  let u? := s.validSurf? x (Rec.hnd w)
  let u := u?.getD default
  let surfKind := k == 2 || k == 3
  let wgt := k == 3 && Surf.weight u
  let nch := (fmtChans (Surf.format u)).length
  let texels := Rec.ww w * Rec.wh w
  let inside (i : Nat) : Bool :=
    let (a, b) := Rec.texel w i
    0 ≤ a && 0 ≤ b && a < Surf.width u && b < Surf.height u && Rec.layer w < Surf.layers u
  let ranks := (s.collGroup x (Rec.grp w)).2.1
  if Rec.fixedBad w || Rec.kindBad w || r.want.any (· != k) ||
      (k == 5 && (!(s.collGroup x (Rec.grp w)).1 || (Rec.op w == 3 && Rec.len w % (Rec.etyBytes w * ranks) != 0))) then some (3, 0, 0, 0)
  else if surfKind && u?.isNone then some (4, 1, Rec.x0 w, (Rec.y0 w % 65536).toNat)
  else if k == 2 && ((Surf.weight u && Rec.conv w != 0) || 2 ^ nch ≤ Rec.chm w || (Surf.format u == 0x0C && Rec.conv w != 0)) then some (3, 0, 0, 0)
  else if k == 3 && !wgt && Rec.len w != texels * Surf.bytes u then some (3, 0, 0, 0)
  else if (Rec.cnt w != 0 && Rec.csp w == 1 && s.spBad t (Rec.cnt w) 0 8) ||
      (Rec.tba w && (fld (Rec.tbar w) 0 4 != 0 || s.spBad t ((Rec.tbar w).setWidth 64) 0 16)) ||
      (k != 1 && Rec.ssp w == 1 && s.spBad t (Rec.src w) 0 (Rec.len w)) ||
      (k == 1 && Rec.ssp w == 1 && idx.any fun i => s.spBad t (Rec.src w) (i * Rec.stride w) (Rec.rowb w)) ||
      (k == 1 && (fld (Rec.aux2 w) 18 14 != 0 || s.spBad t (Rec.aux2 w) 0 (4 * Rec.len w))) ||
      (Rec.dsp w == 1 && s.spBad t (Rec.dst w) 0 (s.recTotal x w)) ||
      (wgt && (Surf.height u / 32 ≤ fld (Rec.dst w) 32 20 || Surf.wblockBytes u < fld (Rec.dst w) 0 32 + Rec.len w)) then some (2, 0, 0, 0)
  else if k == 3 && !wgt && (List.range texels).any (!inside ·) then
    (match (List.range texels).find? (!inside ·) with | some i => some (4, 2, (Rec.texel w i).1, ((Rec.texel w i).2 % 65536).toNat) | none => none)
  else if k == 2 && Rec.dsp w == 3 && s.streamBad t w then some (5, 0, 0, 0)
  else if k == 2 && (Surf.weight u || Surf.layers u ≤ Rec.layer w) then
    (match (List.range texels).findSome? (winAccess u w) with
     | some (a, b, out) => some (4, if out || Surf.layers u ≤ Rec.layer w then 2 else 3, a, (b % 65536).toNat)
     | none => none)
  else none

/-! ## Completion (R89 to R92) -/

/-- The invalid map lines that the 64 bytes of a scratchpad record image touch are filled (R81). -/
def State.fillImage (s : State) (loc : Nat) : State :=
  ((((List.range 64).map (loc + ·)).filterMap s.invalidLine).eraseDups).foldl (fun s i => s.fillLine i.1 i.2.1 i.2.2) s
/-- STATUS recorded where the record came from: w0 in memory, or a completion word (R90, R91). -/
def State.recordStatus (s : State) (uid c : Nat) (r : CopyRec) (status : Nat) : State :=
  let t := s.team uid
  let w0 := setFld (Rec.w r.w 0) 51 4 status
  match r.src with
  | .pushed a => (match s.spRange t a (Spw.off a) 64 with | .ok loc => (s.fillImage loc).homeWriteN loc 8 w0.toNat | .error _ => s)
  | .chain a =>
    let v := (setBit w0 55 false).toNat
    if a.getLsbD 0 then
      (match s.spRange t (setFld (a.setWidth 32) 0 6 0) (fld a 6 12 * 64) 64 with | .ok loc => (s.fillImage loc).homeWriteN loc 8 v | .error _ => s)
    else (match s.engLocs (some t.coreNo) t.id.ctx (fld a 6 58 * 64) 8 .engine with | .ok (loc :: _) => s.homeWriteN loc 8 v | _ => s)
  | .queue => s.modTeam uid fun t => t.modCopy c fun cc => { cc with compq := cc.compq ++ [BitVec.ofNat 32 (r.no % 2 ^ 28 * 16 + status)] }
/-- A record has ended: the copy counter of its instruction falls when every lane has pushed and no record of it is left (R175, R263). -/
def State.recUncount (s : State) (c : Nat) (r : CopyRec) : State :=
  match r.owner with
  | none => s
  | some p =>
    let more := (vget (s.team p.team).copy c).recs.any fun q => q.no != r.no && q.owner == some p && q.inst == r.inst && q.status == 0
    let g := s.group p
    if more || (g.pushed != 0 && g.pushInst == r.inst) then s else s.modGroup p fun g => g.subCount .copy 1
/-- The stream producer that a record is (R121). -/
def recProducer (uid c no : Nat) : Party × Nat := ({ team := uid, mem := .engine (64 + c) }, no)
def State.dropProducer (s : State) (uid c no : Nat) : State :=
  s.modTeam uid fun t => { t with streams := t.streams.map fun (st : Stream) => { st with pend := st.pend.filter fun e => e.1 != some (recProducer uid c no) } }
/-- A record ends with STATUS 1 or 6 and its number completes. -/
def State.recEnd (s : State) (uid c : Nat) (r : CopyRec) (status : Nat) : State :=
  let s := (s.dropProducer uid c r.no).recordStatus uid c r status
  ((s.modTeam uid fun t => t.modCopy c fun cc => { cc with recs := cc.recs.filter (·.no != r.no) }).recUncount c r).finishTl uid c r.no
/-- A record fails: STATUS is recorded, the context stops, and its number waits for SKIP or ABORT (R88, R89, R92, R93). DESIGN CHOICE (log entry
15): what the chunks before the failure, or before an abort, added to the counter stays added (R90: such a record adds nothing more). -/
def State.recFail (s : State) (uid c : Nat) (r : CopyRec) (status sub : Nat) (x : Int) (y : Nat) : State :=
  let s := ((s.dropProducer uid c r.no).recordStatus uid c r status).recUncount c r
  let faddr : DWord := match r.src with | .pushed a => setBit (a.setWidth 64) 0 true | .chain a => a | .queue => 0
  s.modTeam uid fun t => t.modCopy c fun cc =>
    { cc with stopped := true, recno := BitVec.ofNat 32 r.no, fstat := status, faddr, fcnt := if Rec.cnt r.w = 0 then none else some (Rec.cnt r.w),
              fsurf := BitVec.ofNat 64 ((x % 65536).toNat + y % 65536 * 2 ^ 16 + Rec.layer r.w * 2 ^ 32), fsub := sub + Rec.hnd r.w * 256,
              recs := cc.recs.map fun q => if q.no = r.no then { r with accepted := true, status, owner := none } else q }
/-- SKIP (R92): the failed record counts as completed, and acceptance resumes; a chain that stands at it moves on. DESIGN CHOICE (log entry 15): with
two failed records at once, an acceptance failure and an earlier record's delivery fault, SKIP finishes the first in number order and clears the stop. -/
def State.copySkip (s : State) (uid c : Nat) : State :=
  let cc := vget (s.team uid).copy c
  if !cc.stopped || cc.aborting then s
  else match cc.recs.find? (·.status != 0) with
  | none => s.modTeam uid fun t => t.modCopy c fun cc => { cc with stopped := false }
  | some r => (s.modTeam uid fun t => t.modCopy c fun cc => { cc with
      stopped := false, fcnt := none, recs := cc.recs.filter (·.no != r.no), chan := if r.src == .chain cc.chan then nextOf (Rec.w r.w 7) else cc.chan }).finishTl uid c r.no
/-! ## Acceptance (R88, R94) -/

/-- A failed translation of a copy context: a batch of one record of KIND 1 on which the context waits (R357); what the region table holds is tried
again (R44). -/
def State.copyFault (s : State) (uid c va : Nat) (f : XFail) (a : Acc) : State :=
  let t := s.team uid
  let w : Where := { gen := t.id.gen, cluster := t.id.cluster, core := t.id.core, ctxn := c }
  if f.held then s
  else match s.writeBatch t.id.ctx (missPages [] [va] f.sub a.code 1) w none {} with
  | none => s
  | some (n, s) => s.modTeam uid fun t => t.modCopy c fun cc => { cc with batch := some n }
/-- How a chunk of a record goes; a fault comes with what the spills made for it left (R62). -/
inductive Chunk where | go (s : State) (n : Nat) | wait (s : State) | fault (s : State) (va : Nat) (f : XFail) (a : Acc) | surf (s : State) (sub : Nat) (x : Int) (y : Nat)
  deriving Inhabited
/-- Lines of maps that an engine's read would touch while invalid are filled first (R81). -/
def State.fillsFor (s : State) (locs : List Nat) : List (Nat × Nat × Nat) :=
  ((locs.filter isScratch).filterMap s.invalidLine).eraseDups
/-- A copy context's access to scratchpad locations: lines of maps that are invalid are filled first, and a fill that fails translation is the
context's fault (R37, R81). -/
def State.filled (s : State) (locs : List Nat) (go : Chunk) : Chunk :=
  match s.fillsFor locs with
  | [] => go
  | l =>
    let va (i : Nat × Nat × Nat) : Nat := (s.team i.1).lineVa i.2.1 i.2.2
    let at_ (i : Nat × Nat × Nat) : Except XFail (Nat × Page) := s.xlate (some (s.team i.1).coreNo) (s.team i.1).id.ctx (va i) .read
    match l.findSome? fun i => match at_ i with | .error f => some (va i, f) | .ok _ => none with
    | some (va, f) => .fault s va f .read
    | none => .wait (l.foldl (fun s i => s.dueOnce (.mapLineFill i.1 i.2.1 i.2.2)) s)
/-- A step of a copy context after the invalid lines among some locations are filled (R81). -/
def State.afterFill (s : State) (uid c : Nat) (locs : List Nat) (go : State) : State :=
  match s.filled locs (.go s 0) with
  | .wait s => s
  | .fault s va f a => s.copyFault uid c va f a
  | _ => go
/-- The global word 0 of a chain record, where its STATUS is recorded (R90). -/
def CopyRec.statusWord (r : CopyRec) : List Nat := match r.src with | .chain a => if a.getLsbD 0 then [] else [fld a 6 58 * 64] | _ => []
/-- The global words that a record writes beside its data: its counter with a chunk, and at completion its remote counter and its own word 0 (R90). -/
def recWords (r : CopyRec) (complete : Bool) : List Nat :=
  (if Rec.cnt r.w ≠ 0 ∧ Rec.csp r.w = 0 then [(Rec.cnt r.w).toNat] else []) ++
  if complete then
    r.statusWord ++
    (if Rec.kind r.w = 4 ∧ Rec.aux r.w ≠ 0 then [(Rec.aux r.w).toNat] else [])
  else []
/-- The TLBs after a copy context used addresses (R34). -/
def State.copyTouch (s : State) (t : Team) (vas : List (Nat × Acc)) : State := vas.foldl (fun s v => s.tlbTouch t.id.uid t.coreNo t.id.ctx v.1 v.2) s
/-- A copy context before it writes 8-byte words at virtual addresses: a failed translation is its fault, a page under migration holds it, and the
pages are copied first where their launch asks for that (R32, R37, R371). -/
def State.engWords (s : State) (t : Team) (vas : List Nat) : Chunk :=
  let x := t.id.ctx
  let at_ (va : Nat) : Except XFail (Nat × Page) := s.xlate (some t.coreNo) x va .engine
  match vas.findSome? fun va => match at_ va with | .error f => some (va, f) | .ok _ => none with
  | some (va, f) => .fault s va f .engine
  | none =>
    if vas.any fun va => s.engHeld x va 8 then .wait s
    else .go ((vas.foldl (fun (s : State) va => match at_ va with | .ok (loc, pg) => s.snapFirst x t.id.gen loc pg | .error _ => s) s).copyTouch t (vas.map (·, .engine))) 0
/-- A copy context before it writes such words: a page under migration holds it, a failed translation is its fault, and the pages are
copied first where their launch asks for that (R32, R37, R371); an invalid map line that its counter, its barrier or its own image lies in is filled (R81). -/
def State.wordsReady (s : State) (t : Team) (r : CopyRec) (complete : Bool) : Chunk :=
  let vas := recWords r complete
  let image := match r.src with
    | .pushed a => (match s.spRange t a (Spw.off a) 64 with | .ok l => [l, l + 7] | .error _ => [])
    | .chain a => if a.getLsbD 0 then (match s.spRange t (setFld (a.setWidth 32) 0 6 0) (fld a 6 12 * 64) 64 with | .ok l => [l, l + 7] | .error _ => []) else []
    | .queue => []
  let bar := if Rec.tba r.w then (match s.spRange t (Rec.tbar r.w) (Spw.off (Rec.tbar r.w)) 16 with | .ok l => [l, l + 15] | .error _ => []) else []
  let cnt := (if Rec.csp r.w = 1 then (match s.cntLoc t r.w with | .ok (some l) => (List.range 8).map (l + ·) | _ => []) else []) ++
    if complete then image ++ bar else []
  s.filled cnt (s.engWords t vas)
/-- A step that records the STATUS of a record which failed or is aborted, once its word 0 may be written (R32, R90, R371). -/
def State.withStatus (s : State) (uid c : Nat) (r : CopyRec) (go : State → State) : State :=
  match s.engWords (s.team uid) r.statusWord with
  | .go s _ => go s
  | .fault s va f a => s.copyFault uid c va f a
  | .wait s | .surf s _ _ _ => s
/-- A record is aborted with STATUS 6, once its word 0 may be written. DESIGN CHOICE (log entry 15): of a killed team's record whose word 0 does not
translate nothing is recorded, since no replay serves that team. -/
def State.abortRec (s : State) (uid c : Nat) (r : CopyRec) : Chunk :=
  let drop (s : State) : Chunk :=
    .go ((((s.dropProducer uid c r.no).recordStatus uid c r 6).modTeam uid fun t => t.modCopy c fun cc => { cc with recs := cc.recs.filter (·.no != r.no) }).recUncount c r) 0
  match s.engWords (s.team uid) r.statusWord with
  | .go s _ => drop s
  | .fault q va f a => if (s.team uid).killed && !f.held then drop s else .fault q va f a
  | x => x
/-- ABORT (R92): every record not completed gets STATUS 6, the counter moves to the last number given, the chain is dropped. It goes on later where
the word 0 of a record waits or fails its translation. DESIGN CHOICE (log entry 15): a record assembled through the queue register that had failed at
acceptance has a completion word already, and the abort appends its second. -/
def State.copyAbort (s : State) (uid c : Nat) : State :=
  let pend (s : State) : State := s.modTeam uid fun t => t.modCopy c fun cc => { cc with aborting := true }
  match (vget (s.team uid).copy c).recs.foldl (fun (a : Chunk) r => match a with | .go s _ => s.abortRec uid c r | x => x) (.go s 0) with
  | .go s _ => s.modTeam uid fun t =>
      { (t.modCopy c fun cc => { cc with recs := [], stopped := false, parked := false, aborting := false, chan := 0, fcnt := none, batch := none }) with
        tl := vmod t.tl c fun x => { x with done := x.given, above := [] } }
  | .fault s va f a => pend (s.copyFault uid c va f a)
  | .wait s | .surf s _ _ _ => pend s
def execSkip (team ctx : Nat) (s : State) : Outcome := .next (s.copySkip team ctx)
/-- ABORT; it is ignored while the context is not stopped, and always done for a team that is killed (R92, R350). -/
def execAbort (team ctx : Nat) (s : State) : Outcome :=
  .next (if (vget (s.team team).copy ctx).stopped || (s.team team).killed then s.copyAbort team ctx else s)
/-- The addresses of a record that are translated at acceptance (R88, R265). -/
def State.recProbe (s : State) (t : Team) (r : Vector DWord 8) (idx : List Nat) : Option (Nat × XFail × Acc) :=
  let go (va : Nat) (a : Acc) : Option (Nat × XFail × Acc) :=
    match s.xlate (some t.coreNo) t.id.ctx va a with
    | .ok _ => none
    | .error f => some (va, f, a)
  let first := if Rec.kind r = 1 then idx.headD 0 * Rec.stride r else 0
  let none' : Option (Nat × XFail × Acc) := none
  (((if Rec.ssp r = 0 ∧ Rec.len r ≠ 0 then go (((Rec.src r).toNat + first) % 2 ^ 64) .read else none').or
    (if Rec.dsp r = 0 ∧ Rec.len r ≠ 0 then go (Rec.dst r).toNat .engine else none')).or
    (if Rec.cnt r ≠ 0 ∧ Rec.csp r = 0 then go (Rec.cnt r).toNat .engine else none')).or
    (if Rec.kind r = 4 ∧ Rec.aux r ≠ 0 then go (Rec.aux r).toNat .engine else none')
/-- The TLBs after the addresses of an accepted record were translated (R34, R88). -/
def State.recTouch (s : State) (t : Team) (r : Vector DWord 8) : State :=
  s.copyTouch t ((if Rec.ssp r = 0 ∧ Rec.len r ≠ 0 then [((Rec.src r).toNat, .read)] else []) ++ (if Rec.dsp r = 0 ∧ Rec.len r ≠ 0 then [((Rec.dst r).toNat, .engine)] else []) ++
    (if Rec.cnt r ≠ 0 ∧ Rec.csp r = 0 then [((Rec.cnt r).toNat, .engine)] else []) ++ (if Rec.kind r = 4 ∧ Rec.aux r ≠ 0 then [((Rec.aux r).toNat, .engine)] else []))
/-- What acceptance finds of a record (R88): a step that must come first, the STATUS of a failed check with a surface fault's place, another attempt's
collective, or its index list. -/
inductive Acceptance where | wait (s : State) | fail (status sub : Nat) (x : Int) (y : Nat) | aborted | ok (idx : List Nat)
  deriving Inhabited
/-- The checks of acceptance, in order (R88, R266). -/
def State.acceptTest (s : State) (uid c : Nat) (r : CopyRec) : Acceptance :=
  let t := s.team uid
  let k := Rec.kind r.w
  let list : List Nat :=
    if k ≠ 1 ∨ Rec.len r.w = 0 then []
    else match s.spRange t ((Rec.aux2 r.w).setWidth 32) (fld (Rec.aux2 r.w) 0 18) (4 * Rec.len r.w) with
    | .ok loc => (List.range (4 * Rec.len r.w)).map (loc + ·)
    | .error _ => []
  let bytes := list.map (s.overlay t.id.cluster)
  let idx : List Nat := (List.range (bytes.length / 4)).map fun i => ofLe ((bytes.drop (4 * i)).take 4)
  match s.filled list (.go s 0) with
  | .wait s => .wait s
  | .fault s va f a => .wait (s.copyFault uid c va f a)
  | _ =>
    match s.recCheck t r idx with
    | some (st, sub, x, y) => .fail st sub x y
    | none =>
      if k = 5 ∧ Rec.attempt r.w ≠ (s.collGroup t.id.ctx (Rec.grp r.w)).2.2 then .aborted
      else match s.recProbe t r.w idx with
      | some (va, f, a) => .wait (s.copyFault uid c va f a)
      | none => .ok idx
/-- A numbered record is accepted, or fails (R88). A collective record of another attempt completes with STATUS 6 (R266). -/
def State.acceptRec (s : State) (uid c : Nat) (r : CopyRec) : State :=
  match s.acceptTest uid c r with
  | .wait s => s
  | .fail st sub x y => s.withStatus uid c r fun s => s.recFail uid c r st sub x y
  | .aborted => s.withStatus uid c r fun s => s.recEnd uid c r 6
  | .ok idx => (s.recTouch (s.team uid) r.w).modTeam uid fun t => t.modCopy c fun cc =>
      { cc with recs := cc.recs.map fun q => if q.no = r.no then { r with accepted := true, idx } else q }
/-- Whether a context accepts records: not stopped, not waiting on a batch, its team running and its context not being stopped (R88, R92, R96). -/
def State.copyOpen (s : State) (uid c : Nat) : Bool :=
  match s.team? uid with
  | none => false
  | some t => t.phase != .saved && !(s.ctx t.id.ctx).stopping && !(vget t.copy c).stopped && (vget t.copy c).batch.isNone
/-- The location of a chain record, by its NEXT form. -/
def State.chainLoc (s : State) (t : Team) (a : DWord) : Except (Option (Nat × XFail)) Nat :=
  if a.getLsbD 0 then (match s.spRange t (setFld (a.setWidth 32) 0 6 0) (fld a 6 12 * 64) 64 with | .ok l => .ok l | .error _ => .error none)
  else match s.xlate (some t.coreNo) t.id.ctx (fld a 6 58 * 64) .read with | .ok (l, _) => .ok l | .error f => .error (some (fld a 6 58 * 64, f))
/-- The next chain record read and accepted, or parked at (R94); it takes its number when it is accepted, and then the channel register moves to NEXT. A
record whose scratchpad range is out of bounds fails with STATUS 2. -/
def State.acceptChain (s : State) (uid c : Nat) : State :=
  let t := s.team uid
  let a := (vget t.copy c).chan
  let add (s : State) (w : Vector DWord 8) : CopyRec × State :=
    let (n, t) := (s.team uid).number c
    let r : CopyRec := { no := n, w, src := .chain a }
    (r, s.modTeam uid fun _ => t.modCopy c fun cc => { cc with recs := cc.recs ++ [r], next := n, parked := false })
  match s.chainLoc t a with
  | .error (some (va, f)) => s.copyFault uid c va f .read
  | .error none => (fun (x : CopyRec × State) => (x.2.recFail uid c x.1 2 0 0 0)) (add s (.replicate 8 0))
  | .ok loc =>
    let w := recOfBytes ((List.range 64).map fun i => s.overlay t.id.cluster (loc + i))
    s.afterFill uid c ((List.range 64).map (loc + ·)) <|
    if !Rec.own w then s.modTeam uid fun t => t.modCopy c fun cc => { cc with parked := true }
    else
      let r := (add s w).1
      let go (s : State) (f : State → State) : State := f ((if a.getLsbD 0 then s else s.copyTouch t [(fld a 6 58 * 64, .read)]) |> fun s => (add s w).2)
      let next (s : State) : State := s.modTeam uid fun t => t.modCopy c fun cc => { cc with chan := nextOf (Rec.w w 7) }
      match s.acceptTest uid c r with
      | .wait s => s
      | .fail st sub x y => s.withStatus uid c r fun s => go s fun s => s.recFail uid c r st sub x y
      | .aborted => s.withStatus uid c r fun s => next (go s fun s => s.recEnd uid c r 6)
      | .ok _ => next (go s fun s => s.acceptRec uid c r)
/-- RECORD_ACCEPT: the next record in number order, a pushed one before the chain's next; a record assembled through a queue register waits
while the completion queue is full (R88, R91). DESIGN CHOICE (log entry 15): only acceptance waits for the queue, which records accepted before may
fill beyond 16 words; and a pushed record with a later number waits behind the record that waits for it. -/
def execRecordAccept (team ctx : Nat) (s : State) : Outcome :=
  let cc := vget (s.team team).copy ctx
  if !s.copyOpen team ctx then .next s
  else match cc.recs.find? (fun r => !r.accepted) with
  | some r => if r.src = .queue ∧ 16 ≤ cc.compq.length then .next s else .next (s.acceptRec team ctx r)
  | none => if cc.idle || cc.parked then .next s else .next (s.acceptChain team ctx)
/-- CHAIN_RECORD_POLL: a parked context reads its record again (R94). -/
def execChainRecordPoll (team ctx : Nat) (s : State) : Outcome :=
  let cc := vget (s.team team).copy ctx
  if !s.copyOpen team ctx || !cc.parked || cc.recs.any (fun r => !r.accepted) then .next s
  else .next ((s.modTeam team fun t => t.modCopy ctx fun cc => { cc with parked := false }).acceptChain team ctx)

/-! ## Delivery (R85 to R87, R90, R155) -/

/-- Channel `c` of a texel's bytes as an exact value (R86). -/
def chanValue (f : Nat) (texel : List Byte) (c : Nat) : FVal :=
  let w := (fmtChans f).getD c 0
  let v := ofLe texel / 2 ^ ((fmtChans f).take c).sum % 2 ^ w
  match fmtKind f with
  | .norm => ((ofInt v).div (ofInt (2 ^ w - 1))).1
  | .fp16 => f16F.decode v
  | .bf16 => bf16F.decode v
  | .fp32 => f32F.decode v
  | .depth => if c = 0 then f32F.decode v else ofInt v
  | _ => ofInt v
/-- A texel's bytes and whether they are poisoned. -/
def State.texelBytes (s : State) (x : Nat) (u : Surface) (layer px py : Nat) : List Byte × Bool :=
  let loc := texelLoc x u.handle layer px py 0
  ((List.range (Surf.bytes u)).map fun i => s.texelRead (loc + i), (List.range (Surf.bytes u)).any fun i => s.homePoisoned (loc + i))
/-- A texel's bytes as an engine of a cluster reads them, the overlay values (R155), and whether its home is poisoned. -/
def State.seenTexel (s : State) (cluster x : Nat) (u : Surface) (layer px py : Nat) : List Byte × Bool :=
  let loc := texelLoc x u.handle layer px py 0
  ((List.range (Surf.bytes u)).map fun i => s.overlay cluster (loc + i), (List.range (Surf.bytes u)).any fun i => s.homePoisoned (loc + i))
/-- The bytes that texel `i` of a window read delivers (R87). -/
def State.winTexel (s : State) (cluster x : Nat) (u : Surface) (r : Vector DWord 8) (i : Nat) : List (Byte × Bool) :=
  let (a, b) := Rec.texel r i
  let out := a < 0 || b < 0 || (Surf.width u : Int) ≤ a || (Surf.height u : Int) ≤ b
  let cl (v : Int) (n : Nat) : Nat := (min (max v 0) ((n : Int) - 1)).toNat
  let (bs, p) := if out && Rec.edge r == 1 then (List.replicate (Surf.bytes u) 0, false) else s.seenTexel cluster x u (Rec.layer r) (cl a (Surf.width u)) (cl b (Surf.height u))
  let conv (c : Nat) : List Byte :=
    let v := if out && Rec.edge r == 1 then ofInt 0 else chanValue (Surf.format u) bs c
    match Rec.conv r with
    | 1 => leBytes 2 (bf16F.round .rn v).1
    | 2 => leBytes 2 (f16F.round .rn v).1
    | _ => leBytes 4 (f32F.round .rn v).1
  let all := if Rec.conv r = 0 then bs else (bitsOf (BitVec.ofNat 4 (Rec.chm r))).flatMap conv
  all.map fun v => (v, p)
/-- The surface touched on the sides that the texels of a window read lie on (R60). -/
def State.touchWin (s : State) (x : Nat) (u : Surface) (r : Vector DWord 8) (ix : List Nat) : State :=
  let cl (v : Int) (n : Nat) : Nat := (min (max v 0) ((n : Int) - 1)).toNat
  let side (i : Nat) : Option Nat :=
    let (a, b) := Rec.texel r i
    if Rec.edge r == 1 && (a < 0 || b < 0 || (Surf.width u : Int) ≤ a || (Surf.height u : Int) ≤ b) then none
    else some (Surf.place u (cl a (Surf.width u)) (cl b (Surf.height u)) (Rec.layer r)).1
  ((ix.filterMap side).eraseDups).foldl (fun (s : State) n => s.touch x u.handle n) s
/-- The locations of bytes `lo` to `lo + n - 1` of a range in global or scratchpad space. -/
def State.rangeLocs (s : State) (t : Team) (sp : Nat) (addr : DWord) (at_ : Nat → Nat) (lo n : Nat) (a : Acc) : Except (Nat × XFail) (List Nat) :=
  if sp = 1 then
    let c := Spw.target t.id.core (addr.setWidth 32)
    .ok ((List.range n).map fun i => scratchLoc t.id.cluster c (fld addr 0 18 + at_ (lo + i)))
  else (List.range n).mapM fun i =>
    let va := (addr.toNat + at_ (lo + i)) % 2 ^ 64
    match s.xlate (some t.coreNo) t.id.ctx va a with
    | .ok (loc, _) => .ok loc
    | .error f => .error (va, f)
/-- Where byte `k` of a record's data lies from SRC: contiguous, or in the rows of a gather (R85). -/
def srcAt (r : CopyRec) (k : Nat) : Nat :=
  if Rec.kind r.w = 1 then (r.idx.getD (k / Rec.rowb r.w) 0) * Rec.stride r.w + k % Rec.rowb r.w else k
/-- The tiles that texels of a window need, made resident (R56, R62), and the refills counted for the team (R303); `clear` says that a clear tile
needs its frame too. Without a frame the fault is at the first texel that needs one (R54). -/
def State.winTiles (s : State) (t : Team) (u : Surface) (r : Vector DWord 8) (ix : List Nat) (clear : Bool) : Chunk :=
  let x := t.id.ctx
  ix.foldl (fun c i => match c, winAccess u r i with
    | .go s n, some (a, b, false) =>
      let tile := (Surf.place u a.toNat b.toNat (Rec.layer r)).2.2.1
      let st := Surf.tile ((s.surf? x u.handle).getD u) tile
      if st = 0 ∨ (st = 2 ∧ !clear) then .go s n
      else (match s.makeResident x u.handle tile with
        | .ok s => .go (if st = 2 then s else s.perfAdd t.id.uid 10 1) n | .hold s => .wait s | .fault s f va => .fault s va f .engine
        | .noFrame s => .surf s 4 a (b % 65536).toNat)
    | c, _ => c) (.go s 0)
/-- A uniform instruction's answer to checks made over many places. -/
def Res.at (r : Res) (l : Nat) (lanes : List Nat) : Res :=
  match r with
  | .trap s c _ a u after => .trap s c [l] a u after
  | .xfault s a f _ va d m => .xfault s a f [l] va d m
  | .block s _ => .block s (lanes.map fun l => (l, .retry))
  | r => r
/-- The fills of invalid map lines that an access to scratchpad locations needs: the first that fails translation, else a wait for them (R81, R240). -/
def State.fillChk (s : State) (rank : Nat) (locs : List Nat) : Chk :=
  match s.filled locs (.go s 0) with
  | .fault _ va f _ => .xfault rank f va (some 2)
  | .wait _ => (match s.fillsFor locs with | i :: _ => .wait (.mapLineFill i.1 i.2.1 i.2.2) | [] => .ok 0)
  | _ => .ok (locs.headD 0)
/-- A scratchpad address word used as an operand: checked as LDSR of `n` bytes (R240, R256). -/
def State.ldsrRange (s : State) (t : Team) (rank : Nat) (w : Word) (n align : Nat) : Chk :=
  let here : DWord := BitVec.ofNat 64 (Spw.off w)
  if Spw.bad t.id.core w then .bad rank 0x13 (w.setWidth 64) (Spw.aux w)
  else if Spw.off w % align != 0 then .bad (rank + 1) 0x0C here 0
  else match s.spRange t w (Spw.off w) n with
  | .error _ => .bad (rank + 2) 0x0D here 0
  | .ok loc => s.fillChk (rank + 3) ((List.range n).map (loc + ·))
/-- The location that a good scratchpad address word of a team names. -/
def Team.spLoc (t : Team) (w : Word) : Nat := scratchLoc t.id.cluster (Spw.target t.id.core w) (Spw.off w)
/-- The data of bytes `lo` to `lo + n - 1` of a record. -/
def State.recData (s : State) (t : Team) (r : CopyRec) (lo n : Nat) : Except (Nat × XFail) (List (Byte × Bool)) :=
  if Rec.kind r.w = 2 then
    let u := (s.surf? t.id.ctx (Rec.hnd r.w)).getD default
    let e := max 1 (Rec.texBytes r.w u)
    .ok ((((List.range ((lo + n + e - 1) / e - lo / e)).flatMap fun i => s.winTexel t.id.cluster t.id.ctx u r.w (lo / e + i)).drop (lo % e)).take n)
  else (s.rangeLocs t (Rec.ssp r.w) (Rec.src r.w) (srcAt r) lo n .read).map fun l => l.map fun loc => (s.overlay t.id.cluster loc, s.homePoisoned loc)
/-- Bytes written at homes by an engine, with their poison. -/
def State.engPut (s : State) (cells : List (Nat × Byte × Bool)) : State :=
  (s.homeWrite (cells.map fun c => (c.1, c.2.1))).homePoison ((cells.filter fun c => c.2.2).map (·.1))
/-- The page copies that an engine's writes ask for (R371). -/
def State.snapRange (s : State) (t : Team) (locs : List Nat) (vas : List Nat) : State :=
  ((locs.zip vas).filter fun c => c.1 % 65536 < 1 || c == (locs.headD 0, vas.headD 0)).foldl (fun s c =>
    match s.xlate none t.id.ctx c.2 .engine (raw := false) with | .ok (loc, pg) => s.snapFirst t.id.ctx t.id.gen loc pg | .error _ => s) s
/-- The first and the last of every run of consecutive numbers. -/
def runEnds : Option Nat → List Nat → List Nat
  | _, [] => []
  | prev, v :: l => if prev.map (· + 1) == some v && l.head? == some (v + 1) then runEnds (some v) l else v :: runEnds (some v) l
/-- The TLBs after a chunk of a record: each page entered is translated again, by whatever row of a gather (R34, R88). -/
def State.chunkTouch (s : State) (t : Team) (r : CopyRec) (lo n : Nat) : State :=
  let run (base : DWord) (f : Nat → Nat) (x : Acc) : List (Nat × Acc) :=
    (runEnds none ((List.range n).map fun i => f (lo + i))).map fun k => ((base.toNat + k) % 2 ^ 64, x)
  let s := s.noteLost t.id.ctx t.id.gen (match s.rangeLocs t (Rec.ssp r.w) (Rec.src r.w) (srcAt r) lo n .read with | .ok l => l | .error _ => [])
  s.copyTouch t ((if Rec.ssp r.w = 0 then run (Rec.src r.w) (srcAt r) .read else []) ++ (if Rec.dsp r.w = 0 then run (Rec.dst r.w) id .engine else []))
/-- One chunk of a record that writes memory: the bytes read from the overlay, then written at their homes. -/
def State.chunk (s : State) (t : Team) (r : CopyRec) (lo n : Nat) : Chunk :=
  let x := t.id.ctx
  let u := (s.surf? x (Rec.hnd r.w)).getD default
  let per := max 1 (if Rec.kind r.w = 2 then Rec.texBytes r.w u else Surf.bytes u)
  let ix := (List.range ((lo + n + per - 1) / per - lo / per)).map (lo / per + ·)
  let inside (i : Nat) : Bool :=
    let (a, b) := Rec.texel r.w i
    0 ≤ a && 0 ≤ b && a < Surf.width u && b < Surf.height u
  let texelDst := Rec.dsp r.w == 2 && !Surf.weight u
  let prep : Chunk :=
    if Rec.kind r.w = 2 then
      match ix.find? (!inside ·) with
      | some i => if Rec.edge r.w = 2 then .surf s 2 (Rec.texel r.w i).1 ((Rec.texel r.w i).2 % 65536).toNat else s.winTiles t u r.w ix false
      | none => s.winTiles t u r.w ix false
    else if texelDst then s.winTiles t u r.w ix true else .go s 0
  match prep with
  | .go s _ =>
    let s := if Rec.kind r.w = 2 then s.touchWin x u r.w ix else s
    let srcLocs := if Rec.ssp r.w = 2 then .ok [] else s.rangeLocs t (Rec.ssp r.w) (Rec.src r.w) (srcAt r) lo n .read
    (match srcLocs with
     | .error (va, f) => .fault s va f .read
     | .ok sl =>
       s.filled sl <|
         match s.recData t r lo n with
         | .error (va, f) => .fault s va f .read
         | .ok data =>
           if Rec.dsp r.w = 2 && Surf.weight u then
             let b := fld (Rec.dst r.w) 32 20
             let off := b / 2 * Surf.wblockBytes u + fld (Rec.dst r.w) 0 32 + lo
             let cells := (List.range n).filterMap fun i => (s.surfKey x u (b % 2) (off + i)).map fun k => (k, data.getD i (0, false))
             let s := s.touch x u.handle (b % 2)
             let s1 : State := { s with mem := cells.foldl (fun (m : Memory) c => m.write c.1 c.2.1) s.mem }
             .go ((cells.filter fun c => c.2.2).foldl (fun s c => s.poisonKey c.1) (s1.cleanKeys ((cells.filter fun c => !c.2.2).map (·.1)))) n
           else if texelDst then
             let e := Surf.bytes u
             let locs := (List.range n).map fun i =>
               let (a, b2) := Rec.texel r.w ((lo + i) / e)
               texelLoc x u.handle (Rec.layer r.w) a.toNat b2.toNat ((lo + i) % e)
             .go ((s.touchLocs locs).engPut (locs.zip data)) n
           else match s.rangeLocs t (Rec.dsp r.w) (Rec.dst r.w) id lo n .engine with
           | .error (va, f) => .fault s va f .engine
           | .ok dl =>
             let va0 := (Rec.dst r.w).toNat + lo
             s.filled dl <| if Rec.dsp r.w = 0 && s.engHeld x va0 n then .wait s
             else
               let s := if Rec.dsp r.w = 0 then s.snapRange t dl ((List.range n).map (va0 + ·)) else s
               .go (s.engPut (dl.zip data)) n)
  | c => c
/-- An addition to a counter's home: a poisoned word is consumed, by the launch of the record (R368, R369). -/
def State.countAt (s : State) (id : TeamId) (loc n : Nat) : State :=
  if s.homesPoisoned loc 8 then s.poisonHit id.ctx id.gen [loc] else (s.homeAtomic .add .b64 loc (BitVec.ofNat 64 n) 0).2
/-- The counter addition of a chunk (R90): an atomic add at the counter's home. -/
def State.addCnt (s : State) (uid : Nat) (r : CopyRec) (n : Nat) : State :=
  match s.cntLoc (s.team uid) r.w with
  | .ok (some loc) => s.countAt (s.team uid).id loc n
  | _ => s
def State.modRec (s : State) (uid c no : Nat) (f : CopyRec → CopyRec) : State :=
  s.modTeam uid fun t => t.modCopy c fun cc => { cc with recs := cc.recs.map fun r => if r.no = no then f r else r }

/-! ## Collectives (R265, R266) -/

/-- The format of a float element type. -/
def etyFmt (ety : Nat) : Option FFmt := match ety with | 3 => some f32F | 8 => some f16F | 9 => some bf16F | _ => none
/-- The sum of elements in rank order: integers wrap; floats are taken exactly, summed in FP32, and rounded once to the element type. -/
def collAdd (ety : Nat) (vs : List Nat) : Nat :=
  match etyFmt ety, vs with
  | some g, v :: vs => (g.round .rn (f32v (vs.foldl (fun a x => f32add a (f32r (g.decode x))) (f32r (g.decode v))))).1
  | _, vs => vs.sum % 2 ^ 32
/-- The greatest of elements: signed, unsigned, or the maximumNumber of floats (R225). -/
def collMax (ety : Nat) : List Nat → Nat
  | [] => 0
  | v :: vs => vs.foldl (fun a x =>
      match etyFmt ety with
      | some g => (g.round .rn (fminVal false true (g.decode a) (g.decode x))).1
      | none => if ety = 1 then (if (BitVec.ofNat 32 a).toInt ≤ (BitVec.ofNat 32 x).toInt then x else a) else max a x) v
/-- Where the destination byte `i` of a collective comes from: rank and byte of its contribution, for each rank that takes part in it; none for the
bytes of an all-to-all beyond the last whole block, of which the spec says nothing. -/
def Rec.collSrc (r : Vector DWord 8) (ranks me i : Nat) : List (Nat × Nat) :=
  let n := Rec.len r
  let b := n / ranks
  match Rec.op r with
  | 0 | 1 => (List.range ranks).map (·, i)
  | 2 => [(i / n, i % n)]
  | 3 => (List.range ranks).map (·, me * b + i)
  | 4 => [(0, i)]
  | _ => if b * ranks ≤ i then [] else [(i / b, me * b + i % b)]
/-- A byte of a rank's contribution: this package's own read from SRC, another's from its packets; none while it has not come. -/
def State.contribution (s : State) (t : Team) (r : Vector DWord 8) (k : Nat × Nat) : Except (Nat × XFail) (Option (Byte × Bool)) :=
  let x := t.id.ctx
  if k.1 = s.collRank x (Rec.grp r) then
    (s.rangeLocs t 0 (Rec.src r) id k.2 1 .read).map fun l => l.head?.map fun loc => (s.overlay t.id.cluster loc, s.homePoisoned loc)
  else
    .ok (((s.ctx x).packets.find? fun q => q.grp == Rec.grp r && q.attempt == Rec.attempt r && q.seq == (Rec.aux2 r).toNat && q.rank == k.1 && q.addr == k.2 / 4 * 4).map
      fun q => (BitVec.ofNat 8 (q.v.toNat >>> (8 * (k.2 % 4))), false))
/-- The destination element of a collective at byte `i`, `e` bytes: none while a contribution to it has not come. -/
def State.collElem (s : State) (t : Team) (r : Vector DWord 8) (e i : Nat) : Except (Nat × XFail) (Option (List (Byte × Bool))) :=
  let src := Rec.collSrc r (s.collGroup t.id.ctx (Rec.grp r)).2.1 (s.collRank t.id.ctx (Rec.grp r)) i
  match src.mapM fun k => (List.range e).mapM fun j => s.contribution t r (k.1, k.2 + j) with
  | .error e => .error e
  | .ok parts =>
    .ok (if parts.any fun p => p.any (·.isNone) then none
    else
      let vs : List (List (Byte × Bool)) := parts.map fun p => p.filterMap id
      let bad := vs.any fun v => v.any (·.2)
      let ns := vs.map fun v => ofLe (v.map (·.1))
      let v : Nat := match vs with
        | [] => (Config.freeValue s.freeCtr).toNat
        | _ => if Rec.op r = 0 ∨ Rec.op r = 3 then collAdd (Rec.ety r) ns else if Rec.op r = 1 then collMax (Rec.ety r) ns else ns.headD 0
      some ((leBytes e v).map (·, bad)))
/-- The bytes `lo` to `lo + n - 1` of a collective's destination. -/
def State.collBytes (s : State) (t : Team) (r : Vector DWord 8) (lo n : Nat) : Except (Nat × XFail) (Option (List (Byte × Bool))) :=
  let e := if Rec.op r = 0 ∨ Rec.op r = 1 ∨ Rec.op r = 3 then Rec.etyBytes r else 1
  match (List.range (n / e)).mapM fun i => s.collElem t r e (lo + i * e) with
  | .error e => .error e
  | .ok l => .ok (if l.any (·.isNone) then none else some ((l.filterMap id).flatten))

/-- The bytes of its own contribution that a rank reads for bytes `lo` to `lo + n - 1` of a collective's destination. -/
def State.collOwn (s : State) (t : Team) (r : Vector DWord 8) (lo n : Nat) : List Nat :=
  let me := s.collRank t.id.ctx (Rec.grp r)
  (List.range n).flatMap fun i => ((Rec.collSrc r (s.collGroup t.id.ctx (Rec.grp r)).2.1 me (lo + i)).filter (·.1 == me)).map (·.2)
/-- The elements of an aborted collective's destination hold undefined values, once they may be written (R266). -/
def State.undefine (s : State) (t : Team) (r : CopyRec) : Chunk :=
  let n := s.recTotal t.id.ctx r.w / 4 * 4
  let va := (Rec.dst r.w).toNat
  match s.rangeLocs t 0 (Rec.dst r.w) id 0 n .engine with
  | .error (va, f) => .fault s va f .engine
  | .ok locs =>
    if s.engHeld t.id.ctx va n then .wait s
    else .go ((List.range (n / 4)).foldl (fun s i => (fun (x : DWord × State) => x.2.homeWriteN (locs.getD (4 * i) 0) 4 (x.1.toNat % 2 ^ 32)) s.fresh)
      (s.snapRange t locs ((List.range n).map (va + ·)))) 0
/-- Whether the group of a collective record has gone on to another attempt (R266). -/
def State.stale (s : State) (t : Team) (r : CopyRec) : Bool :=
  Rec.kind r.w == 5 && r.accepted && r.status == 0 && decide (Rec.attempt r.w < (s.collGroup t.id.ctx (Rec.grp r.w)).2.2)
/-- A running collective record of an older attempt completes with STATUS 6, its destination undefined (R266). -/
def State.endStale (s : State) (uid c : Nat) (r : CopyRec) : State :=
  match s.engWords (s.team uid) r.statusWord with
  | .go s _ => (match s.undefine (s.team uid) r with
    | .go s _ => s.recEnd uid c r 6
    | .fault s va f a => s.copyFault uid c va f a
    | .wait s | .surf s _ _ _ => s)
  | .fault s va f a => s.copyFault uid c va f a
  | .wait s | .surf s _ _ _ => s

/-- RECORD_CHUNK_DELIVERED: the next chunk of at most 4 KiB of a record reaches its homes, or its stream, and its bytes are added to the
counter (R87, R90, R121). A collective's chunk waits for the contributions of the other ranks (R265). -/
def execRecordChunkDelivered (team ctx recno : Nat) (s : State) : Outcome :=
  let t := s.team team
  let cc := vget t.copy ctx
  match cc.recs.find? (·.no == recno) with
  | none => .next s
  | some r =>
    let total := s.recTotal t.id.ctx r.w
    let n := min 4096 (total - r.delivered)
    if !r.accepted || r.status != 0 || cc.batch.isSome || cc.aborting || (s.team? team).isNone then .next s
    else if s.stale t r then .next (s.endStale team ctx r)
    else if n == 0 then .next s
    else match s.wordsReady t r false with
    | .wait s => .next s
    | .fault s va f a => .next (s.copyFault team ctx va f a)
    | .surf _ _ _ _ => .next s
    | .go s _ =>
    if Rec.dsp r.w = 3 then
      let tag := fld (Rec.dst r.w) 0 3
      let key := recProducer team ctx recno
      let st := vget t.streams tag
      if cc.recs.any fun q => q.no < recno && Rec.dsp q.w == 3 && fld (Rec.dst q.w) 0 3 == tag && q.status == 0 && q.delivered < s.recTotal t.id.ctx q.w then .next s
      else match st.pend.find? (·.1 == some key) with
      | none =>
        let u := (s.surf? t.id.ctx (Rec.hnd r.w)).getD default
        let ix := List.range (Rec.ww r.w * Rec.wh r.w)
        let inside (i : Nat) : Bool := let (a, b) := Rec.texel r.w i; 0 ≤ a && 0 ≤ b && a < Surf.width u && b < Surf.height u
        let prep : Chunk := match ix.find? (!inside ·) with
          | some i => if Rec.edge r.w = 2 then .surf s 2 (Rec.texel r.w i).1 ((Rec.texel r.w i).2 % 65536).toNat else s.winTiles t u r.w ix false
          | none => s.winTiles t u r.w ix false
        (match prep with
         | .wait s => .next s
         | .fault s va f a => .next (s.copyFault team ctx va f a)
         | .surf s sub a b => .next (s.withStatus team ctx r fun s => s.recFail team ctx r 4 sub a b)
         | .go s _ =>
           let s := s.touchWin t.id.ctx u r.w ix
           let data := (List.range (Rec.ww r.w * Rec.wh r.w)).flatMap fun i => s.winTexel t.id.cluster t.id.ctx u r.w i
           let (b, k) := st.unit t.regs.fmt
           let ahead := st.raw.length + (st.pend.map fun e => e.2.length).sum
           let bad := ((List.range data.length).filter fun j => (data.getD j (0, false)).2).flatMap fun j =>
             (List.range k).map fun q => st.tail + (ahead + j) / b * k + q
           .next ((s.modTeam team fun t => { t with streams := vmod t.streams tag fun st =>
             { st with pend := st.pend ++ [(some key, data.map (·.1))], poison := bad ++ st.poison } }).streamStep team tag))
      | some _ =>
        let s := s.streamStep team tag
        let left := (((vget (s.team team).streams tag).pend.find? (·.1 == some key)).map fun e => e.2.length).getD 0
        let got := min 4096 (total - left - r.delivered)
        if got = 0 then .next s
        else
          let s := ((s.addCnt team r got).perfAdd team 7 got).modRec team ctx recno fun r => { r with delivered := r.delivered + got, counted := r.counted + got }
          .next (if r.delivered + got = total then s.dropProducer team ctx recno else s)
    else if Rec.kind r.w = 5 then
      match s.collBytes t r.w r.delivered n, s.rangeLocs t 0 (Rec.dst r.w) id r.delivered n .engine with
      | .error (va, f), _ => .next (s.copyFault team ctx va f .read)
      | _, .error (va, f) => .next (s.copyFault team ctx va f .engine)
      | .ok none, _ => .next s
      | .ok (some data), .ok dl =>
        let va0 := (Rec.dst r.w).toNat + r.delivered
        if s.engHeld t.id.ctx va0 n then .next s
        else
          let s := { s with freeCtr := s.freeCtr + 1 }.snapRange t dl ((List.range n).map (va0 + ·))
          let own := (runEnds none (s.collOwn t r.w r.delivered n)).map fun k => (((Rec.src r.w).toNat + k) % 2 ^ 64, Acc.read)
          let dst := (runEnds none (List.range n)).map fun k => ((va0 + k) % 2 ^ 64, Acc.engine)
          let s := (s.copyTouch t (own ++ dst)).engPut (dl.zip data)
          .next ((s.perfAdd team 7 n).modRec team ctx recno fun r => { r with delivered := r.delivered + n })
    else match s.chunk t r r.delivered n with
    | .wait s => .next s
    | .fault s va f a => .next (s.copyFault team ctx va f a)
    | .surf s sub a b => .next (s.withStatus team ctx r fun s => s.recFail team ctx r 4 sub a b)
    | .go s n => .next ((((s.chunkTouch t r r.delivered n).addCnt team r n).perfAdd team 7 n).modRec team ctx recno fun r => { r with delivered := r.delivered + n, counted := r.counted + n })

/-- RECORD_COMPLETE: every byte of a record is at its home; the remote counter, the transaction barrier, the STATUS and the timeline follow
in this order; a barrier that is out of bounds by then is STATUS 2 (R90, R159, R265). -/
def execRecordComplete (team ctx recno : Nat) (s : State) : Outcome :=
  let t := s.team team
  match (vget t.copy ctx).recs.find? (·.no == recno) with
  | none => .next s
  | some r =>
    let total := s.recTotal t.id.ctx r.w
    if !r.accepted || r.status != 0 || r.delivered < total || (vget t.copy ctx).batch.isSome || (vget t.copy ctx).aborting then .next s
    else if s.stale t r then .next (s.endStale team ctx r)
    else
      match s.wordsReady t r true with
      | .wait s => .next s
      | .fault s va f a => .next (s.copyFault team ctx va f a)
      | .surf _ _ _ _ => .next s
      | .go s _ =>
        let s := if Rec.kind r.w = 4 ∧ Rec.aux r.w ≠ 0 then
            match s.engLocs (some t.coreNo) t.id.ctx (Rec.aux r.w).toNat 8 .engine with
            | .ok (loc :: _) => s.countAt t.id loc total
            | _ => s
          else s
        let s := if Rec.kind r.w = 5 then
            (s.addCnt team r total).modCtx t.id.ctx fun c => { c with packets := c.packets.filter fun k =>
              !(k.grp == Rec.grp r.w && k.attempt == Rec.attempt r.w && k.seq == (Rec.aux2 r.w).toNat) }
          else s
        if Rec.tba r.w then
          match s.spRange t (Rec.tbar r.w) (Spw.off (Rec.tbar r.w)) 16 with
          | .ok loc => .next ((s.modCluster t.id.cluster fun c =>
              { c with tbOps := c.tbOps ++ [{ key := 2 ^ 40 + t.id.core * 2 ^ 36 + ctx * 2 ^ 32 + recno % 2 ^ 32, op := .copy loc total }] }).recEnd team ctx r 1)
          | .error _ => .next (s.recFail team ctx r 2 0 0 0)
        else .next (s.recEnd team ctx r 1)

/-! ## Collective groups (R386) -/

/-- ABORT_TOKEN: the group's ATTEMPT becomes the larger one, records of older attempts complete with STATUS 6, and packets of older attempts are
dropped (R266, R386). A record whose destination or word 0 cannot be written yet completes so later. -/
def execAbortToken (x grp attempt : Nat) (s : State) : Outcome :=
  let (_, _, old) := s.collGroup x grp
  let s := s.writePa (fld (s.creg x .cgBase) 4 48 * 16 + 16 * grp + 4) 4 (max old attempt)
  let s := s.modCtx x fun c => { c with packets := c.packets.filter fun k => k.grp != grp || decide (max old attempt ≤ k.attempt) }
  let mine := (s.teams.filter fun t => t.id.ctx == x).flatMap fun t => (List.range 4).flatMap fun c =>
    ((vget t.copy c).recs.filter fun r => s.stale t r && Rec.grp r.w == grp && (vget t.copy c).batch.isNone).map fun r => (t.id.uid, c, r)
  .next (mine.foldl (fun s m => s.endStale m.1 m.2.1 m.2.2) s)
/-- COLLECTIVE_PACKET: an aligned 32-bit element of another rank's contribution to a collective arrives, at its byte offset there; a packet of an
older attempt is dropped (R265, R266, R386). -/
def execCollectivePacket (x grp attempt : Nat) (addr : PacketPlace) (v : BitVec 32) (s : State) : Outcome :=
  if attempt < (s.collGroup x grp).2.2 || addr.off % 4 != 0 then .next s
  else
    let k : CollPacket := { grp, attempt, seq := addr.seq, rank := addr.rank, addr := addr.off, v }
    .next (s.modCtx x fun c => { c with packets := c.packets.filter (fun q => { q with v } != k) ++ [k] })

end Sys2Proof.Machine
end

