-- ==== Sys2Proof/Machine/Desc.lean ====
section
/-! DEFINITION. Team descriptors, what a core has free, and the state of a team at its start (R76, R117, R125, R304 to R311, R339, R340). -/
namespace Sys2Proof.Machine

/-! ## The descriptor (R307, R308) -/

namespace Desc
def w (d : Vector DWord 16) (i : Nat) : DWord := vget d i
def groups (d : Vector DWord 16) : Nat := fld (w d 0) 0 5 + 1
def rw (d : Vector DWord 16) : Nat := fld (w d 0) 5 4 + 1
def rh (d : Vector DWord 16) : Nat := fld (w d 0) 9 4 + 1
def rect (d : Vector DWord 16) : Bool := (w d 0).getLsbD 13
def chor (d : Vector DWord 16) : Bool := (w d 0).getLsbD 14
def prog (d : Vector DWord 16) : Bool := (w d 0).getLsbD 15
def repro (d : Vector DWord 16) : Bool := (w d 0).getLsbD 16
def priv (d : Vector DWord 16) : Bool := (w d 0).getLsbD 17
def entry (d : Vector DWord 16) : DWord := w d 1
def accq (d : Vector DWord 16) : Nat := fld (w d 2) 35 5
def caddy (d : Vector DWord 16) : Nat := fld (w d 2) 18 17
def scratch (d : Vector DWord 16) : Nat := fld (w d 2) 0 18
def qmap (d : Vector DWord 16) : DWord := w d 3
def fmt (d : Vector DWord 16) (i : Nat) : Word := if i % 2 = 0 then (w d (4 + i / 2)).setWidth 32 else (w d (4 + i / 2)).extractLsb' 32 32
def kind (d : Vector DWord 16) (r : Nat) : Nat := fld (w d (8 + r)) 60 4
def quota (d : Vector DWord 16) (r : Nat) : Nat := 8 * fld (w d (8 + r)) 48 8
def gmask (d : Vector DWord 16) (r : Nat) : Word := (w d (8 + r)).setWidth 32
/-- The role of a group: the group role whose mask holds it. -/
def roleOf (d : Vector DWord 16) (g : Nat) : Nat := ((List.range 8).find? fun r => kind d r == 1 && (gmask d r).getLsbD g).getD 0
/-- The register quota of a group. -/
def groupQuota (d : Vector DWord 16) (g : Nat) : Nat := quota d (roleOf d g)
/-- Registers of all groups (R308, R340). -/
def regs (d : Vector DWord 16) : Nat := ((List.range (groups d)).map fun g => groupQuota d g * 32).sum
/-- Window sizes, rounded up to 256 bytes (R76, R117). -/
def spBytes (d : Vector DWord 16) : Nat := ceilDiv (scratch d) 256 * 256
def cdBytes (d : Vector DWord 16) : Nat := ceilDiv (caddy d) 256 * 256
/-- Engine kinds that its roles bind. -/
def engines (d : Vector DWord 16) : List Nat := ((List.range 8).map (kind d)).filter fun k => 2 ≤ k && k ≤ 8
/-- Cores of a unit: the offsets of its teams (R339). -/
def shape (d : Vector DWord 16) : List (Nat × Nat) :=
  if rect d then (List.range (rh d)).flatMap fun j => (List.range (rw d)).map fun i => (i, j) else [(0, 0)]
/-- An fmt value that R105 does not allow. -/
def fmtBad (d : Vector DWord 16) : Bool := (List.range 8).any fun i => fmt d i != 0 && !Nf.ok (fmt d i)
/-- The other cases of R308 in its order, each with the word and the lowest bit of the field that it names. DESIGN CHOICE (log entry 28): a group
in no role or in two names GM1, and a register sum that is too large names the QUOTA of role 0. -/
def cases_ (d : Vector DWord 16) : List (Bool × Nat × Nat) :=
  let roles := List.range 8
  let all := List.range (groups d)
  let engine (r : Nat) : Bool := 2 ≤ kind d r && kind d r ≤ 8
  [(fld (w d 0) 18 46 != 0, 0, 18), (fld (w d 2) 40 24 != 0, 2, 40), (fld (entry d) 56 8 != 0, 1, 56), (fld (entry d) 0 3 != 0, 1, 0)] ++
  (roles.flatMap fun r => [(fld (w d (8 + r)) 56 4 != 0, 8 + r, 56), (fld (w d (8 + r)) 32 16 != 0, 8 + r, 32), (decide (8 < kind d r), 8 + r, 60),
    (kind d r != 1 && quota d r != 0, 8 + r, 48), (kind d r != 1 && gmask d r != 0, 8 + r, 0)]) ++
  [(decide (196608 < scratch d), 2, 0), (decide (65536 < caddy d), 2, 18), (decide (16 < accq d), 2, 35), (decide (12 < rh d), 0, 9),
   (all.any fun g => (roles.filter fun r => kind d r == 1 && (gmask d r).getLsbD g).length != 1, 0, 0)] ++
  (roles.map fun r => (kind d r == 1 && (gmask d r == 0 || (bitsOf (gmask d r)).any (groups d ≤ ·)), 8 + r, 0)) ++
  (roles.map fun r => (kind d r == 1 && (decide (quota d r < 16) || decide (256 < quota d r)), 8 + r, 48)) ++
  (roles.map fun r => (engine r && roles.any fun q => decide (q < r) && kind d q == kind d r, 8 + r, 60)) ++
  (roles.map fun r => (!chor d && (if r = 0 then kind d 0 != 1 else kind d r != 0), 8 + r, 60)) ++
  [(decide (49152 < regs d), 8, 48)]
def bad (d : Vector DWord 16) : Bool := (cases_ d).any (·.1)
/-- The cause word of the error report of an invalid descriptor: the word and field of the first case that holds, or the lowest fmt register that
is wrong (R105, R308, R336). -/
def report (d : Vector DWord 16) : Nat :=
  match (cases_ d).find? (·.1) with
  | some (_, w, b) => (Named.field (64 * w + b)).word 2
  | none => (Named.fmt (((List.range 8).find? fun i => fmt d i != 0 && !Nf.ok (fmt d i)).getD 0)).word 3
/-- Why a descriptor is invalid, as the cause of an error report (R336): 2 the descriptor, 3 an fmt value. -/
def invalid (d : Vector DWord 16) : Option Nat := if bad d then some 2 else if fmtBad d then some 3 else none
end Desc

/-- `n` bytes at a virtual address as the device reads them at the homes, or the translation that fails (R37). -/
def State.devRead (s : State) (x va n : Nat) : Except (Nat × XFail) (List Byte) :=
  (s.engLocs none x va n .read).map fun locs => locs.map s.homeRead
/-- Whether an access of the command processor waits at a region table entry that drains (R44). -/
def State.cpHeld (s : State) (x va n : Nat) (a : Acc) : Bool := match s.engLocs none x va n a with | .error (_, f) => f.held | .ok _ => false
/-- The context reaches what the command processor accesses for it (R377). -/
def State.cpReach (s : State) (x va n : Nat) (a : Acc) : State := match s.engLocs none x va n a with | .ok locs => s.reachRun x locs | .error _ => s
def dwordsOf (n : Nat) (bs : List Byte) : Vector DWord n := Vector.ofFn fun i => BitVec.ofNat 64 (ofLe ((bs.drop (8 * i.val)).take 8))
/-- The team descriptor at a virtual address. -/
def State.readDesc (s : State) (x va : Nat) : Except (Nat × XFail) (Vector DWord 16) := (s.devRead x va 128).map (dwordsOf 16)

/-! ## What a core has free (R16, R340) -/

/-- The teams that hold resources of a core. -/
def State.onCore (s : State) (c : Nat) : List Team := s.teams.filter fun t => t.coreNo == c && t.phase != .saved
def State.freeSlots (s : State) (c : Nat) : Nat := 48 - ((s.onCore c).map fun t => t.groups.length).sum
def State.freeRegs (s : State) (c : Nat) : Nat := 49152 - ((s.onCore c).flatMap fun t => t.groups.map fun g => g.quota * 32).sum
def State.freeAcc (s : State) (c : Nat) : Nat := 16 - ((s.onCore c).map fun t => t.regs.accq).sum
/-- Whether a core is in service: its cluster enabled, online and not under test, its die alive and its stack online (R14, R374, R376, R378, R380). -/
def State.coreUp (s : State) (c : Nat) : Bool :=
  let k := vget s.clusters (c / 192)
  k.enabled && !k.offline && !k.testDue && !(vget s.cores c).retired && !(vget s.cores c).tainted && !(vget s.dies (c / 192 / 3)).lost && !(s.dreg .dieStat).getLsbD (6 + c / 576)
/-- The lowest 256-aligned base at which `n` bytes are free in a space of `cap` bytes, given the windows in use. -/
def freeBase (cap n : Nat) (used : List (Nat × Nat)) : Option Nat :=
  if n = 0 then some 0
  else ((List.range ((cap - n) / 256 + 1)).map (256 * ·)).find? fun b => b + n ≤ cap && used.all fun u => u.2 == 0 || b + n ≤ u.1 || u.1 + u.2 ≤ b
/-- Where a descriptor's teams would stand on cores, one each: the common window bases; none when some core lacks room (R340). -/
def State.fits (s : State) (cores : List Nat) (d : Vector DWord 16) : Option (Nat × Nat) :=
  let ok (c : Nat) : Bool := s.coreUp c && Desc.groups d ≤ s.freeSlots c && Desc.regs d ≤ s.freeRegs c && Desc.accq d ≤ s.freeAcc c &&
    (Desc.engines d).all fun k => (s.onCore c).all fun t => !(t.engines.any (·.kind == k))
  if !cores.all ok then none
  else
    let ts := cores.flatMap s.onCore
    match freeBase 0x30000 (Desc.spBytes d) (ts.map fun t => (t.regs.spBase, t.regs.spSize)),
        freeBase 0x10000 (Desc.cdBytes d) (ts.map fun t => (t.regs.cdBase, t.regs.cdSize)) with
    | some a, some b => some (a, b)
    | _, _ => none

/-- The core of a cluster with room for a team and the most free group slots, the lowest (y, x) among equals, with the bases there (R340). -/
def State.bestCore (s : State) (cluster : Nat) (d : Vector DWord 16) : Option (Nat × Nat × Nat) :=
  ((List.range 192).map (192 * cluster + ·)).foldl (fun (best : Option (Nat × Nat × Nat)) c =>
    match s.fits [c] d, best with
    | none, b => b
    | some x, none => some (c, x)
    | some x, some b => if s.freeSlots b.1 < s.freeSlots c then some (c, x) else some b) none

/-! ## Team start (R305) -/

/-- HEPOCH of a team that starts: the context's EPOCH, in a flip too (R404). -/
def State.startEpoch (s : State) (x : Nat) : Word := BitVec.ofNat 32 (fld (s.creg x .heapCol) 32 32)
/-- A cluster remembers that a launch was placed there since its last passing test (R376). -/
def State.notePlaced (s : State) (cluster x gen : Nat) : State :=
  s.modCluster cluster fun c => if c.placed.contains (x, gen) then c else { c with placed := c.placed ++ [(x, gen)] }
/-- A team at its start, its windows at the given bases. -/
def Desc.team (d : Vector DWord 16) (id : TeamId) (spBase cdBase : Nat) (k : Vector Word 64) (privileged : Bool) (hepoch : Word) : Team :=
  let th : Thread := { life := .live, pc := id.entry }
  { id
    regs := { spBase, spSize := Desc.spBytes d, cdBase, cdSize := Desc.cdBytes d, accq := Desc.accq d, qmap := Desc.qmap d,
              kinds := Vector.ofFn fun r => Desc.kind d r.val, chor := Desc.chor d, priv := Desc.priv d && privileged, prog := Desc.prog d,
              repro := Desc.repro d, hepoch, k, fmt := Vector.ofFn fun i => Desc.fmt d i.val }
    groups := (List.range (Desc.groups d)).map fun g =>
      { role := Desc.roleOf d g, quota := Desc.groupQuota d g, threads := .replicate 32 th }
    engines := (List.range 8).filterMap fun r =>
      if 2 ≤ Desc.kind d r ∧ Desc.kind d r ≤ 8 then
        some { kind := Desc.kind d r, role := r, quota := 16, threads := vset (.replicate 32 {}) 0 th }
      else none }
/-- A team starts on its core: its start acquire, the touched-dies mask of its context, and the cluster's note of its launch (R149, R376, R377). -/
def State.startTeam (s : State) (t : Team) : State :=
  let die := t.id.cluster / 3
  let s := { s with teams := s.teams ++ [t], nextUid := max s.nextUid (t.id.uid + 1) }
  let s := s.setCreg t.id.ctx .ctxTdm (setBit (s.creg t.id.ctx .ctxTdm) die true)
  (s.notePlaced t.id.cluster t.id.ctx t.id.gen).acquire t.id.uid .system

end Sys2Proof.Machine
end

