-- ==== Sys2Proof/Machine/Raster.lean ====
section
/-! DEFINITION. Surface allocation, the raster sequencer, fragments, the bank unit, and HEVAC (R49, R60, R63, R66 to R72, R74, R275 to R281). -/
namespace Sys2Proof.Machine

/-! ## SALLOC, SFREE, SPRIO (R275, R276) -/

/-- The surface table entry of a handle: the device's copy and the four words in memory (R49, R50). -/
def State.putEntry (s : State) (x : Nat) (u : Surface) : State :=
  let base := fld (s.creg x .stBase) 17 35 * 2 ^ 17 + 32 * u.handle
  let s := if (s.surf? x u.handle).isSome then s.setSurf x u else s.modCtx x fun c => { c with surfaces := c.surfaces ++ [u] }
  (List.range 4).foldl (fun (s : State) i => s.writePa (base + 8 * i) 8 (vget u.w i).toNat) s
/-- Whether a surface descriptor is invalid (R50, R51, R60, R74). -/
def surfDescBad (w : Vector DWord 4) : Bool :=
  let u : Surface := { w }
  !fmtOk (Surf.format u) || fld (vget w 0) 0 11 != 0 || fld (vget w 1) 50 6 != 0 || fld (vget w 1) 18 14 != 0 ||
  fld (vget w 2) 56 8 != 0 || fld (vget w 2) 0 12 != 0 || fld (vget w 3) 56 8 != 0 || fld (vget w 3) 0 6 != 0 ||
  (Surf.comp u && Surf.format u == 0x09) ||
  (Surf.weight u && (Surf.height u % 32 != 0 || Surf.layers u != 1 || Surf.gran u != 8 || Surf.comp u))
/-- Frames that a context's surfaces that are never victims hold on side `n`. -/
def State.heldFrames (s : State) (x n : Nat) : Nat :=
  (((s.ctx x).surfaces.filter fun u => Surf.pin u || Surf.frameClass u || Surf.weight u).map fun u =>
    (s.presentFrames x n u).length).sum
/-- The lowest run of free consecutive frame-table entries of a stack (R53, R60). -/
def State.frameRun (s : State) (stack n : Nat) : Option Nat :=
  let used := (vget s.dev.frameTab stack).map (·.ix)
  let ok (b : Nat) : Bool := b + n ≤ Config.frameTableLen && used.all fun i => i < b || b + n ≤ i
  ((0 :: used.map (· + 1)).filter ok).foldl (fun (m : Option Nat) b => match m with | none => some b | some a => some (min a b)) none
/-- The slices that the row blocks of a weight surface take on side `n`: each the slice with the most free frames, the lowest among equals (R74). -/
def State.weightSlices (s : State) (stack blocks per : Nat) : Option (List Nat) :=
  let free0 := (s.slices stack).map fun k => (k, ((List.range 4096).filter fun j => !s.frameUsed stack (4096 * k + j)).length)
  ((List.range blocks).foldl (fun (acc : Option (List Nat × List (Nat × Nat))) _ =>
    match acc with
    | none => none
    | some (out, free) =>
      match free.foldl (fun (b : Option (Nat × Nat)) c => match b with | none => some c | some b => if b.2 < c.2 then some c else some b) none with
      | none => none
      | some (k, n) => if n < per then none else some (out ++ [k], free.map fun c => if c.1 = k then (c.1, c.2 - per) else c)) (some ([], free0))).map (·.1)
/-- Frames for every frame-table entry of a new surface on side `n`. DESIGN CHOICE (log entry 19): where the quota has room and the stack has no
free frame left, which R60 does not name, the entry stays absent and the request is answered with status 0. -/
def State.giveFrames (s : State) (x h n home count : Nat) (slices : List Nat) (per : Nat) : State :=
  (List.range count).foldl (fun (s : State) i =>
    let fr := match slices[i / max 1 per]? with
      | some k => ((List.range 4096).map (4096 * k + ·)).find? fun f => !s.frameUsed (s.stackOf n) f
      | none => s.freeFrame? (s.stackOf n)
    s.modFrames (s.stackOf n) fun l => l ++ [{ ix := home + i, x, handle := h, frame := fr }]) s
/-- How one SALLOC request ends: a result word, or held at a page under migration or by the region table, with the spills made. -/
inductive AllocRes where | got (s : State) (v : Nat) | hold (s : State)
  deriving Inhabited
/-- One request, its tests in the order of R60. DESIGN CHOICE (log entry 19): of a weight surface, which has no tiles, one byte of SPILL and one
of TMAP must translate. -/
def State.allocSurf (s : State) (x : Nat) (w : Vector DWord 4) : AllocRes :=
  let u0 : Surface := { w }
  let f (n : Nat) : Nat := Surf.frames u0 n
  let wt := Surf.weight u0
  let nt := if wt then 0 else Surf.tcount u0 0 + Surf.tcount u0 1
  let fails (va n : Nat) : List XFail := (List.range ((va + max 1 n - 1) / 65536 - va / 65536 + 1)).filterMap fun i =>
    match s.xlate none x (max va ((va / 65536 + i) * 65536)) .engine (raw := false) with | .ok _ => none | .error f => some f
  let st (n : Nat) : Nat := s.stackOf n
  let per := Surf.wblockBytes u0 / 4096
  let blocks (n : Nat) : Nat := if n = 0 then ceilDiv (Surf.height u0 / 32) 2 else Surf.height u0 / 32 / 2
  if surfDescBad w then .got s (3 * 2 ^ 16)
  else match ((List.range 4095).map (· + 1)).find? fun h => (s.surf? x h).isNone with
  | none => .got s (1 * 2 ^ 16)
  | some h =>
    let one := st 0 == st 1
    let need (n : Nat) : Nat := if one then s.heldFrames x 0 + s.heldFrames x 1 + f 0 + f 1 else s.heldFrames x n + f n
    if (List.range 2).any fun n => s.quota x (st n) < need n then .got s (2 * 2 ^ 16)
    else match s.frameRun (st 0) (if one then f 0 + f 1 else f 0), (if one then (s.frameRun (st 0) (f 0 + f 1)).map (· + f 0) else s.frameRun (st 1) (f 1)) with
    | some h0, some h1 =>
      let bad := fails (Surf.spill u0) (4096 * ceilDiv nt 4096 + nt * Surf.slotBytes u0) ++ fails (Surf.tmap u0) (ceilDiv nt 4)
      if bad.any (!·.held) then .got s (3 * 2 ^ 16)
      else if !bad.isEmpty then .hold s
      else
        match (if wt then s.weightSlices (st 0) (blocks 0) per else some []), (if wt then s.weightSlices (st 1) (blocks 1) per else some []) with
        | some s0, some s1 =>
          let room (acc : State × Bool × Bool) (n : Nat) : State × Bool × Bool :=
            let m := if one then f 0 + f 1 else f n
            if acc.2.1 && !acc.2.2 && s.quota x (st n) < acc.1.used x (st n) + m then acc.1.evict x n (s.quota x (st n) - m) none else acc
          let (sa, fit, held) := (List.range 2).foldl room (s, true, false)
          if held then .hold sa
          else if !fit then .got sa (5 * 2 ^ 16)
          else
            let w0 := setBit (if wt then setBit (vget w 0) 13 true else vget w 0) 11 true
            let w1 := setFld (setFld (vget w 1) 0 18 h0) 32 18 h1
            let now (n : Nat) : Nat := fld (vget sa.dies n).time 10 32
            let u : Surface := { handle := h, w := vset (vset w 0 w0) 1 w1, touch := vset (.replicate 2 (now 0)) 1 (now 1) }
            match (if nt = 0 then EngRes.ok sa else sa.engWrite x (Surf.tmap u) ((List.range (ceilDiv nt 4)).map fun i => mapByte u (4 * i))) with
            | .hold => .hold sa
            | .fail _ _ => .got s (3 * 2 ^ 16)
            | .ok sb =>
              let sc := (sb.giveFrames x h 0 h0 (f 0) s0 per).giveFrames x h 1 h1 (f 1) s1 per
              .got (sc.putEntry x u) h
        | _, _ => .got s (6 * 2 ^ 16)
    | _, _ => .got s (4 * 2 ^ 16)
/-- SALLOC (R275): the lanes one at a time; while a lane's request is held, the instruction is issued again. -/
def execSalloc (f : EF) (s : State) : Outcome :=
  s.issue (.salloc f) fun lanes s =>
    let p := s.cur
    let t := s.team p.team
    match s.fetchField p lanes false f.a with
    | none => blockOperand s lanes
    | some (vs, s1) =>
      match allLanes s1 .read lanes fun l => s.ldsrRange t 1 ((laneVal vs l).setWidth 32) 32 32 with
      | .inl r => r
      | .inr locs =>
        let go (acc : Except State (State × List (Nat × DWord))) (e : Nat × Nat × Page) : Except State (State × List (Nat × DWord)) :=
          acc.bind fun (q, out) =>
            match q.allocSurf t.id.ctx (dwordsOf 4 ((List.range 32).map fun i => q.overlay t.id.cluster (e.2.1 + i))) with
            | .hold q => .error (if out.isEmpty then s.unpop q p else s)
            | .got q v => .ok (q, out ++ [(e.1, BitVec.ofNat 64 v)])
        match locs.foldl go (.ok (s1, [])) with
        | .error q => .stall q
        | .ok (s2, out) => .done (out.foldl (fun s v => s.deliverOp p v.1 false f.dst v.2) s2)
/-- The check of a handle operand (R276). -/
def State.handleCheck (s : State) (x : Nat) (v : DWord) : Chk :=
  if (s.validSurf? x v.toNat).isNone then .bad 1 0x0F 0 (surfAux 1 (v.toNat % 4096)) else .ok v.toNat
/-- SFREE (R63, R276). -/
def execSfree (f : EF) (s : State) : Outcome :=
  s.issue (.sfree f) fun lanes s =>
    let p := s.cur
    let x := s.ctxOf p
    match s.fetchField p lanes false f.a with
    | none => blockOperand s lanes
    | some (vs, s1) =>
      match allLanesAfter s s1 .read lanes fun l => s.handleCheck x (laneVal vs l) with
      | .inl r => r
      | .inr hs => .done ((hs.map (·.2.1)).eraseDups.foldl (fun (s : State) h =>
          match s.surf? x h with
          | none => s
          | some u => ((s.putEntry x { u with w := vset u.w 0 (setBit (vget u.w 0) 11 false), draining := true }).dropGood x h).dueOnce (.surfaceFramesFreed x h)) s1)
/-- SPRIO (R63, R276). -/
def execSprio (f : EF) (s : State) : Outcome :=
  s.issue (.sprio f) fun lanes s =>
    let p := s.cur
    let x := s.ctxOf p
    match s.fetchField p lanes false f.a with
    | none => blockOperand s lanes
    | some (vs, s1) =>
      match s1.fetchField p lanes false f.b with
      | none => blockOperand s lanes
      | some (ps, s2) =>
        let chk (l : Nat) : Chk := (s.handleCheck x (laneVal vs l)).next
          (if 7 < (laneVal ps l).toNat then .bad 2 0x0F 0 (surfAux 8 ((laneVal vs l).toNat % 4096)) else .ok 0)
        match allLanesAfter s s2 .read lanes chk with
        | .inl r => r
        | .inr _ => .done (lanes.foldl (fun (s : State) l =>
            match s.surf? x (laneVal vs l).toNat with
            | none => s
            | some u => s.putEntry x { u with w := vset u.w 0 (setFld (vget u.w 0) 14 3 (laneVal ps l).toNat) }) s2)

/-! ## PRIM (R66 to R69, R277) -/

namespace Rs
def chnd (r : Vector DWord 4) : Nat := fld (vget r 0) 52 12
def dhnd (r : Vector DWord 4) : Nat := fld (vget r 0) 40 12
def dfunc (r : Vector DWord 4) : Nat := fld (vget r 0) 37 3
def dwrite (r : Vector DWord 4) : Bool := (vget r 0).getLsbD 36
def sen (r : Vector DWord 4) : Bool := (vget r 0).getLsbD 35
def sfunc (r : Vector DWord 4) : Nat := fld (vget r 0) 32 3
def sref (r : Vector DWord 4) : BitVec 8 := (vget r 0).extractLsb' 24 8
def srmask (r : Vector DWord 4) : BitVec 8 := (vget r 0).extractLsb' 16 8
def swmask (r : Vector DWord 4) : BitVec 8 := (vget r 0).extractLsb' 8 8
def opsf (r : Vector DWord 4) : Nat := fld (vget r 0) 5 3
def opzf (r : Vector DWord 4) : Nat := fld (vget r 0) 2 3
def opzp (r : Vector DWord 4) : Nat := fld (vget r 1) 61 3
def ben (r : Vector DWord 4) : Bool := (vget r 1).getLsbD 60
def srcf (r : Vector DWord 4) : Nat := fld (vget r 1) 56 4
def dstf (r : Vector DWord 4) : Nat := fld (vget r 1) 52 4
def bop (r : Vector DWord 4) : Nat := fld (vget r 1) 49 3
def cmask (r : Vector DWord 4) : BitVec 4 := (vget r 1).extractLsb' 45 4
end Rs
/-- A reserved value in a raster state record (R68, R69). -/
def State.rsBad (s : State) (x : Nat) (r : Vector DWord 4) : Bool :=
  fld (vget r 0) 0 2 != 0 || fld (vget r 1) 0 45 != 0 || vget r 3 != 0 || 5 ≤ Rs.bop r || 12 ≤ Rs.srcf r || 12 ≤ Rs.dstf r ||
  (Rs.sen r && Rs.dhnd r == 0) ||
  (Rs.ben r && (match s.validSurf? x (Rs.chnd r) with | some u => [0x0A, 0x0B, 0x0C, 0x0D].contains (Surf.format u) | none => false))
/-- A vertex coordinate: vertex `i`, axis 0 for x and 1 for y, signed 16.8 (R277). -/
def coord (v : Vector DWord 8) (i axis : Nat) : Int := sfld (vget v i) (32 * axis) 32
/-- Twice the signed area, in units of 2^-16 (R66). -/
def area2 (v : Vector DWord 8) : Int :=
  (coord v 1 0 - coord v 0 0) * (coord v 2 1 - coord v 0 1) - (coord v 2 0 - coord v 0 0) * (coord v 1 1 - coord v 0 1)
/-- The classifier's screen area, truncated to 16.8 and saturated (R66). -/
def screenArea (v : Vector DWord 8) : Nat := min 0xFFFFFF ((area2 v).natAbs / 512)
/-- A descriptor that is fit for PRIM (R279). -/
def Desc.fit (d : Vector DWord 16) : Bool :=
  (Desc.invalid d).isNone && Desc.groups d == 1 && !Desc.chor d && !Desc.rect d && Desc.caddy d == 0 && Desc.accq d == 0 && !Desc.priv d &&
  (List.range 16).all fun q => let b := fld (Desc.qmap d) (4 * q) 4; !(1 ≤ b && b ≤ 4)
def State.rsRecord (s : State) (x i : Nat) : Vector DWord 4 := dwordsOf 4 (s.readPaBytes 0 (fld (s.creg x .rsBase) 11 41 * 2048 + 32 * i) 32)
/-- The vertex record at a location, as the sequencer reads it. -/
def State.vtxAt (s : State) (cl loc : Nat) : Vector DWord 8 := dwordsOf 8 ((List.range 64).map fun i => s.overlay cl (loc + i))
/-- The checks of PRIM for one lane, in the order of R277. -/
def State.primCheck (s : State) (t : Team) (w ix : Word) : Chk :=
  let x := t.id.ctx
  let here := s.ldsrRange t 1 w 64 64
  let sub (rank k h : Nat) : Chk := .bad rank 0x0F 0 (surfAux k h)
  here.next <|
    let v := s.vtxAt t.id.cluster (t.spLoc w)
    let r := s.rsRecord x ix.toNat
    let far (i : Nat) : Bool := (List.range 2).any fun a => coord v i a < -(2 ^ 23) || 2 ^ 23 - 1 < coord v i a
    let fd := vget v 5
    if 63 < ix.toNat || (List.range 3).any far || vget v 6 != 0 || vget v 7 != 0 then sub 5 8 0
    else if s.rsBad x r then sub 6 5 (Rs.chnd r)
    else if (s.validSurf? x (Rs.chnd r)).isNone then sub 7 1 (Rs.chnd r)
    else if Rs.dhnd r != 0 && (s.validSurf? x (Rs.dhnd r)).isNone then sub 7 1 (Rs.dhnd r)
    else if Rs.dhnd r != 0 && ((s.validSurf? x (Rs.dhnd r)).map Surf.format) != some 0x0D then sub 8 3 (Rs.dhnd r)
    else if fld fd 56 8 != 0 || fd.toNat % 128 != 0 then sub 9 8 0
    else match s.readDesc x fd.toNat with
    | .error (va, e) => .xfault 10 e va (some 0)
    | .ok d => if Desc.fit d then .ok 0 else sub 11 9 0
/-- PRIM (R277). -/
def execPrim (f : EF) (s : State) : Outcome :=
  s.issue (.prim f) fun lanes s =>
    let p := s.cur
    let t := s.team p.team
    let x := t.id.ctx
    match s.fetchField p lanes false f.a with
    | none => blockOperand s lanes
    | some (vs, s1) =>
      match s1.fetchField p lanes false f.b with
      | none => blockOperand s lanes
      | some (rs, s2) =>
        let s3 := s2.engineRelease p lanes
        let wd (l : Nat) : Word := (laneVal vs l).setWidth 32
        match allLanesAfter s s2 .read lanes fun l => s3.primCheck t (wd l) ((laneVal rs l).setWidth 32) with
        | .inl r => r
        | .inr _ =>
          let pois := lanes.filter fun l => (List.range 64).any fun i => s3.homePoisoned (t.spLoc (wd l) + i)
          if !pois.isEmpty then .trap s2 0x21 pois 0 0
          else if !s.poolClear p lanes then .stall s
          else .done (lanes.foldl (fun (s : State) l =>
            let v := s3.vtxAt t.id.cluster (t.spLoc (wd l))
            let d := match s3.readDesc x (vget v 5).toNat with | .ok d => d | .error _ => default
            let small := decide (screenArea v < fld (s.creg x .rastThr) 0 24)
            let (no, t1) := (s.team p.team).number 6
            let s := s.modTeam p.team fun _ => t1
            let q : Prim := { seq := (s.ctx x).raster.seq, id := t.id, tlno := no, vtx := v, state := s3.rsRecord x (laneVal rs l).toNat, desc := d, declined := small }
            let s := s.modCtx x fun c => { c with raster := { c.raster with seq := q.seq + 1, prims := if small then c.raster.prims else c.raster.prims ++ [q] } }
            let s := if small then s.finishTl p.team 6 no else (s.dueOnce (.rasterise x 0)).dueOnce (.rasterise x 1)
            s.writeOp p l false f.dst (if small then 1 else 0)) s3)

/-! ## Fixed rasterisation and fragment teams (R67, R278, R279) -/

/-- The edge function of a point against the edge from vertex `a` to vertex `b`, in 16.8 coordinates. -/
def edge (v : Vector DWord 8) (a b : Nat) (px py : Int) : Int :=
  (coord v b 0 - coord v a 0) * (py - coord v a 1) - (coord v b 1 - coord v a 1) * (px - coord v a 0)
/-- Whether an edge function value counts as inside: positive, or zero on a top or a left edge of a triangle of positive area. -/
def edgeIn (v : Vector DWord 8) (a b : Nat) (px py : Int) : Bool :=
  let e := edge v a b px py
  let dx := coord v b 0 - coord v a 0
  let dy := coord v b 1 - coord v a 1
  0 < e || (e == 0 && (dy < 0 || (dy == 0 && 0 < dx)))
/-- Whether a triangle covers a pixel: its centre, under the top-left rule (R67). -/
def covers (v : Vector DWord 8) (x y : Nat) : Bool :=
  let px : Int := 256 * x + 128
  let py : Int := 256 * y + 128
  let a := area2 v
  if a = 0 then false
  else if 0 < a then edgeIn v 0 1 px py && edgeIn v 1 2 px py && edgeIn v 2 0 px py
  else edgeIn v 0 2 px py && edgeIn v 2 1 px py && edgeIn v 1 0 px py
/-- The stacks whose rasterisers work. -/
def State.rastStacks (s : State) : List Nat := (List.range 2).filter fun n => !s.stackDead n
/-- The pixels that a primitive covers on a stack, tile by tile and in Morton order (R279). -/
def State.primPixels (s : State) (x stack : Nat) (q : Prim) : List (Nat × Nat) :=
  match s.surf? x (Rs.chnd q.state) with
  | none => []
  | some u =>
    let c (a : Nat) : List Int := (List.range 3).map fun i => coord q.vtx i a
    let lo (l : List Int) : Nat := ((l.foldl min (l.headD 0)) / 256).toNat
    let hi (l : List Int) (n : Nat) : Nat := min n (((l.foldl max (l.headD 0)) / 256 + 1).toNat)
    let all := (List.range (hi (c 1) (Surf.height u) - lo (c 1))).flatMap fun j => (List.range (hi (c 0) (Surf.width u) - lo (c 0))).filterMap fun i =>
      let (px, py) := (lo (c 0) + i, lo (c 1) + j)
      let (n, loc, _, m) := Surf.place u px py 0
      if s.stackOf n = stack ∧ covers q.vtx px py then some (16 * loc + m, px, py) else none
    (sortBy (fun (a b : Nat × Nat × Nat) => a.1 ≤ b.1) all).map (·.2)
def sameTile (a b : Nat × Nat) : Bool := a.1 / 4 == b.1 / 4 && a.2 / 4 == b.2 / 4
/-- Unretired tickets of a context: fragments not yet launched, live threads, and exports that wait. -/
def State.liveTickets (s : State) (x : Nat) : List Ticket :=
  let r := (s.ctx x).raster
  (r.prims.flatMap fun q => q.frags.map fun f => { x, surf := Rs.chnd q.state, seq := q.seq, px := f.2.1, py := f.2.2 }) ++
  (s.teams.flatMap fun t => if t.id.ctx = x then t.groups.flatMap fun g => g.threads.toList.filterMap fun h =>
      if h.life = .live then h.ticket else none else []) ++
  r.exports.map (·.ticket)
/-- The unretired tickets in the tile queues of a surface: sequence number and pixel (R67). -/
def State.tickets (s : State) (x h : Nat) : List (Nat × Nat × Nat) :=
  (s.liveTickets x).filterMap fun k => if k.surf = h then some (k.seq, k.px, k.py) else none
def State.modRaster (s : State) (x : Nat) (f : Raster → Raster) : State := s.modCtx x fun c => { c with raster := f c.raster }
/-- Primitives whose tickets have all retired complete on tl6 (R258). -/
def State.primsDone (s : State) (x : Nat) : State :=
  let live := (s.liveTickets x).map (·.seq)
  let fin (q : Prim) : Bool := s.rastStacks.all q.done.contains && !live.contains q.seq
  let qs := (s.ctx x).raster.prims
  (qs.filter fin).foldl (fun (s : State) q => s.finishTl q.id.uid 6 q.tlno) (s.modRaster x fun r => { r with prims := qs.filter (!fin ·) })
/-- RASTERISE (R67): the rasteriser of a stack covers its pixels of the next primitive in sequence order, while the tile queues have room. -/
def execRasterise (x stack : Nat) (s : State) : Outcome :=
  match (s.ctx x).raster.prims.find? fun q => !q.done.contains stack with
  | none => .next s
  | some q =>
    let px := s.primPixels x stack q
    let old := s.tickets x (Rs.chnd q.state)
    let full (p : Nat × Nat) : Bool := 64 < (old.filter fun t => sameTile t.2 p).length + (px.filter (sameTile p)).length
    if px.any full then .next s
    else
      let s1 := s.modRaster x fun r => { r with prims := r.prims.map fun o =>
        if o.seq = q.seq then { o with done := stack :: o.done, frags := o.frags ++ px.map fun p => (stack, p) } else o }
      .next (s1.primsDone x)
/-- FP32 quotient of two integers, rounded once (R278). -/
def ratio32 (a b : Int) : Nat := f32r ((ofInt a).div (ofInt b)).1
def neg32 (b : Nat) : Nat := if b / 2 ^ 31 % 2 = 1 then b - 2 ^ 31 else b + 2 ^ 31
/-- The registers g0 to g5 of a fragment thread (R278). -/
def fragRegs (q : Prim) (px py : Nat) : List Nat :=
  let (cx, cy) : Int × Int := (256 * px + 128, 256 * py + 128)
  let l1 := ratio32 (edge q.vtx 2 0 cx cy) (area2 q.vtx)
  let l2 := ratio32 (edge q.vtx 0 1 cx cy) (area2 q.vtx)
  let z (i : Nat) : Nat := match i with | 0 => fld (vget q.vtx 3) 0 32 | 1 => fld (vget q.vtx 3) 32 32 | _ => fld (vget q.vtx 4) 0 32
  let depth := f32add (f32add (z 0) (f32mul l1 (f32add (z 1) (neg32 (z 0))))) (f32mul l2 (f32add (z 2) (neg32 (z 0))))
  [px + 2 ^ 16 * py, depth, l1, l2, fld (vget q.vtx 4) 32 32, q.seq % 2 ^ 32]
/-- A fragment team: the lanes that have a fragment live, the others ended (R278, R279). -/
def fragTeam (q : Prim) (px : List (Nat × Nat)) (uid core : Nat) (sp cd : Nat) (k : Vector Word 64) (ep : Word) : Team :=
  let id : TeamId := { uid, ctx := q.id.ctx, gen := q.id.gen, depth := q.id.depth, seed := q.id.seed, cluster := core / 192, core := core % 192, entry := Desc.entry q.desc }
  let t := Desc.team q.desc id sp cd k false ep
  let lane (l : Nat) (h : Thread) : Thread :=
    match px[l]? with
    | none => { h with life := .ended }
    | some (a, b) =>
      let regs := fragRegs q a b
      let g := regs.zipIdx.foldl (fun (g : Vector Word 256) v => vset g v.2 (BitVec.ofNat 32 v.1)) h.g
      { h with g, ticket := some { x := q.id.ctx, surf := Rs.chnd q.state, depth := Rs.dhnd q.state, px := a, py := b, seq := q.seq, z := BitVec.ofNat 32 (regs.getD 1 0) } }
  { t with groups := t.groups.map fun g => { g with threads := Vector.ofFn fun l => lane l.val (vget g.threads l.val) } }
/-- FRAGMENT_TEAM_LAUNCH (R67, R279): the next one or two tiles of the oldest primitive with fragments on a stack, on a cluster of its die. -/
def execFragmentTeamLaunch (x stack cluster : Nat) (s : State) : Outcome :=
  if cluster / 3 ≠ stack then .next s
  else match (s.ctx x).raster.prims.find? fun q => q.frags.any (·.1 == stack) with
  | none => .next s
  | some q =>
    let mine := (q.frags.filter (·.1 == stack)).map (·.2)
    match mine with
    | [] => .next s
    | a :: _ =>
      let t1 := mine.filter (sameTile a)
      let rest := mine.filter fun p => !sameTile a p
      let t2 := match rest with | [] => [] | b :: _ => rest.filter (sameTile b)
      let px := t1 ++ t2
      match s.bestCore cluster q.desc with
      | none => .next s
      | some (c, sp, cd) =>
        let k := match s.launch? x q.id.gen with | some l => l.k | none => .replicate 64 0
        let s1 := s.modRaster x fun r => { r with prims := r.prims.map fun o =>
          if o.seq = q.seq then { o with frags := o.frags.filter fun f => !(f.1 == stack && px.contains f.2) } else o }
        .next (s1.startTeam (fragTeam q px s.nextUid c sp cd k (s.startEpoch x)))

/-! ## EXPRT and the bank unit (R70 to R72, R280) -/

def colReg (o : Operand) (i : Nat) : Operand := match o with | .g n => .g (n + BitVec.ofNat 8 i) | o => o
/-- The raster state record of a ticket's primitive. -/
def State.stateOf (s : State) (k : Ticket) : Vector DWord 4 := (((s.ctx k.x).raster.prims.find? fun q => q.seq == k.seq).map (·.state)).getD (.replicate 4 0)
/-- The checks of EXPRT for one lane (R54, R280); a clear tile that the export only reads needs no frame (R56). DESIGN CHOICE (log entry 19): where both the colour and the depth surface fail a check, the
colour surface's fault is the one raised. -/
def State.exprtCheck (s : State) (p : Party) (kill : Bool) (l : Nat) : Chk :=
  match (s.thread p l).ticket with
  | none => (match (s.thread p l).spent with
    | some k => .bad 1 0x0F (surfAddr k.px k.py 0) (surfAux 6 k.surf)
    | none => .bad 1 0x0F 0 (surfAux 6 0))
  | some k =>
    if kill then .ok 0
    else
      let r := s.stateOf k
      let at_ (h : Nat) (reads : Bool) : Chk :=
        match s.surfCheck k.x (BitVec.ofNat 64 (h * 2 ^ 52 + k.px * 2 ^ 18 + k.py * 2 ^ 4)) 0 1 (if reads then .load else .store) with
        | .bad r c a u => .bad (r + 1) c a u
        | .xfault r e v d => .xfault (r + 1) e v d
        | _ => .ok 0
      let colour := at_ k.surf (Rs.cmask r == 0 && ((s.validSurf? k.x k.surf).map Surf.format) != some 0x0C)
      if k.depth = 0 then colour else colour.next (at_ k.depth (!Rs.dwrite r && !Rs.sen r))
/-- EXPRT (R280): the lanes' exports go to their bank units. -/
def execExprt (f : EF) (kill : Bool) (s : State) : Outcome :=
  s.issue (.exprt f kill) fun lanes s =>
    let p := s.cur
    match s.fetchField p lanes false f.b with
    | none => blockOperand s lanes
    | some (zs, s1) =>
      match allLanesAfter s s1 .write lanes fun l => s.exprtCheck p kill l with
      | .inl r => r.keepSpills (s.ctxOf p) fun h l => (((s.thread p l).ticket.map fun k => ({ h, layer := 0, x := k.px, y := k.py, boff := 0, rsv := false } : Texel))).getD
          { h := 0, layer := 0, x := 0, y := 0, boff := 0, rsv := false }
      | .inr _ =>
        if !s.poolClear p lanes then .stall s
        else .done (lanes.foldl (fun (s : State) l =>
          match (s.thread p l).ticket with
          | none => s
          | some k =>
            let e : Export := { ticket := k, kill, col := Vector.ofFn fun i => (s.readOp p l false (colReg f.a i.val)).setWidth 32,
                                z := if f.b.isNone then k.z else (laneVal zs l).setWidth 32, state := s.stateOf k, team := p.team }
            let s := s.modThread p l fun t => { t with ticket := none, spent := some k }
            (s.modRaster k.x fun r => { r with exports := r.exports ++ [e] }).dueOnce (.exportApply k.x k.surf k.px k.py)) (s1.engineRelease p lanes))

/-- The compares of R69 on two values: less, equal, greater, and none with a NaN. DESIGN CHOICE (log entry 19): always passes with a NaN as well,
though R70 says that NaN compares false. -/
def cmpFunc (f : Nat) (o : Option Ordering) : Bool :=
  match f, o with
  | 0, _ => false | 7, _ => true
  | _, none => false
  | 1, o => o == some .lt | 2, o => o == some .eq | 3, o => o != some .gt | 4, o => o == some .gt | 5, o => o != some .eq | _, o => o != some .lt
/-- IEEE order, none with a NaN. -/
def fOrd (a b : FVal) : Option Ordering := if a.isNan || b.isNan then none else some (a.cmp b)
/-- A stencil operation (R69). -/
def stencilOp (op : Nat) (s ref : BitVec 8) : BitVec 8 :=
  match op with
  | 0 => s | 1 => 0 | 2 => ref
  | 3 => if s = 255 then s else s + 1
  | 4 => if s = 0 then s else s - 1
  | 5 => ~~~ s | 6 => s + 1 | _ => s - 1
/-- A blend factor for a channel (R69): source and destination colours, and the constant. -/
def blendFactor (f : Nat) (src dst con : Nat → Nat) (c : Nat) : Nat :=
  let one := 0x3F800000
  let inv (v : Nat) : Nat := f32add one (neg32 v)
  match f with
  | 0 => 0 | 1 => one | 2 => src c | 3 => inv (src c) | 4 => src 3 | 5 => inv (src 3) | 6 => dst c | 7 => inv (dst c)
  | 8 => dst 3 | 9 => inv (dst 3) | 10 => con c | _ => inv (con c)
/-- The blend of one channel, every step in FP32 (R70). -/
def blendChan (r : Vector DWord 4) (src dst con : Nat → Nat) (c : Nat) : Nat :=
  let a := f32mul (src c) (blendFactor (Rs.srcf r) src dst con c)
  let b := f32mul (dst c) (blendFactor (Rs.dstf r) src dst con c)
  match Rs.bop r with
  | 0 => f32add a b
  | 1 => f32add a (neg32 b)
  | 2 => f32add b (neg32 a)
  | n => f32r (fminVal false (n == 4) (f32v (src c)) (f32v (dst c)))
/-- FromF32 into a channel of width `w`: the bits; a NaN in an FP32 channel is the canonical one (R70, R110). DESIGN CHOICE (log entry 19): the
stencil channel of a D32FS8 target, which R70 lists under no kind, takes the component's low 8 bits. -/
def fromF32 (kind : ChanKind) (w v : Nat) : Nat :=
  match kind with
  | .norm =>
    let x := f32v v
    if x.isNan || x.neg then 0
    else if x.cmp (.fin false 1 0) = .gt then 2 ^ w - 1
    else match (x.mul (ofInt (2 ^ w - 1))).1 with | .fin _ m e => (roundTo .rn false m e 0).1 | _ => 0
  | .fp16 => (f16F.round .rn (f32v v)).1
  | .bf16 => (bf16F.round .rn (f32v v)).1
  | .fp32 => f32r (f32v v)
  | .depth => if w = 32 then f32r (f32v v) else v % 2 ^ w
  | _ => v % 2 ^ w
/-- The cells of the bytes that hold a channel, from the new texel. -/
def chanCells (loc fmt texel c : Nat) : List Host.Cell :=
  let lo := ((fmtChans fmt).take c).sum
  let w := (fmtChans fmt).getD c 0
  (List.range ((lo + w + 7) / 8 - lo / 8)).map fun i => (loc + lo / 8 + i, BitVec.ofNat 8 (texel >>> (8 * (lo / 8 + i))))
/-- The stencil and the depth test of an export (R70). -/
def State.exportTests (s : State) (e : Export) : Bool × Bool :=
  let k := e.ticket
  let r := e.state
  let dz := if k.depth = 0 then 0 else s.homeReadN (texelLoc k.x k.depth 0 k.px k.py 0) 8
  let st : BitVec 8 := BitVec.ofNat 8 (dz / 2 ^ 32)
  (!Rs.sen r || cmpFunc (Rs.sfunc r) (some (compare (Rs.sref r &&& Rs.srmask r).toNat (st &&& Rs.srmask r).toNat)),
   k.depth == 0 || cmpFunc (Rs.dfunc r) (fOrd (f32v e.z.toNat) (f32v dz)))
/-- The channels that an export writes (R70). -/
def Rs.chans (r : Vector DWord 4) (fmt : Nat) : List Nat := (List.range (fmtChans fmt).length).filter fun c => (Rs.cmask r).getLsbD c
/-- The export applied at its pixel (R70, R72). Values that a target lacks as a destination alpha are free values. -/
def State.applyExport (s : State) (e : Export) : State :=
  let k := e.ticket
  let r := e.state
  match s.surf? k.x k.surf with
  | none => s
  | some u =>
    let loc := texelLoc k.x k.surf 0 k.px k.py 0
    if Surf.format u = 0x0C then
      let v : DWord := (vget e.col 1 ++ vget e.col 0 : BitVec 64)
      (s.touchLocs [loc]).homeAtomic .max .n64 loc v 0 |>.2
    else
      let dloc := texelLoc k.x k.depth 0 k.px k.py 0
      let s := s.touchLocs (if k.depth = 0 then [loc] else [loc, dloc])
      let dz := if k.depth = 0 then 0 else s.homeReadN dloc 8
      let st : BitVec 8 := BitVec.ofNat 8 (dz / 2 ^ 32)
      let (spass, zpass) := s.exportTests e
      let op := if !spass then Rs.opsf r else if !zpass then Rs.opzf r else Rs.opzp r
      let st' := if Rs.sen r then (st &&& ~~~ Rs.swmask r) ||| (stencilOp op st (Rs.sref r) &&& Rs.swmask r) else st
      let pass := spass && zpass
      let s := if Rs.sen r then s.homeWrite [(dloc + 4, st')] else s
      let s := if pass && Rs.dwrite r && k.depth != 0 then s.homeWriteN dloc 4 e.z.toNat else s
      if !pass then s
      else
        let f := Surf.format u
        let (bs, _) := s.texelBytes k.x u 0 k.px k.py
        let free := (Config.freeValue s.freeCtr).toNat % 2 ^ 32
        let dst (c : Nat) : Nat := if c < (fmtChans f).length then f32r (chanValue f bs c) else free
        let src (c : Nat) : Nat := (vget e.col c).toNat
        let con (c : Nat) : Nat := f32r (f16F.decode (fld (vget r 2) (16 * c) 16))
        let val (c : Nat) : Nat := fromF32 (fmtKind f) ((fmtChans f).getD c 0) (if Rs.ben r then blendChan r src dst con c else src c)
        let chans := Rs.chans r f
        let texel := chans.foldl (fun (t : Nat) c =>
          let lo := ((fmtChans f).take c).sum
          (setFld (BitVec.ofNat 128 t) lo ((fmtChans f).getD c 0) (val c)).toNat) (ofLe bs)
        let s := if Rs.ben r then { s with freeCtr := s.freeCtr + 1 } else s
        s.homeWrite ((chans.flatMap (chanCells loc f texel)).eraseDups)
/-- Whether an export's ticket is at the head of its tile queue: no unretired ticket of the tile comes before it, and no earlier primitive has
yet to be rasterised where it might cover the pixel (R67, R71). -/
def State.exportReady (s : State) (e : Export) : Bool :=
  let k := e.ticket
  let mort (px py : Nat) : Nat := Surf.interleave (px % 4) (py % 4)
  let before (t : Nat × Nat × Nat) : Bool := sameTile t.2 (k.px, k.py) && (t.1 < k.seq || (t.1 == k.seq && mort t.2.1 t.2.2 < mort k.px k.py))
  let covered (q : Prim) : Bool := q.seq < k.seq && Rs.chnd q.state == k.surf && !s.rastStacks.all q.done.contains
  (match s.surf? k.x k.surf with | some u => Surf.format u == 0x0C | none => true) ||
  (!(s.tickets k.x k.surf).any before && !(s.ctx k.x).raster.prims.any covered)
/-- Whether an export would read a poisoned word at its home: a blend, a depth or stencil test, a visibility maximum (R368, R369). -/
def State.exportPoison (s : State) (e : Export) : Bool :=
  let k := e.ticket
  let r := e.state
  let bad (loc n : Nat) : Bool := (List.range n).any fun i => s.homePoisoned (loc + i)
  let loc := texelLoc k.x k.surf 0 k.px k.py 0
  match s.surf? k.x k.surf with
  | none => false
  | some u =>
    s.anyPoison && (((Surf.format u == 0x0C || (Rs.ben r && (s.exportTests e).1 && (s.exportTests e).2)) && bad loc (Surf.bytes u)) ||
      (Surf.format u != 0x0C && k.depth != 0 && (Rs.sen r || Rs.dfunc r != 7) && bad (texelLoc k.x k.depth 0 k.px k.py 0) 8))
/-- The primitives of some launches of a context go, with their fragments and exports. -/
def State.dropPrims (s : State) (x : Nat) (gone : Nat → Bool) : State :=
  let dead (seq : Nat) : Bool := (s.ctx x).raster.prims.any fun q => q.seq == seq && gone q.id.gen
  s.modRaster x fun r => { r with exports := r.exports.filter (fun e => !dead e.ticket.seq), prims := r.prims.filter fun q => !gone q.id.gen }
/-- The surfaces that an export touches, and whether it writes each: the depth surface is read for the tests, the colour surface after them
(R56, R70, R72). -/
def State.exportSurfs (s : State) (e : Export) : List (Nat × Bool) :=
  let k := e.ticket
  let r := e.state
  match s.surf? k.x k.surf with
  | none => []
  | some u =>
    if Surf.format u = 0x0C then [(k.surf, true)]
    else
      let pass := (s.exportTests e).1 && (s.exportTests e).2
      (if k.depth = 0 then [] else [(k.depth, Rs.sen r || (pass && Rs.dwrite r))]) ++
      (if pass then [(k.surf, !(Rs.chans r (Surf.format u)).isEmpty)] else [])
/-- The tile of a pixel as an export needs it: resident, or clear and only read; a refill counts for the exporting team (R56, R62, R303). -/
def State.exportTile (s : State) (e : Export) (h : Nat) (writes : Bool) : TileRes :=
  let k := e.ticket
  match s.surf? k.x h with
  | none => .ok s
  | some u =>
    let t := (Surf.place u k.px k.py 0).2.2.1
    let st := Surf.tile u t
    if st = 0 ∨ (st = 2 ∧ writes = false) then .ok s
    else match s.makeResident k.x h t with
      | .ok s => .ok (if st = 2 then s else s.perfAdd e.team 10 1)
      | r => r
/-- The tiles that an export needs, the depth surface's before the colour surface's. -/
def State.exportTiles (s : State) (e : Export) : TileRes :=
  (s.exportSurfs e).foldl (fun (r : TileRes) h => match r with | .ok s => s.exportTile e h.1 h.2 | r => r) (.ok s)
/-- EXPORT_APPLY (R70, R71): the oldest export at a pixel, once its turn has come and its tiles are resident; then the primitives whose
tickets have all retired complete. DESIGN CHOICE (log entry 19): a killed ticket that is not at the head of its tile queue leaves the queue at its
turn; and an export whose EXPRT passed its checks, and whose tile's refill then fails its translation, waits at its bank unit until the refill can be
made: no thread stands at the EXPRT any more that could take the fault. -/
def execExportApply (x handle px py : Nat) (s : State) : Outcome :=
  let here := (s.ctx x).raster.exports.filter fun e => e.ticket.surf == handle && e.ticket.px == px && e.ticket.py == py
  match sortBy (fun (a b : Export) => a.ticket.seq ≤ b.ticket.seq) here with
  | [] => .next (s.primsDone x)
  | e :: _ =>
    if !s.exportReady e then .next s
    else
      let drop (s : State) : State := (s.modRaster x fun r => { r with exports := r.exports.erase e }).primsDone x
      if e.kill then .next (drop s)
      else
        match s.exportTiles e with
        | .noFrame s1 | .fault s1 _ _ | .hold s1 => .next s1
        | .ok s1 =>
          if s1.exportPoison e then
            .next (match (s1.ctx x).raster.prims.find? fun q => q.seq == e.ticket.seq with | some q => s1.poisonHit x q.id.gen | none => s1)
          else .next (drop (s1.applyExport e))

/-! ## HEVAC (R281) -/

def execHevac (f : EF) (s : State) : Outcome :=
  s.issue (.hevac f) fun lanes s => uniform lanes s fun l =>
    let p := s.cur
    let t := s.team p.team
    let x := t.id.ctx
    match s.fetchField p [l] false f.a with
    | none => blockOperand s lanes
    | some (as, s1) =>
      match s1.fetchField p [l] false f.b with
      | none => blockOperand s lanes
      | some (bs, s2) =>
        match s2.fetchField p [l] false f.c with
        | none => blockOperand s lanes
        | some (cs, s3) =>
          let w : Word := (laneVal as l).setWidth 32
          let n := (laneVal bs l).toNat + 1
          let col := (laneVal cs l).toNat
          let out (s : State) (v : Nat) : Res := .done (s.deliverOp p l false f.dst (BitVec.ofNat 64 v))
          if !s.poolClear p lanes then .stall s
          else
            let s4 := s3.engineRelease p lanes
            let refuse (v : Nat) : Res := out (s4.setRelStat x 2 1 1) v
            match s.evacRefusal x col [] with
            | some v => refuse v
            | none =>
              if 256 < n then refuse 3
              else match allLanesAfter s s3 .read [l] fun _ => s.ldsrRange t 1 w (2 * n) 2 with
              | .inl r => r.at l lanes
              | .inr _ =>
                let list := (List.range n).map fun i => ofLe [s4.overlay t.id.cluster (t.spLoc w + 2 * i), s4.overlay t.id.cluster (t.spLoc w + 2 * i + 1)]
                match s.evacRefusal x col list with
                | some v => refuse v
                | none => out (s4.evacuate x col list) 0

end Sys2Proof.Machine
end

