-- ==== Sys2Proof/Machine/Vxm.lean ====
section
/-! DEFINITION. The near-bank arrays: VXMCFG, VXM and its passes (R73, R74, R113, R114, R272 to R274). -/
namespace Sys2Proof.Machine

/-- Whether the sum of values of one sign overflows FP32: then, and only then, some partial sum in some order does (R111). -/
def canOverflow (l : List FVal) : Bool := (exactSum l).abs.cmp (.fin false (2 ^ 25 - 1) 103) != .lt
/-- A result that the part chooses within a bound: the free value where it keeps it, else the rounded exact sum. Where partial sums of one sign can
overflow in some order, the free value may be that infinity, and NaN, the canonical one, where those of both signs can (R100, R111, R113). -/
def pickSum (cand : Nat) (all : List FVal) (scale : FVal) (k : Nat) (e : Int) : Nat :=
  let c := cand % 2 ^ 32
  let infs (n : Bool) : Bool := all.any fun v => match v with | .inf m => m == n | _ => false
  if all.any FVal.isNan || (infs true && infs false) then f32F.qnan
  else if infs false then f32F.infBits
  else if infs true then f32F.infBits + 2 ^ 31
  else
    let exact := exactSum all
    let up := canOverflow (all.filter (!·.neg))
    let down := canOverflow (all.filter (·.neg))
    match f32v c with
    | .nan _ => if up && down then f32F.qnan else f32r exact
    | .inf n => if (if n then down else up) then c else f32r exact
    | _ => if within c exact scale k e then c else f32r exact
/-- A trap that the completion point of an engine operation raises, with the accumulator undefined (R115, R116, R368). -/
def State.tileTrap (s : State) (who : Party) (cause : Nat) : State :=
  s.rollbackDue who { cause, pc := (s.thread who 0).pc }

namespace Vxc
def k (v : DWord) : Nat := fld v 0 13
def n (v : DWord) : Nat := fld v 13 9
def c0 (v : DWord) : Nat := fld v 32 14
def wfmt (v : DWord) : Nat := fld v 48 3
end Vxc
/-- VXMCFG (R272). -/
def execVxmcfg (f : EF) (wfmt : BitVec 3) (s : State) : Outcome :=
  s.issue (.vxmcfg f wfmt) fun lanes s => uniform lanes s fun l =>
    let p := s.cur
    match s.fetchField p [l] false f.a with
    | none => blockOperand s lanes
    | some (ks, s1) =>
      match s1.fetchField p [l] false f.b with
      | none => blockOperand s lanes
      | some (ns, s2) =>
        match s2.fetchField p [l] false f.c with
        | none => blockOperand s lanes
        | some (cs, s3) =>
          let (k, n, c) := ((laneVal ks l).toNat, (laneVal ns l).toNat, (laneVal cs l).toNat)
          if k < 1 || 4096 < k || n < 1 || 256 < n || 16383 < c then .trap s3 0x0F [l] 0 (surfAux 8 0)
          else .done (s3.modGroup p fun g => { g with vxc := BitVec.ofNat 64 (wfmt.toNat * 2 ^ 48 + c * 2 ^ 32 + n * 2 ^ 13 + k) })

/-! ## VXM (R273) -/

/-- The faults of VXM name the lane's pointer (R273). -/
def Chk.named (c : Chk) (ptr : Word) : Chk := match c with | .bad r k _ u => .bad r k (ptr.setWidth 64) u | c => c
/-- Whether a fmt register has the width that a weight format asks for (R273). -/
def weightFmtOk (fmt : Nat) (w : Nat) : Bool := (fmt == 0x10 && decide (5 ≤ w)) || (fmt == 0x11 && decide (w ≤ 4))
/-- The checks of VXM for one lane. -/
def State.vxmCheck (s : State) (t : Team) (vxc : DWord) (x y ptr : Word) : Chk :=
  let (k, n) := (Vxc.k vxc, Vxc.n vxc)
  let h := fld ptr 20 12
  let b := fld ptr 0 20
  let here : DWord := ptr.setWidth 64
  let surf (rank sub : Nat) : Chk := .bad rank 0x0F here (surfAux sub h)
  if k = 0 then surf 1 8
  else
    let weights : Chk :=
      match s.validSurf? t.id.ctx h with
      | none => surf 10 1
      | some u =>
        if !weightFmtOk (Surf.format u) (Nf.width (vget t.regs.fmt (Vxc.wfmt vxc))) then surf 11 3
        else if Surf.height u / 32 < b + ceilDiv k 32 || Surf.width u < Vxc.c0 vxc + n then surf 12 2
        else .ok 0
    (((s.ldsrRange t 2 x (2 * k) 2).named ptr).next ((s.ldsrRange t 6 y (4 * n) 4).named ptr)).next weights
def execVxm (f : EF) (s : State) : Outcome :=
  s.issue (.vxm f) fun lanes s =>
    let p := s.cur
    let t := s.team p.team
    let vxc := (s.group p).vxc
    match s.fetchField p lanes false f.a with
    | none => blockOperand s lanes
    | some (xs, s1) =>
      match s1.fetchField p lanes false f.b with
      | none => blockOperand s lanes
      | some (ps, s2) =>
        match s2.fetchField p lanes false f.dst with
        | none => blockOperand s lanes
        | some (ys, s3) =>
          let w (vs : List (Nat × DWord)) (l : Nat) : Word := (laneVal vs l).setWidth 32
          match allLanesAfter s s3 .read lanes fun l => s.vxmCheck t vxc (w xs l) (w ys l) (w ps l) with
          | .inl r => r
          | .inr _ =>
            if lanes.isEmpty then .done s3
            else if !s.poolClear p lanes then .stall s
            else
              let s4 := s3.engineRelease p lanes
              let (no, t1) := (s4.team p.team).number 5
              .done (s4.modTeam p.team fun _ =>
                { t1 with vxms := t1.vxms ++ [{ who := p, no, rows := lanes.map fun l => (l, w xs l, w ys l, w ps l), vxc }] })

/-! ## The passes -/

/-- The distinct pointers of a VXM, in the order of the lowest lane that supplies each (R273). -/
def VxmOp.ptrs (v : VxmOp) : List Word := (v.rows.map fun r => r.2.2.2).eraseDups
/-- The storage key of a byte of a row block (R74). -/
def State.blockKey (s : State) (x : Nat) (u : Surface) (b off : Nat) : Option Nat :=
  s.surfKey x u (b % 2) (b / 2 * Surf.wblockBytes u + off)
/-- Where element (row, column) of a block and the column's scale lie: byte offsets, and the shift within the element's byte (R74). -/
def weightAt (u : Surface) (row col : Nat) : Nat × Nat :=
  if Surf.format u = 0x10 then (col * 32 + row, 0) else (col * 16 + row / 2, 4 * (row % 2))
def scaleAt (u : Surface) (col : Nat) : Nat := (if Surf.format u = 0x10 then 32 else 16) * Surf.width u + col
/-- The weight at reduction index `k` of a column, scaled, and its poison (R74, R106, R109). -/
def State.weight (s : State) (x : Nat) (u : Surface) (fmt : Word) (b k col : Nat) : FVal × Bool :=
  let get (off : Nat) : Nat × Bool := match s.blockKey x u (b + k / 32) off with | some q => ((s.mem.read q).toNat, s.poisonedKey q) | none => (0, true)
  let (off, sh) := weightAt u (k % 32) col
  let e := get off
  let c := get (scaleAt u col)
  let sc : FVal := if c.1 = 255 then .nan false else .fin false 1 ((c.1 : Int) - 127)
  (((Nf.decode fmt (e.1 / 2 ^ sh)).mul sc).1, e.2 || c.2)
/-- NearBankDot of K products (R113, R114). -/
def nearBankDot (repro : Bool) (prods : List FVal) (cand : Nat) : Nat :=
  let blocks := ceilDiv prods.length 32
  if repro then canonicalSum 0 prods blocks
  else
    let lg := if blocks ≤ 1 then 0 else (blocks - 1).log2 + 1
    pickSum cand prods (exactSum (prods.map FVal.abs)) (2 ^ 24 + (lg + 1) * (2 ^ 13 + 1)) (-37)
/-- Whether an array that the next pass of a VXM needs is unavailable (R274). -/
def State.arrayOff (s : State) (x : Nat) (v : VxmOp) : Bool :=
  match v.ptrs[v.done]? with
  | none => false
  | some ptr =>
    match s.surf? x (fld ptr 20 12) with
    | none => false
    | some u => (List.range (ceilDiv (Vxc.k v.vxc) 32)).any fun i =>
        match s.blockKey x u (fld ptr 0 20 + i) 0 with
        | some q => s.sliceOff ((q - frameBase) / 2 ^ 29) ((q - frameBase) % 2 ^ 29 / 2 ^ 24)
        | none => false
/-- The bits that an upset of a core flips in the engine result at a place (R115). -/
def State.engineFlip (s : State) (c i : Nat) : Nat := (((vget s.cores c).upset.find? (·.1 == i)).map fun e => e.2.toNat % 2 ^ 32).getD 0
/-- Whether the shadow unit finds an FP32 result wrong, among its operands and addends (R115). -/
def engineBad (good flip : Nat) (addends : List FVal) : Bool := flip != 0 && shadowBad f32F.emin (f32v (good ^^^ flip)) (f32v good) addends
/-- What the shadow unit looks at of products: both factors, and the product as an addend (R115). -/
def factors (ab : List (FVal × FVal)) : List FVal := ab.flatMap fun y => [y.1, y.2, (y.1.mul y.2).1]
/-- The y elements of one pass: home, value and the operands and addends of each, and whether poison was read. A lane whose y overlaps an x of the pass ends with
free values (R273). -/
def State.vxmElems (s : State) (t : Team) (v : VxmOp) (ptr : Word) : List (Nat × Nat × List FVal) × Bool :=
  let (k, n) := (Vxc.k v.vxc, Vxc.n v.vxc)
  let rows := v.rows.filter fun r => r.2.2.2 == ptr
  match s.surf? t.id.ctx (fld ptr 20 12) with
  | none => ([], false)
  | some u =>
    let fmt := vget t.regs.fmt (Vxc.wfmt v.vxc)
    let col (j : Nat) : List (FVal × Bool) := (List.range k).map fun i => s.weight t.id.ctx u fmt (fld ptr 0 20) i (Vxc.c0 v.vxc + j)
    let cols := (List.range n).map col
    let xOf (w : Word) : List (FVal × Bool) := (List.range k).map fun i =>
      let l := t.spLoc w + 2 * i
      (bf16F.decode (ofLe [s.overlay t.id.cluster l, s.overlay t.id.cluster (l + 1)]), s.homePoisoned l)
    let xs := rows.map fun r => xOf r.2.1
    let bad := cols.any (·.any (·.2)) || xs.any (·.any (·.2))
    let hits (yw : Word) : Bool := rows.any fun r => decide (t.spLoc yw < t.spLoc r.2.1 + 2 * k) && decide (t.spLoc r.2.1 < t.spLoc yw + 4 * n)
    let out := (List.range rows.length).flatMap fun i =>
      let y := (rows.getD i default).2.2.1
      (List.range n).map fun j =>
        let cand := (Config.freeValue (s.freeCtr + i * n + j)).toNat
        let ab := ((xs.getD i []).zip (cols.getD j [])).map fun q => (q.1.1, q.2.1)
        (t.spLoc y + 4 * j, if hits y then cand % 2 ^ 32 else nearBankDot t.regs.repro (ab.map fun y => (y.1.mul y.2).1) cand, factors ab)
    (out, bad)
/-- One pass: its y elements, each at its home, and whether poison was read (R273). -/
def State.vxmRows (s : State) (t : Team) (v : VxmOp) (ptr : Word) : State × Bool :=
  let (out, bad) := s.vxmElems t v ptr
  let place (i : Nat) (s' : State) : State := let o := out.getD i default; s'.homeWriteN o.1 4 (o.2.1 ^^^ s.engineFlip t.coreNo i)
  ((List.range out.length).foldl (fun s' i => place i s') { s with freeCtr := s.freeCtr + out.length }, bad)
/-- Whether the shadow unit of the near-bank output adders finds a result of a pass wrong (R115). -/
def State.vxmWrong (s : State) (t : Team) (v : VxmOp) (ptr : Word) : Bool :=
  !(vget s.cores t.coreNo).upset.isEmpty &&
    (let out := (s.vxmElems t v ptr).1
     (List.range out.length).any fun i => let o := out.getD i default; engineBad o.2.1 (s.engineFlip t.coreNo i) o.2.2)
/-- The y ranges of a VXM hold undefined values (R116). -/
def State.vxmUndefine (s : State) (t : Team) (v : VxmOp) : State :=
  v.rows.foldl (fun s r => (List.range (Vxc.n v.vxc)).foldl (fun (s : State) j =>
    (s.homeWriteN (t.spLoc r.2.2.1 + 4 * j) 4 ((Config.freeValue s.freeCtr).toNat % 2 ^ 32)) |> fun s => { s with freeCtr := s.freeCtr + 1 }) s) s
/-- The context reaches the stacks that hold the row blocks of a pass (R60, R377). -/
def State.touchRows (s : State) (x : Nat) (v : VxmOp) (ptr : Word) : State :=
  (((List.range (ceilDiv (Vxc.k v.vxc) 32)).map fun i => (fld ptr 0 20 + i) % 2).eraseDups).foldl (fun s n => s.touch x (fld ptr 20 12) n) s
/-- The next pass of a team's oldest VXM; after the last one the VXM completes and tl5 advances (R273, R258). -/
def State.vxmStep (s : State) (uid : Nat) : State :=
  let t := s.team uid
  match t.vxms with
  | [] => s
  | v :: rest =>
    match v.ptrs[v.done]? with
    | none => s
    | some ptr =>
      let (s1, bad) := (s.touchRows t.id.ctx v ptr).vxmRows t v ptr
      let wrong := s.vxmWrong t v ptr
      if v.done + 1 < v.ptrs.length && !bad && !wrong then s1.modTeam uid fun t => { t with vxms := { v with done := v.done + 1 } :: rest }
      else
        let s2 := ((s1.modTeam uid fun t => { t with vxms := rest }).finishTl uid 5 v.no).modGroup v.who fun g => { g with pix := 0 }
        if bad then s2.tileTrap v.who 0x21
        else if wrong then (s2.vxmUndefine t v).tileTrap v.who 0x22
        else s2
/-- VXM_PASS (R273); a pass whose array is unavailable goes to the core's matrix engine (R274). -/
def execVxmPass (team : Nat) (s : State) : Outcome :=
  let t := s.team team
  match t.vxms with
  | [] => .next s
  | v :: _ =>
    if s.arrayOff t.id.ctx v then
      .next (if (vget s.cores t.coreNo).tiles.contains (.vxm team) then s else s.modCore t.coreNo fun c => { c with tiles := c.tiles ++ [.vxm team] })
    else .next (s.vxmStep team)

end Sys2Proof.Machine
end

