-- ==== Sys2Proof/Machine/Matrix.lean ====
section
/-! DEFINITION. Caddy streams and the matrix engine: reservations, pushes, multiplies, gangs, accumulators (R111, R112, R114, R117 to R129, R267 to R271). -/
namespace Sys2Proof.Machine

/-- TRAP_AUX of trap 0x1B (R123). -/
def streamAux (reason tag acc : Nat) : DWord := BitVec.ofNat 64 (reason * 256 + tag * 2 ^ 16 + acc * 2 ^ 24)
/-- Whether a copy record may still deliver to a stream (R122). -/
def Team.recordsTo (t : Team) (tag : Nat) : Bool :=
  t.copy.toList.any fun c => c.recs.any fun r => r.status == 0 && Rec.dsp r.w == 3 && fld (Rec.dst r.w) 0 3 == tag
def TileOp.acc : TileOp → Nat | .mma _ _ a _ _ _ _ _ _ _ => a | .wr _ _ a _ _ => a | .st _ _ _ a _ _ => a | .place _ _ a => a | .vxm _ => 16
def TileOp.no : TileOp → Nat | .mma _ n _ _ _ _ _ _ _ _ => n | .wr _ n _ _ _ => n | .st _ _ n _ _ _ => n | .place _ n _ => n | .vxm _ => 0
def TileOp.names (o : TileOp) (tag : Nat) : Bool := match o with | .mma _ _ _ a b _ _ _ _ _ => a == tag || b == tag | _ => false
def State.tilesOf (s : State) (t : Team) : List TileOp := (vget s.cores t.coreNo).tiles.filter fun o => o.team == t.id.uid

/-! ## Reservations (R119, R267) -/

/-- The first condition of R119 that a reservation image breaks. -/
def Team.cdresBad (t : Team) (tag : Nat) (w : DWord) : Option Nat :=
  let okFmt (k : Nat) : Bool := Nf.ok (vget t.regs.fmt k)
  let base := Cds.base w
  let len := Cds.len w
  let st : Stream := { w0 := w }
  let fmtsOk : Bool := (match Cds.etype w with | some (.nf k) => okFmt k.toNat | _ => true) && (Cds.skind w != 2 || okFmt (Cds.sfmt w))
  let clash := (List.range 8).any fun i =>
    let o := (vget t.streams i).w0
    i != tag && Cds.valid o && decide (base < Cds.base o + Cds.len o) && decide (Cds.base o < base + len)
  if Cds.valid (vget t.streams tag).w0 then some 4
  else if (match Cds.etype w with | some .f32 | some .f16 | some .bf16 | some (.nf _) => false | _ => true) || Cds.skind w == 3 ||
      fld w 48 4 != 0 || fld w 1 21 != 0 || len == 0 || 65536 < len then some 3
  else if (Cds.blk w == 0) != (Cds.skind w == 0) || (Cds.blk w == 0 && Cds.soff w != len) || len < Cds.soff w then some 3
  else if !fmtsOk then some 3
  else if base < t.regs.cdBase || t.regs.cdBase + t.regs.cdSize < base + len || clash then some 3
  else if Cds.blk w != 0 && st.scap * Cds.blk w < st.cap t.regs.fmt then some 3
  else none
def execCdres (f : EF) (tag : BitVec 3) (s : State) : Outcome :=
  s.issue (.cdres f tag) fun lanes s => uniform lanes s fun l =>
    let p := s.cur
    match s.fetchField p [l] true f.a with
    | none => blockOperand s lanes
    | some (vs, s1) =>
      match (s.team p.team).cdresBad tag.toNat (laneVal vs l) with
      | some r => .trap s1 0x1B [l] 0 (streamAux r tag.toNat 0)
      | none => .done (s1.modTeam p.team fun t => { t with streams := vset t.streams tag.toNat { w0 := setBit (laneVal vs l) 0 true } })
/-- CDREL (R122, R267): after the tile operations and producers that name the tag. -/
def execCdrel (f : EF) (tag : BitVec 3) (s : State) : Outcome :=
  s.issue (.cdrel f tag) fun lanes s => uniform lanes s fun _ =>
    let p := s.cur
    let t := s.team p.team
    let st := vget t.streams tag.toNat
    if !Cds.valid st.w0 then .done s
    else if (s.tilesOf t).any (·.names tag.toNat) || t.latch.any (fun g => g.a == tag.toNat || g.b == tag.toNat) || !st.pend.isEmpty || t.recordsTo tag.toNat then .stall s
    else .done (s.modTeam p.team fun t => { t with streams := vmod t.streams tag.toNat fun st => { st with w0 := setBit st.w0 0 false, raw := [], poison := [] } })
/-- CDPUSH (R268): the guarded lanes' bytes enter the stream as one unit. -/
def execCdpush (f : EF) (sz : BitVec 2) (tag : BitVec 3) (s : State) : Outcome :=
  s.issue (.cdpush f sz tag) fun lanes s => uniform lanes s fun l =>
    let p := s.cur
    let st := vget (s.team p.team).streams tag.toNat
    if !Cds.valid st.w0 then .trap s 0x1B lanes 0 (streamAux 1 tag.toNat 0)
    else if st.pend.any fun e => e.1 == some (p, l) then
      match s.streamPush p l tag.toNat [] with | (s, true) => .done s | (s, false) => .stall s
    else match s.fetchField p lanes (sz == 3) f.a with
    | none => blockOperand s lanes
    | some (vs, s1) =>
      if !s.poolClear p lanes then .stall s
      else match (s1.engineRelease p lanes).streamPush p l tag.toNat (lanes.flatMap fun k => leBytes (2 ^ sz.toNat) (laneVal vs k).toNat) with
        | (s, true) => .done s
        | (s, false) => .stall s
/-- STREAM_APPEND: the head producer's bytes enter as far as there is room (R121). -/
def execStreamAppend (team tag : Nat) (s : State) : Outcome := .next (s.streamStep team tag)

/-! ## Elements (R105, R106, R109, R120) -/

/-- The value at a position of a stream: the element with its block's scale. -/
def State.streamElem (s : State) (t : Team) (st : Stream) (pos : Nat) : FVal :=
  let fmt := t.regs.fmt
  let cap := max 1 (st.cap fmt)
  let byte (off : Nat) : Nat := (s.mem.read (caddyKey t.id.cluster t.id.core (Cds.base st.w0 + off))).toNat
  let i := pos % cap
  let v : FVal := match Cds.etype st.w0 with
    | some .f32 => bf16F.decode (bf16F.round .rn (f32F.decode (byte (4 * i) + 256 * byte (4 * i + 1) + 65536 * byte (4 * i + 2) + 2 ^ 24 * byte (4 * i + 3)))).1
    | some .f16 => f16F.decode (byte (2 * i) + 256 * byte (2 * i + 1))
    | some .bf16 => bf16F.decode (byte (2 * i) + 256 * byte (2 * i + 1))
    | some (.nf k) =>
      let f := vget fmt k.toNat
      if Nf.width f ≤ 4 then Nf.decode f (byte (i / 2) / (if i % 2 = 1 then 16 else 1)) else Nf.decode f (byte i)
    | _ => .fin false 0 0
  if Cds.blk st.w0 = 0 then v
  else
    let c := byte (Cds.soff st.w0 + (pos / Cds.blk st.w0) % max 1 st.scap)
    let sc : FVal := if Cds.skind st.w0 = 1 then (if c = 255 then .nan false else .fin false 1 ((c : Int) - 127)) else Nf.decode (vget fmt (Cds.sfmt st.w0)) c
    if sc.isZero then .fin false 0 0 else (v.mul sc).1
def Stream.kc (st : Stream) (k : Nat) : Nat := if Cds.blk st.w0 = 0 then k else ceilDiv k (Cds.blk st.w0) * Cds.blk st.w0
/-- Whether the positions of k-slice `n` of `rows` rows have arrived (R128). -/
def Stream.sliceReady (st : Stream) (rows k n : Nat) : Bool :=
  let kc := st.kc k
  kc ≤ 32 * n || st.head + (rows - 1) * kc + min (32 * (n + 1)) kc ≤ st.tail

/-! ## Accumulation (R111, R112, R114) -/

/-- One output element of a multiply: the prior value, the K products (as pairs), a free value, and which all-zero slices are skipped (R111, R112);
⌈log2 (K + 1)⌉ is ⌊log2 K⌋ + 1. -/
def accumulate (c : Nat) (ab : List (FVal × FVal)) (f0 : Nat) (skip : Nat → Bool) : Nat :=
  let k := ab.length
  let slice (j : Nat) : List (FVal × FVal) := (ab.drop (32 * j)).take 32
  let kept := (List.range (ceilDiv k 32)).flatMap fun j =>
    let l := slice j
    if (l.all (·.1.isZero) || l.all (·.2.isZero)) && skip j then [] else l
  let prods := kept.map fun x => (x.1.mul x.2).1
  let scale := exactSum (((f32v c) :: prods).map FVal.abs)
  pickSum f0 (f32v c :: prods) scale (Nat.log2 k + 2) (-24)

/-! ## Accumulators (R124 to R127) -/

def AccSlot.elem (a : AccSlot) (i : Nat) : Nat := match a.elems.find? (·.1 == i) with | some e => e.2.toNat | none => 0
/-- An element written, clean (R368). -/
def AccSlot.put (a : AccSlot) (i v : Nat) : AccSlot :=
  let rest := a.elems.filter (·.1 != i)
  { a with elems := if v = 0 then rest else insertBy (fun x y => x.1 ≤ y.1) (i, BitVec.ofNat 32 v) rest, poison := a.poison.filter (· != i) }
def State.slotOf (s : State) (t : Team) (acc : Nat) : Option AccSlot := (vget t.accs acc).map fun i => vget (vget s.cores t.coreNo).slots i
def State.modSlot (s : State) (c i : Nat) (f : AccSlot → AccSlot) : State := s.modCore c fun k => { k with slots := vmod k.slots i f }
def Team.bound (t : Team) : Nat := (t.accs.toList.filter Option.isSome).length
/-- How binding a tag for a write goes: bound, over the quota, or no free slot (R124, R125). -/
inductive BindRes where | ok (s : State) | quota | wait
  deriving Inhabited
def State.bindAcc (s : State) (uid acc : Nat) : BindRes :=
  let t := s.team uid
  match vget t.accs acc with
  | some _ => .ok s
  | none =>
    if t.regs.accq ≤ t.bound then .quota
    else match (List.range 16).find? fun i => let a := vget (vget s.cores t.coreNo).slots i; !a.bound && !a.clearing with
    | none => .wait
    | some i => .ok ((s.modSlot t.coreNo i fun _ => { bound := true }).modTeam uid fun t => { t with accs := vset t.accs acc (some i) })
/-- A tag is unbound and its slot begins to clear (R124). -/
def State.unbindAcc (s : State) (uid acc : Nat) : State :=
  let t := s.team uid
  match vget t.accs acc with
  | none => s
  | some i => (s.modSlot t.coreNo i fun _ => { clearing := true }).modTeam uid fun t => { t with accs := vset t.accs acc none }
def execAccSlotCleared (cluster core slot : Nat) (s : State) : Outcome :=
  .next (s.modSlot (coreNo cluster core) slot fun a => if a.clearing then {} else a)
/-- A tile operation takes its place in the matrix engine's order, its number and its count (R126, R175, R258). -/
def State.pushTile (s : State) (p : Party) (op : Nat → TileOp) : State :=
  let (n, t) := (s.team p.team).number 4
  let s := s.modTeam p.team fun _ => t
  (s.modCore t.coreNo fun c => { c with tiles := c.tiles ++ [op n] }).modGroup p fun g => g.addCount .tile 1
/-- An MMAG's number and its count, from its issue on (R126, R258). -/
def State.takeTile (s : State) (p : Party) : Nat × State :=
  let (n, t) := (s.team p.team).number 4
  (n, (s.modTeam p.team fun _ => t).modGroup p fun g => g.addCount .tile 1)
/-- A party's place in its matrix engine's order (R126). -/
def State.placeOf? (s : State) (p : Party) : Option TileOp :=
  (vget s.cores (s.team p.team).coreNo).tiles.find? fun | .place w _ _ => w == p | _ => false
/-- Whether an earlier tile operation names an accumulator tag of a party's team, one that waits in the rendezvous latch too: those before the
party's own place, where it has one (R126, R129). -/
def State.tagBusy (s : State) (p : Party) (acc : Nat) : Bool :=
  let t := s.team p.team
  match s.placeOf? p with
  | none => (s.tilesOf t).any (·.acc == acc) || t.latch.any (·.acc == acc)
  | some o => ((s.tilesOf t).takeWhile (· != o)).any (·.acc == acc) || t.latch.any fun g => g.acc == acc && decide (g.no < o.no)
/-- An ACCRD or ACCREL that must wait takes its place in the order, once. -/
def State.takePlace (s : State) (p : Party) (acc : Nat) : State :=
  if (s.placeOf? p).isSome then s
  else s.modCore (s.team p.team).coreNo fun c => { c with tiles := c.tiles ++ [.place p ((vget (s.team p.team).tl 4).given + 1) acc] }
/-- Whether a member of the latch stands before a tile operation of its team on a tag or a stream that both name (R126). -/
def GangArr.blocks (uid : Nat) (g : GangArr) (o : TileOp) : Bool := o.team == uid && decide (g.no < o.no) && (o.acc == g.acc || o.names g.a || o.names g.b)
/-- Whether the operation at the head of a matrix engine waits for one in the latch. -/
def State.headHeld (s : State) (o : TileOp) : Bool := (s.team o.team).latch.any (·.blocks o.team o)
/-- The multiplies of a released gang. -/
def gangOps (uid : Nat) (l : List GangArr) : List TileOp :=
  (List.range l.length).map fun i =>
    let g := l.getD i default
    .mma { team := uid, mem := .group g.group } g.no g.acc g.a g.b g.m g.n g.k 0 (decide (i + 1 < l.length))
/-- A multiply of a released gang where its issue stands among its team's operations, but not before one that has begun. -/
def placeOne (uid : Nat) (q : List TileOp) (o : TileOp) : List TileOp :=
  let later (x : TileOp) : Bool := x.team == uid && decide (o.no < x.no)
  match q with
  | .mma w n c a b m k j done g :: r =>
    if 0 < done then .mma w n c a b m k j done g :: (r.takeWhile (!later ·) ++ o :: r.dropWhile (!later ·))
    else q.takeWhile (!later ·) ++ o :: q.dropWhile (!later ·)
  | q => q.takeWhile (!later ·) ++ o :: q.dropWhile (!later ·)
/-- The members of a released gang take their places, each in the order of its issue (R126, R129). DESIGN CHOICE (log entry 31): an operation that
names the gang's B tag and was issued between two members goes behind the last one, since the gang reads B once. -/
def placeAll (uid : Nat) (q : List TileOp) (l : List GangArr) : List TileOp :=
  let ops := gangOps uid l
  let r := ops.foldl (placeOne uid) q
  let k := r.length - (r.reverse.takeWhile fun o => !ops.contains o).length
  let mid := (r.take k).dropWhile fun o => !ops.contains o
  let waits (o : TileOp) : Bool := !ops.contains o && o.team == uid && l.any fun g => o.names g.b
  (r.take k).takeWhile (fun o => !ops.contains o) ++ mid.filter (!waits ·) ++ mid.filter waits ++ r.drop k
def State.placeGang (s : State) (uid : Nat) (l : List GangArr) : State :=
  s.modCore (s.team uid).coreNo fun c => { c with tiles := placeAll uid c.tiles l }

/-! ## Multiplies (R128, R129, R269) -/

def qTag (o : Operand) : Nat := match o with | .q n => n.toNat | _ => 0
/-- M, N and K of a multiply. -/
def State.mnk (s : State) (p : Party) (l : Nat) (o : Operand) : Nat × Nat × Nat :=
  match o with
  | .g n =>
    let v (i : BitVec 8) : Nat := (s.readOp p l false (.g (n + i))).toNat
    (v 0, v 1, v 2)
  | _ => (0, 0, 0)
/-- The conditions of trap 0x1B for a multiply, in order: the reason and the tag (R123, R128). -/
def Team.mmaBad (t : Team) (a b : Nat) (aty bty : Option Ty) (m n k : Nat) : Option (Nat × Nat) :=
  let w (i : Nat) : DWord := (vget t.streams i).w0
  if m = 0 || 32 < m || n = 0 || 32 < n || k = 0 || 65535 < k then some (5, a)
  else if !Cds.valid (w a) then some (1, a)
  else if !Cds.valid (w b) then some (1, b)
  else if aty.isSome && Cds.etype (w a) != aty then some (2, a)
  else if bty.isSome && Cds.etype (w b) != bty then some (2, b)
  else none
def execMma (f : EF) (acc : BitVec 4) (aty bty : Option Ty) (s : State) : Outcome :=
  s.issue (.mma f acc aty bty) fun lanes s => uniform lanes s fun l =>
    let p := s.cur
    let (m, n, k) := s.mnk p l f.c
    let (a, b) := (qTag f.a, qTag f.b)
    match (s.team p.team).mmaBad a b aty bty m n k with
    | some (r, tag) => .trap s 0x1B [l] 0 (streamAux r tag acc.toNat)
    | none =>
      match s.bindAcc p.team acc.toNat with
      | .quota => .trap s 0x19 [l] 0 (acc.setWidth 64)
      | .wait => .stall s
      | .ok s1 => if !s.poolClear p lanes then .stall s
        else .done ((s1.engineRelease p lanes).pushTile p fun no => .mma p no acc.toNat a b m n k 0 false)

/-- Lanes of a group that wait in the rendezvous latch. -/
def State.gangLanes (s : State) (p : Party) : List Nat := (List.range 32).filter fun l => (s.thread p l).wait == some .gang
/-- Lanes that wait at one instruction take its trap together. DESIGN CHOICE (log entry 31): of a gang's trap, a member in the latch has all its
waiting lanes in TRAP_LANES, and the arriving group its lowest guarded one, in which its MMAG acts. -/
def State.trapWaitAll (s : State) (p : Party) (lanes : List Nat) (cause : Nat) (addr aux : DWord) : State :=
  match lanes with
  | [] => s
  | l :: _ =>
    match s.blockedRun? p l with
    | none => s
    | some r =>
      let s := s.modGroup p fun g => lanes.foldl (fun g l => g.unblock l) g
      let x : Trap := { cause, addr, aux, lanes := ofBits 32 lanes, pc := r.slotPc, mid := r.here.2 }
      (match p.mem with | .group _ => s.enterGroup p lanes x | .engine _ => s.memberStop p x true)
/-- Every member of the latch takes a trap, and the latch empties (R129); the numbers that the members took count as done. -/
def State.trapLatchBy (s : State) (uid cause : Nat) (aux : GangArr → DWord) : State :=
  let ms := (s.team uid).latch
  let s := s.modTeam uid fun t => { t with latch := [] }
  ms.foldl (fun s g =>
    let p : Party := { team := uid, mem := .group g.group }
    (((s.finishTl uid 4 g.no).modGroup p fun g => g.subCount .tile 1).trapWaitAll p (s.gangLanes p) cause 0 (aux g))) s
def State.trapLatch (s : State) (uid cause : Nat) (aux : DWord) : State := s.trapLatchBy uid cause fun _ => aux
/-- The first way in which the members of a gang disagree (R129). -/
def gangBad (l : List GangArr) : Option Nat :=
  match l with
  | [] => none
  | g :: gs =>
    let dup (f : GangArr → Nat) : Bool := (l.map f).eraseDups.length != l.length
    if gs.any (·.k != g.k) then some 1 else if gs.any (·.b != g.b) then some 2 else if gs.any (·.n != g.n) then some 3
    else if dup (·.a) || dup (·.acc) then some 4 else none
/-- A listed group ended without being in the latch (R129 reason 5). -/
def Team.gangMissing (t : Team) : Bool :=
  (bitsOf t.regs.gang).any fun g => !(t.latch.any (·.group == g)) && ((t.groups.getD g default).threads.toList.all fun h => h.life != .live)
/-- The members' bindings made together (R129). -/
def State.bindGang (s : State) (uid : Nat) (l : List GangArr) : BindRes :=
  l.foldl (fun r g => match r with | .ok s => s.bindAcc uid g.acc | r => r) (.ok s)
/-- MMAG (R129, R269). DESIGN CHOICE (log entry 31): the conditions of trap 0x1B are tested before reasons 5 and 6 of trap 0x1A. -/
def execMmag (f : EF) (acc : BitVec 4) (aty bty : Option Ty) (s : State) : Outcome :=
  s.issue (.mmag f acc aty bty) fun lanes s => uniform lanes s fun l =>
    let p := s.cur
    let t := s.team p.team
    let (m, n, k) := s.mnk p l f.c
    let me : GangArr := { group := groupIx p, acc := acc.toNat, a := qTag f.a, b := qTag f.b, m, n, k }
    let listed : Bool := match p.mem with | .group g => t.regs.gang.getLsbD g | .engine _ => false
    match t.mmaBad me.a me.b aty bty m n k with
    | some (r, tag) => .trap s 0x1B [l] 0 (streamAux r tag acc.toNat)
    | none =>
      if !listed then .trap (s.trapLatch p.team 0x1A 6) 0x1A [l] 0 6
      else if t.gangMissing && !(t.latch.any (·.group == me.group)) && ((bitsOf t.regs.gang).any fun g => g != me.group && !(t.latch.any (·.group == g)) &&
          ((t.groups.getD g default).threads.toList.all fun h => h.life != .live)) then .trap (s.trapLatch p.team 0x1A 5) 0x1A [l] 0 5
      else if !s.poolClear p lanes then .stall s
      else
        let all := t.latch ++ [me]
        if !((bitsOf t.regs.gang).all fun g => all.any (·.group == g)) then
          let (no, s1) := (s.engineRelease p lanes).takeTile p
          .block (s1.modTeam p.team fun u => { u with latch := t.latch ++ [{ me with no }] }) (lanes.map fun l => (l, .gang))
        else match gangBad all with
        | some r => .trap (s.trapLatch p.team 0x1A (BitVec.ofNat 64 r)) 0x1A [l] 0 (BitVec.ofNat 64 r)
        | none =>
          match s.bindGang p.team all with
          | .quota => .trap (s.trapLatchBy p.team 0x19 fun g => BitVec.ofNat 64 g.acc) 0x19 [l] 0 (acc.setWidth 64)
          | .wait => .stall s
          | .ok s1 =>
            let (no, s2) := (s1.engineRelease p lanes).takeTile p
            let s3 := (s2.modTeam p.team fun t => { t with latch := [] }).placeGang p.team (t.latch ++ [{ me with no }])
            .done (t.latch.foldl (fun s g => let q : Party := { team := p.team, mem := .group g.group }; (s.gangLanes q).foldl (fun s l => s.goOn q l) s) s3)

/-- MMA_SLICE: the next k-slice of the multiply at the head of a core's matrix engine, once its positions have arrived (R126, R128). -/
def execMmaSlice (cluster core : Nat) (s : State) : Outcome :=
  let c := coreNo cluster core
  match (vget s.cores c).tiles with
  | .mma who no acc a b m n k done gang :: rest =>
    let t := s.team who.team
    let (sa, sb) := (vget t.streams a, vget t.streams b)
    if s.headHeld (.mma who no acc a b m n k done gang) || ceilDiv (max (sa.kc k) (sb.kc k)) 32 ≤ done || !sa.sliceReady m k done || !sb.sliceReady n k done then .next s
    else .next (s.modCore c fun x => { x with tiles := .mma who no acc a b m n k (done + 1) gang :: rest })
  | _ => .next s

/-- The pairs of factors of element `ij` of a multiply. -/
def State.mmaPairs (s : State) (t : Team) (a b n k ij : Nat) : List (FVal × FVal) :=
  let rowOf (st : Stream) (i : Nat) : List FVal := (List.range k).map fun q => s.streamElem t st (st.head + i * st.kc k + q)
  (rowOf (vget t.streams a) (ij / n)).zip (rowOf (vget t.streams b) (ij % n))
/-- Element `ij` of a multiply onto an accumulator (R111, R114). -/
def State.mmaElem (s : State) (t : Team) (old : AccSlot) (a b n k ij : Nat) : Nat :=
  let ab := s.mmaPairs t a b n k ij
  let c := old.elem (32 * (ij / n) + ij % n)
  if t.regs.repro then canonicalSum c (ab.map fun y => (y.1.mul y.2).1) (ceilDiv k 32)
  else
    let at0 := s.freeCtr + 33 * ij
    accumulate c ab (Config.freeValue at0).toNat fun q => (Config.freeValue (at0 + 1 + q / 64)).getLsbD (q % 64)
/-- The accumulator after a multiply (R111, R114, R128), and the free values taken. -/
def State.mmaResult (s : State) (t : Team) (acc a b m n k : Nat) : AccSlot × Nat :=
  let old := (s.slotOf t acc).getD {}
  let one (x : AccSlot) (ij : Nat) : AccSlot :=
    let at_ := 32 * (ij / n) + ij % n
    x.put at_ (s.mmaElem t old a b n k ij ^^^ s.engineFlip t.coreNo at_)
  ((List.range (m * n)).foldl one old, 33 * m * n)
/-- Whether the shadow unit of the output adders finds an element of a multiply wrong (R115). -/
def State.mmaWrong (s : State) (t : Team) (acc a b m n k : Nat) : Bool :=
  let old := (s.slotOf t acc).getD {}
  (vget s.cores t.coreNo).upset.any fun e =>
    let (i, j) := (e.1 / 32, e.1 % 32)
    decide (i < m) && decide (j < n) &&
      engineBad (s.mmaElem t old a b n k (i * n + j)) (s.engineFlip t.coreNo e.1) (f32v (old.elem e.1) :: factors (s.mmaPairs t a b n k (i * n + j)))
/-- Whether a multiply meets a poisoned position or accumulator element (R368). -/
def State.mmaPoison (s : State) (t : Team) (acc a b m n k : Nat) : Bool :=
  let hit (st : Stream) (rows : Nat) : Bool := st.poison.any fun q => st.head ≤ q && q < st.head + rows * st.kc k && (q - st.head) % st.kc k < k
  hit (vget t.streams a) m || hit (vget t.streams b) n || ((s.slotOf t acc).getD {}).poison.any fun e => decide (e / 32 < m) && decide (e % 32 < n)
/-- Every element of a slot holds an undefined value (R116). -/
def State.undefineSlot (s : State) (t : Team) (acc : Nat) : State :=
  match vget t.accs acc with
  | none => s
  | some i =>
    let s1 := s.modSlot t.coreNo i fun x => (List.range 1024).foldl (fun x e => x.put e ((Config.freeValue (s.freeCtr + e)).toNat % 2 ^ 32)) x
    { s1 with freeCtr := s1.freeCtr + 1024 }
/-- The head operation leaves the engine: its number completes and its count falls. -/
def State.popTile (s : State) (c : Nat) (who : Party) (no : Nat) : State :=
  ((s.modCore c fun x => { x with tiles := x.tiles.tail }).finishTl who.team 4 no).modGroup who fun g => { g.subCount .tile 1 with pix := 0 }
/-- Whether the shadow unit finds an element that ACCST delivers wrong (R115, R116). -/
def State.storeWrong (s : State) (t : Team) (slot : AccSlot) (ty : Ty) (dest : List (List Nat)) : Bool :=
  (vget s.cores t.coreNo).upset.any fun e =>
    decide (e.1 % 32 < (dest.getD (e.1 / 32) []).length) &&
      (let good := (roundTy t.regs.fmt ty .rn (f32v (slot.elem e.1))).1
       let flip : DWord := BitVec.ofNat 64 (s.engineFlip t.coreNo e.1)
       flip != 0 && shadowBad (eminOf t.regs.fmt ty) (fvalue t.regs.fmt ty (good ^^^ flip)) (fvalue t.regs.fmt ty good) [f32v (slot.elem e.1)])
/-- An element of an ACCST arrives: the thread's own earlier stores to its bytes come home first, then it stands at its home, and the thread goes on
seeing it as a store of its own (R127, R145, R156). -/
def State.storeElem (s : State) (p : Party) (lane loc n v : Nat) : State :=
  ((s.ownHome p lane loc n).homeWriteN loc n v).modTeam p.team fun t => t.modOrd fun o =>
    { o with buf := o.buf ++ [{ writer := (p, lane), homed := true, cells := cellsOf loc n v }] }
/-- The elements of an ACCST, row-major, as they are delivered (R127). -/
def State.storeTile (s : State) (t : Team) (who : Party) (lane : Nat) (slot : AccSlot) (ty : Ty) (dest : List (List Nat)) : State :=
  (List.range dest.length).foldl (fun (s : State) i =>
    let row := dest.getD i []
    (List.range row.length).foldl (fun (s : State) j =>
      s.storeElem who lane (row.getD j 0) (ty.width / 8) ((roundTy t.regs.fmt ty .rn (f32v (slot.elem (32 * i + j)))).1.toNat ^^^ s.engineFlip t.coreNo (32 * i + j))) s) s
/-- The rows of an ACCST with a poisoned element (R368). -/
def AccSlot.poisonedIn (a : AccSlot) (dest : List (List Nat)) : Bool := a.poison.any fun e => decide (e % 32 < (dest.getD (e / 32) []).length)
/-- TILE_OP_COMPLETE: the head operation of a core's matrix engine takes effect (R126 to R128, R270, R271). -/
def execTileOpComplete (cluster core : Nat) (s : State) : Outcome :=
  let c := coreNo cluster core
  if (vget s.cores c).tiles.head?.any s.headHeld then .next s
  else match (vget s.cores c).tiles with
  | [] => .next s
  | .mma who no acc a b m n k done gang :: _ =>
    let t := s.team who.team
    let (sa, sb) := (vget t.streams a, vget t.streams b)
    if done < ceilDiv (max (sa.kc k) (sb.kc k)) 32 then .next s
    else
      let bad := s.mmaPoison t acc a b m n k
      let (slot, free) := s.mmaResult t acc a b m n k
      let s1 := match vget t.accs acc with | some i => s.modSlot c i fun _ => slot | none => s
      let adv (st : Stream) (rows : Nat) : Stream :=
        let h := st.head + rows * st.kc k
        { st with head := h, poison := st.poison.filter (h ≤ ·) }
      let s2 := { s1 with freeCtr := s1.freeCtr + free }
      let s3 := s2.modTeam who.team fun t => { t with streams := vmod t.streams a (adv · m) }
      let s4 := if gang then s3 else s3.modTeam who.team fun t => { t with streams := vmod t.streams b (adv · n) }
      let s5 := s4.popTile c who no
      if bad then .next (s5.tileTrap who 0x21)
      else if s.mmaWrong t acc a b m n k then .next ((s5.undefineSlot t acc).tileTrap who 0x22) else .next s5
  | .wr who no acc row vals :: _ =>
    let t := s.team who.team
    let s1 := match vget t.accs acc with
      | some i => s.modSlot c i fun x => vals.foldl (fun (x : AccSlot) (v : Nat × Word) => x.put (32 * row + v.1) v.2.toNat) x
      | none => s
    .next (s1.popTile c who no)
  | .st who lane no acc ty dest :: _ =>
    let t := s.team who.team
    let slot := (s.slotOf t acc).getD {}
    if slot.poisonedIn dest then .next ((s.popTile c who no).tileTrap who 0x21)
    else if s.storeWrong t slot ty dest then
      let s1 := (dest.flatten).foldl (fun (s : State) loc => (fun (x : DWord × State) => x.2.storeElem who lane loc (ty.width / 8) x.1.toNat) s.fresh) s
      .next ((s1.popTile c who no).tileTrap who 0x22)
    else .next ((s.storeTile t who lane slot ty dest).popTile c who no)
  | .place _ _ _ :: _ => .next s
  | .vxm uid :: _ => .next ((s.modCore c fun x => { x with tiles := x.tiles.tail }).vxmStep uid)

/-! ## Reading, writing and storing tiles (R270, R271) -/

/-- ACCRD (R270): row i to the lanes, after every earlier operation on the tag, in its place among the engine's operations (R126). A conversion of a
signalling NaN sets INV, as a vector conversion's does (R100). -/
def execAccrd (f : EF) (acc : BitVec 4) (ty : Ty) (rnd : Rnd) (s : State) : Outcome :=
  s.issue (.accrd f acc ty rnd) fun lanes s => uniform lanes s fun l =>
    let p := s.cur
    let t := s.team p.team
    match s.fetchField p [l] false f.a with
    | none => blockOperand s lanes
    | some (vs, s1) =>
      let i := (laneVal vs l).toNat
      if 32 ≤ i then .trap s1 0x1B [l] 0 (streamAux 5 0 acc.toNat)
      else if !s.queueTakes p f.dst lanes.length then .stall (s.dropPlace p)
      else if s.tagBusy p acc.toNat then .stall (s.takePlace p acc.toNat)
      else
        let slot := (s.slotOf t acc.toNat).getD {}
        let s1 := s1.dropPlace p
        match lanes.filter fun j => slot.poison.contains (32 * i + j) with
        | b :: bs => .trap s1 0x21 (b :: bs) 0 0
        | [] =>
          let one (j : Nat) : DWord × BitVec 5 :=
            let v := f32v (slot.elem (32 * i + j))
            let r := roundTy t.regs.fmt ty rnd v
            (r.1, r.2 ||| sigInv [v])
          let rs := lanes.map fun j => (j, one j)
          let s2 := rs.foldl (fun s r => if r.2.2 == 0#5 then s else s.modThread p r.1 (·.raise r.2.2)) s1
          .done (rs.foldl (fun s r => s.deliverOp p r.1 false f.dst r.2.1) s2)
/-- ACCWR (R270): the lanes' values to row i, as exact FP32 values. -/
def execAccwr (f : EF) (acc : BitVec 4) (ty : Ty) (s : State) : Outcome :=
  s.issue (.accwr f acc ty) fun lanes s => uniform lanes s fun l =>
    let p := s.cur
    match s.fetchField p [l] false f.a with
    | none => blockOperand s lanes
    | some (vs, s1) =>
      match s1.fetchField p lanes false f.b with
      | none => blockOperand s lanes
      | some (bs, s2) =>
        let i := (laneVal vs l).toNat
        if 32 ≤ i then .trap s2 0x1B [l] 0 (streamAux 5 0 acc.toNat)
        else match s2.bindAcc p.team acc.toNat with
        | .quota => .trap s2 0x19 [l] 0 (acc.setWidth 64)
        | .wait => .stall s
        | .ok s3 =>
          if !s.poolClear p lanes then .stall s
          else
            let vals := bs.map fun v => (v.1, BitVec.ofNat 32 (f32r (fvalue (s.team p.team).regs.fmt ty v.2)))
            .done ((s3.engineRelease p lanes).pushTile p fun no => .wr p no acc.toNat i vals)
/-- ACCST (R271): every fault over all elements first, then the store when the operation retires. -/
def execAccst (f : EF) (acc : BitVec 4) (ty : Ty) (sf : Bool) (s : State) : Outcome :=
  s.issue (.accst f acc ty sf) fun lanes s => uniform lanes s fun l =>
    let p := s.cur
    let t := s.team p.team
    let size := ty.width / 8
    match s.fetchField p [l] sf f.a with
    | none => blockOperand s lanes
    | some (vs, s1) =>
      match s1.fetchField p [l] false f.b with
      | none => blockOperand s lanes
      | some (bs, s2) =>
        let a := laneVal vs l
        let b := laneVal bs l
        let go (dest : List (List Nat)) : Res :=
          if !s.poolClear p lanes then .stall s
          else .done ((s2.engineRelease p lanes).pushTile p fun no => .st p l no acc.toNat ty dest)
        let bad5 : Res := .trap s2 0x1B [l] 0 (streamAux 5 0 acc.toNat)
        if sf then
          let (n, m) := (fld a 7 7 + 1, fld a 0 7 + 1)
          let (x0, y0) := (sfld a 29 15, sfld a 14 15)
          let h := fld a 52 12
          let want := if ty = .f32 then 0x07 else if ty = .f16 then 0x04 else 0x0E
          if 32 < m || 32 < n then bad5
          else
            let chk (i : Nat) : Chk :=
              let (x, y) := (x0 + (i % n : Nat), y0 + (i / n : Nat))
              let texel : DWord := BitVec.ofNat 64 (h * 2 ^ 52 + fld a 44 8 * 2 ^ 44)
              match s.validSurf? t.id.ctx h with
              | none => .bad 3 0x0F (surfAddr x (y % 65536).toNat (fld a 44 8)) (surfAux 1 h)
              | some u =>
                if x < 0 || y < 0 || (Surf.width u : Int) ≤ x || (Surf.height u : Int) ≤ y || Surf.layers u ≤ fld a 44 8 then
                  .bad 4 0x0F (surfAddr x (y % 65536).toNat (fld a 44 8)) (surfAux 2 h)
                else if Surf.format u != want then .bad 5 0x0F (surfAddr x (y % 65536).toNat (fld a 44 8)) (surfAux 3 h)
                else s.surfCheck t.id.ctx (texel + BitVec.ofNat 64 (x.toNat * 2 ^ 18 + y.toNat * 2 ^ 4)) 0 size .store
            match allLanesAfter s s2 .write (List.range (m * n)) chk with
            | .inl (.block s' ws) => (Res.block (s.awaitTiles s' p [h]) ws).at l lanes
            | .inl r => r.at l lanes
            | .inr locs => go ((List.range m).map fun i => ((locs.drop (i * n)).take n).map (·.2.1))
        else
          let m := if fld b 0 6 = 0 then 32 else fld b 0 6
          let n := if fld b 8 6 = 0 then 32 else fld b 8 6
          let pitch := if fld b 16 16 = 0 then n * size else fld b 16 16
          if 32 < m || 32 < n || pitch < n * size || pitch % size != 0 then bad5
          else
            let w : Word := a.setWidth 32
            let off := Spw.off w
            let here : DWord := BitVec.ofNat 64 off
            if Spw.bad t.id.core w then .trap s2 0x13 [l] (w.setWidth 64) (Spw.aux w)
            else if off % size != 0 then .trap s2 0x0C [l] here 0
            else match s.spRange t w off ((m - 1) * pitch + n * size) with
            | .error _ => .trap s2 0x0D [l] here 0
            | .ok loc =>
              match allLanesAfter s s2 .read [l] fun _ => s.fillChk 4 ((List.range m).flatMap fun i => (List.range (n * size)).map fun j => loc + i * pitch + j) with
              | .inl r => r.at l lanes
              | .inr _ => go ((List.range m).map fun i => (List.range n).map fun j => loc + i * pitch + j * size)
/-- ACCREL (R124): after the tag's earlier operations, in its place among them (R126), the slot begins to clear. -/
def execAccrel (f : EF) (acc : BitVec 4) (s : State) : Outcome :=
  s.issue (.accrel f acc) fun lanes s => uniform lanes s fun _ =>
    let p := s.cur
    if s.tagBusy p acc.toNat then .stall (s.takePlace p acc.toNat)
    else .done ((s.dropPlace p).unbindAcc p.team acc.toNat)

end Sys2Proof.Machine
end

