-- ==== Sys2Proof/Machine/Sync.lean ====
section
/-! DEFINITION. Waits, phases, barriers, hand-overs, quota moves, uniform registers and SPAWN (R148, R157 to R159, R175, R282 to R296, R399). -/
namespace Sys2Proof.Machine

/-! ## Waits (R284 to R286, R92, R399) -/

/-- The number of the failed record of a stopped copy context. -/
def CopyCtx.failed? (c : CopyCtx) : Option CopyRec := if c.stopped then c.recs.find? fun r => r.status != 0 && r.status != 1 else none
/-- The fault of R89 that a stopped context raises in a wait: cause, TRAP_ADDR, TRAP_AUX (R92). -/
def CopyCtx.waitFault (c : CopyCtx) (i : Nat) : Option (Nat × DWord × DWord) :=
  let aux : DWord := BitVec.ofNat 64 (c.fstat + 16 * i)
  match c.fstat with
  | 2 | 3 => some (0x0E, c.faddr, aux)
  | 5 => some (0x1B, c.faddr, aux)
  | 4 => some (0x0F, c.fsurf, BitVec.ofNat 64 c.fsub)
  | _ => none
/-- Whether what a lane waits for has come. -/
def State.waitOver (s : State) (p : Party) (w : Wait) : Bool :=
  let t := s.team p.team
  let g := s.group p
  match w with
  | .counters a b c d => g.ldCnt ≤ a && g.stCnt ≤ b && g.cpCnt ≤ c && g.tlCnt ≤ d
  | .tl n target => target ≤ (vget t.tl n).done
  | .ct locs target => target ≤ ofLe (locs.map s.homeRead)
  | .bar n ph => ph < (vget t.bars n).phase
  | .tb loc ticket =>
    let d := (s.homeReadN (loc + 6) 2 % 2 ^ 15 + 2 ^ 15 - ticket % 2 ^ 15) % 2 ^ 15
    1 ≤ d && d ≤ 16384
  | .receiver ch n => (vget t.chans ch).entries.any (·.1 == n)
  | .batch n => !((s.ctx t.id.ctx).batches.any (·.no == n))
  | .operand | .retry => true
  | .stream => !s.streamOwes p
  | .roleq _ _ | .gang | .answer | .host _ _ _ _ | .room => false
/-- The fault that a wait takes instead: from a stopped copy context of its team for a timeline counter, from one of any team for a completion
counter (R92). -/
def State.waitFault (s : State) (p : Party) (w : Wait) : Option (Nat × DWord × DWord) :=
  let among (ts : List Team) : Option (Nat × DWord × DWord) := ts.findSome? fun t => (List.range 4).findSome? fun i =>
    let c := vget t.copy i
    match c.failed?, w with
    | some r, .tl n target => if n = i ∧ r.no ≤ target then c.waitFault i else none
    | some r, .ct locs _ => (match s.cntLoc t r.w with | .ok (some a) => if locs.head? == some a then c.waitFault i else none | _ => none)
    | _, _ => none
  match w with
  | .ct _ _ => among s.teams
  | _ => among [s.team p.team]
/-- The scope at which a satisfied wait acquires (R149). -/
def Wait.scope : Wait → Option Scope
  | .tl _ _ | .ct _ _ => some .device
  | .tb _ _ => some .cluster
  | .bar _ _ | .receiver _ _ => some .team
  | _ => none
def State.waitAcquire (s : State) (p : Party) (w : Wait) : State := match w.scope with | some sc => s.acquire p.team sc | none => s
/-- A group instruction that waits: the fault, the satisfied wait with its acquire, or the whole issue group held. -/
def State.hold (s : State) (p : Party) (lanes : List Nat) (w : Wait) : Res :=
  if lanes.isEmpty then .done s
  else if s.waitOver p w then (if w.scope.isSome && !s.poolClear p lanes then .stall s else .done (s.waitAcquire p w))
  else match s.waitFault p w with
  | some (cause, addr, aux) => .trap s cause lanes addr aux
  | none => .block s (match (s.group p).run with | some r => (bitsOf r.lanes).map (·, w) | none => [])

def numOf (o : Operand) : Nat := match o with | .num n => n.toNat | _ => 0
/-- WAIT (R284). -/
def execWait (f : VF) (s : State) : Outcome :=
  s.issue (.wait f) fun lanes s => s.hold s.cur lanes (.counters (numOf f.dst) (numOf f.a) (numOf f.b) (numOf f.c))
/-- WAITTL (R285). -/
def execWaittl (f : VF) (s : State) : Outcome :=
  s.issue (.waittl f) fun lanes s => uniform lanes s fun l =>
    s.hold s.cur lanes (.tl (numOf f.dst) (s.readOp s.cur l (f.ty == .b64) f.b).toNat)
/-- A check whose failed translation is a fault whatever FLT_CFG says (R286, R352). -/
def Chk.undemand : Chk → Chk
  | .xfault r f va _ => .xfault r f va none
  | c => c
/-- WAITCT (R286). -/
def execWaitct (f : VF) (s : State) : Outcome :=
  s.issue (.waitct f) fun lanes s => uniform lanes s fun l =>
    let p := s.cur
    let t := s.team p.team
    let chk : Chk := if f.sub = 1 then s.ldsrRange t 1 ((s.readOp p l false f.a).setWidth 32) 8 8 else (s.globalCheck p (s.readOp p l true f.a) 8 .read).undemand
    match allLanes s .read [l] fun _ => chk with
    | .inl r => r.at l lanes
    | .inr locs => (if f.sub = 1 then s else s.tlbUseAll p [(s.readOp p l true f.a).toNat] .read).hold p lanes (.ct ((List.range 8).map fun i => (locs.headD default).2.1 + i) (s.readOp p l true f.b).toNat)

/-! ## Phases (R82, R83, R146 to R148, R287) -/

def Scope.ofNat : Nat → Scope | 0 => .team | 1 => .cluster | 2 => .device | _ => .system
/-- PHASE: write-backs, the release, the acquire and the clean lines of every guarded lane, in order. -/
def execPhase (f : VF) (s : State) : Outcome :=
  s.issue (.phase f) fun lanes s =>
    let p := s.cur
    let sc := Scope.ofNat (f.sub.toNat % 4)
    let rel := f.sub.toNat / 4 != 2
    let acq := f.sub.toNat / 4 != 1
    let wide := sc == .device || sc == .system
    if lanes.isEmpty then .done s
    else if !s.poolClear p lanes then .stall s
    else
      let go (s : State) : Res := .done (lanes.foldl (fun (s : State) l =>
        let s := if rel then s.release p l sc else s
        if acq then (fun (s : State) => if wide then s.dropClean p.team else s) (s.acquire p.team sc) else s) s)
      if rel && wide then
        match s.writeBack p.team (s.team p.team).allMaps with
        | .ok s => go s
        | .hold s => .block s (lanes.map (·, .retry))
        | .fail s e va => .xfault s .engine e lanes va
      else go s

/-! ## Team barriers (R288) -/

/-- The arrivals that the open phase of a barrier asks for. -/
def Team.barNeed (t : Team) (b : Barrier) : Nat :=
  match b.count with
  | some n => n
  | none => ((t.groups.filter fun g => b.roles.getLsbD g.role).map fun g => (g.threads.toList.filter fun h => h.life == .live).length).sum
/-- The open phase completes once its arrivals reach the count. -/
def Team.barSettle (t : Team) (n : Nat) : Team :=
  let b := vget t.bars n
  if !b.arrived.isEmpty && t.barNeed b ≤ b.arrived.length then { t with bars := vset t.bars n { phase := b.phase + 1 } } else t
def Team.barArrive (t : Team) (n g l : Nat) (cnt : Option Nat) (roles : Byte) : Team :=
  let b := vget t.bars n
  let b := if b.arrived.isEmpty then { b with count := cnt, roles } else b
  { t with bars := vset t.bars n { b with arrived := b.arrived ++ [(g, l)] } }.barSettle n
/-- BAR: each guarded lane releases and arrives; those whose phase is not complete wait. -/
def execBar (f : VF) (s : State) : Outcome :=
  s.issue (.bar f) fun lanes s =>
    let p := s.cur
    let n := f.sub.toNat
    let roles : Byte := match (s.group p).run with | some r => (headerOf r.hword).role | none => 0
    if !s.poolClear p lanes then .stall s
    else
      let cnt (l : Nat) : Option Nat := if f.a.isNone then none else some (max 1 (min 1024 ((s.readOp p l false f.a).toNat % 2 ^ 32)))
      let step (acc : State × List (Nat × Wait)) (l : Nat) : State × List (Nat × Wait) :=
        let s1 := acc.1.release p l .team
        (s1.modTeam p.team fun t => t.barArrive n (groupIx p) l (cnt l) roles, acc.2 ++ [(l, .bar n (vget (s1.team p.team).bars n).phase)])
      let (s2, ws) := lanes.foldl step (s, [])
      let ended := ws.filter fun w => s2.waitOver p w.2
      let s3 := ended.foldl (fun (s : State) w => s.waitAcquire p w.2) s2
      match ws.filter fun w => !s2.waitOver p w.2 with
      | [] => .done s3
      | w :: rest => .block s3 (w :: rest)

/-! ## Transaction barriers (R157 to R159, R289) -/

/-- The check of a record's address word; an invalid line of a map is filled first (R81, R159). -/
def State.tbCheck (s : State) (t : Team) (w : Word) : Chk :=
  let here : DWord := BitVec.ofNat 64 (Spw.off w)
  if Spw.bad t.id.core w then .bad 1 0x13 (w.setWidth 64) (Spw.aux w)
  else match s.spRange t w (Spw.off w) 16 with
  | .error _ => .bad 2 0x0D here 0
  | .ok loc => if Spw.off w % 16 != 0 then .bad 3 0x0C here 0 else s.fillChk 4 ((List.range 16).map (loc + ·))
/-- A barrier operation of a lane on its way to the network, with its place in the order of R158. -/
def State.tbPost (s : State) (p : Party) (lane : Nat) (op : TbOp) : State :=
  let t := s.team p.team
  s.modCluster t.id.cluster fun c => { c with tbOps := c.tbOps ++ [{ key := t.id.core * 2 ^ 16 + groupIx p * 2 ^ 8 + lane, op }] }
/-- TBINIT, TBEXP, TBARV: the guarded lanes' operations. -/
def State.tbOp (s : State) (i : Instr) (f : VF) (rel : Bool) (op : Nat → Nat → Nat → TbOp) : Outcome :=
  s.issue i fun lanes s =>
    let p := s.cur
    let t := s.team p.team
    match allLanes s .read lanes fun l => s.tbCheck t ((s.readOp p l false f.a).setWidth 32) with
    | .inl r => r
    | .inr locs =>
      if rel && !s.poolClear p lanes then .stall s
      else .done (locs.foldl (fun (s : State) x =>
        (if rel then s.release p x.1 .cluster else s).tbPost p x.1 (op x.2.1 ((s.readOp p x.1 false f.b).toNat % 2 ^ 32) x.1)) s)
def execTbinit (f : VF) (s : State) : Outcome := s.tbOp (.tbinit f) f false fun loc v _ => .init loc (max 1 (min 65535 v))
def execTbexp (f : VF) (s : State) : Outcome := s.tbOp (.tbexp f) f false fun loc v _ => .exp loc v
def execTbarv (f : VF) (s : State) : Outcome := s.tbOp (.tbarv f) f true fun loc v l => .arv loc v s.cur l f.dst
/-- TBWAIT: the issue group goes on once every guarded lane is satisfied. -/
def execTbwait (f : VF) (s : State) : Outcome :=
  s.issue (.tbwait f) fun lanes s => uniform lanes s fun l0 =>
    let p := s.cur
    let t := s.team p.team
    match allLanes s .read lanes fun l => s.tbCheck t ((s.readOp p l false f.a).setWidth 32) with
    | .inl r => r
    | .inr locs =>
      let w (x : Nat × Nat × Page) : Wait := .tb x.2.1 ((s.readOp p x.1 false f.b).toNat % 2 ^ 15)
      if locs.all fun x => s.waitOver p (w x) then
        (if !s.poolClear p lanes then .stall s else .done (locs.foldl (fun (s : State) x => s.waitAcquire p (w x)) s))
      else
        let first := (locs.find? (·.1 == l0)).getD default
        .block s (match (s.group p).run with
          | some r => (bitsOf r.lanes).map fun l => (l, w ((locs.find? (·.1 == l)).getD first))
          | none => [])

/-- A transaction-barrier record as its fields (R157). -/
structure TbRec where
  pnum : Nat := 0
  expa : Nat := 0
  early : Nat := 0
  penda : Nat := 0
  pendb : DWord := 0
  deriving DecidableEq, Repr, Inhabited
def TbRec.ofWords (w0 w1 : DWord) : TbRec := { pnum := fld w0 48 15, expa := fld w0 32 16, early := fld w0 16 16, penda := fld w0 0 16, pendb := w1 }
def TbRec.w0 (r : TbRec) : Nat := r.pnum % 2 * 2 ^ 63 + r.pnum * 2 ^ 48 + r.expa * 2 ^ 32 + r.early * 2 ^ 16 + r.penda
/-- The record that an operation names. -/
def TbOp.loc : TbOp → Nat | .init l _ => l | .exp l _ => l | .arv l _ _ _ _ => l | .copy l _ => l
/-- One clock of one record: TBINITs, arrivals with their tickets, the close test, expectations (R158). -/
def TbRec.clock (r : TbRec) (ops : List TbOp) : TbRec × List (Party × Nat × Operand × Nat) :=
  let r := ops.foldl (fun (r : TbRec) o => match o with | .init _ e => { expa := e, penda := e } | _ => r) r
  let arrive (acc : TbRec × List (Party × Nat × Operand × Nat)) (o : TbOp) : TbRec × List (Party × Nat × Operand × Nat) :=
    match o with
    | .arv _ n who lane dst =>
      let r : TbRec := { acc.1 with pendb := acc.1.pendb - BitVec.ofNat 64 n }
      if 0 < r.penda then ({ r with penda := r.penda - 1 }, acc.2 ++ [(who, lane, dst, r.pnum)])
      else ({ r with early := min 65535 (r.early + 1) }, acc.2 ++ [(who, lane, dst, (r.pnum + 1) % 2 ^ 15)])
    | .copy _ n => ({ acc.1 with pendb := acc.1.pendb - BitVec.ofNat 64 n }, acc.2)
    | _ => acc
  let (r, out) := ops.foldl arrive (r, [])
  let r := if r.penda = 0 ∧ r.pendb = 0 then { r with pnum := (r.pnum + 1) % 2 ^ 15, pendb := 0, penda := r.expa - min r.early r.expa, early := 0 } else r
  (ops.foldl (fun (r : TbRec) o => match o with | .exp _ n => { r with pendb := r.pendb + BitVec.ofNat 64 n } | _ => r) r, out)
/-- The network serves one record of a cluster, after a fill where it lies in an invalid line of a map (R81). A record that a plain store left
undefined holds free values (R157). DESIGN CHOICE (log entry 14): while a line of a record cannot be filled, its translation failing since the
operations were checked, the operations wait for it. -/
def State.tbServe (s : State) (cl loc : Nat) (posts : List TbPost) : State :=
  let s := match s.invalidLine loc with | some i => s.fillLine i.1 i.2.1 i.2.2 | none => s
  if (s.invalidLine loc).isSome then s.modCluster cl fun c => { c with tbOps := c.tbOps ++ posts }
  else
  let ops := posts.map (·.op)
  let broken := (vget s.clusters cl).tbars.any fun b => b.1 == loc && b.2
  let (w0, w1, s1) : DWord × DWord × State :=
    if broken then (Config.freeValue s.freeCtr, Config.freeValue (s.freeCtr + 1), { s with freeCtr := s.freeCtr + 2 })
    else (BitVec.ofNat 64 (s.homeReadN loc 8), BitVec.ofNat 64 (s.homeReadN (loc + 8) 8), s)
  let (r, out) := (TbRec.ofWords w0 w1).clock ops
  let s2 := (s1.homeWriteN loc 8 r.w0).homeWriteN (loc + 8) 8 r.pendb.toNat
  let s3 := s2.modCluster cl fun c => { c with tbars := (loc, false) :: c.tbars.filter (·.1 != loc) }
  out.foldl (fun (s : State) o =>
    if o.2.2.1.isNone then s
    else s.modTeam o.1.team fun t => t.modOrd fun q => { q with pend := q.pend ++ [{ who := o.1, lane := o.2.1, dst := o.2.2.1, v := BitVec.ofNat 64 o.2.2.2 }] }) s3
/-- BARRIER_NETWORK_CLOCK: every record of every cluster is served once (R158). -/
def execBarrierNetworkClock (s : State) : Outcome :=
  .next ((List.range 6).foldl (fun (s : State) cl =>
    let c := vget s.clusters cl
    let posts := sortBy (fun (a b : TbPost) => a.key ≤ b.key) c.tbOps
    let locs := ((c.tbars.map (·.1)) ++ posts.map (·.op.loc)).eraseDups
    let s0 := s.modCluster cl fun c => { c with tbOps := [] }
    locs.foldl (fun (s : State) loc => s.tbServe cl loc (posts.filter fun o => o.op.loc == loc)) s0) s)

/-! ## Hand-overs (R290 to R292) -/

/-- The members of a role that take part: groups with a live thread, and engine members while the team has one; a stopped member still counts, so
that its partners stall or wait (R290, R292, R320). -/
def Team.liveIn (t : Team) (r : Nat) : List Member :=
  ((List.range t.groups.length).filter fun i => let g := t.groups.getD i default; g.role == r && g.threads.toList.any fun h => h.life == .live).map Member.group ++
  (t.engines.filter fun g => g.role == r && !(t.groups.all fun h => h.threads.toList.all fun x => x.life != .live)).map fun g => .engine g.role
def Team.roleOf (t : Team) (m : Member) : Nat := (t.member m).role
/-- Pushes whose senders have all arrived, and entries that every live receiver has taken. -/
def Team.chanStep (t : Team) (ch : Nat) : Team :=
  let c := vget t.chans ch
  let c1 : Channel :=
    match c.arrivals with
    | [] => c
    | a :: as =>
      let n := as.foldl (fun m x => min m x.1) a.1
      let mine := c.arrivals.filter (·.1 == n)
      let live := match mine with | [] => [] | x :: _ => t.liveIn (t.roleOf x.2.1)
      if live.all fun m => c.arrivals.any fun x => x.1 == n && x.2.1 == m then
        let ix (m : Member) : Nat := match m with | .group g => g | .engine r => 32 + r
        let vs := (sortBy (fun (x y : Nat × Member × Option (DWord × Bool)) => ix x.2.1 ≤ ix y.2.1) mine).filterMap (·.2.2)
        let v := vs.headD (0, false)
        { c with arrivals := c.arrivals.filter (·.1 != n), entries := c.entries ++ [(n, v.1, v.2, [])] }
      else c
  let gone (e : Nat × DWord × Bool × List Member) : Bool :=
    match e.2.2.2 with | [] => false | m :: _ => (t.liveIn (t.roleOf m)).all e.2.2.2.contains
  let out := (c1.entries.filter gone).map (·.1)
  { t with chans := vset t.chans ch { c1 with entries := c1.entries.filter (!gone ·), done := out.foldl max c1.done } }
/-- Whether a sender's next hand-over lies within the drift bound (R291, R292). -/
def Team.driftOk (t : Team) (ch n rcv : Nat) : Bool := (t.liveIn rcv).isEmpty || n - (vget t.chans ch).done ≤ min t.regs.drift 16
/-- A member numbers a hand-over as done. -/
def State.handed (s : State) (p : Party) (c n : Nat) : State := s.modGroup p fun g => { g with xfers := vset g.xfers c n }
/-- A member of the receiving role takes hand-over `n`: the value to DST in its guarded lanes, the entry marked, the acquire (R290). -/
def State.receive (s : State) (p : Party) (c n : Nat) (lanes : List Nat) (dst : Operand) (v : DWord) (bad : Bool) : State :=
  let s1 := lanes.foldl (fun (s : State) l => (fun (s : State) => if bad then s.poisonOp p l true dst else s) (s.deliverOp p l true dst v)) s
  let s2 := s1.modTeam p.team fun t => { t with chans := vmod t.chans c fun h =>
    { h with entries := h.entries.map fun e => if e.1 = n then (e.1, e.2.1, e.2.2.1, e.2.2.2 ++ [p.mem]) else e } }
  ((s2.modTeam p.team (·.chanStep c)).acquire p.team .team).handed p c n
/-- A receiver waits at a channel whose senders are all gone (R290 to R292). -/
def Team.deadChan (t : Team) (c snd : Nat) : Bool := (t.liveIn snd).isEmpty && (vget t.chans c).entries.isEmpty
/-- XFER (R290). -/
def execXfer (f : VF) (ch snd rcv : BitVec 3) (s : State) : Outcome :=
  s.issue (.xfer f ch snd rcv) fun lanes s =>
    let p := s.cur
    let t := s.team p.team
    let g := s.group p
    let c := ch.toNat
    let n := vget g.xfers c + 1
    let all := match g.run with | some r => bitsOf r.lanes | none => []
    let modChan (s : State) (h : Channel → Channel) : State := s.modTeam p.team fun t => { t with chans := vmod t.chans c h }
    if g.role = snd.toNat then
      if !t.driftOk c n rcv.toNat || !s.poolClear p all then .stall s
      else
        let v := match lanes with | [] => none | l :: _ => some (s.readOp p l true f.a, s.opPoisoned p l true f.a)
        let s1 := modChan (s.releaseLanes p all .team) fun h => { h with arrivals := h.arrivals ++ [(n, p.mem, v)] }
        let s2 := s1.modTeam p.team (·.chanStep c)
        .done ((if (t.liveIn rcv.toNat).isEmpty then modChan s2 fun h => { h with entries := [] } else s2).handed p c n)
    else if g.role = rcv.toNat then
      if !s.poolClear p all then .stall s
      else match (vget t.chans c).entries.find? (·.1 == n) with
      | some (_, v, bad, _) => .done (s.receive p c n lanes f.dst v bad)
      | none =>
        if t.deadChan c snd.toNat then .trap s 0x29 lanes 0 (BitVec.ofNat 64 (2 * 2 ^ 32 + c))
        else .block s (all.map (·, .receiver c n))
    else .done (s.handed p c n)

/-! ## Quotas, gangs, drift, uniform registers (R293 to R295) -/

/-- The live groups of a role. -/
def Team.liveGroups (t : Team) (r : Nat) : List Nat := (t.liveIn r).filterMap fun m => match m with | .group g => some g | .engine _ => none
/-- The status of a move, and the registers that each TO group gains. -/
def Team.roleqStatus (t : Team) (src dst n : Nat) : Nat × Nat :=
  let from_ := t.liveGroups src
  let to_ := t.liveGroups dst
  let (f, k) := (from_.length, to_.length)
  let quota (g : Nat) : Nat := (t.groups.getD g default).quota
  let bound (r : Nat) : Bool := 2 ≤ vget t.regs.kinds r
  if src = dst || from_.isEmpty || to_.isEmpty || bound src || bound dst then (4, 0)
  else if n = 0 || n % 8 != 0 then (1, 0)
  else if from_.any fun g => quota g < 16 + n then (2, 0)
  else if n * f % (8 * k) != 0 || to_.any fun g => 256 < quota g + n * f / k then (3, 0)
  else (0, n * f / k)
/-- A group's quota becomes `q`; the registers from the lesser quota up read 0. -/
def Group.setQuota (g : Group) (q : Nat) : Group :=
  let lo := min q g.quota
  { g with quota := q, threads := g.threads.map fun h =>
      { h with g := Vector.ofFn fun i => if i.val < lo then vget h.g i.val else 0, gPoison := h.gPoison &&& BitVec.ofNat 256 (2 ^ lo - 1) } }
/-- The rendezvous of ROLEQ completes once every live group of both roles has arrived and their register writes have landed. -/
def State.roleqMeet (s : State) (uid src dst : Nat) : State :=
  let t := s.team uid
  let open_ := t.roleq.filter fun a => a.src == src && a.dst == dst && a.status.isNone
  let need := (t.liveGroups src ++ t.liveGroups dst).eraseDups
  let busy := t.ord.pend.any (fun w => match w.who.mem with | .group g => need.contains g | _ => false) ||
    t.ord.pool.any (fun w => match w.who.mem with | .group g => need.contains g | _ => false) ||
    (vget s.clusters t.id.cluster).tbOps.any (fun w => match w.op with
      | .arv _ _ who _ dst => !dst.isNone && who.team == uid && (match who.mem with | .group g => need.contains g | _ => false)
      | _ => false)
  if open_.isEmpty || busy || !(need.all fun g => open_.any (·.group == g)) then s
  else
    let lead := (t.liveGroups src).foldl (fun m g => min m g) 32
    let n := match open_.find? (·.group == lead) with | some a => a.n | none => 0
    let (st, gain) := t.roleqStatus src dst n
    let t1 := { t with roleq := t.roleq.map fun a => if a.src = src ∧ a.dst = dst ∧ a.status.isNone then { a with status := some st } else a }
    let t2 := if st = 0 then
        { t1 with groups := t1.groups.mapIdx fun i g =>
            if (t.liveGroups src).contains i then g.setQuota (g.quota - n) else if (t.liveGroups dst).contains i then g.setQuota (g.quota + gain) else g }
      else t1
    s.modTeam uid fun _ => t2
/-- A group whose rendezvous has completed takes its status: DST in each of the lanes, and its arrival is done with; none while it has not. -/
def State.roleqTake (s : State) (p : Party) (src dst : Nat) (lanes : List Nat) (d : Operand) : Option State :=
  match (s.team p.team).roleq.find? fun a => a.group == groupIx p && a.src == src && a.dst == dst with
  | some { status := some st, .. } =>
    some ((lanes.foldl (fun (s : State) l => s.deliverOp p l false d (BitVec.ofNat 64 st)) s).modTeam p.team
      fun t => { t with roleq := t.roleq.filter fun a => !(a.group == groupIx p && a.src == src && a.dst == dst) })
  | _ => none
/-- ROLEQ (R293): the group arrives; the last one performs the move and goes on with the status, the others wait for theirs. -/
def execRoleq (f : VF) (src dst : BitVec 3) (s : State) : Outcome :=
  s.issue (.roleq f src dst) fun lanes s => uniform lanes s fun l =>
    let p := s.cur
    let role := (s.group p).role
    if role ≠ src.toNat ∧ role ≠ dst.toNat then .done s
    else
      let a : RoleqArr := { src := src.toNat, dst := dst.toNat, group := groupIx p, n := (s.readOp p l false f.a).toNat % 2 ^ 32 }
      let s1 := (s.modTeam p.team fun t => { t with roleq := t.roleq ++ [a] }).roleqMeet p.team src.toNat dst.toNat
      match s1.roleqTake p src.toNat dst.toNat lanes f.dst with
      | some t => .done t
      | none => .block s1 (lanes.map (·, .roleq src.toNat dst.toNat))
/-- GANGSET (R294). -/
def execGangset (f : VF) (s : State) : Outcome :=
  s.issue (.gangset f) fun lanes s => uniform lanes s fun l =>
    let p := s.cur
    let t := s.team p.team
    let m : Word := (s.readOp p l false f.b).setWidth 32
    let gs := bitsOf m
    if gs.length = 1 || 6 < gs.length || gs.any (t.groups.length ≤ ·) then .trap s 0x1A [l] 0 7
    else
      let s1 := s.modTeam p.team fun t => { t with regs := { t.regs with gang := m, gangDead := false } }
      .done (if t.latch.isEmpty then s1 else s1.trapLatch p.team 0x1A 8)
/-- DRIFTSET (R294). -/
def execDriftset (f : VF) (s : State) : Outcome :=
  s.issue (.driftset f) fun lanes s => uniform lanes s fun l =>
    let v := (s.readOp s.cur l false f.b).toNat % 2 ^ 32
    .done (s.modTeam s.cur.team fun t => { t with regs := { t.regs with drift := max 1 (min 64 v) } })
/-- KSET (R295): by the team's leader, thread 0. -/
def execKset (f : VF) (s : State) : Outcome :=
  s.issue (.kset f) fun lanes s =>
    let p := s.cur
    if p.mem = .group 0 ∧ lanes.contains 0 then .done (s.writeOp p 0 (f.ty == .b64) f.dst (s.readOp p 0 (f.ty == .b64) f.b)) else .done s

/-! ## SPAWN (R296, R321, R322) -/

def State.modTasks (s : State) (cl x : Nat) (f : TaskQueue → TaskQueue) : State :=
  s.modCluster cl fun c => { c with tasks := vmod c.tasks x f }
/-- A record read from the ring slot that holds it. -/
def State.taskLoad (s : State) (q : TaskQueue) (r : TaskRec) : TaskRec :=
  match r.ring with
  | some i => { r with w := dwordsOf 4 (s.readPaBytes 0 (fld q.base 12 40 * 4096 + 32 * i) 32), ring := none }
  | none => r
/-- Records of the backing that have entered the head, as the ring holds them (R322). -/
def State.taskPull (s : State) (cl x : Nat) : State :=
  s.modTasks cl x fun q => { q with recs := (q.recs.take 512).map (s.taskLoad q) ++ q.recs.drop 512 }
/-- The ring slot that the next record of a task queue takes: the first from the tail on that no waiting record is in. -/
def TaskQueue.freeSlot (q : TaskQueue) : Nat :=
  let used := q.recs.filterMap (·.ring)
  let len := max 1 (fld q.len 0 20)
  (((List.range (min len (used.length + 1))).map fun k => (q.tail + k) % len).find? (!used.contains ·)).getD (q.tail % len)
/-- A record joins the tail of a task queue: the head while it has room, else the ring in package GDDR7 (R322). -/
def State.taskPush (s : State) (cl x : Nat) (r : TaskRec) : State :=
  let q := vget (vget s.clusters cl).tasks x
  if q.recs.length < 512 then s.modTasks cl x fun q => { q with recs := q.recs ++ [r] }
  else
    let k := q.freeSlot
    let at_ := fld q.base 12 40 * 4096 + 32 * k
    let s := (List.range 4).foldl (fun (s : State) i => s.writePa (at_ + 8 * i) 8 (vget r.w i).toNat) s
    s.modTasks cl x fun q => { q with recs := q.recs ++ [{ r with ring := some k }], tail := (k + 1) % max 1 (fld q.len 0 20) }
/-- SPAWN: the guarded lanes' continuation records join the cluster's task queue of the context. -/
def execSpawn (f : VF) (s : State) : Outcome :=
  s.issue (.spawn f) fun lanes s =>
    let p := s.cur
    let t := s.team p.team
    match allLanes s .read lanes fun l => s.ldsrRange t 1 ((s.readOp p l false f.a).setWidth 32) 32 32 with
    | .inl r => r
    | .inr locs =>
      if !s.poolClear p lanes then .stall s
      else
        let cl := t.id.cluster
        let s0 := (s.countBanks p 32 (locs.map (·.2.1))).releaseLanes p lanes .cluster
        .done (locs.foldl (fun (s : State) x =>
          let q := vget (vget s.clusters cl).tasks t.id.ctx
          if 512 + fld q.len 0 20 ≤ q.recs.length then s.deliverOp p x.1 false f.dst 1
          else
            let w : Vector DWord 4 := Vector.ofFn fun i => BitVec.ofNat 64 (s.seenN p x.1 (x.2.1 + 8 * i.val) 8)
            let s := s.taskPush cl t.id.ctx { w, gen := t.id.gen, spawner := t.id, regs := t.regs }
            (s.deliverOp p x.1 false f.dst 0).dueOnce (.taskEvaluate t.id.ctx cl (q.recs.length))) s0)

/-! ## The end of a wait (R312, R399) -/

/-- The guarded lanes of a run, from the instruction it stands at. -/
def State.guarded (s : State) (p : Party) (r : Run) (lanes : List Nat) : List Nat :=
  match decodeWord r.word with
  | .ok i => (match i.view with | some v => lanes.filter fun l => (s.thread p l).guardOk v.guard | none => lanes)
  | .error _ => lanes
/-- Lanes are eligible again at the instruction they stand at. -/
def State.wake (s : State) (p : Party) (lanes : List Nat) : State := lanes.foldl (fun (s : State) l => s.modThread p l fun t => { t with wait := none }) s
/-- The homes whose bytes a wait tests: a wait at a counter or a record of a mapped line reads them filled (R81). -/
def Wait.homes : Wait → List Nat
  | .ct locs _ => locs
  | .tb loc _ => (List.range 16).map (loc + ·)
  | _ => []
/-- Lanes that wait take the trap of their instruction: the guarded ones enter, the others go on. -/
def State.waitTrap (s : State) (p : Party) (r : Run) (lanes : List Nat) (cause : Nat) (addr aux : DWord) : State :=
  let gs := s.guarded p r lanes
  (lanes.filter fun l => !gs.contains l).foldl (fun (s : State) l => s.goOn p l) (s.trapWaitAll p gs cause addr aux)
/-- Lanes whose wait has ended go on, once what their instruction delivered to a caddy stream has entered it (R121). -/
def State.goAll (s : State) (p : Party) (lanes : List Nat) : State :=
  if s.streamOwes p then s.setWaits p (lanes.map (·, .stream)) else lanes.foldl (fun (s : State) l => s.goOn p l) s
/-- WAIT_END: the lanes that wait with a lane at one instruction go on, take the fault of their wait, or issue the instruction again. A result
that still enters a caddy stream keeps them until it has (R121). A receiver takes its entry, with its acquire, in the clock in which it is there
(R399). Where the line of a counter or a record is invalid it is filled first, and a fill that fails translation is the fault of the instruction,
which is issued again (R81). -/
def execWaitEnd (p : Party) (lane : Nat) (s : State) : Outcome :=
  match (s.thread p lane).wait, s.blockedRun? p lane with
  | none, _ => .next s
  | some w, none => .next (if s.waitOver p w then s.wake p [lane] else s)
  | some w, some r =>
    let mates := (bitsOf r.lanes).filter fun l => (s.thread p l).wait.isSome
    let same := mates.filter fun l => (s.thread p l).wait == some w
    let on (ls : List Nat) (s : State) : State := ls.foldl (fun (s : State) l => s.goOn p l) s
    match s.filled (mates.flatMap fun l => ((s.thread p l).wait.map Wait.homes).getD []) (.go s 0) with
    | .wait s1 => .next s1
    | .fault _ _ f _ => .next (if f.held then s else s.wake p mates)
    | _ =>
    match w with
    | .gang => .next (if (s.team p.team).gangMissing then s.trapLatch p.team 0x1A 5 else s)
    | .answer | .host _ _ _ _ | .room => .next s
    | .stream => .next (if s.waitOver p w then on same (s.streamDone p) else s)
    | .roleq src dst =>
      let s1 := s.roleqMeet p.team src dst
      let d := match decodeWord r.word with | .ok (.roleq f _ _) => f.dst | _ => .none
      .next (match s1.roleqTake p src dst same d with | some t => t.goAll p same | none => s1)
    | .receiver ch n =>
      let t := s.team p.team
      let (d, snd) : Operand × Nat := match decodeWord r.word with | .ok (.xfer f _ snd _) => (f.dst, snd.toNat) | _ => (.none, 8)
      let gs := s.guarded p r same
      (match (vget t.chans ch).entries.find? (·.1 == n) with
       | some (_, v, bad, _) =>
         if !s.poolClear p same || !s.queueTakes p d (2 * gs.length) then .next s
         else .next ((s.receive p ch n gs d v bad).goAll p same)
       | none => .next (if t.deadChan ch snd then s.waitTrap p r same 0x29 0 (BitVec.ofNat 64 (2 * 2 ^ 32 + ch)) else s))
    | .operand | .retry | .batch _ => .next (if s.waitOver p w then s.wake p same else s)
    | .bar n _ =>
      let s1 := s.modTeam p.team fun t => t.barSettle n
      if !s1.waitOver p w || !s1.poolClear p same then .next s1 else .next (on same (s1.waitAcquire p w))
    | .tb _ _ =>
      let ended := mates.all fun l => match (s.thread p l).wait with | some v => s.waitOver p v | none => true
      if !ended || !s.poolClear p mates then .next s
      else .next (on mates (s.waitAcquire p w))
    | w =>
      if s.waitOver p w then (if w.scope.isSome && !s.poolClear p same then .next s else .next (on same (s.waitAcquire p w)))
      else match s.waitFault p w with
      | none => .next s
      | some (cause, addr, aux) => .next (s.waitTrap p r same cause addr aux)

end Sys2Proof.Machine
end

