-- ==== Sys2Proof/Machine/Regs.lean ====
section
/-! DEFINITION. Registers: their fields and write effects, the hardware semaphores and the violation log, the region table and the carve-out (R7, R8, R38 to R48, R58, R59, R299, R330, R331). -/
namespace Sys2Proof.Machine

/-! ## Fields (R7, R8) -/

/-- A mask of `len` bits from bit `lo`. -/
def msk (lo len : Nat) : DWord := BitVec.ofNat 64 ((2 ^ len - 1) <<< lo)
/-- RW bits of a context register. -/
def CReg.rw : CReg → DWord
  | .ptRoot => msk 58 6 ||| msk 13 39 ||| 1
  | .stBase => msk 17 35
  | .clrBase | .hrtBase | .saveBase => msk 12 40
  | .rsBase => msk 11 41
  | .rastThr => msk 0 24
  | .heapVbase => msk 21 35
  | .heapNreg => msk 0 16
  | .relList => msk 9 43
  | .heapAlloc => msk 31 1 ||| msk 0 16
  | .trapBase => msk 3 53
  | .fltCfg => msk 0 2
  | .fltBase => msk 12 40 ||| msk 0 5
  | .fltHead => msk 0 32
  | .rasCfg => msk 0 4
  | .snapPool => msk 16 36 ||| msk 0 16
  | .cgBase => msk 4 48
  | _ => 0
/-- W1C bits of a context register. -/
def CReg.w1c : CReg → DWord
  | .surfStat => msk 0 2
  | .relStat => msk 1 2
  | .preStat => msk 3 1
  | .snapStat => msk 0 1
  | .ctxTdm => msk 0 6
  | _ => 0
/-- A register's value after a write, from its RW and W1C bits (R7). -/
def regAfter (rw w1c old v : DWord) : DWord := (old &&& ~~~ (rw ||| w1c)) ||| (v &&& rw) ||| (old &&& w1c &&& ~~~ v)
/-- A 64-bit register's value after a write of one half, or of the whole (R300, R327). -/
def halfWrite (old : DWord) (wide high : Bool) (v : DWord) : DWord :=
  if wide then v else if high then ((v.setWidth 32 : Word) ++ old.setWidth 32 : BitVec 64) else (old.extractLsb' 32 32 ++ (v.setWidth 32 : Word) : BitVec 64)

/-! ## Semaphores and refusals (R330, R331) -/

/-- Whether HSEM0 names a function. -/
def State.hsemHeld (s : State) (fn : Nat) : Bool := vget s.dev.hsem 0 == fn + 1
def State.modFn (s : State) (fn : Nat) (f : Function → Function) : State := { s with dev := { s.dev with fns := vmod s.dev.fns fn f } }
/-- A refusal is logged: the first one's address, writer and kind, and the count; a refused host write is also reported by a non-fatal error
message of its function (R331; DEDUCED from its field FN: one log for both
functions). -/
def State.violate (s : State) (addr : DWord) (who kind : Nat) : State :=
  let d := if who < 2 then { s.dev with fns := vmod s.dev.fns who fun f => { f with aer := f.aer + 1 } } else s.dev
  let n := min 65535 (fld d.violInfo 0 16 + 1)
  if d.violInfo.getLsbD 31 then { s with dev := { d with violInfo := setFld (setBit d.violInfo 30 true) 0 16 n } }
  else { s with dev := { d with viol := addr, violInfo := setFld (setFld (setFld (setBit d.violInfo 31 true) 28 2 who) 26 2 kind) 0 16 n } }
/-- A host's write of shared state: refused and logged unless its function holds HSEM0. -/
def State.shared (s : State) (fn off : Nat) (go : State → State) : State :=
  if s.hsemHeld fn then go s else s.violate (BitVec.ofNat 64 off) fn 0
/-- HSEM_TAKE: the writer becomes the owner of a free semaphore. -/
def execHsemTake (fn n : Nat) (s : State) : Outcome :=
  .next (if vget s.dev.hsem n = 0 then { s with dev := { s.dev with hsem := vset s.dev.hsem n (fn + 1) } } else s)
/-- HSEM_GIVE: the owner releases a semaphore. -/
def execHsemGive (fn n : Nat) (s : State) : Outcome :=
  .next (if vget s.dev.hsem n = fn + 1 then { s with dev := { s.dev with hsem := vset s.dev.hsem n 0 } } else s)

/-! ## The region table (R40 to R44) -/

def RtEntry.on (e : RtEntry) : Bool := e.mode != 0
/-- The part of a stack that an entry takes, in units of 2 MiB: start and length. -/
def RtEntry.part (e : RtEntry) (stack : Nat) : Nat × Nat :=
  if e.mode = 1 then (e.off stack, e.len / 2) else if e.mode = 2 + stack then (e.off stack, e.len) else (0, 0)
/-- Two ranges have a unit in common. -/
def overlap (a b : Nat × Nat) : Bool := a.2 != 0 && b.2 != 0 && a.1 < b.1 + b.2 && b.1 < a.1 + a.2
/-- Whether a bank breaks R43. DESIGN CHOICE (log entry 21): the test of a range's end takes enabled entries only, as the other tests do. -/
def bankBad (b : Vector RtEntry 64) : Bool :=
  let es := b.toList.filter RtEntry.on
  let pairs := (List.range es.length).flatMap fun i => (es.drop (i + 1)).map fun e => (es.getD i {}, e)
  es.any (fun e => (e.mode == 1 && e.len % 2 == 1) || 0xF000 < e.base + e.len || [0, 1].any fun n => 0x7800 < (e.part n).1 + (e.part n).2) ||
  pairs.any fun p => overlap (p.1.base, p.1.len) (p.2.base, p.2.len) || [0, 1].any fun n => overlap (p.1.part n) (p.2.part n)
def State.setShadow (s : State) (b : Vector RtEntry 64) : State :=
  if fld (s.dreg .rtStat) 0 1 = 0 then { s with dev := { s.dev with bankB := b } } else { s with dev := { s.dev with bankA := b } }
def rtMask0 : DWord := msk 0 34
def rtMask1 : DWord := msk 32 16 ||| msk 0 16
/-- A write of RT_W0 or RT_W1: the word of the shadow entry that RT_SEL names (R42). -/
def State.rtWord (s : State) (one : Bool) (v : DWord) : State :=
  s.setShadow (vmod s.shadowBank (fld (s.dreg .rtSel) 0 6) fun e =>
    if one then { e with w1 := regAfter rtMask1 0 e.w1 v } else { e with w0 := regAfter rtMask0 0 e.w0 v })
def State.setRtStat (s : State) (lo len v : Nat) : State := s.setDreg .rtStat (setFld (s.dreg .rtStat) lo len v)
/-- RT_CTL.COPY: the active bank is copied into the shadow bank, unless a commit is draining (R42). -/
def State.rtCopy (s : State) : State := if (s.dreg .rtStat).getLsbD 1 then s.setRtStat 2 1 1 else s.setShadow s.activeBank
/-- RT_CTL.COMMIT: the shadow bank is validated and becomes active, each changed entry taking the new generation (R43). DESIGN CHOICE (log entry
21): ERR, once set, stays set when a later commit is accepted, until a 1 is written (R42). -/
def State.rtCommit (s : State) : State :=
  if (s.dreg .rtStat).getLsbD 1 then s.setRtStat 2 1 1
  else if bankBad s.shadowBank then s.setRtStat 3 1 1
  else
    let gen := (fld (s.dreg .rtStat) 16 16 + 1) % 2 ^ 16
    let old := s.activeBank
    let same (a b : RtEntry) : Bool := a.w0 &&& rtMask0 == b.w0 &&& rtMask0 && a.w1 &&& rtMask1 == b.w1 &&& rtMask1
    let new : Vector RtEntry 64 := Vector.ofFn fun i =>
      let e := vget s.shadowBank i.val
      let o := vget old i.val
      if same e o then { e with w0 := setFld e.w0 48 16 (fld o.w0 48 16) } else { e with w0 := setFld e.w0 48 16 gen }
    let s1 := (s.setShadow new).setRtStat 16 16 gen
    let s2 := s1.setRtStat 0 1 (1 - fld (s.dreg .rtStat) 0 1)
    if new == old then s2 else (s2.setRtStat 1 1 1).dueOnce .regionTableDrained
/-- A write of RT_CTL; with both bits set the copy comes first. -/
def State.rtCtl (s : State) (v : DWord) : State :=
  let s := if v.getLsbD 1 then s.rtCopy else s
  if v.getLsbD 0 then s.rtCommit else s
/-- RT_CTL_COPY by a host. -/
def execRtCtlCopy (fn : Nat) (s : State) : Outcome := .next (s.shared fn 0x1004 State.rtCopy)
/-- RT_CTL_COMMIT by a host. -/
def execRtCtlCommit (fn : Nat) (s : State) : Outcome := .next (s.shared fn 0x1004 State.rtCommit)
/-- The requests routed under older generations have completed (R44). -/
def State.drained (s : State) : State := s.setRtStat 1 1 0
/-- REGION_TABLE_DRAINED (R44). DESIGN CHOICE (log entry 18): a request from outside that waits for it is performed in the step that ends the draining. -/
def execRegionTableDrained (s : State) : Outcome := .next s.drained

/-! ## The carve-out and the surface quotas (R47, R48, R59) -/

def carveReg (stack : Nat) : DReg := if stack = 0 then .srfCarve0 else .srfCarve1
/-- A write of SRF_CARVE: the carve-out changes, or ERR is set (R47). -/
def State.carveWrite (s : State) (stack : Nat) (v : DWord) : State :=
  let r := carveReg stack
  let s := if v.getLsbD 30 then s.setDreg r (setBit (s.dreg r) 30 false) else s
  let n := fld v 0 5
  let old := s.carve stack
  let added := (List.range 32).filter fun k => 32 - n ≤ k && k < 32 - old
  let held := (vget s.dev.frameTab stack).any fun e => match e.frame with | some f => added.contains (f / 4096) | none => false
  if n = 0 || 16 < n || held || (s.dreg r).getLsbD 31 then s.setDreg r (setBit (s.dreg r) 30 true)
  else
    let s1 := s.setDreg r (setFld (s.dreg r) 0 5 n)
    if n < old then
      ({ s1 with dev := { s1.dev with carveHeld := vset s1.dev.carveHeld stack old } }.setDreg r (setBit (s1.dreg r) 31 true)).dueOnce (.carveShrinkDone stack)
    else s1
/-- SRF_CARVE_WRITE by a host. -/
def execSrfCarveWrite (fn stack : Nat) (v : BitVec 32) (s : State) : Outcome :=
  .next (s.shared fn (0x1020 + 4 * stack) fun s => s.carveWrite stack (v.setWidth 64))
/-- CARVE_SHRINK_DONE: the released slices have written back their lines and become frames. -/
def execCarveShrinkDone (stack : Nat) (s : State) : Outcome :=
  .next ({ s with dev := { s.dev with carveHeld := vset s.dev.carveHeld stack 0 } }.setDreg (carveReg stack) (setBit (s.dreg (carveReg stack)) 31 false))

/-- Frames that the surfaces of a context that are never victims hold on a stack. -/
def State.keptFrames (s : State) (x stack : Nat) : Nat :=
  ((vget s.dev.frameTab stack).filter fun e => e.x == x && e.frame.isSome &&
    (match s.surf? x e.handle with | some u => Surf.pin u || Surf.frameClass u || Surf.weight u | none => false)).length
/-- Spills are due where a context holds more frames than its quota (R59). -/
def State.spillDown (s : State) (x : Nat) : State :=
  [0, 1].foldl (fun (s : State) n =>
    match s.victimOf x n with | none => s | some h => s.dueOnce (.spillTile x h n)) s
/-- A new quota request: no surface is passed over for it, and its victim is chosen again unless one is mid-spill, which is finished first
(R61, R62). -/
def State.newRequest (s : State) (x : Nat) : State :=
  s.modCtx x fun c => { c with passed := [], victims := c.victims.map fun (v : Option Victim) => v.filter (·.frame.isSome) }
/-- A write of SURF_QUOTA: both quotas change, or QERR is set (R59). -/
def State.quotaWrite (s : State) (x : Nat) (v : DWord) : State :=
  let q (n : Nat) : Nat := fld v (32 * n) 18
  let others (n : Nat) : Nat := (((List.range 64).filter (· != x)).map fun c => s.quota c n).sum
  let bad (n : Nat) : Bool := 131072 - 4096 * s.carve n < q n + others n || q n < s.keptFrames x n
  if bad 0 || bad 1 then s.setCreg x .surfStat (setBit (s.creg x .surfStat) 0 true)
  else ((s.setCreg x .surfQuota (v &&& (msk 32 18 ||| msk 0 18))).newRequest x).spillDown x
/-- SURF_QUOTA_WRITE. -/
def execSurfQuotaWrite (x : Nat) (v : BitVec 64) (s : State) : Outcome := .next (s.quotaWrite x v)

/-! ## Context registers (R38, R39, R58, R130, R138, R153, R253, R377) -/

/-- A write of PT_GEN: only a larger value counts; a held replay may then go (R39, R356). -/
def State.ptGenWrite (s : State) (x : Nat) (v : DWord) : State :=
  if v.toNat ≤ (s.creg x .ptGen).toNat then s
  else
    let s := s.setCreg x .ptGen v
    if !(s.ctx x).replays.isEmpty then s.dueOnce (.replayRelease x) else s
/-- A write of PT_ROOT invalidates every TLB entry of the context (R38). -/
def State.ptRootWrite (s : State) (x : Nat) (v : DWord) : State := (s.setCreg x .ptRoot (v &&& CReg.rw .ptRoot)).tlbDrop x none
/-- PT_ROOT_WRITE. -/
def execPtRootWrite (x : Nat) (v : BitVec 64) (s : State) : Outcome := .next (s.ptRootWrite x v)
/-- PT_GEN_WRITE. -/
def execPtGenWrite (x : Nat) (v : BitVec 64) (s : State) : Outcome := .next (s.ptGenWrite x v)
/-- A write of a whole context register, with its effects; room in the fault ring lets a batch that waits for it be written (R353). -/
def State.writeCreg (s : State) (x : Nat) (r : CReg) (v : DWord) : State :=
  match r with
  | .ptRoot => s.ptRootWrite x v
  | .ptGen => s.ptGenWrite x v
  | .surfQuota => s.quotaWrite x v
  | .quantum => s.setCreg x .quantum (BitVec.ofNat 64 (max 64 (min 65536 (fld v 0 17))))
  | .relCtl => s.relCtlWrite x (v.setWidth 32)
  | .ctxTdm => if (s.ctx x).launches.isEmpty then s.setCreg x r (regAfter 0 r.w1c (s.creg x r) v) else s
  | .fltHead => (s.setCreg x .fltHead (regAfter (CReg.rw .fltHead) 0 (s.creg x .fltHead) v)).writeLate x
  | .fltBase => (s.setCreg x .fltBase (regAfter (CReg.rw .fltBase) 0 (s.creg x .fltBase) v)).writeLate x
  | r => s.setCreg x r (regAfter r.rw r.w1c (s.creg x r) v)

/-! ## Common time (R20 to R22) -/

def State.modDie (s : State) (d : Nat) (f : Die → Die) : State := { s with dies := vmod s.dies d f }
/-- CT_OFF_WRITE, on any die but the I/O die, whose offset is fixed (R20): `$time` of the die holds its last returned value until COUNT + OFFSET passes it (R22). -/
def execCtOffWrite (die : Nat) (v : BitVec 64) (s : State) : Outcome :=
  .next (if die < 6 ∧ die ≠ 4 then s.modDie die fun d => { d with off := v } else s)

/-! ## System register numbers (R299) -/

/-- The privilege that an access needs. -/
inductive Priv where | any | sys | hsem | no
  deriving DecidableEq, Repr, Inhabited
/-- A system register: number, whether it has 64 bits, privilege to read and to write. -/
structure SysReg where
  base : Nat := 0
  wide : Bool := false
  rd : Priv := .any
  wr : Priv := .any
  deriving DecidableEq, Repr, Inhabited

def sysThread : List SysReg :=
  [⟨0x000, false, .any, .any⟩, ⟨0x002, true, .any, .any⟩, ⟨0x004, false, .any, .any⟩, ⟨0x006, true, .any, .any⟩, ⟨0x008, false, .any, .any⟩,
   ⟨0x00A, true, .any, .any⟩, ⟨0x00C, false, .any, .any⟩, ⟨0x00E, true, .any, .no⟩, ⟨0x010, true, .any, .no⟩, ⟨0x012, false, .any, .no⟩]
def sysTeam : List SysReg :=
  [⟨0x020, false, .any, .no⟩, ⟨0x021, false, .any, .no⟩, ⟨0x022, false, .any, .no⟩, ⟨0x024, true, .any, .any⟩, ⟨0x026, false, .any, .no⟩,
   ⟨0x027, false, .any, .no⟩, ⟨0x028, false, .any, .no⟩, ⟨0x029, false, .any, .no⟩, ⟨0x02A, false, .any, .no⟩] ++
  (List.range 4).flatMap (fun c => [⟨0x040 + 8 * c, true, .any, .any⟩, ⟨0x042 + 8 * c, true, .any, .no⟩, ⟨0x044 + 8 * c, true, .any, .no⟩,
    ⟨0x046 + 8 * c, false, .any, .any⟩]) ++
  (List.range 8).map (fun n => ⟨0x060 + 2 * n, true, .any, .no⟩) ++ (List.range 16).map (fun n => ⟨0x070 + 2 * n, true, .any, .no⟩)
def sysCtx : List (SysReg × CReg) :=
  [(⟨0x110, true, .sys, .sys⟩, .ptRoot), (⟨0x112, true, .sys, .sys⟩, .ptGen), (⟨0x114, true, .sys, .no⟩, .keyAllow),
   (⟨0x120, true, .sys, .sys⟩, .stBase), (⟨0x122, true, .sys, .sys⟩, .clrBase), (⟨0x124, true, .sys, .sys⟩, .rsBase),
   (⟨0x126, true, .sys, .sys⟩, .surfQuota), (⟨0x12A, false, .any, .sys⟩, .rastThr), (⟨0x12B, false, .any, .sys⟩, .surfStat),
   (⟨0x130, true, .sys, .sys⟩, .heapVbase), (⟨0x132, false, .sys, .sys⟩, .heapNreg), (⟨0x134, true, .sys, .sys⟩, .hrtBase),
   (⟨0x136, true, .any, .no⟩, .heapCol), (⟨0x138, true, .sys, .sys⟩, .relList), (⟨0x13A, false, .sys, .sys⟩, .relCtl),
   (⟨0x13B, false, .sys, .sys⟩, .relStat), (⟨0x13C, false, .any, .sys⟩, .heapAlloc), (⟨0x140, false, .any, .sys⟩, .quantum)]
def sysDev : List SysReg :=
  [⟨0x100, true, .any, .sys⟩, ⟨0x102, true, .any, .sys⟩, ⟨0x104, false, .any, .sys⟩, ⟨0x128, true, .any, .no⟩,
   ⟨0x180, false, .sys, .hsem⟩, ⟨0x181, false, .sys, .hsem⟩, ⟨0x182, false, .sys, .hsem⟩, ⟨0x184, true, .sys, .hsem⟩, ⟨0x186, true, .sys, .hsem⟩,
   ⟨0x188, false, .sys, .hsem⟩, ⟨0x189, false, .sys, .hsem⟩]
def sysRegs : List SysReg := sysThread ++ sysTeam ++ sysCtx.map (·.1) ++ sysDev
/-- The register that a number reaches, and whether it is the high half of a 64-bit one. -/
def sysFind (n : Nat) : Option (SysReg × Bool) :=
  match sysRegs.find? (·.base == n) with
  | some r => some (r, false)
  | none => (sysRegs.find? fun r => r.wide && r.base + 1 == n).map fun r => (r, true)

/-! ## Reading (R299, R300) -/

def CopyCtx.statWord (c : CopyCtx) : DWord :=
  setBit (setBit (setBit (setFld (setFld (0 : DWord) 32 32 c.recno.toNat) 24 4 c.fstat) 2 c.parked) 1 c.stopped) 0 (c.recs.any fun r => r.accepted && r.status == 0)
/-- CDS t word w (R118). -/
def Stream.word (st : Stream) (w : Nat) : DWord :=
  if w = 0 then st.w0 else BitVec.ofNat 64 (st.tail % 2 ^ 32 * 2 ^ 32 + st.head % 2 ^ 32)
/-- ROLEMAP (R311). -/
def Team.rolemap (t : Team) : Nat :=
  let f (r : Nat) : Nat :=
    let k := vget t.regs.kinds r
    if k = 1 then (if t.groups.all fun g => g.role != r || g.threads.toList.all fun h => h.life != .live then 9 else 1)
    else if t.engines.any fun g => g.role == r && g.stopped then 15 else k
  ((List.range 8).map fun r => f r * 16 ^ r).sum
/-- The registers of a team. -/
def Team.sysRead (t : Team) (n : Nat) : DWord :=
  let w (v : Nat) : DWord := BitVec.ofNat 64 v
  if n = 0x020 then w (t.regs.spSize / 256 * 2 ^ 16 + t.regs.spBase / 256)
  else if n = 0x021 then w (t.regs.cdSize / 256 * 2 ^ 8 + t.regs.cdBase / 256)
  else if n = 0x022 then w (t.regs.accq * 2 ^ 16 + ((List.range 16).map fun a => if (vget t.accs a).isSome then 2 ^ a else 0).sum)
  else if n = 0x024 then t.regs.qmap
  else if n = 0x026 then t.regs.gang.setWidth 64
  else if n = 0x027 then w t.regs.drift
  else if n = 0x028 then w t.rolemap
  else if n = 0x029 then w ((if t.regs.priv then 4 else 0) + (if t.regs.prog then 2 else 0) + (if t.regs.repro then 1 else 0))
  else if n = 0x02A then t.regs.hepoch.setWidth 64
  else if n < 0x060 then
    let c := vget t.copy ((n - 0x040) / 8)
    if n % 8 = 0 then c.chan else if n % 8 = 2 then c.statWord else if n % 8 = 4 then c.faddr else 0
  else if n < 0x070 then w ((t.tl.toList.getD ((n - 0x060) / 2) {}).done)
  else (vget t.streams ((n - 0x070) / 4)).word ((n - 0x070) / 2 % 2)
/-- The registers of a thread and its group. -/
def State.threadRead (s : State) (p : Party) (l n : Nat) : DWord :=
  let t := s.thread p l
  if n = 0x000 then t.flags.setWidth 64
  else if n = 0x002 then t.trapPc
  else if n = 0x004 then t.trapCause.setWidth 64
  else if n = 0x006 then t.trapAddr
  else if n = 0x008 then t.trapLanes.setWidth 64
  else if n = 0x00A then t.trapAux
  else if n = 0x00C then t.trapEn.setWidth 64
  else if n = 0x00E then t.rngctr
  else if n = 0x010 then (s.group p).vxc
  else (s.group p).pix.setWidth 64
/-- The shared registers and those of the executing die. -/
def State.devSysRead (s : State) (x die n : Nat) : DWord :=
  let d := vget s.dies die
  let e := vget s.shadowBank (fld (s.dreg .rtSel) 0 6)
  if n = 0x100 then d.cnt
  else if n = 0x102 then d.off
  else if n = 0x104 then d.rate.setWidth 64
  else if n = 0x128 then BitVec.ofNat 64 (s.used x 1 * 2 ^ 32 + s.used x 0)
  else if n = 0x180 then s.dreg .rtSel
  else if n = 0x181 then 0
  else if n = 0x182 then s.dreg .rtStat
  else if n = 0x184 then e.w0
  else if n = 0x186 then e.w1
  else s.dreg (carveReg (n - 0x188))
/-- The whole value of a system register, by its number. -/
def State.sysRead (s : State) (p : Party) (l n : Nat) : DWord :=
  let t := s.team p.team
  if n < 0x020 then s.threadRead p l n
  else if n < 0x100 then t.sysRead n
  else match sysCtx.find? fun r => r.1.base == n with
  | some r => s.creg t.id.ctx r.2
  | none => s.devSysRead t.id.ctx (t.id.cluster / 3) n

/-! ## Writing (R300) -/

/-- The registers that a thread writes of its own (R101, R345). -/
def State.threadWrite (s : State) (p : Party) (l n : Nat) (v : DWord) : State :=
  s.modThread p l fun t =>
    if n = 0x000 then { t with flags := v.setWidth 5 }
    else if n = 0x002 then { t with trapPc := v }
    else if n = 0x004 then { t with trapCause := v.setWidth 8 }
    else if n = 0x006 then { t with trapAddr := v }
    else if n = 0x008 then { t with trapLanes := v.setWidth 32 }
    else if n = 0x00A then { t with trapAux := v }
    else { t with en := v.setWidth 5 }
/-- A new QMAP: the records partly assembled through a queue register whose binding changes are discarded (R259). -/
def Team.setQmap (t : Team) (v : DWord) : Team :=
  let lost (c : Nat) : Bool := (List.range 16).any fun i => fld t.regs.qmap (4 * i) 4 == c + 1 && fld v (4 * i) 4 != c + 1
  { t with regs := { t.regs with qmap := v }, copy := Vector.ofFn fun i => let c := vget t.copy i.val; if lost i.val then { c with partialRec := [] } else c }
/-- A write of CPY_CTL (R92, R93). -/
def State.copyCtl (s : State) (uid c : Nat) (v : DWord) : State :=
  if !(vget (s.team uid).copy c).stopped then s
  else if v.getLsbD 1 then s.copyAbort uid c
  else if v.getLsbD 0 then s.copySkip uid c
  else s
/-- The team registers that a write changes. -/
def State.teamWrite (s : State) (uid n : Nat) (v : DWord) : State :=
  if n = 0x024 then s.modTeam uid (·.setQmap v)
  else if n % 8 = 0 then s.modTeam uid fun t => t.modCopy ((n - 0x040) / 8) fun c => { c with chan := v &&& 0xFFFFFFFFFFFFFFC1, parked := false }
  else s.copyCtl uid ((n - 0x040) / 8) v
/-- The shared registers and those of the executing die that a write changes. -/
def State.devSysWrite (s : State) (die n : Nat) (v : DWord) : State :=
  if n = 0x100 then s
  else if n = 0x102 then s.modDie die fun d => { d with off := v }
  else if n = 0x104 then s.modDie die fun d => { d with rate := v.setWidth 32 }
  else if n = 0x180 then s.setDreg .rtSel (v &&& msk 0 6)
  else if n = 0x181 then s.rtCtl v
  else if n = 0x182 then s.setDreg .rtStat (regAfter 0 (msk 2 2) (s.dreg .rtStat) v)
  else if n = 0x184 then s.rtWord false v
  else if n = 0x186 then s.rtWord true v
  else s.carveWrite (n - 0x188) v
/-- A write of a whole system register, by its number. -/
def State.sysWrite (s : State) (p : Party) (l n : Nat) (v : DWord) : State :=
  let t := s.team p.team
  if n < 0x020 then s.threadWrite p l n v
  else if n < 0x100 then s.teamWrite p.team n v
  else match sysCtx.find? fun r => r.1.base == n with
  | some r => s.writeCreg t.id.ctx r.2 v
  | none => s.devSysWrite (t.id.cluster / 3) n v

end Sys2Proof.Machine
end

