-- ==== Sys2Proof/Machine/System.lean ====
section
/-! DEFINITION. The SYS block: system registers, TLB invalidation, random numbers and performance counts (R298 to R303). -/
namespace Sys2Proof.Machine

/-! ## Checks (R300) -/

/-- The reason for which an access to a system register number is refused. -/
def State.sysBad (s : State) (p : Party) (wr wide : Bool) (n : Nat) : Option Nat :=
  let t := s.team p.team
  match sysFind n with
  | none => some 1
  | some (r, high) =>
    let need := if wr then r.wr else r.rd
    if wide && (high || !r.wide) then some 1
    else match need with
    | .no => some 3
    | .any => none
    | .sys => if t.regs.priv then none else some 2
    | .hsem => if t.regs.priv && s.hsemHeld (fnOf t.id.ctx) then none else some 2
/-- A refusal by a team: a protection fault with the number and the reason; a privilege held back is logged (R300, R331). -/
def State.sysRefuse (s : State) (p : Party) (lanes : List Nat) (addr : DWord) (reason : Nat) : Res :=
  let t := s.team p.team
  let s := if reason = 2 then s.violate addr 2 (if t.regs.priv then 0 else 2) else s
  .trap s 0x0B lanes addr (BitVec.ofNat 64 (reason * 256))
/-- Accesses by the guarded lanes to system registers: the refusal of the first reason that holds for any lane, or the effect lane by lane. -/
def State.sysAccess (s : State) (p : Party) (wr wide : Bool) (lanes : List Nat) (num : Nat → Nat) (go : State → Nat → State) : Res :=
  let bad := lanes.filterMap fun l => (s.sysBad p wr wide (num l)).map fun r => (l, r)
  match bad with
  | [] => .done (lanes.foldl go s)
  | (_, r0) :: _ =>
    let r := bad.foldl (fun m b => min m b.2) r0
    let mine := bad.filter fun b => b.2 == r
    s.sysRefuse p (mine.map (·.1)) (BitVec.ofNat 64 (num ((mine.map (·.1)).headD 0))) r
/-- The half or the whole of a system register that a number reaches. -/
def State.sysGet (s : State) (p : Party) (l n : Nat) (wide : Bool) : DWord :=
  match sysFind n with
  | none => 0
  | some (r, high) =>
    let v := s.sysRead p l r.base
    if wide then v else if high then v >>> 32 else (v.setWidth 32).setWidth 64
def State.sysPut (s : State) (p : Party) (l n : Nat) (wide : Bool) (v : DWord) : State :=
  match sysFind n with
  | none => s
  | some (r, high) => s.sysWrite p l r.base (if r.wide then halfWrite (s.sysRead p l r.base) wide high v else v)
def State.sysNum (s : State) (p : Party) (f : VF) (l : Nat) : Nat := (s.readOp p l false f.b).toNat % 2 ^ 32
/-- MOVSR (R300). -/
def execMovsr (f : VF) (s : State) : Outcome :=
  s.issue (.movsr f) fun lanes s =>
    let p := s.cur
    s.sysAccess p false (f.ty == .b64) lanes (s.sysNum p f) fun s' l => s'.deliverOp p l (f.ty == .b64) f.dst (s.sysGet p l (s.sysNum p f l) (f.ty == .b64))
/-- MOVSW (R300). -/
def execMovsw (f : VF) (s : State) : Outcome :=
  s.issue (.movsw f) fun lanes s =>
    let p := s.cur
    s.sysAccess p true (f.ty == .b64) lanes (s.sysNum p f) fun s' l =>
      s'.sysPut p l (s.sysNum p f l) (f.ty == .b64) (s.readOp p l (f.ty == .b64) f.a)

/-! ## TLBINV (R301) -/

/-- Whether a location is global memory, reached through a translation. -/
def globalLoc (loc : Nat) : Bool := !isScratch loc && !isTexel (loc % keyUnit)
/-- Whether a translated access to some physical pages has yet to perform at its home: a context's pooled atomics, buffered stores and atomics that
wait for a host's completion, and what the clusters have merged or queued, which may be any context's (R301, log entry 20). -/
def State.translatedLeft (s : State) (x : Nat) (frames : List Nat) : Bool :=
  let on (loc : Nat) : Bool := globalLoc loc && frames.contains (loc % keyUnit / 2 ^ 16)
  !frames.isEmpty &&
  ((s.teams.any fun t => t.id.ctx == x &&
    ((t.ord.pool.any fun a => on a.loc) || (t.ord.buf.any fun e => e.cells.any fun c => on c.1) ||
     (t.groups.any fun g => g.threads.toList.any fun h => match h.wait with | some (.host loc _ _ _) => on loc | _ => false))) ||
   s.clusters.toList.any fun c => (c.merge ++ c.outq).any fun e => e.locs.any on)
/-- TLB entries removed by an instruction of a context, and their pages kept until the accesses translated with them have performed. -/
def State.tlbTake (s : State) (p : Party) (x : Nat) (page : Option Nat) : State :=
  let fs := s.tlbFrames x page
  (s.tlbDrop x page).modGroup p fun g => { g with run := g.run.map fun r => { r with inval := (r.inval ++ fs).eraseDups } }
/-- A TLBINV completes once no access is left that was translated with an entry it removed; until then it is issued again. -/
def State.tlbTaken (s : State) (p : Party) (x : Nat) : Res :=
  if s.translatedLeft x (((s.group p).run.map (·.inval)).getD []) then .stall s else .done s
/-- TLBINV.all. -/
def execTlbinvAll (f : VF) (s : State) : Outcome :=
  s.issue (.tlbinvAll f) fun lanes s =>
    let p := s.cur
    let t := s.team p.team
    if lanes.isEmpty then .done s
    else if !t.regs.priv then s.sysRefuse p lanes 0 2
    else (s.tlbTake p t.id.ctx none).tlbTaken p t.id.ctx
/-- TLBINV.page. -/
def execTlbinvPage (f : VF) (s : State) : Outcome :=
  s.issue (.tlbinvPage f) fun lanes s =>
    let p := s.cur
    let t := s.team p.team
    match lanes with
    | [] => .done s
    | l :: _ =>
      if !t.regs.priv then s.sysRefuse p lanes (s.readOp p l true f.a) 2
      else (lanes.foldl (fun (s : State) l => s.tlbTake p t.id.ctx (some (s.readOp p l true f.a).toNat)) s).tlbTaken p t.id.ctx

/-! ## RNG and PERFC (R302, R303) -/

/-- The value of RNG under REPRO = 1. -/
def rngValue (id : TeamId) (tid : Nat) (ctr : DWord) : DWord :=
  let tix : DWord := BitVec.ofNat 64 (id.x + id.gx * (id.y + id.gy * id.z))
  let n : DWord := tix * 1024 + BitVec.ofNat 64 tid
  let x := id.seed ^^^ (n * 0x9E3779B97F4A7C15) ^^^ (ctr * 0xD1B54A32D192ED03)
  let x := (x ^^^ (x >>> 30)) * 0xBF58476D1CE4E5B9
  let x := (x ^^^ (x >>> 27)) * 0x94D049BB133111EB
  x ^^^ (x >>> 31)
/-- x as a type delivers it. -/
def rngBits (ty : Ty) (x : DWord) : DWord :=
  match ty with
  | .b64 => x
  | .f32 => BitVec.ofNat 64 (f32F.round .rn (.fin false (fld x 8 24) (-24))).1
  | _ => (x.setWidth 32).setWidth 64
/-- RNG. Under REPRO = 0, and in run-ahead, the value is free (R282, R302). -/
def execRng (f : VF) (s : State) : Outcome :=
  s.issue (.rng f) fun lanes s =>
    let p := s.cur
    let t := s.team p.team
    .done (lanes.foldl (fun (s : State) l =>
      let ctr := (s.thread p l).rngctr
      let (x, s) : DWord × State := if t.regs.repro && !s.inSteep p then (rngValue t.id (32 * groupIx p + l) ctr, s) else s.fresh
      let s := if s.inSteep p then s else s.modThread p l fun h => { h with rngctr := ctr + 1 }
      s.deliverOp p l (f.ty == .b64) f.dst (rngBits f.ty x)) s)
/-- PERFC (R303). -/
def execPerfc (f : VF) (s : State) : Outcome :=
  s.issue (.perfc f) fun lanes s =>
    let p := s.cur
    let perf := (s.team p.team).regs.perf.toList
    .done (lanes.foldl (fun (s' : State) l => s'.deliverOp p l true f.dst (BitVec.ofNat 64 (perf.getD ((s.readOp p l false f.a).toNat % 256) 0))) s)

end Sys2Proof.Machine
end

