-- ==== Sys2Proof/Machine/Launch.lean ====
section
/-! DEFINITION. Launches: packets and their checks, acceptance, error reports, the start barrier, the distributor tree, placement, team exit and grid retirement, and LAUNCH (R195, R297, R304 to R308, R325, R333 to R343, R377). -/
namespace Sys2Proof.Machine

/-! ## The packet (R333) -/

namespace Pkt
def w (p : Vector DWord 8) (i : Nat) : DWord := vget p i
def etype (p : Vector DWord 8) : Nat := fld (w p 0) 60 4
def pclass (p : Vector DWord 8) : Nat := fld (w p 0) 57 3
def fence (p : Vector DWord 8) : Bool := (w p 0).getLsbD 56
def gx (p : Vector DWord 8) : Nat := fld (w p 1) 0 24 + 1
def gy (p : Vector DWord 8) : Nat := fld (w p 1) 24 24 + 1
def gz (p : Vector DWord 8) : Nat := fld (w p 1) 48 16 + 1
def tdesc (p : Vector DWord 8) : Nat := (w p 2).toNat
def kptr (p : Vector DWord 8) : Nat := (w p 3).toNat
def seed (p : Vector DWord 8) : DWord := w p 4
def gen (p : Vector DWord 8) : Nat := (w p 5).toNat
def mask (p : Vector DWord 8) : DWord := w p 6
def done (p : Vector DWord 8) : Nat := (w p 7).toNat
end Pkt

/-- `$time` of the package: the I/O die's counter (R20). -/
def State.packTime (s : State) : Nat := (vget s.dies 4).time.toNat
/-- The breaches of R335 in the packet alone: `kid` is the parent's class for a LAUNCH. -/
def State.pktBad (s : State) (p : Vector DWord 8) (kid : Option Nat) : Bool :=
  let ldt (i : Nat) : Word := vget s.dev.ldt i
  Pkt.etype p != 1 || fld (Pkt.w p 0) 0 56 != 0 || 2 ^ 32 < Pkt.gx p * Pkt.gy p * Pkt.gz p || Pkt.tdesc p % 128 != 0 || Pkt.kptr p % 256 != 0 ||
  (match kid with
   | some c => Pkt.gen p != 0 || Pkt.mask p != 0 || Pkt.fence p || c < Pkt.pclass p || 4 < Pkt.pclass p
   | none => false) ||
  (Pkt.mask p != 0 && ((bitsOf (Pkt.mask p)).any (fun i => !(ldt i).getLsbD 31) ||
    !((bitsOf (Pkt.mask p)).any fun i => fld (ldt i) 0 13 == Config.packageNumber)))
/-- The generation that a packet takes in a context, none where R334 refuses it. -/
def State.nextGen (s : State) (x gen : Nat) : Option Nat :=
  let old := (s.creg x .ctxGen).toNat
  if old + 1 = 2 ^ 64 then none
  else if gen = 0 then some (old + 1) else if old < gen then some gen else none
/-- The uniform registers that a launch's KPTR block gives (R333). -/
def State.readK (s : State) (x kptr : Nat) : Option (Vector Word 64) :=
  if kptr = 0 then some (.replicate 64 0)
  else match s.devRead x kptr 256 with
  | .error _ => none
  | .ok bs => some (Vector.ofFn fun i => BitVec.ofNat 32 (ofLe ((bs.drop (4 * i.val)).take 4)))
/-- Whether what the command processor reads for a packet waits at a region table entry that drains (R44). -/
def State.launchHeld (s : State) (x : Nat) (p : Vector DWord 8) (kid : Option Nat) : Bool :=
  !s.pktBad p kid && (s.cpHeld x (Pkt.tdesc p) 128 .read || Pkt.kptr p != 0 && s.cpHeld x (Pkt.kptr p) 256 .read)
/-- The context reaches what is read for a packet (R377). -/
def State.launchReach (s : State) (x : Nat) (p : Vector DWord 8) (kid : Option Nat) : State :=
  if s.pktBad p kid then s
  else (fun (s : State) => if Pkt.kptr p = 0 then s else s.cpReach x (Pkt.kptr p) 256 .read) (s.cpReach x (Pkt.tdesc p) 128 .read)
/-- The checks of R335 in a context: the generation, the descriptor and the uniform registers of a good packet. DESIGN CHOICE (log entry 23): a
LAUNCH whose generation would read 0 in its low 32 bits, which R297 does not let it return, is refused. -/
def State.launchCheck (s : State) (x : Nat) (p : Vector DWord 8) (kid : Option Nat) (gen : Nat) : Option (Nat × Vector DWord 16 × Vector Word 64) :=
  if s.pktBad p kid then none
  else match s.readDesc x (Pkt.tdesc p), s.readK x (Pkt.kptr p), s.nextGen x gen with
  | .ok d, some k, some g =>
    if Desc.rect d && (Pkt.gx p % Desc.rw d != 0 || Pkt.gy p % Desc.rh d != 0) then none
    else if kid.isSome && g % 2 ^ 32 = 0 then none
    else some (g, d, k)
  | _, _, _ => none

/-! ## Error reports and the end of a launch (R336) -/

/-- Whether a completion word, with the 16 bytes beside it, waits at a region table entry that drains (R44). -/
def State.doneHeld (s : State) (x done : Nat) : Bool := done != 0 && (s.cpHeld x done 8 .engine || s.cpHeld x (done + 8) 16 .engine)
/-- An error report at a completion word: 16 bytes beside it, then bit 63 and the count. MSI-X vector 0 follows (R336, R383). The cause stands in
[7:0] of the cause word; what the report names, above it. -/
def State.reportAt (s : State) (x done gen cause : Nat) : State :=
  let s :=
    if done = 0 then s
    else match s.engLocs none x done 8 .engine, s.engLocs none x (done + 8) 16 .engine with
    | .ok a, .ok b =>
      let s := ((s.reachRun x a).reachRun x b).homeWrite (b.zip (leBytes 8 gen ++ leBytes 8 cause))
      (s.homeAtomic .add .b64 (a.headD 0) 0x8000000000000001 0).2
    | _, _ => s
  s.msix (fnOf x) 0
/-- The parts, task records, primitives and teams of a launch go (R325, R350). -/
def State.dropLaunch (s : State) (x gen : Nat) : State :=
  let s := { s with clusters := s.clusters.map fun (c : Cluster) =>
    { c with parts := c.parts.filter fun q => !(q.x == x && q.gen == gen),
             tasks := vmod c.tasks x fun q => { q with recs := q.recs.filter (·.gen != gen) } } }
  let s := (List.range 6).foldl (fun (s : State) cl => s.taskPull cl x) s
  let s := s.dropPrims x (· == gen)
  (s.teams.filter fun t => t.id.ctx == x && t.id.gen == gen && !t.killed).foldl (fun (s : State) t => s.stopTeam t.id.uid) s
/-- ERROR_REPORT: a launch ends with an error report; what it still had to run is dropped. A report of an attempt that is being rolled back goes with
the attempt (DEDUCED, log entry 17). -/
def execErrorReport (x gen cause : Nat) (s : State) : Outcome :=
  match s.launch? x gen with
  | none => .next s
  | some l =>
    if l.failed || l.rolling then .next s
    else if s.doneHeld x (Pkt.done l.pkt) then .next (s.dueOnce (.errorReport x gen cause))
    else
      let s := s.modLaunch x gen fun l => { l with failed := true, started := true, error := cause }
      let s := s.modCtx x fun c => { c with failed := gen :: c.failed }
      .next (((s.dropLaunch x gen).reportAt x (Pkt.done l.pkt) gen cause).dueOnce (.gridRetire x gen))
/-- Whether anything of a launch has yet to run (R306, R325). -/
def State.launchBusy (s : State) (x gen : Nat) : Bool :=
  (s.ctx x).launches.any (fun l => l.gen == gen && (l.held || l.rolling)) || s.teams.any (fun t => t.id.ctx == x && t.id.gen == gen) || (s.ctx x).saved.any (fun t => t.id.gen == gen) ||
  s.clusters.toList.any fun c => c.parts.any (fun q => q.x == x && q.gen == gen) || (vget c.tasks x).recs.any (·.gen == gen)
/-- Snapshots of a launch that retires: another running launch of its rollback set takes them over, else they are released (R371). -/
def State.dropSnapshots (s : State) (x : Nat) (l : Launch) : State :=
  let shares (o : Launch) : Bool := o.gen != l.gen && o.snaps.any fun a => l.snaps.any fun b => b.1 == a.1
  let s := match (s.ctx x).launches.find? shares with
    | some o => s.modLaunch x o.gen fun o => { o with snaps := o.snaps ++ (l.snaps.filter fun (a : Nat × Nat) => !(o.snaps.any fun b => b.1 == a.1)) }
    | none => s
  (s.modCtx x fun c => { c with launches := c.launches.filter (·.gen != l.gen) }).setUsed x
/-- GRID_RETIRE: once every team has ended and every task has run, 1 is added to the completion word, and the parent may end. -/
def execGridRetire (x gen : Nat) (s : State) : Outcome :=
  match s.launch? x gen with
  | none => .next s
  | some l =>
    if !l.started || s.launchBusy x gen || s.doneHeld x (Pkt.done l.pkt) then .next s
    else
      let s := if l.failed || Pkt.done l.pkt = 0 then s
        else match s.engLocs none x (Pkt.done l.pkt) 8 .engine with
        | .ok a => ((s.reachRun x a).homeAtomic .add .b64 (a.headD 0) 1 0).2
        | .error _ => s
      let s := s.dropSnapshots x l
      .next (if l.parent.isNone then s
        else (s.modTeam l.spawner fun t => { t with children := t.children - 1 }).dueOnce (.teamEnd l.spawner))

/-! ## The distributor tree (R339 to R342) -/

/-- Units of a launch. -/
def Launch.total (l : Launch) : Nat :=
  if Desc.rect l.desc then (Pkt.gx l.pkt / Desc.rw l.desc) * (Pkt.gy l.pkt / Desc.rh l.desc) * Pkt.gz l.pkt
  else Pkt.gx l.pkt * Pkt.gy l.pkt * Pkt.gz l.pkt
/-- The team coordinates of unit `u` at position (i, j). -/
def Launch.coords (l : Launch) (u i j : Nat) : Nat × Nat × Nat :=
  let (w, h) := if Desc.rect l.desc then (Desc.rw l.desc, Desc.rh l.desc) else (1, 1)
  let (nx, ny) := (Pkt.gx l.pkt / w, Pkt.gy l.pkt / h)
  (w * (u % nx) + i, h * (u / nx % ny) + j, u / (nx * ny))
/-- Clusters of a die that take work. -/
def State.liveClusters (s : State) (die : Nat) : List Nat :=
  ((List.range 3).map (3 * die + ·)).filter fun c => let k := vget s.clusters c; k.enabled && !k.offline && !(vget s.dies die).lost && !(s.dreg .dieStat).getLsbD (6 + die)
/-- A range split into equal parts, the larger ones first. -/
def splitParts (lo n : Nat) (cs : List Nat) : List (Nat × Nat × Nat) :=
  let m := cs.length
  (List.range m).map fun i =>
    let at_ (i : Nat) : Nat := lo + i * (n / m) + min i (n % m)
    (cs.getD i 0, at_ i, at_ (i + 1))
/-- The units of a launch handed down to the clusters. -/
def State.distribute (s : State) (x : Nat) (l : Launch) : State :=
  let u := l.total
  let c0 := match s.liveClusters 0, s.liveClusters 1 with | [], [] => [0] | c, _ => c
  let c1 := s.liveClusters 1
  let n := if c1.isEmpty then u else if c0.isEmpty then 0 else (u + 1) / 2
  let ps := (splitParts 0 n c0 ++ splitParts n (u - n) c1).filter fun p => p.2.1 < p.2.2
  ps.foldl (fun (s : State) p =>
    (s.modCluster p.1 fun c => { c with parts := c.parts ++ [{ x, gen := l.gen, lo := p.2.1, hi := p.2.2 }] }).dueOnce (.unitPlace p.1))
    (s.modLaunch x l.gen fun l => { l with started := true })

/-- A core's placement weight (R343). -/
def State.coreWeight (s : State) (c : Nat) : Nat := (vget s.cores c).temp + fld (s.dreg .thermCfg) 24 8 * (vget s.cores c).droops
/-- Where a unit goes on a cluster: the origin and the window bases (R340, R343). -/
def State.placeFor (s : State) (cluster : Nat) (d : Vector DWord 16) (frame : Bool) : Option (Nat × Nat × Nat × Nat) :=
  if !frame && !Desc.rect d then (s.bestCore cluster d).map fun b => (b.1 % 192 % 16, b.1 % 192 / 16, b.2.1, b.2.2)
  else
    let (w, h) := if Desc.rect d then (Desc.rw d, Desc.rh d) else (1, 1)
    let cores (ox oy : Nat) : List Nat := (List.range h).flatMap fun j => (List.range w).map fun i => 192 * cluster + 16 * (oy + j) + ox + i
    let all := ((List.range (13 - h)).flatMap fun oy => (List.range (17 - w)).map fun ox => (ox, oy)).filterMap fun o =>
      (s.fits (cores o.1 o.2) d).map fun b => (o.1, o.2, b.1, b.2)
    if !frame then all.head?
    else
      let hot (o : Nat × Nat × Nat × Nat) : Bool := (cores o.1 o.2.1).any fun c => (vget s.cores c).hot
      let wt (o : Nat × Nat × Nat × Nat) : Nat := ((cores o.1 o.2.1).map s.coreWeight).foldl max 0
      let pick (l : List (Nat × Nat × Nat × Nat)) : Option (Nat × Nat × Nat × Nat) := (sortBy (fun a b => wt a ≤ wt b) l).head?
      match pick (all.filter (!hot ·)) with | some o => some o | none => pick all
/-- The teams of a unit start on their cores (R305, R339). -/
def State.startUnit (s : State) (cluster x u : Nat) (l : Launch) (o : Nat × Nat × Nat × Nat) : State :=
  (Desc.shape l.desc).foldl (fun (s : State) (ij : Nat × Nat) =>
    let (tx, ty, tz) := l.coords u ij.1 ij.2
    let core := 16 * (o.2.1 + ij.2) + o.1 + ij.1
    let id : TeamId := {
      uid := s.nextUid, ctx := x, gen := l.gen, depth := l.depth, seed := Pkt.seed l.pkt, unit := u, x := tx, y := ty,
      z := tz, gx := Pkt.gx l.pkt, gy := Pkt.gy l.pkt, gz := Pkt.gz l.pkt, cluster, core, rect := Desc.rect l.desc, entry := Desc.entry l.desc }
    s.startTeam (Desc.team l.desc id o.2.2.1 o.2.2.2 l.k l.priv (s.startEpoch x))) s
/-- Whether the distributors place units of a context (R362). -/
def State.ctxRuns (s : State) (x : Nat) : Bool := !(s.ctx x).stopping && !(s.creg x .preStat).getLsbD 1 && !(s.creg x .preStat).getLsbD 2
/-- The lowest unit of a part placed, where it fits. -/
def State.tryPart (s : State) (cluster : Nat) (q : Part) : Option State :=
  match s.launch? q.x q.gen with
  | none => none
  | some l =>
    if !s.ctxRuns q.x then none
    else (s.placeFor cluster l.desc (l.cls == 4)).map fun o =>
      let s := s.modCluster cluster fun c => { c with parts := c.parts.filterMap fun r =>
        if r = q then (if r.lo + 1 < r.hi then some { r with lo := r.lo + 1 } else none) else some r }
      (s.startUnit cluster q.x q.lo l o).dueOnce (.unitPlace cluster)
def State.partClass (s : State) (q : Part) : Nat := ((s.launch? q.x q.gen).map (·.cls)).getD 0
/-- A cluster's parts by class, the oldest generation first (R342). -/
def State.partsInOrder (s : State) (cluster : Nat) : List Part :=
  sortBy (fun (a b : Part) => s.partClass b < s.partClass a || (s.partClass a == s.partClass b && a.gen ≤ b.gen)) (vget s.clusters cluster).parts
/-- A core of a cluster with room for a task (R324). -/
def State.taskCore (s : State) (cluster : Nat) : Option Nat :=
  ((List.range 192).map (192 * cluster + ·)).foldl (fun (best : Option Nat) c =>
    if !s.coreUp c || s.freeSlots c < 1 || s.freeRegs c < 2048 then best
    else match best with | none => some c | some b => if s.freeSlots b < s.freeSlots c then some c else best) none
/-- A context whose queue in a cluster holds an eligible record in its head, where a core has room (R322, R342). -/
def State.taskReady (s : State) (cluster : Nat) : Option Nat :=
  if (s.taskCore cluster).isNone then none
  else (List.range 64).find? fun x => s.ctxRuns x && ((vget (vget s.clusters cluster).tasks x).recs.take 512).any (·.eligible)
/-- UNIT_PLACE: the first unit that fits, frame-class units before tasks, tasks before the others. -/
def execUnitPlace (cluster : Nat) (s : State) : Outcome :=
  let ps := s.partsInOrder cluster
  match (ps.filter fun q => s.partClass q == 4).findSome? (s.tryPart cluster) with
  | some s => .next s
  | none =>
    match s.taskReady cluster with
    | some x => .next (s.dueOnce (.taskRun x cluster))
    | none =>
      match (ps.filter fun q => s.partClass q != 4).findSome? (s.tryPart cluster) with
      | some s => .next s
      | none => .next s
/-- The part that a cluster would steal from: on its own die, else on the other, the one with the most units left (R341). -/
def State.victimPart (s : State) (cluster x gen : Nat) : Option (Nat × Part) :=
  let of (die : Nat) : Option (Nat × Part) :=
    let ps := ((List.range 3).map (3 * die + ·)).filterMap fun c =>
      if c = cluster then none else ((vget s.clusters c).parts.find? fun q => q.x == x && q.gen == gen).map fun q => (c, q)
    (sortBy (fun (a b : Nat × Part) => b.2.hi - b.2.lo ≤ a.2.hi - a.2.lo) ps).head?
  match of (cluster / 3) with | some v => some v | none => of (1 - cluster / 3)
/-- UNIT_STEAL: a cluster without a part of a launch, and with room for a unit, takes the upper half of another's remainder. -/
def execUnitSteal (cluster : Nat) (s : State) : Outcome :=
  let have_ (x gen : Nat) : Bool := (vget s.clusters cluster).parts.any fun q => q.x == x && q.gen == gen
  let launches := (List.range 64).flatMap fun x => ((s.ctx x).launches.filter fun l => l.started && !l.failed && !have_ x l.gen).map fun l => (x, l)
  let order := sortBy (fun (a b : Nat × Launch) => b.2.cls < a.2.cls || (a.2.cls == b.2.cls && a.2.gen ≤ b.2.gen)) launches
  let found := order.findSome? fun xl =>
    match s.victimPart cluster xl.1 xl.2.gen with
    | none => none
    | some v => if s.ctxRuns xl.1 && (s.placeFor cluster xl.2.desc (xl.2.cls == 4)).isSome then some v else none
  match found with
  | none => .next s
  | some (c, q) =>
    let n := max 1 ((q.hi - q.lo) / 2)
    let s := s.modCluster c fun k => { k with parts := k.parts.filterMap fun r =>
      if r = q then (if r.lo + n < r.hi then some { r with hi := r.hi - n } else none) else some r }
    .next ((s.modCluster cluster fun k => { k with parts := k.parts ++ [{ q with lo := q.hi - n }] }).dueOnce (.unitPlace cluster))
/-- THERMAL_SAMPLE: one core's sensors, in units of 0.25 °C (R343). -/
def execThermalSample (cluster core temp droops : Nat) (s : State) : Outcome :=
  let t := 4 * fld (s.dreg .thermCfg) 0 8
  .next (s.modCore (coreNo cluster core) fun c =>
    let n := if c.hot then (if temp + 16 < t then c.hotRuns + 1 else 0) else (if t < temp then c.hotRuns + 1 else 0)
    let flip := if c.hot then 10 ≤ n else 3 ≤ n
    { c with temp, droops, hot := c.hot != flip, hotRuns := if flip then 0 else n })

/-! ## Acceptance and the start barrier (R334, R338, R377) -/

/-- This package's own member of a launch domain table mask, and the others. -/
def State.ownMember (s : State) (m : DWord) : Option Nat := (bitsOf m).find? fun i => fld (vget s.dev.ldt i) 0 13 == Config.packageNumber
def State.send (s : State) (m : SpreadMsg) : State := { s with dev := { s.dev with sent := s.dev.sent ++ [m] } }
def State.sendOthers (s : State) (mask : DWord) (f : Nat → SpreadMsg) : State :=
  ((bitsOf mask).filter fun i => s.ownMember mask != some i).foldl (fun (s : State) i => s.send (f i)) s
/-- A launch is accepted: its generation becomes the context's, and its units are handed out, or its start barrier begins. An invalid
descriptor ends it with an error report. The origin of a spread launch forwards the packet; its own invalid descriptor is its REFUSE, and aborts
the barrier (R338). -/
def State.accept (s : State) (x : Nat) (l : Launch) : State :=
  let s := s.setCreg x .ctxGen (BitVec.ofNat 64 l.gen)
  let s := s.setCreg x .ctxTdm (setFld (s.creg x .ctxTdm) 4 2 3)
  let s := s.modCtx x fun c => { c with launches := c.launches ++ [{ l with accepted := BitVec.ofNat 64 s.packTime }] }
  let s := if l.queue.isSome then s.sendOthers (Pkt.mask l.pkt) fun i => .packet i x l.cls l.gen l.pkt else s
  match Desc.invalid l.desc with
  | some _ => if Pkt.mask l.pkt ≠ 0 ∧ l.queue.isSome then s.due (.startAbort x l.gen) else s.due (.errorReport x l.gen (Desc.report l.desc))
  | none =>
    if Pkt.mask l.pkt = 0 then s.distribute x l
    else
      match l.queue, s.ownMember (Pkt.mask l.pkt) with
      | some _, some i => s.due (.ready x l.gen i)
      | _, _ => s
/-- A launch that waits at its start barrier. -/
def State.pending? (s : State) (x gen : Nat) : Option Launch := (s.launch? x gen).filter fun l => !l.started && Pkt.mask l.pkt != 0
/-- READY: a member is ready; with the last one the origin sends GO to every member, with `$time` + LEAD. -/
def execReady (x gen mem : Nat) (s : State) : Outcome :=
  match s.pending? x gen with
  | none => .next s
  | some l =>
    if l.go || l.queue.isNone || !(Pkt.mask l.pkt).getLsbD mem then .next s
    else
      let rs := if l.ready.contains mem then l.ready else l.ready ++ [mem]
      let s := s.modLaunch x gen fun l => { l with ready := rs }
      let at_ : DWord := BitVec.ofNat 64 (s.packTime + 1000 * fld (s.dreg .lbCfg) 0 16)
      .next (if (bitsOf (Pkt.mask l.pkt)).all rs.contains then (s.sendOthers (Pkt.mask l.pkt) fun i => .go i gen at_).due (.go x gen at_) else s)
/-- REFUSE: the origin aborts the start barrier. -/
def execRefuse (x gen mem : Nat) (s : State) : Outcome :=
  match s.pending? x gen with
  | none => .next s
  | some l => .next (if l.go || l.queue.isNone || !(Pkt.mask l.pkt).getLsbD mem then s else s.due (.startAbort x gen))
/-- GO reaches a member. -/
def execGo (x gen : Nat) (tstart : BitVec 64) (s : State) : Outcome :=
  match s.pending? x gen with
  | none => .next s
  | some l => .next (if l.go || l.failed then s else (s.modLaunch x gen fun l => { l with go := true, tstart }).dueOnce (.tstartReached x gen))
/-- TSTART_REACHED: a member begins placement once its `$time` has reached Tstart. -/
def execTstartReached (x gen : Nat) (s : State) : Outcome :=
  match s.pending? x gen with
  | none => .next s
  | some l => .next (if l.go && !l.failed && l.tstart.toNat ≤ s.packTime then s.distribute x l else s)
/-- START_BARRIER_TIMEOUT: TIMEOUT has passed at the origin without every READY. -/
def execStartBarrierTimeout (x gen : Nat) (s : State) : Outcome :=
  match s.pending? x gen with
  | none => .next s
  | some l => .next (if l.go || l.queue.isNone || s.packTime < l.accepted.toNat + 1000 * fld (s.dreg .lbCfg) 16 16 then s else s.due (.startAbort x gen))
/-- START_ABORT: a member does not start, and writes cause 5 to its completion word; the origin sends ABORT to the others. -/
def execStartAbort (x gen : Nat) (s : State) : Outcome :=
  match s.pending? x gen with
  | none => .next s
  | some l => .next (if l.go then s
      else if s.doneHeld x (Pkt.done l.pkt) then s.dueOnce (.startAbort x gen)
      else
        let s := if l.queue.isSome then s.sendOthers (Pkt.mask l.pkt) fun i => .abort i gen else s
        (s.modCtx x fun c => { c with launches := c.launches.filter (·.gen != gen), failed := gen :: c.failed }).reportAt x (Pkt.done l.pkt) gen 5)
/-- The lowest enabled queue of a context. -/
def State.openQueue? (s : State) (x : Nat) : Option Queue := s.queues.toList.find? fun q => q.cfg.getLsbD 31 && fld q.cfg 0 6 == x
/-- A forwarded packet that a member refuses; where no launch of its generation runs here, it waits for the ABORT and its report. -/
def State.refuseForward (s : State) (x gen : Nat) (p : Vector DWord 8) : State :=
  if (s.launch? x gen).isSome then s.send (.refuse gen)
  else (s.send (.refuse gen)).modCtx x fun c => { c with launches := c.launches ++ [{ gen, pkt := p, failed := true }] }
/-- FORWARDED_LAUNCH_PACKET: a member checks the packet as at the head of one of its queues, moves its generation, sends READY and waits for GO; for
a packet that it refuses it sends REFUSE, and waits for the ABORT. A context without an enabled queue takes none (R393). DESIGN CHOICE (log entry
22): the origin's class stands in the word after the packet, and the privilege is that of the context's lowest enabled queue. -/
def execForwardedLaunchPacket (x gen : Nat) (pkt : List (BitVec 64)) (s : State) : Outcome :=
  let p : Vector DWord 8 := Vector.ofFn fun i => pkt.getD i.val 0
  if Pkt.mask p = 0 then .next s
  else
  let s := (if s.launchHeld x p none then s.drained else s).launchReach x p none
  match s.openQueue? x, s.launchCheck x p none gen with
  | none, _ => .next (s.refuseForward x gen p)
  | some q, c => match c with
  | some (g, d, k) =>
    if (Desc.invalid d).isSome then
      .next ((s.setCreg x .ctxGen (BitVec.ofNat 64 g)).refuseForward x gen p)
    else .next ((s.accept x { gen := g, pkt := p, desc := d, k, cls := min 4 (fld (pkt.getD 8 0) 0 3), priv := q.cfg.getLsbD 30 }).send (.ready g))
  | none => .next (s.refuseForward x gen p)

/-! ## LAUNCH (R297, R306) -/

/-- LAUNCH: the leader's packet is handed to the command processor, which accepts or refuses it at once. -/
def execLaunch (f : VF) (s : State) : Outcome :=
  s.issue (.launch f) fun lanes s =>
    let p := s.cur
    let t := s.team p.team
    if p.mem ≠ .group 0 ∨ !lanes.contains 0 then .done s
    else
      let va := (s.readOp p 0 true f.a).toNat
      if 2 ^ 56 ≤ va then .xfault s .read { sub := 1 } [0] va
      else if va % 64 ≠ 0 then .trap s 0x0C [0] (BitVec.ofNat 64 va) 0
      else if 10 ≤ t.id.depth then .trap s 0x14 [0] 0 10
      else if !s.poolClear p [0] then .stall s
      else
        let held (s : State) : Bool := s.cpHeld t.id.ctx va 64 .read || (match s.devRead t.id.ctx va 64 with
          | .ok bs => s.launchHeld t.id.ctx (dwordsOf 8 bs) (some (((s.launch? t.id.ctx t.id.gen).map (·.cls)).getD 0))
          | .error _ => false)
        if held (s.release p 0 .device) then .stall s
        else
        let s := (s.release p 0 .device).cpReach t.id.ctx va 64 .read
        let x := t.id.ctx
        let out (s : State) (v : Nat) : Res := .done (s.deliverOp p 0 false f.dst (BitVec.ofNat 64 (v % 2 ^ 32)))
        let cls := ((s.launch? x t.id.gen).map (·.cls)).getD 0
        match s.devRead x va 64 with
        | .error _ => out s 0
        | .ok bs =>
          let pkt := dwordsOf 8 bs
          let s := s.launchReach x pkt (some cls)
          match s.launchCheck x pkt (some cls) 0 with
          | none => out s 0
          | some (g, d, k) =>
            let s := s.modTeam p.team fun t => { t with children := t.children + 1 }
            out (s.accept x { gen := g, pkt, desc := d, depth := t.id.depth + 1, parent := some t.id.gen, spawner := p.team, cls := Pkt.pclass pkt, k }) g

/-! ## Team exit (R195) -/

/-- Whether a tile operation belongs to a team. -/
def TileOp.of (uid : Nat) : TileOp → Bool
  | .mma who .. | .wr who .. | .st who .. | .place who .. => who.team == uid
  | .vxm u => u == uid
/-- What of a team has been issued and has not retired: counted operations, accepted records, VXMs. -/
def State.teamBusy (s : State) (t : Team) : Bool :=
  !t.ord.pool.isEmpty || !t.ord.pend.isEmpty || !t.vxms.isEmpty || (vget s.cores t.coreNo).tiles.any (·.of t.id.uid) ||
  (t.copy.toList.any fun c => c.aborting || !c.stopped && c.recs.any fun r => r.accepted && r.status == 0) ||
  (t.streams.toList.any fun st => !st.pend.isEmpty) ||
  (!t.killed && (t.groups ++ t.engines).any fun g => g.ldCnt + g.stCnt + g.cpCnt + g.tlCnt != 0)
/-- Whether the operation at a matrix engine's head is an MMA of a team whose streams hold no slice for it. -/
def State.starves (s : State) (t : Team) : Bool :=
  match (vget s.cores t.coreNo).tiles.head? with
  | some (.mma who _ _ a b m n k done _) =>
    who.team == t.id.uid && !((vget t.streams a).sliceReady m k done && (vget t.streams b).sliceReady n k done)
  | _ => false
/-- The tile operations that can never perform once the first of a list cannot: those behind it on its tag or on its streams, and so on. -/
def deadTiles : List Nat → List Nat → List TileOp → List TileOp
  | _, _, [] => []
  | tags, streams, o :: os =>
    if tags.contains o.acc || streams.any o.names then
      o :: deadTiles (o.acc :: tags) (match o with | .mma _ _ _ a b _ _ _ _ _ => a :: b :: streams | _ => streams) os
    else deadTiles tags streams os
/-- A killed team's tile operations perform as far as they can: an MMA that no producer feeds any more goes, with what can never perform behind it,
so that its tags can be released (R124, R350). -/
def State.dropStarved (s : State) (t : Team) : State :=
  if !t.killed || !s.starves t || t.copy.toList.any (fun c => c.aborting || c.recs.any fun r => r.accepted && r.status == 0) then s
  else match (s.tilesOf t).head? with
  | none => s
  | some o =>
    let dead := deadTiles [o.acc] [] (s.tilesOf t)
    s.modCore t.coreNo fun c => { c with tiles := c.tiles.filter (!dead.contains ·) }
/-- The last writers of a team's write buffer, each once. -/
def Team.writers (t : Team) : List (Party × Nat) := (t.ord.buf.map (·.writer)).eraseDups
/-- The team leaves its core: streams and tags are released, its windows returned (R122, R124, R158, R195). -/
def State.freeTeam (s : State) (uid : Nat) : State :=
  let t := s.team uid
  let s := (List.range 16).foldl (fun (s : State) a => s.unbindAcc uid a) s
  let win (loc : Nat) : Bool := let lo := scratchLoc t.id.cluster t.id.core t.regs.spBase; lo ≤ loc && loc < lo + t.regs.spSize
  let s := s.modCluster t.id.cluster fun c => { c with tbars := c.tbars.filter fun b => !win b.1, tbOps := c.tbOps.filter fun o => !win o.op.loc }
  { s with teams := s.teams.filter (·.id.uid != uid), slots := s.slots.filter (·.team != uid) }
/-- The releases of a team's threads at system scope: those that have written, and one for what has left the write buffer before (R363). -/
def State.releaseTeam (s : State) (t : Team) : State :=
  (t.writers.foldl (fun (s : State) w => s.release w.1 w.2 .system) s).release { team := t.id.uid, mem := .group 0 } 0 .system
/-- TEAM_END: once its threads, its operations, its records and its child grids are done, a team writes back its mapped lines, releases at
system scope and frees what it held. A write-back that fails ends the launch with an error report (R83). A team of a launch that is rolled back
leaves its core without these steps, once what it issued has drained (R372). -/
def execTeamEnd (team : Nat) (s : State) : Outcome :=
  match s.team? team with
  | none => .next s
  | some t =>
    let s := s.dropStarved t
    if t.discard then .next (if s.teamBusy t || s.flushHeld team then s else (s.releaseTeam t).freeTeam team)
    else if !t.allEnded || t.phase == .saved || t.children != 0 || s.teamBusy t || s.flushHeld team then .next s
    else
      let finish (s : State) : State :=
        let s := t.writers.foldl (fun (s : State) w => s.release w.1 w.2 .system) s
        let s := (s.modTeam team fun t => { t with phase := .ending }).acquire team .team
        ((s.release { team, mem := .group 0 } 0 .system).freeTeam team).dueOnce (.gridRetire t.id.ctx t.id.gen)
      match s.writeBack team t.allMaps with
      | .ok s => .next (finish s)
      | .hold s => .next s
      | .fail s _ va => .next (finish (s.due (.errorReport t.id.ctx t.id.gen ((Named.line (va / 256 * 256)).word 4))))

end Sys2Proof.Machine
end

