-- ==== Sys2Proof/Machine/Queues.lean ====
section
/-! DEFINITION. The command processor: the queues, their entries in order, ring faults and replays; the task queues of the clusters (R321 to R325, R329, R332, R352 to R357). -/
namespace Sys2Proof.Machine

/-! ## The queues (R329) -/

namespace Queue
def en (q : Queue) : Bool := q.cfg.getLsbD 31
def priv (q : Queue) : Bool := q.cfg.getLsbD 30
def cls (q : Queue) : Nat := fld q.cfg 27 3
def log2 (q : Queue) : Nat := fld q.cfg 16 5
def ctx (q : Queue) : Nat := fld q.cfg 0 6
/-- The virtual address of the entry at the head. -/
def headVa (q : Queue) : Nat := fld q.base 6 58 * 64 + 64 * (q.head.toNat % 2 ^ q.log2)
end Queue

def State.queue (s : State) (q : Nat) : Queue := vget s.queues q
def State.modQueue (s : State) (q : Nat) (f : Queue → Queue) : State := { s with queues := vmod s.queues q f }
/-- The entry at the head of a queue. -/
def State.headEntry (s : State) (q : Nat) : Except (Nat × XFail) (Vector DWord 8) :=
  (s.devRead (s.queue q).ctx (s.queue q).headVa 64).map (dwordsOf 8)
/-- Whether every earlier entry of a queue has retired: no launch of it runs, no replay of it is held, and the accesses that its TLB invalidates
wait for have performed (R332). -/
def State.queueIdle (s : State) (q : Nat) : Bool :=
  !s.translatedLeft (s.queue q).ctx (s.queue q).inval &&
  (s.ctxs.toList.all fun c => c.launches.all fun l => l.queue != some q) && (s.ctxs.toList.all fun c => c.replays.all fun r => r.queue != q)
/-- The word that a wait entry looks at, where it can be read. -/
def State.waitWord (s : State) (x va : Nat) : Option Nat := match s.devRead x va 8 with | .ok bs => some (ofLe bs) | .error _ => none
/-- Whether what the command processor accesses for an entry waits at a region table entry that drains (R44). -/
def State.cpEntryHeld (s : State) (x : Nat) (e : Vector DWord 8) : Bool :=
  match fld (vget e 0) 60 4 with
  | 0 | 2 | 3 | 5 => false
  | 1 => s.launchHeld x e none || s.doneHeld x (Pkt.done e)
  | 4 => s.cpHeld x (vget e 1).toNat 8 .engine
  | _ => s.doneHeld x (Pkt.done e)
/-- What the command processor does next with a queue, none where it must hold it (R44, R329, R332, R362). -/
def State.cpEntry (s : State) (q : Nat) : Option Instr :=
  let k := s.queue q
  if !k.en || k.stopped || k.head == k.tail || !s.ctxRuns k.ctx then none
  else match s.headEntry q with
  | .error (_, f) => if f.held then none else some (.queueRingFault q)
  | .ok e =>
    if (vget e 0).getLsbD 56 && !s.queueIdle q || s.cpEntryHeld k.ctx e then none
    else match fld (vget e 0) 60 4 with
    | 0 => some (.queueEntryNop q)
    | 1 => some (.queueEntryLaunch q)
    | 2 => some (.queueEntryTlbInvalidate q)
    | 3 => some (.queueEntryFaultReplay q)
    | 4 => some (.queueEntrySignal q)
    | 5 => (match s.waitWord k.ctx (vget e 1).toNat with
        | some v => if (vget e 2).toNat ≤ v then some (.queueEntryWait q) else none
        | none => none)
    | _ => some (.queueEntryReserved q)
/-- The queue whose entry begins next: frame class first, then 3 to 0, round robin within a class. -/
def State.cpQueue (s : State) : Option Nat :=
  [4, 3, 2, 1, 0].findSome? fun c =>
    ((List.range 64).map fun i => (vget s.dev.cpTurn c + 1 + i) % 64).find? fun q => (s.queue q).cls == c && (s.cpEntry q).isSome
/-- The next entry to begin joins the agenda. -/
def State.cpKick (s : State) : State := match s.cpQueue.bind s.cpEntry with | some i => s.dueOnce i | none => s
/-- The entry at the head of a queue is taken, when it is the given one and may begin. -/
def State.takeEntry (s : State) (q : Nat) (i : Instr) (go : Vector DWord 8 → State → State) : Outcome :=
  if s.cpEntry q = some i then
    match s.headEntry q with
    | .ok e =>
      let s := (s.cpReach (s.queue q).ctx (s.queue q).headVa 64 .read).modQueue q fun k => { k with head := k.head + 1 }
      let s := { s with dev := { s.dev with cpTurn := vset s.dev.cpTurn (s.queue q).cls q } }
      .next (go e s).cpKick
    | .error _ => .next s
  else .next s
/-- A write of CQ_TAIL. -/
def State.ringBell (s : State) (q : Nat) (v : Word) : State := (s.modQueue q fun k => { k with tail := v }).cpKick
/-- CQ_TAIL_DOORBELL by a host: another function's queue refuses it (R326, R331). -/
def execCqTailDoorbell (fn q : Nat) (v : BitVec 32) (s : State) : Outcome :=
  .next (if fnOf q ≠ fn then s.violate (BitVec.ofNat 64 (0x10000 + 0x40 * q + 0xC)) fn 1 else s.ringBell q v)

/-! ## The entries (R332) -/

/-- QUEUE_ENTRY_NOP. -/
def execQueueEntryNop (q : Nat) (s : State) : Outcome := s.takeEntry q (.queueEntryNop q) fun _ s => s
/-- QUEUE_ENTRY_LAUNCH: the packet is checked; it runs in the context, class and privilege of its queue, or is refused with error 1. -/
def execQueueEntryLaunch (q : Nat) (s : State) : Outcome :=
  s.takeEntry q (.queueEntryLaunch q) fun e s =>
    let k := s.queue q
    let s := s.launchReach k.ctx e none
    match s.launchCheck k.ctx e none (Pkt.gen e) with
    | none => s.reportAt k.ctx (Pkt.done e) (Pkt.gen e) 1
    | some (gen, desc, kr) => s.accept k.ctx { gen, pkt := e, desc, queue := some q, cls := k.cls, priv := k.priv, k := kr }
/-- QUEUE_ENTRY_TLB_INVALIDATE: the removal of R301; it retires, and a FENCE behind it may go, once the accesses translated with what it removed
have performed (R332). -/
def execQueueEntryTlbInvalidate (q : Nat) (s : State) : Outcome :=
  s.takeEntry q (.queueEntryTlbInvalidate q) fun e s =>
    let x := (s.queue q).ctx
    let page := if (vget e 1).getLsbD 0 then none else some (fld (vget e 1) 16 48 * 2 ^ 16)
    let fs := s.tlbFrames x page
    (s.tlbDrop x page).modQueue q fun k => { k with inval := (k.inval ++ fs).eraseDups }
/-- The pages of TLB invalidates that have retired are forgotten. -/
def State.settleInvals (s : State) : State :=
  if s.queues.toList.all (·.inval.isEmpty) then s
  else { s with queues := s.queues.map fun k => if s.translatedLeft k.ctx k.inval then k else { k with inval := [] } }
/-- QUEUE_ENTRY_FAULT_REPLAY: the walker holds the replay. -/
def execQueueEntryFaultReplay (q : Nat) (s : State) : Outcome :=
  s.takeEntry q (.queueEntryFaultReplay q) fun e s =>
    let x := (s.queue q).ctx
    (s.modCtx x fun c => { c with replays := c.replays ++ [{ batch := fld (vget e 1) 32 32, all := (vget e 1).getLsbD 1, kill := (vget e 1).getLsbD 0,
                                                             need := vget e 2, queue := q }] }).dueOnce (.replayRelease x)
/-- QUEUE_ENTRY_SIGNAL: an atomic add at the home; nothing where the word cannot be reached. -/
def execQueueEntrySignal (q : Nat) (s : State) : Outcome :=
  s.takeEntry q (.queueEntrySignal q) fun e s =>
    match s.engLocs none (s.queue q).ctx (vget e 1).toNat 8 .engine with
    | .ok a => ((s.reachRun (s.queue q).ctx a).homeAtomic .add .b64 (a.headD 0) (vget e 2) 0).2
    | .error _ => s
/-- QUEUE_ENTRY_WAIT: the condition holds, and the queue goes on. -/
def execQueueEntryWait (q : Nat) (s : State) : Outcome := s.takeEntry q (.queueEntryWait q) fun e s => s.cpReach (s.queue q).ctx (vget e 1).toNat 8 .read
/-- QUEUE_ENTRY_RESERVED: error 1 at the completion word that a packet would name. -/
def execQueueEntryReserved (q : Nat) (s : State) : Outcome :=
  s.takeEntry q (.queueEntryReserved q) fun e s => s.reportAt (s.queue q).ctx (Pkt.done e) (Pkt.gen e) 1
/-- QUEUE_RING_FAULT: the queue stops on a batch of one record of KIND 3. -/
def execQueueRingFault (q : Nat) (s : State) : Outcome :=
  if s.cpEntry q ≠ some (.queueRingFault q) then .next s
  else match s.headEntry q with
  | .ok _ => .next s
  | .error (va, f) =>
    match s.writeBatch (s.queue q).ctx (missPages [] [va] f.sub 0 3) {} none {} with
    | none => .next s
    | some (n, s) => .next (s.modQueue q fun k => { k with stopped := true, batch := some n })

/-! ## Replays (R356, R357) -/

/-- Whether a page lies on a stack that answers nothing: a page marked lost (R379). -/
def State.pageLost (s : State) (x va : Nat) : Bool :=
  match s.pageOf none x va .read with
  | .error _ => false
  | .ok p => (List.range 16).any fun k => match s.route (p.pn * 2 ^ 16 + 4096 * k) with | some (st, _) => s.stackDead st | none => false
/-- The lanes of a party that wait on a batch. -/
def State.batchLanes (s : State) (p : Party) (no : Nat) : List Nat := (List.range 32).filter fun l => (s.thread p l).wait == some (.batch no)
/-- A killed batch of a thread: its fault, raised as without demand faults; lanes that the guard excludes go on (R346, R356). -/
def State.batchTrap (s : State) (p : Party) (b : Batch) : State :=
  let lanes := s.batchLanes p b.no
  match lanes.head?.bind (s.blockedRun? p) with
  | none => (s.wake p lanes).enterGroup p lanes b.fault
  | some r =>
    let gs := s.guarded p r lanes
    let s := (lanes.filter fun l => !gs.contains l).foldl (fun (s : State) l => s.goOn p l) s
    (s.modGroup p fun g => gs.foldl (fun g l => g.unblock l) g).enterGroup p gs b.fault
/-- The party that waits on a batch is released: it tries again, or with `kill` fails; a batch on which nobody waits any more does neither (R356). DESIGN
CHOICE (log entry 20): where a relocation engine's batch is killed and the table entry of the object's region cannot be read, the engine leaves the
region as it stands. -/
def State.releaseBatch (s : State) (x : Nat) (kill : Bool) (b : Batch) : State :=
  let kind := ((b.pages.head?).map (·.kind)).getD 0
  let lost := b.pages.any fun m => s.pageLost x (m.page * 2 ^ 16)
  let s := s.modCtx x fun c => { c with batches := c.batches.filter (·.no != b.no) }
  let s := (List.range 64).foldl (fun (s : State) q =>
    if (s.queue q).ctx = x ∧ (s.queue q).batch = some b.no then
      s.modQueue q fun k => { k with stopped := false, batch := none, cfg := if kill then setBit k.cfg 31 false else k.cfg }
    else s) s
  let s := [0, 1].foldl (fun (s : State) die =>
    let r := (s.ctx x).reloc
    if vget r.batch die ≠ some b.no then s
    else
      let s := (s.modReloc x fun r => { r with batch := vset r.batch die none, failed := vset r.failed die none }).dueOnce (.relocateObject x die)
      match (vget r.failed die).filter fun _ => kill with
      | some g =>
        let s := (s.stay x g).modReloc x fun r => { r with asked := r.asked.filter (· != g) }
        if (s.entryFail x (g / 32768)).isSome then s.modReloc x fun r => { r with listed := r.listed.filter (· != g / 32768) } else s
      | none => s) s
  let s := (s.teams.filter fun t => t.id.ctx == x).foldl (fun (s : State) t =>
    (List.range 4).foldl (fun (s : State) c =>
      if (vget t.copy c).batch ≠ some b.no then s
      else
        let s := s.modTeam t.id.uid fun t => t.modCopy c fun k => { k with batch := none }
        if kill then s.dueOnce (.errorReport x t.id.gen (if lost then 6 else 4)) else s) s) s
  match b.who with
  | none => s
  | some p =>
    if (s.batchLanes p b.no).isEmpty then s
    else if !kill then s.wake p (s.batchLanes p b.no)
    else if kind = 0 then s.batchTrap p b
    else s.dueOnce (.errorReport x (s.team p.team).id.gen (if lost then 6 else 4))
/-- REPLAY_RELEASE: every replay whose generation has come releases the parties of its batches. -/
def execReplayRelease (x : Nat) (s : State) : Outcome :=
  let ready (r : Replay) : Bool := r.need.toNat ≤ (s.creg x .ptGen).toNat
  let go (s : State) (r : Replay) : State :=
    ((s.ctx x).batches.filter fun b => r.all || b.no % 2 ^ 32 == r.batch).foldl (fun (s : State) b => s.releaseBatch x r.kill b) s
  .next ((((s.ctx x).replays.filter ready).foldl go s).modCtx x fun c => { c with replays := c.replays.filter fun r => !ready r }).cpKick

/-! ## Tasks (R321 to R325) -/

/-- The counters that a record waits for: addresses and targets, the join counter's target being none. -/
def TaskRec.counters (r : TaskRec) : List (BitVec 64 × Option Nat) :=
  let frame := vget r.w 1
  let decl (i : Nat) : Word := (vget r.w (2 + i / 2)).extractLsb' (32 * (i % 2)) 32
  (frame + BitVec.ofInt 64 (sfld (vget r.w 0) 32 32), none) ::
    ((List.range 4).filter fun i => fld (decl i) 0 20 != 0).map fun i => (frame + BitVec.ofInt 64 (8 * sfld (decl i) 20 12), some (64 * fld (decl i) 0 20))
/-- Whether a record's counters hold what it waits for; none when one of them cannot be read. A read that waits at a region table entry has not
come (R44). -/
def State.taskMet (s : State) (x : Nat) (r : TaskRec) : Option Bool :=
  (r.counters.mapM fun (c : BitVec 64 × Option Nat) =>
    if c.1.toNat % 8 ≠ 0 then none
    else match s.devRead x c.1.toNat 8 with
      | .ok bs => some (match c.2 with | none => ofLe bs == 0 | some t => decide (t ≤ ofLe bs))
      | .error (_, f) => if f.held then some false else none).map fun l => l.all id
/-- TASK_EVALUATE: a head record becomes eligible, or is discarded with an error report when a counter of it cannot be read. -/
def execTaskEvaluate (x cluster ix : Nat) (s : State) : Outcome :=
  match (vget (vget s.clusters cluster).tasks x).recs[ix]? with
  | none => .next s
  | some r =>
    if 512 ≤ ix || r.eligible then .next s
    else
    let s := (r.counters.filter fun c => c.1.toNat % 8 == 0).foldl (fun (s : State) c => s.cpReach x c.1.toNat 8 .read) s
    match s.taskMet x r with
    | none => .next (((s.modTasks cluster x fun q => { q with recs := q.recs.eraseIdx ix }).taskPull cluster x).due (.errorReport x r.gen ((Named.record r.w).word 4)))
    | some false => .next s
    | some true =>
      .next ((s.modTasks cluster x fun q => { q with recs := q.recs.modify ix fun r => { r with eligible := true } }).dueOnce (.unitPlace cluster))
/-- The team that runs a record: one group of 32 threads (R324). -/
def TaskRec.team (r : TaskRec) (uid core : Nat) (cluster : Nat) (fmt : Vector Word 8) (k : Vector Word 64) (hepoch : Word) : Team :=
  let pc := r.spawner.entry + BitVec.ofInt 64 (8 * sfld (vget r.w 0) 0 32)
  let frame := vget r.w 1
  let th : Thread := { life := .live, pc, g := vset (vset (.replicate 256 0) 0 (frame.setWidth 32)) 1 (frame.extractLsb' 32 32) }
  { id := { r.spawner with uid, cluster, core, rect := false, task := true }
    regs := { kinds := vset (.replicate 8 0) 0 1, priv := r.regs.priv, prog := r.regs.prog, repro := r.regs.repro, hepoch, fmt, k }
    groups := [{ quota := 64, threads := .replicate 32 th }] }
/-- TASK_RUN: a core with a free group slot and 2,048 free registers takes the oldest eligible record of a context's queue. -/
def execTaskRun (x cluster : Nat) (s : State) : Outcome :=
  let recs := (vget (vget s.clusters cluster).tasks x).recs
  match s.taskCore cluster, (recs.take 512).findIdx? (·.eligible) with
  | some core, some ix =>
    (match recs[ix]? with
     | some r =>
       if !s.ctxRuns x then .next s
       else
         let l := (s.launch? x r.gen).getD {}
         let t := r.team s.nextUid (core % 192) cluster (Vector.ofFn fun i => Desc.fmt l.desc i.val) l.k (s.startEpoch x)
         let s := (s.modTasks cluster x fun q => { q with recs := q.recs.eraseIdx ix }).taskPull cluster x
         .next (((s.startTeam t).due (.taskEvaluate x cluster 511)).dueOnce (.unitPlace cluster))
     | none => .next s)
  | _, _ => .next s

end Sys2Proof.Machine
end

