-- ==== Sys2Proof/Machine/Issue.lean ====
section
/-! DEFINITION. Fetching a clause and the issue clock of a core: the packer, the two issue slots, the engine fetcher, and the device steps that a clock makes due (R173 to R179, R282, R303, R311 to R320, R351, R358, R359). -/
namespace Sys2Proof.Machine

/-! ## The checks of an engine member (R178, R191, R260, R282, R318) -/

/-- The class that an engine kind serves. -/
def kindCls (kind : Nat) : Cls := if kind = 6 then .mtx else if kind = 7 then .gmv else if kind = 8 then .srf else .cpy
/-- Whether a slot is one that an engine member performs in a clause of a class: its opcode, its guard and its CTX field, read from the word
whether or not the rest of it decodes. -/
def engineSlotOk (kind : Nat) (cls : Cls) (w : DWord) : Bool :=
  match Mn.ofOp (w.extractLsb' 55 9) with
  | none => true
  | some .nop => true
  | some mn =>
    let plain := (rawOf w).guard == {}
    if mn == .bra then plain
    else if cls == .sync then mn == .xfer || mn == .waittl || mn == .waitct
    else mn.cls == some cls && plain && mn != .accrd && mn != .accwr && (cls != .cpy || fld w 0 2 + 2 == kind)
/-- The reason of an illegal clause for an engine member: reason 3 or 4 at its lowest slot that has one. -/
def engineClauseBad (kind : Nat) (hword : DWord) (words : List DWord) : Option Nat :=
  match Cls.ofCode (headerOf hword).ecls with
  | none => some 1
  | some cls =>
    if cls ≠ .sync ∧ cls ≠ kindCls kind then some 3
    else (List.range words.length).findSome? fun i =>
      let w := words.getD i 0
      if !engineSlotOk kind cls w then some 3
      else if Mn.ofOp (w.extractLsb' 55 9) == some .bra && i + 1 != words.length then some 4 else none

/-! ## CLAUSE_FETCH (R174, R178, R320, R358) -/

/-- A running path goes back to be picked again, its lanes where they stand. -/
def State.dropRun (s : State) (p : Party) : State := s.modGroup p fun g => { g with run := none }
/-- A header fetch that is a demand fault: a batch of one record, KIND 0 for a group and 4 for an engine member, and no run-ahead. -/
def State.fetchBatch (s : State) (p : Party) (lanes : List Nat) (va : Nat) (f : XFail) (x : Trap) : State :=
  let kind := match p.mem with | .group _ => 0 | .engine _ => 4
  let b := s.giveBatch p (ofBits 32 lanes) (missPages [] [va] f.sub 3 kind) x
  (b.1.setWaits p (lanes.map fun l => (l, b.2))).dropRun p
/-- A fetch that has to wait: the path is picked again; at a save it stops where it stands (R32, R44, R362). -/
def State.holdFetch (s : State) (p : Party) (lanes : List Nat) : State :=
  (if (s.ctx (s.ctxOf p)).stopping then s.setWaits p (lanes.map (·, .retry)) else s).dropRun p
/-- The lanes of a run stand at a place. -/
def State.standAt (s : State) (p : Party) (r : Run) (spot : Spot) : State :=
  s.modGroup p fun g => { g with threads := (bitsOf r.lanes).foldl (fun ts l => vmod ts l fun t => { t with pc := spot.1, mid := spot.2 }) g.threads }
/-- An illegal clause: trap 0x02 at its header (R178). -/
def State.clauseTrap (s : State) (p : Party) (r : Run) (reason : Nat) : State :=
  s.takeTrap p (bitsOf r.lanes) { cause := 0x02, aux := BitVec.ofNat 64 reason, lanes := r.lanes, pc := r.hdr }
/-- A fetched header that ends the fetch: it is illegal, or the clause is not of the member's role and is skipped; none when its slots are to be
read (R178, R317). -/
def State.headerEnds (s : State) (p : Party) (r : Run) (hword : DWord) : Option State :=
  match clauseBad r.hdr.toNat hword [] with
  | some reason => some (s.clauseTrap p r reason)
  | none => if !(headerOf hword).role.getLsbD (s.group p).role then some ((s.standAt p r (nextHeader r.hdr hword, none)).dropRun p) else none
/-- The slots of a clause have been read: they are checked, and the clause begins. -/
def State.slotsRead (s : State) (p : Party) (r : Run) (hword : DWord) (words : List DWord) : State :=
  let fault := match p.mem with | .group _ => clauseBad r.hdr.toNat hword words | .engine _ => engineClauseBad (s.group p).kind hword words
  match fault with
  | some reason => s.clauseTrap p r reason
  | none => (s.standAt p r (r.slotPc, some (r.hdr, r.idx))).modGroup p fun g => { g with run := some { r with hword, words, part := none } }
/-- A fetched header, with the words that follow it: a group reads all its slots with it, an engine member one word in a clock (R317). -/
def State.enterClause (s : State) (p : Party) (r : Run) (loc : Nat) (hword : DWord) (word : Nat → DWord) : State :=
  match s.headerEnds p r hword with
  | some s => s
  | none =>
    match p.mem with
    | .group _ => s.slotsRead p r hword ((List.range (headerOf hword).slots).map word)
    | .engine _ => s.modGroup p fun g => { g with run := some { r with hword, part := some (loc, []) } }
/-- The engine fetcher's next word of a clause. -/
def State.fetchWord (s : State) (p : Party) (r : Run) (loc : Nat) (got : List DWord) : State :=
  let got := got ++ [BitVec.ofNat 64 (s.homeReadN (loc + 8 * (got.length + 1)) 8)]
  if got.length < (headerOf r.hword).slots then s.modGroup p fun g => { g with run := some { r with part := some (loc, got) } }
  else s.slotsRead p r r.hword got
/-- CLAUSE_FETCH: the header is translated, read and checked; in run-ahead a fetch that does not succeed ends it. A fault has TRAP_PC at the
header, wherever in the clause the path goes on (R347, R358). -/
def execClauseFetch (p : Party) (s : State) : Outcome :=
  match (s.group p).run with
  | none => .next s
  | some r =>
    let t := s.team p.team
    let lanes := bitsOf r.lanes
    let va := r.hdr.toNat
    if !r.words.isEmpty then .next s
    else match r.part with
    | some (loc, got) => .next (s.fetchWord p r loc got)
    | none =>
    match s.xlate (some t.coreNo) t.id.ctx va .fetch with
    | .error f =>
      let x : Trap := { cause := f.cause .fetch, addr := r.hdr, aux := f.aux, lanes := r.lanes, pc := r.hdr }
      if s.inSteep p then .next (s.endSteep p)
      else if f.held then .next (s.holdFetch p lanes)
      else if s.demanded t.id.ctx .fetch f then .next (s.fetchBatch p lanes va f x)
      else .next (s.takeTrap p lanes x)
    | .ok (loc, pg) =>
      if pg.mig then .next (if s.inSteep p then s.endSteep p else s.holdFetch p lanes)
      else
        let s := s.tlbTouch p.team t.coreNo t.id.ctx va .fetch
        let word (i : Nat) : DWord := BitVec.ofNat 64 (s.homeReadN (loc + 8 * i) 8)
        let hword := word 0
        let bad := hword == 0 || (clauseBad va hword []).isSome || ((headerOf hword).role.getLsbD (s.group p).role &&
          (clauseBad va hword ((List.range (headerOf hword).slots).map fun i => word (i + 1))).isSome)
        if s.inSteep p && bad then .next (s.endSteep p)
        else if hword = 0 then .next (s.takeTrap p lanes { cause := 0x01, aux := 1, lanes := r.lanes, pc := r.hdr })
        else .next (s.enterClause p r loc hword fun i => word (i + 1))

/-! ## The packer (R312, R313) -/

def Thread.eligible (t : Thread) : Bool := t.life == .live && t.sleep == 0 && !t.parked && t.wait.isNone
/-- The paths of a group among some lanes: where they stand and their lanes. -/
def Group.paths (g : Group) (among : Word) : List (Spot × List Nat) :=
  let ls := (bitsOf among).filter fun l => (vget g.threads l).eligible
  let spot (l : Nat) : Spot := ((vget g.threads l).pc, (vget g.threads l).mid)
  ((ls.map spot).eraseDups).map fun k => (k, ls.filter fun l => spot l == k)
def Group.timer (g : Group) (pc : DWord) : Nat := ((g.timers.find? (·.1 == pc)).map (·.2)).getD 0
/-- PickPath (R313). -/
def Group.pick (g : Group) (prog : Bool) (among : Word) : Option (Spot × List Nat) :=
  let e := g.paths among
  let tm (q : Spot × List Nat) : Nat := g.timer q.1.1
  let byTimer (a b : Spot × List Nat) : Bool := tm b < tm a || (tm a == tm b && a.1.1.toNat ≤ b.1.1.toNat)
  let bySize (a b : Spot × List Nat) : Bool := b.2.length < a.2.length || (a.2.length == b.2.length && a.1.1.toNat ≤ b.1.1.toNat)
  let old := if prog then e.filter fun q => 512 ≤ tm q else []
  let stuck := g.last != 0 && !(e.any fun q => q.2.any g.last.getLsbD)
  let others := e.filter fun q => !(q.2.any g.last.getLsbD)
  if !old.isEmpty then (sortBy byTimer old).head?
  else if (g.yield || (prog && stuck)) && !others.isEmpty then (sortBy byTimer others).head?
  else (sortBy bySize e).head?
/-- The chosen path becomes the issue group; one picked while parked mid-clause goes on with the clause it was in. -/
def Group.startPath (g : Group) (clock : Nat) (q : Spot × List Nat) : Group :=
  let (hdr, idx) := match q.1.2 with | some m => m | none => (q.1.1, 0)
  let lanes := ofBits 32 q.2
  let kept := g.blocked.find? fun r => !r.words.isEmpty && r.hdr == hdr && r.idx == idx && r.lanes &&& lanes != 0
  let r : Run := match kept with | some r => { r with lanes } | none => { lanes, hdr, idx }
  { g with run := some r, last := lanes, yield := false, age := clock, timers := g.timers.filter (·.1 != q.1.1),
           blocked := (g.blocked.map fun r => { r with lanes := r.lanes &&& ~~~ lanes }).filter (·.lanes != 0) }
/-- A clock of the fairness timers: those of the paths that are eligible and do not run; timers of places where no thread stands go. -/
def Group.tickTimers (g : Group) : Group :=
  let running : Word := match g.run with | some r => r.lanes | none => 0
  let waiting := (g.paths (~~~ running)).map (·.1.1)
  let stands (pc : DWord) : Bool := g.threads.toList.any fun t => t.life == .live && t.pc == pc
  let kept := g.timers.filter fun k => stands k.1
  { g with timers := (kept.map fun k => if waiting.contains k.1 then (k.1, k.2 + 1) else k) ++
      ((waiting.eraseDups).filter fun pc => !(kept.any (·.1 == pc))).map fun pc => (pc, 1) }

/-- The members of a team: its groups, then its engine members. -/
def Team.members (t : Team) : List Party :=
  ((List.range t.groups.length).map fun g => { team := t.id.uid, mem := .group g }) ++
  t.engines.map fun e => { team := t.id.uid, mem := .engine e.role }
/-- At a switch point a member's next path is picked; in run-ahead among the threads of its path, and at a stop or a park among those that have a
clause to finish (R359, R362). -/
def State.pickFor (s : State) (t : Team) (p : Party) : State :=
  let g := t.member p.mem
  let idle := match p.mem with | .engine _ => g.stopped || t.allEnded | .group _ => false
  if g.run.isSome || idle then s
  else
    let among : Word := match g.steep with
      | some st => st.lanes
      | none => if t.parking || (s.ctx t.id.ctx).stopping then ofBits 32 ((List.range 32).filter fun l => (vget g.threads l).mid.isSome) else ~~~ 0
    match g.pick t.regs.prog among with
    | some q => s.modGroup p fun g => g.startPath (s.coreClock p) q
    | none =>
      match g.steep, p.mem with
      | some _, .group n => s.dueOnce (.steepEnd t.id.uid n)
      | _, _ => s

/-! ## Heads (R175, R176, R291, R314, R315) -/

/-- Whether a member is a sender held by the drift bound. -/
def State.driftHeld (s : State) (p : Party) (r : Run) : Bool :=
  match decodeWord r.word with
  | .ok (.xfer _ ch snd rcv) =>
    let t := s.team p.team
    let g := s.group p
    g.role == snd.toNat && !t.driftOk ch.toNat (vget g.xfers ch.toNat + 1) rcv.toNat
  | _ => false
/-- Whether a head is ready. -/
def State.ready (s : State) (p : Party) (r : Run) : Bool :=
  let g := s.group p
  let h := headerOf r.hword
  let waits := r.idx != 0 || s.inSteep p ||
    (g.ldCnt ≤ h.ldw.toNat && g.stCnt ≤ h.stw.toNat && g.cpCnt ≤ h.cpw.toNat && g.tlCnt ≤ h.tlw.toNat)
  waits && !s.driftHeld p r &&
  match decodeWord r.word with
  | .error _ => true
  | .ok i => (match i.view with | some v => !s.interlocked p (bitsOf r.lanes) v && !s.counterFull p v | none => true)
/-- Whether a member of a team has a clause part-way at an instruction that cannot go on by itself: what it waits for may be another path of its
context's teams on the core. -/
def State.partStuck (s : State) (t : Team) : Bool :=
  t.members.any fun p => !(s.group p).flipRest && (s.group p).run.any fun r => !r.words.isEmpty && (r.stall.isSome || !s.ready p r)
/-- Whether paths of a team may be picked: it runs, and no colour flip waits for its core, unless a clause that is part-way there cannot end
otherwise (R138). -/
def State.mayPick (s : State) (t : Team) : Bool :=
  t.phase == .running && !t.killed && !(vget s.dies (t.id.cluster / 3)).lost &&
  (!(s.flipBusy t.id.ctx && (s.ctx t.id.ctx).reloc.acks.contains t.coreNo) ||
    s.teams.any fun u => u.id.ctx == t.id.ctx && u.coreNo == t.coreNo && u.phase != .saved && s.partStuck u)
/-- The g-register reads of an instruction in each bank. -/
def bankReads (w : DWord) : List Nat :=
  match decodeWord w with
  | .error _ => [0, 0, 0, 0]
  | .ok i =>
    let regs : List Operand := match i.view with | some v => (v.fields.filter fun f => !f.dst).flatMap Field.each | none => []
    (List.range 4).map fun b => (regs.filter fun o => match o with | .g n => n.toNat % 4 == b | _ => false).length
/-- The port that an instruction needs, none for vector and class-neutral ones. -/
def portOf (w : DWord) : Option Cls :=
  ((Mn.ofOp (w.extractLsb' 55 9)).bind Mn.cls).filter fun c => c != .vec
/-- Whether two issue groups conflict. -/
def conflict (a b : DWord) : Bool :=
  ((bankReads a).zip (bankReads b)).any (fun q => 2 < q.1 + q.2) || (portOf a).isSome && portOf a == portOf b

/-! ## The clock of a core -/

/-- The teams that live on a core. -/
def State.coreTeams (s : State) (c : Nat) : List Team := s.teams.filter fun t => t.coreNo == c && t.phase != .saved
/-- A nanosecond of a die's counter, with its rate trim, and the time servo's slew of the I/O die, which the other dies follow (R20 to R22, R389). -/
def Die.tick (slew : Int) (d : Die) : Die :=
  let n : Int := (d.residue.toNat : Int) + d.rate.toInt + slew
  { d with cnt := d.cnt + 1 + BitVec.ofInt 64 (n / 2 ^ 32), residue := BitVec.ofInt 32 n }
/-- The nanoseconds that the arithmetic clock numbered `k` takes at PWR_STAT's rate. -/
def State.nsOf (s : State) (k : Nat) : Nat :=
  let f := max 1 (fld (s.dreg .pwrStat) 0 16)
  (k + 1) * 1000 / f - k * 1000 / f
def State.tickDies (s : State) (n : Nat) : State :=
  let slew := if fld (s.dreg .tsCfg) 30 2 = 1 then s.dev.slew else 0
  { s with dies := s.dies.map fun (d : Die) => if d.lost then d else (List.range n).foldl (fun d _ => d.tick slew) d }
/-- Threads of a parking team that have reached a clause boundary, wait or stand blocked park where they stand; one that stands in the midst of a
clause goes on to its end first (R359). -/
def Group.park (g : Group) : Group :=
  let running : Word := match g.run with | some r => r.lanes | none => 0
  { g with threads := Vector.ofFn fun i => let t := vget g.threads i.val
      if t.life == .live && !running.getLsbD i.val && (t.wait.isSome || t.sleep != 0 || t.mid.isNone) then { t with parked := true } else t }
/-- A sender that the drift bound holds parks where it stands, and issues its XFER again on resume (R282, R359). -/
def State.parkSender (s : State) (p : Party) : State :=
  match (s.group p).run with
  | some r => if !r.words.isEmpty && s.driftHeld p r then (s.stopHere p).modGroup p Group.park else s
  | none => s
/-- At a stop of the context, a head that is not ready, or that its unit holds, stops where it waits (R362 step 1, R404), but for an instruction that
is never abandoned (R238). -/
def State.stopHead (s : State) (p : Party) : State :=
  match (s.group p).run with
  | some r =>
    let keeps := match decodeWord r.word with | .ok i => i.view.any View.keeps | .error _ => false
    if !r.words.isEmpty && (!s.ready p r || r.stall.isSome && !keeps) then s.stopHere p else s
  | none => s
/-- A clock of a team: event counts, timers, sleeps, barriers and channels, parking (R200, R288, R290, R303, R313, R359). -/
def State.tickTeam (s : State) (uid : Nat) : State :=
  let t := s.team uid
  let head := (vget s.cores t.coreNo).tiles.head?
  let mine := match head with | some o => o.of uid | none => false
  let starved := match head with
    | some (.mma who _ _ a b m n k done _) =>
      who.team == uid && !((vget t.streams a).sliceReady m k done && (vget t.streams b).sliceReady n k done)
    | _ => false
  let nap (g : Group) : Group := { g with threads := g.threads.map fun (h : Thread) => if 1 < h.sleep then { h with sleep := h.sleep - 1 } else h }
  let expired := t.members.flatMap fun p => ((List.range 32).filter fun l => (vget (t.member p.mem).threads l).sleep == 1).map fun l => Instr.sleepExpiry p l
  let s := s.perfAdd uid 0 1
  let s := if starved then s.perfAdd uid 5 1 else s
  let s := if mine then s.perfAdd uid 6 1 else s
  let s := s.modTeam uid fun t =>
    let f (g : Group) : Group := let g := (nap g).tickTimers; if t.parking then g.park else g
    let t := { t with groups := t.groups.map f, engines := t.engines.map f }
    let t := (List.range 16).foldl (fun (t : Team) n => t.barSettle n) t
    (List.range 8).foldl (fun (t : Team) c => t.chanStep c) t
  let s := if t.parking then t.members.foldl State.parkSender s else s
  let s := if (s.ctx t.id.ctx).stopping then t.members.foldl State.stopHead s else s
  expired.foldl State.due s
/-- The place of an engine member in the fetcher's round robin. -/
def fetchKey (p : Party) : Nat := p.team * 8 + match p.mem with | .engine r => r | .group _ => 0
/-- The engine member that the fetcher serves: the next one in turn that has fetching to do (R317). -/
def nextFetcher (turn : Nat) (asking : List Party) : Option Party :=
  let l := sortBy (fun (a b : Party) => fetchKey a ≤ fetchKey b) asking
  (l.find? fun p => decide (turn ≤ fetchKey p)).or l.head?
/-- The issue slots of a clock: groups that fetch, the two oldest ready heads that do not conflict, those behind that their unit held in the clock before (log entry 31), then the engine members' commands. A group
whose reads in a bank exceed two issues alone and holds the slots for ⌈n/2⌉ clocks. -/
def State.fillSlots (s : State) (c : Nat) : State :=
  let ps := (s.coreTeams c).flatMap Team.members
  let runOf (p : Party) : Option Run := (s.group p).run
  let isGroup (p : Party) : Bool := match p.mem with | .group _ => true | .engine _ => false
  let fetching (p : Party) : Bool := match runOf p with | some r => r.words.isEmpty | none => false
  let word (p : Party) : DWord := match runOf p with | some r => r.word | none => 0
  let able (p : Party) : Bool := match runOf p with | some r => !r.words.isEmpty && s.ready p r | none => false
  let late (p : Party) : Nat := if (runOf p).any fun r => r.stall.any fun k => k + 1 == s.coreClock p then 1 else 0
  let rank (p : Party) : List Nat := [late p, (s.group p).age, groupIx p]
  let heads := sortBy (fun (a b : Party) => decide (rank a ≤ rank b))
    ((ps.filter isGroup).filter able)
  let clocks (p : Party) : Nat := max 1 (((bankReads (word p)).map fun n => (n + 1) / 2).foldl max 0)
  let busy := (vget s.cores c).slotBusy
  let (issue, lost) : List Party × Option Party := match heads with
    | a :: b :: _ => if busy ≠ 0 then ([], some a) else if 1 < clocks a || 1 < clocks b || conflict (word a) (word b) then ([a], some b) else ([a, b], none)
    | [a] => if busy ≠ 0 then ([], some a) else ([a], none)
    | [] => ([], none)
  let engines := (ps.filter fun p => !isGroup p)
  let asking := engines.filter fetching
  let fetcher := (nextFetcher (vget s.cores c).fetchTurn asking).toList
  let held := ps.filter fun p => match runOf p with | some r => !r.words.isEmpty && s.driftHeld p r | none => false
  let s := (held.map (·.team)).eraseDups.foldl (fun (s : State) u => s.perfAdd u 11 1) s
  let s := match lost with | some p => s.perfAdd p.team 3 1 | none => s
  let s := match fetcher with | [] => s | p :: _ => s.modCore c fun k => { k with fetchTurn := fetchKey p + 1 }
  let s := s.modCore c fun k => { k with slotBusy := if busy ≠ 0 then busy - 1 else match issue with | p :: _ => clocks p - 1 | [] => 0 }
  { s with slots := s.slots ++ (ps.filter fun p => isGroup p && fetching p) ++ issue ++ engines.filter able ++ fetcher }

/-! ## The steps that a clock makes due (log entry 8) -/

/-- The register banks that the vector results of a clock's issue groups on a core take (R316). -/
def State.vecBanks (s : State) (c : Nat) : List Nat :=
  s.slots.flatMap fun p =>
    match (s.group p).run.filter fun r => !r.words.isEmpty && (s.team p.team).coreNo == c with
    | none => []
    | some r => (match decodeWord r.word with
      | .error _ => []
      | .ok i => (match i.view with
        | some v => if v.mn.cls = some .vec then ((v.fields.filter (·.dst)).flatMap Field.each).filterMap fun o => match o with | .g n => some (n.toNat % 4) | _ => none
          else []
        | none => []))
/-- The pending engine results that land in a clock, the highest place first: those that have lost four clocks, else the oldest of each register
bank that no vector result takes, all its lanes; and those to no g register (R316). -/
def landing (vec : List Nat) (l : List PendWrite) : List Nat :=
  let banks (w : PendWrite) : List Nat := match w.dst with | .g n => if w.wide then [n.toNat % 4, (n.toNat + 1) % 4] else [n.toNat % 4] | _ => []
  let step (acc : List Nat × List (Nat × Party × Operand)) (i : Nat) : List Nat × List (Nat × Party × Operand) :=
    let w := l.getD i {}
    if (banks w).all fun b => (decide (4 ≤ w.lost) || !vec.contains b) && acc.2.all fun u => u.1 != b || (u.2.1 == w.who && u.2.2 == w.dst) then
      (i :: acc.1, acc.2 ++ (banks w).map fun b => (b, w.who, w.dst))
    else acc
  let late (i : Nat) : Bool := decide (4 ≤ (l.getD i {}).lost)
  let order := (List.range l.length).filter late ++ (List.range l.length).filter fun i => !late i
  sortBy (fun a b => b ≤ a) ((order.foldl step ([], [])).1)
/-- A clock of a team's engine results: those that do not land have lost it. -/
def State.loseBanks (s : State) (t : Team) : State :=
  if t.ord.pend.isEmpty then s
  else
    let on := landing (s.vecBanks t.coreNo) t.ord.pend
    s.modTeam t.id.uid fun t => t.modOrd fun o => { o with pend := o.pend.mapIdx fun i w => if on.contains i then w else { w with lost := w.lost + 1 } }
/-- The waits of a member that may end: one lane for each distinct wait at each place. -/
def Group.waits (g : Group) : List Nat :=
  let ls := (List.range 32).filter fun l => let t := vget g.threads l; t.wait.isSome && !t.parked && t.wait != some .answer && t.wait != some .room && !t.atHost
  let key (l : Nat) : Option Wait × DWord := ((vget g.threads l).wait, (vget g.threads l).pc)
  ((ls.map key).eraseDups).filterMap fun k => ls.find? fun l => key l == k
/-- The steps due for a team. -/
def State.teamDue (s : State) (t : Team) : List Instr :=
  let uid := t.id.uid
  let clk := (vget s.cores t.coreNo).clk.toNat
  let stopping := (s.ctx t.id.ctx).stopping
  let copy := (List.range 4).flatMap fun c =>
    let k := vget t.copy c
    (if k.aborting && k.batch.isNone then [Instr.abort uid c] else []) ++
    (if k.recs.any (!·.accepted) || (!k.idle && !k.parked) then [Instr.recordAccept uid c] else []) ++
    (if k.parked && clk % 1024 == 0 then [Instr.chainRecordPoll uid c] else []) ++
    (k.recs.filter fun r => r.accepted && r.status == 0).flatMap fun r => [Instr.recordChunkDelivered uid c r.no, Instr.recordComplete uid c r.no]
  let steep := if stopping || t.parking then ((List.range t.groups.length).filter fun g => (t.groups.getD g default).steep.isSome).map fun g => Instr.steepEnd uid g else []
  steep ++ (landing (s.vecBanks t.coreNo) t.ord.pend).map (fun i => Instr.registerWriteback uid i) ++ t.ord.pool.map (fun _ => Instr.pooledAtomic uid 0) ++ copy ++
  (if t.vxms.isEmpty then [] else [Instr.vxmPass uid]) ++
  ((List.range 8).filter fun g => !(vget t.streams g).pend.isEmpty).map (fun g => Instr.streamAppend uid g) ++
  (if t.allEnded || t.killed then [Instr.teamEnd uid] else [])
/-- The steps due for a core: those of its teams and of its matrix engine. -/
def State.coreDue (s : State) (c : Nat) : List Instr :=
  let k := vget s.cores c
  let (cl, n) := (c / 192, c % 192)
  (s.coreTeams c).flatMap s.teamDue ++ (if k.tiles.isEmpty then [] else [Instr.mmaSlice cl n, Instr.tileOpComplete cl n]) ++
  ((List.range 16).filter fun i => (vget k.slots i).clearing).map fun i => Instr.accSlotCleared cl n i
/-- The steps due for a cluster. -/
def State.clusterDue (s : State) (cl : Nat) : List Instr :=
  let k := vget s.clusters cl
  (if k.merge.isEmpty then [] else [Instr.drain cl 0 false]) ++ (if k.outq.isEmpty then [] else [Instr.drain cl 0 true]) ++
  (List.range 64).flatMap (fun x => ((List.range (min 512 (vget k.tasks x).recs.length)).filter fun i =>
    let r := (vget k.tasks x).recs.getD i {}
    !r.eligible && s.taskMet x r != some false).map fun i => Instr.taskEvaluate x cl i) ++
  (if k.parts.isEmpty && (s.taskReady cl).isNone then [] else [Instr.unitPlace cl]) ++
  (if s.clusters.toList.any fun k => !k.parts.isEmpty then [Instr.unitSteal cl] else [])
/-- The steps due for a context. -/
def State.ctxDue (s : State) (x : Nat) : List Instr :=
  let c := s.ctx x
  let launch (l : Launch) : List Instr :=
    if l.rolling then (if l.parent.isNone then [Instr.rollback x l.gen] else [])
    else if l.started then (if s.launchBusy x l.gen then [] else [Instr.gridRetire x l.gen])
    else if Pkt.mask l.pkt = 0 || l.failed then []
    else if l.go then [Instr.tstartReached x l.gen] else [Instr.startBarrierTimeout x l.gen]
  let px := (c.raster.exports.map fun e => (e.ticket.surf, e.ticket.px, e.ticket.py)).eraseDups
  let parked := !(s.creg x .dbgStat).getLsbD 0 && s.teams.any fun t => t.id.ctx == x && t.parking
  let refills (u : Surface) : List Nat := ((u.waiting.map (·.pos / 256)).eraseDups).filter fun t => match s.makeResident x u.handle t with | .ok _ => true | _ => false
  c.launches.flatMap launch ++ px.map (fun p => Instr.exportApply x p.1 p.2.1 p.2.2) ++
  (if c.raster.prims.isEmpty then []
   else [Instr.rasterise x 0, Instr.rasterise x 1] ++ (List.range 6).map fun cl => Instr.fragmentTeamLaunch x (cl / 3) cl) ++
  (if s.flipBusy x then c.reloc.acks.map fun k => Instr.flipAck x (k / 192) (k % 192) else []) ++
  (if c.reloc.copying then [Instr.relocateObject x 0, Instr.relocateObject x 1] else []) ++
  (c.surfaces.filter (·.draining)).map (fun u => Instr.surfaceFramesFreed x u.handle) ++
  ([0, 1].filterMap fun n => (s.victimOf x n).map fun h => Instr.spillTile x h n) ++
  (c.surfaces.flatMap fun u => (refills u).map fun t => Instr.tileRefill x u.handle t) ++
  (if c.replays.isEmpty then [] else [Instr.replayRelease x]) ++ (if parked then [Instr.teamParked x] else []) ++
  (if (s.creg x .preStat).getLsbD 0 then [Instr.cutDrainDone x] else []) ++ (if (s.creg x .preStat).getLsbD 2 then [Instr.restorePlace x] else [])
/-- The steps due for the rest of the device, once a round of the cores. -/
def State.deviceDue (s : State) : List Instr :=
  (List.range 6).flatMap s.clusterDue ++ (List.range 64).flatMap s.ctxDue ++
  (if s.clusters.toList.any fun k => !k.tbOps.isEmpty || !k.tbars.isEmpty then [Instr.barrierNetworkClock] else []) ++
  (if s.clusters.toList.any (·.testDue) then [Instr.inFieldTest] else []) ++
  (if (s.dreg .dieStat).getLsbD 0 then [Instr.evacuateStack] else []) ++ (if s.dev.ckpt = 1 then [Instr.ckptFinish true] else []) ++
  (if (s.dreg .flCtl).getLsbD 0 then [Instr.frameStart] else []) ++
  ((List.range 4).filter fun n => !(vget s.dev.soDue n).isEmpty).map Instr.scanOutFrame ++
  ((List.range 2).filter fun n => (vget s.dev.fns n).downAt.isSome).map Instr.hsemLinkRelease ++
  ((List.range 1152).filter fun c => (vget s.cores c).tainted && (s.coreTeams c).isEmpty).map (fun c => Instr.selfTest (.core (c / 192) (c % 192))) ++
  (match s.cpQueue.bind s.cpEntry with | some i => [i] | none => [])
/-- The waits of a core's teams that may end in a clock, behind the steps that may end them: those of lanes that wait, and those that the clock's
issue groups begin (R399). -/
def State.waitsDue (s : State) (c : Nat) : List Instr :=
  ((s.coreTeams c).filter fun t => !(s.ctx t.id.ctx).stopping).flatMap fun t => t.members.flatMap fun p =>
    let g := t.member p.mem
    let begins (r : Run) : Bool := match decodeWord r.word with
      | .ok i => i.view.any fun v => [Mn.wait, .waittl, .waitct, .tbwait, .bar, .xfer, .roleq, .mmag].contains v.mn
      | .error _ => false
    let new : List Nat := if s.slots.contains p then (match g.run.filter begins with | some r => bitsOf r.lanes | none => []) else []
    (g.waits ++ new).map fun l => Instr.waitEnd p l
/-- ISSUE_CLOCK: a core's clock. Its teams' clocks pass, paths are picked, the slots are filled, and the device steps that may go fall due. -/
def execIssueClock (cluster core : Nat) (s : State) : Outcome :=
  let c := coreNo cluster core
  let first := s.liveCores.head? == some c
  let k := (vget s.cores c).clk.toNat
  let s := { s with clock := s.clock + 1 }
  let s := if first then s.tickDies (s.nsOf k) else s
  let s := s.modCore c fun k => { k with clk := k.clk + 1 }
  let s := (s.coreTeams c).foldl (fun (s : State) t => s.tickTeam t.id.uid) s
  let s := (s.coreTeams c).foldl (fun (s : State) t => if s.mayPick t then t.members.foldl (fun (s : State) p => s.pickFor t p) s else s) s
  let s := s.fillSlots c
  let s := (s.coreDue c).foldl State.due ((s.coreTeams c).foldl State.loseBanks s)
  let s := if first then s.deviceDue.foldl State.dueOnce s.settleInvals else s
  .next ((s.waitsDue c).foldl State.due s)

end Sys2Proof.Machine
end

