-- ==== Sys2Proof/Machine/Preempt.lean ====
section
/-! DEFINITION. Run-ahead's end, halts and breakpoints, and the cut that saves a context and brings it back (R355, R359 to R366, R404). -/
namespace Sys2Proof.Machine

/-- STEEP_END (R355): the path rolls back to its faulting slot and its batch is written. -/
def execSteepEnd (team group : Nat) (s : State) : Outcome := .next (s.endSteep { team, mem := .group group })

/-! ## Control-port writes of one context -/

/-- The BAR0 offset of a context's register. -/
def ctxOffset (x off : Nat) : DWord := BitVec.ofNat 64 (0x100000 + 0x10000 * x + off)
/-- A write to a context's control port by the function that owns it; another function's is refused and logged (R326, R331). -/
def State.ctxPort (s : State) (fn x off : Nat) (go : State → State) : State :=
  if fnOf x = fn then go s else s.violate (ctxOffset x off) fn 1

/-- COLL_ABORT: a token with the next attempt goes to every rank, this package included (R386). -/
def State.collAbort (s : State) (x grp : Nat) : State := s.due (.abortToken x grp ((s.collGroup x grp).2.2 + 1))
/-- COLL_ABORT by a host. -/
def execCollAbort (fn x grp : Nat) (s : State) : Outcome := .next (s.ctxPort fn x 0x468 fun s => s.collAbort x grp)

/-! ## Halts (R359) -/

/-- Every team of a context. -/
def State.teamsOf (s : State) (x : Nat) : List Team := s.teams.filter fun t => t.id.ctx == x && t.phase != .saved
/-- A member that has picked a clause and not fetched it stands at a clause boundary. -/
def Group.atBoundary (g : Group) : Group := match g.run with | some r => if r.words.isEmpty then { g with run := none } else g | none => g
def State.toBoundary (s : State) (x : Nat) : State :=
  { s with teams := s.teams.map fun (t : Team) => if t.id.ctx = x then { t with groups := t.groups.map Group.atBoundary, engines := t.engines.map Group.atBoundary } else t }
/-- DBG_CTL.HALT. -/
def State.halt (s : State) (x : Nat) : State :=
  let fresh := (s.teamsOf x).any (!·.parking)
  let s := { s.toBoundary x with teams := (s.toBoundary x).teams.map fun (t : Team) => if t.id.ctx = x then { t with parking := true } else t }
  (if fresh then s.setCreg x .dbgStat (setBit (s.creg x .dbgStat) 0 false) else s).dueOnce (.teamParked x)
/-- DBG_CTL.RESUME: every parked team goes on from where it stands; a halt that has not been answered is not answered any more. -/
def State.debugGo (s : State) (x : Nat) : State :=
  let wake (g : Group) : Group := { g with threads := g.threads.map fun (h : Thread) => { h with parked := false } }
  { s.setCreg x .dbgStat 0 with
    teams := (s.setCreg x .dbgStat 0).teams.map fun (t : Team) =>
      if t.id.ctx = x then { t with parking := false, groups := t.groups.map wake, engines := t.engines.map wake } else t
    agenda := s.agenda.filter (· != .teamParked x) }
/-- DBG_HALT. -/
def execDbgHalt (fn x : Nat) (s : State) : Outcome := .next (s.ctxPort fn x 0x438 fun s => s.halt x)
/-- DBG_RESUME. -/
def execDbgResume (fn x : Nat) (s : State) : Outcome := .next (s.ctxPort fn x 0x438 fun s => s.debugGo x)
/-- Whether every thread and engine member of a parking team is parked. -/
def Team.isParked (t : Team) : Bool :=
  (t.groups ++ t.engines).all fun g => g.run.isNone && g.steep.isNone && (g.stopped || g.threads.toList.all fun h => h.life != .live || h.parked)
/-- TEAM_PARKED: every party of the parking teams has parked; MSI-X vector 2 follows. -/
def execTeamParked (x : Nat) (s : State) : Outcome :=
  let mine := (s.teamsOf x).filter (·.parking)
  .next (if (s.creg x .dbgStat).getLsbD 0 || !mine.all Team.isParked then s
    else (s.setCreg x .dbgStat (setBit (s.creg x .dbgStat) 0 true)).msix (fnOf x) 2)

/-! ## The cut (R361 to R364) -/

def State.preBit (s : State) (x i : Nat) : Bool := (s.creg x .preStat).getLsbD i
def State.setPre (s : State) (x i : Nat) (b : Bool) : State := s.setCreg x .preStat (setBit (s.creg x .preStat) i b)
/-- PRE_CTL.STOP: the sources of the context stop (step 1). -/
def State.stopCtx (s : State) (x : Nat) : State :=
  if s.preBit x 0 || s.preBit x 1 || s.preBit x 2 then s
  else
    let s := ((s.toBoundary x).setPre x 0 true).modCtx x fun c => { c with stopping := true }
    let steep := (s.teamsOf x).flatMap fun t => ((List.range t.groups.length).filter fun g => (t.groups.getD g default).steep.isSome).map fun g => Instr.steepEnd t.id.uid g
    (steep.foldl State.dueOnce s).dueOnce (.cutDrainDone x)
/-- PRE_STOP. -/
def execPreStop (fn x : Nat) (s : State) : Outcome := .next (s.ctxPort fn x 0x420 fun s => s.stopCtx x)

/-- The tile operations that a save stops: multiplies and passes, and what stands behind a stopped multiply on its tag (R261, R362). -/
def stoppedTiles : List Nat → List TileOp → List TileOp
  | _, [] => []
  | tags, o :: os =>
    let stops := match o with | .mma .. | .vxm _ => true | _ => tags.contains o.acc
    if stops then o :: stoppedTiles (match o with | .mma .. => o.acc :: tags | _ => tags) os else stoppedTiles tags os
/-- Those of a team stop, and leave the matrix engine's order; its others complete. DESIGN CHOICE (log entry 16): an ACCWR or ACCST behind a stopped
multiply on its tag, which can neither complete nor be issued again, is saved with it. -/
def State.holdTiles (s : State) (uid : Nat) : State :=
  let t := s.team uid
  let rest := stoppedTiles [] ((vget s.cores t.coreNo).tiles.filter (·.of uid))
  let s := s.modCore t.coreNo fun c => { c with tiles := c.tiles.filter (!rest.contains ·) }
  s.modTeam uid fun t => { t with img := { t.img with tiles := t.img.tiles ++ rest } }
/-- Whether a stream's head producer has no room. -/
def State.streamFull (s : State) (uid tag : Nat) : Bool :=
  (vget ((s.streamStep uid tag).team uid).streams tag).pend == (vget (s.team uid).streams tag).pend
/-- The accepted records of a team that may still run on, and those that cannot: their context waits on a batch. -/
def State.openRecs (s : State) (t : Team) (stuck : Bool) : Bool :=
  t.copy.toList.any fun c => c.batch.isSome == stuck && c.recs.any fun r =>
    r.accepted && r.status == 0 && !(Rec.dsp r.w == 3 && s.streamFull t.id.uid (fld (Rec.dst r.w) 0 3))
/-- Whether issued operations of a team have yet to drain (R362 step 2). -/
def State.undrained (s : State) (t : Team) : Bool :=
  let waitsAnswer := (t.groups ++ t.engines).any fun g => g.threads.toList.any fun h => match h.wait with | some .answer | some (.host _ _ _ _) => true | _ => false
  let midway := (t.groups ++ t.engines).any fun g => (g.paths (~~~ 0)).any fun q => q.1.2.isSome
  t.killed || !t.atRest || midway || !t.ord.pend.isEmpty || !t.ord.pool.isEmpty || s.openRecs t false || waitsAnswer || s.flushHeld t.id.uid || t.groups.any (·.steep.isSome) ||
  (vget s.cores t.coreNo).tiles.any (·.of t.id.uid) ||
  (vget s.clusters t.id.cluster).tbOps.any fun o => (if o.key < 2 ^ 40 then o.key / 2 ^ 16 else (o.key - 2 ^ 40) / 2 ^ 36) == t.id.core
/-- What PIX shows of a member's instruction that stopped part-way (R261, R360). -/
def Team.pixOf (t : Team) (p : Party) (g : Group) : Word :=
  let mma := t.img.tiles.findSome? fun o => match o with | .mma who _ _ _ _ _ _ _ done _ => if who = p then some done else none | _ => none
  let vxm := (t.vxms.find? (·.who == p)).map (·.done)
  BitVec.ofNat 32 (if g.pushed ≠ 0 then g.pushed else match mma, vxm with | some n, _ => n | none, some n => n | none, none => 0)
/-- A team taken off its core with what it holds there. -/
def State.takeImage (s : State) (uid : Nat) : Team :=
  let t := s.team uid
  let lo := scratchLoc t.id.cluster t.id.core t.regs.spBase
  let cd := caddyKey t.id.cluster t.id.core t.regs.cdBase
  let part (base n : Nat) : List Host.Cell := (s.mem.filter fun c => base ≤ c.1 && c.1 < base + n).map fun c => (c.1 - base, c.2)
  let secs := (s.dev.poison.filter fun q => lo / 32 ≤ q.1 && q.1 < (lo + t.regs.spSize) / 32).map fun q => (q.1 - lo / 32, q.2)
  let bars := ((vget s.clusters t.id.cluster).tbars.filter fun b => lo ≤ b.1 && b.1 < lo + t.regs.spSize).map fun b => (b.1 - lo, b.2)
  let accs := (List.range 16).filterMap fun a => (vget t.accs a).map fun i => (a, vget (vget s.cores t.coreNo).slots i)
  let still (g : Group) : Group := { g with threads := g.threads.map fun (h : Thread) => { h with sleep := 0 } }
  let one (f : Nat → Member) (l : List Group) : List Group := (List.range l.length).map fun i =>
    let g := l.getD i default; { still g with pix := t.pixOf { team := uid, mem := f i } g }
  { t with phase := .saved, groups := one .group t.groups, engines := one .engine t.engines,
           img := { sp := part lo t.regs.spSize, cd := part cd t.regs.cdSize, poison := secs, tbars := bars, accs, tiles := t.img.tiles } }
/-- The order of the team blocks: generation, unit, then as they stood. -/
def imageOrder (l : List Team) : List Team := sortBy (fun (a b : Team) => a.id.gen < b.id.gen || (a.id.gen == b.id.gen && a.id.unit ≤ b.id.unit)) l
/-- The bytes of a team's block, a multiple of 256 (R364). -/
def Team.blockLen (t : Team) : Nat := 256 * (1 + Config.blockUnits t)
/-- The bytes of the directory of an image of `n` teams. -/
def dirLen (n : Nat) : Nat := 256 * ceilDiv (16 + 8 * n) 256
/-- The offsets of team blocks that stand one behind the other. -/
def blockOffsets : Nat → List Team → List Nat
  | _, [] => []
  | o, t :: ts => o :: blockOffsets (o + t.blockLen) ts
/-- The bytes that an image needs. -/
def imageLen (l : List Team) : Nat := dirLen l.length + (l.map Team.blockLen).sum
/-- The image as 64-bit words: the directory, padded with zeros, and the team blocks (R364). -/
def imageWords (gen : Nat) (l : List Team) : List Nat :=
  let words := [l.length, gen] ++ blockOffsets (dirLen l.length) l
  words ++ List.replicate (dirLen l.length / 8 - words.length) 0 ++
    l.flatMap fun t => (List.range (t.blockLen / 8)).map fun i => (Config.blockWord t i).toNat
/-- The place of a context's image. -/
def State.imageBase (s : State) (x : Nat) : Nat := fld (s.creg x .saveBase) 12 40 * 4096
/-- The image written at SAVE_BASE. -/
def State.putImage (s : State) (x : Nat) (l : List Team) : State :=
  let ws := imageWords (s.creg x .ctxGen).toNat l
  let t := (List.range ws.length).foldl (fun (s : State) i => s.writePa (s.imageBase x + 8 * i) 8 (ws.getD i 0)) s
  { s with mem := t.mem, dev := t.dev }
/-- The bytes that a context's image needs at this moment (R361): of the teams as a save would take them, or of those saved. -/
def State.saveLen (s : State) (x : Nat) : Nat :=
  imageLen (if s.preBit x 1 then (s.ctx x).saved else (s.teamsOf x).map fun t => s.takeImage t.id.uid)
/-- The teams of the image at SAVE_BASE: a block as a save wrote it is the team that it was written from; one that software has changed stands
for a free one. -/
def State.imageTeams (s : State) (x : Nat) : List Team × State :=
  let word (a : Nat) : Nat := s.readPa 0 (s.imageBase x + a) 8
  let holds (o : Nat) (t : Team) : Bool := (List.range (t.blockLen / 8)).all fun i => word (o + 8 * i) == (Config.blockWord t i).toNat
  let step (acc : List Team × List Team × State) (i : Nat) : List Team × List Team × State :=
    match acc.1.find? (holds (word (16 + 8 * i))) with
    | some t => (acc.1.erase t, acc.2.1 ++ [t], acc.2.2)
    | none =>
      let s := acc.2.2
      let t := Config.blockTeam s.freeCtr
      (acc.1, acc.2.1 ++ [{ t with phase := .saved, id := { t.id with uid := s.nextUid, ctx := x } }], { s with freeCtr := s.freeCtr + 1, nextUid := s.nextUid + 1 })
  ((List.range (min 55296 (word 0 % 2 ^ 32))).foldl step ((s.ctx x).saved, [], s)).2
/-- The task records of a context in the head of a cluster's queue are written to the ring, where there is one, as far as it holds them (R364). -/
def State.tasksToRing (s : State) (cl x : Nat) : State :=
  let q := vget (vget s.clusters cl).tasks x
  let n := fld q.len 0 20
  if n = 0 ∨ q.recs = [] then s
  else
    let recs := q.recs.map (s.taskLoad q)
    let k := min n recs.length
    let s := (List.range k).foldl (fun (s : State) i =>
      (List.range 4).foldl (fun (s : State) j => s.writePa (fld q.base 12 40 * 4096 + 32 * i + 8 * j) 8 (vget (recs.getD i {}).w j).toNat) s) s
    s.modTasks cl x fun q => { q with recs := recs.mapIdx fun i r => if i < k then { r with ring := some i } else r, tail := k % n }
/-- The end of step 2 and step 3 (R362): every thread has performed its release, and the image is written; the teams as they stand in it. -/
def State.cutImage (s : State) (x : Nat) : List Team × State :=
  let ts := s.teamsOf x
  let s := ts.foldl (fun (s : State) t => s.releaseTeam t) s
  let saved := imageOrder (ts.map fun t => s.takeImage t.id.uid)
  (saved, (List.range 6).foldl (fun (s : State) cl => s.tasksToRing cl x) (s.putImage x saved))
/-- Steps 3 and 4 with every counter full: the image is written, the teams leave their cores, and SAVED is set; a batch that waits for room in the
fault ring is not written, since its instruction is issued again after the restore (R365). -/
def State.saveCtx (s : State) (x : Nat) : State :=
  let ts := s.teamsOf x
  let (saved, s) := s.cutImage x
  let s := ts.foldl (fun (s : State) t => s.freeTeam t.id.uid) s
  ((s.modCtx x fun c => { c with saved, stopping := false, late := [] }).setPre x 0 false).setPre x 1 true
/-- CUT_DRAIN_DONE (R362): once the traffic has drained the image is saved; records that cannot complete make the final check
fail, and the context stays resident. -/
def execCutDrainDone (x : Nat) (s : State) : Outcome :=
  if !s.preBit x 0 then .next s
  else
    let s := (s.teamsOf x).foldl (fun (s : State) t => s.holdTiles t.id.uid) s
    if (s.teamsOf x).any s.undrained then .next s
    else if (s.teamsOf x).any fun t => s.openRecs t true then .next (((s.cutImage x).2.setPre x 3 true).setPre x 0 false)
    else .next (s.saveCtx x)

/-! ## The restore (R365, R366) -/

/-- PRE_CTL.RESUME: the teams of the image at SAVE_BASE go back (R361, R365). -/
def State.resumeCtx (s : State) (x : Nat) : State :=
  if s.preBit x 1 && !s.preBit x 2 then
    let (saved, s) := s.imageTeams x
    let s := s.modCtx x fun c => { c with saved }
    (List.range 6).foldl (fun (s : State) cl => s.taskPull cl x) (((s.setPre x 1 false).setPre x 2 true).dueOnce (.restorePlace x))
  else s
/-- PRE_RESUME. -/
def execPreResume (fn x : Nat) (s : State) : Outcome := .next (s.ctxPort fn x 0x420 fun s => s.resumeCtx x)
/-- Accumulator slots of a core that a tag can be bound to. -/
def State.openSlots (s : State) (c : Nat) : List Nat := (List.range 16).filter fun i => let a := vget (vget s.cores c).slots i; !a.bound && !a.clearing
/-- Whether a saved team fits on a core with the windows that it held. -/
def State.fitsBack (s : State) (c : Nat) (t : Team) : Bool :=
  let apart (a n b m : Nat) : Bool := n == 0 || m == 0 || a + n ≤ b || b + m ≤ a
  s.coreUp c && t.groups.length ≤ s.freeSlots c && (t.groups.map fun g => g.quota * 32).sum ≤ s.freeRegs c && t.regs.accq ≤ s.freeAcc c &&
  t.img.accs.length ≤ (s.openSlots c).length &&
  (s.onCore c).all fun o => apart o.regs.spBase o.regs.spSize t.regs.spBase t.regs.spSize && apart o.regs.cdBase o.regs.cdSize t.regs.cdBase t.regs.cdSize &&
    t.engines.all fun e => !(o.engines.any (·.kind == e.kind))
/-- The bytes of a saved team in its new windows; snapshots of other teams go on holding what they held. -/
def State.putWindows (s : State) (c : Nat) (t : Team) : State :=
  let lo := scratchLoc (c / 192) (c % 192) t.regs.spBase
  let cd := caddyKey (c / 192) (c % 192) t.regs.cdBase
  let inside (k : Nat) : Bool := (lo ≤ k && k < lo + t.regs.spSize) || (cd ≤ k && k < cd + t.regs.cdSize)
  let cells := (t.img.sp.map fun q => (lo + q.1, q.2)) ++ t.img.cd.map fun q => (cd + q.1, q.2)
  let mem := cells.foldl (fun (m : Memory) q => m.write q.1 q.2) (s.mem.filter fun q => !inside q.1)
  let keepSec (q : Nat × BitVec 32) : Bool := !(lo / 32 ≤ q.1 && q.1 < (lo + t.regs.spSize) / 32)
  let s' := { s with mem, dev := { s.dev with poison := s.dev.poison.filter keepSec ++ t.img.poison.map fun q => (q.1 + lo / 32, q.2) } }
  s.keepSnaps s' ((s.mem.filter fun q => inside q.1).map (·.1) ++ cells.map (·.1))
/-- The waits whose instruction is issued again after a restore: all but the arrivals that are counted already, the rendezvous latch and a result
that is entering a stream (R282, R365, R366). -/
def Wait.reissued : Wait → Bool
  | .bar _ _ | .roleq _ _ | .gang | .stream => false
  | _ => true
/-- A saved team takes its place on a core, the places that its tile operations store to with it, and goes on; its threads acquire at system scope (R363, R365). -/
def State.putBack (s : State) (c : Nat) (t : Team) : State :=
  let s := s.putWindows c t
  let slots := s.openSlots c
  let bound := (List.range t.img.accs.length).map fun i => ((t.img.accs.getD i default).1, slots.getD i 0, (t.img.accs.getD i default).2)
  let move (loc : Nat) : Nat := if isScratch loc then loc + 2 ^ 18 * c - 2 ^ 18 * t.coreNo else loc
  let tiles := t.img.tiles.map fun o => match o with | .st who lane no acc ty dest => TileOp.st who lane no acc ty (dest.map (·.map move)) | o => o
  let s := s.modCore c fun k => { k with tiles := k.tiles ++ tiles, slots := bound.foldl (fun v b => vset v b.2.1 b.2.2) k.slots }
  let lo := scratchLoc (c / 192) (c % 192) t.regs.spBase
  let s := s.modCluster (c / 192) fun k =>
    { k with tbars := k.tbars ++ t.img.tbars.map fun b => (b.1 + lo, b.2) }
  let again (g : Group) : Group := { g with threads := g.threads.map fun (h : Thread) => if h.wait.any Wait.reissued then { h with wait := none } else h }
  let t := { t with id := { t.id with cluster := c / 192, core := c % 192 }, phase := .running, img := {}, groups := t.groups.map again, engines := t.engines.map again,
                    accs := bound.foldl (fun v b => vset v b.1 (some b.2.1)) (.replicate 16 none), ord := { t.ord with snap := [] } }
  let s := { s with teams := s.teams ++ [t] }.notePlaced (c / 192) t.id.ctx t.id.gen
  (s.setCreg t.id.ctx .ctxTdm (setBit (s.creg t.id.ctx .ctxTdm) (c / 576) true)).acquire t.id.uid .system
/-- The teams that a saved team is placed with: its rectangle, or itself alone; each with its offset in the rectangle. -/
def State.mates (s : State) (x : Nat) (a : Team) : List (Team × Nat) :=
  if !a.id.rect || a.id.task then [(a, 0)]
  else
    let d := ((s.launch? x a.id.gen).getD {}).desc
    ((s.ctx x).saved.filter fun t => t.id.rect && !t.id.task && t.id.gen == a.id.gen && t.id.unit == a.id.unit).map fun t =>
      (t, 16 * (t.id.y % Desc.rh d) + t.id.x % Desc.rw d)
/-- RESTORE_PLACE: the first saved unit goes back where it fits; with the last one RESTORING clears. -/
def execRestorePlace (x : Nat) (s : State) : Outcome :=
  if !s.preBit x 2 then .next s
  else match (s.ctx x).saved with
  | [] => .next (s.setPre x 2 false)
  | a :: _ =>
    let ms := s.mates x a
    let (w, h) := if a.id.rect && !a.id.task then (let d := ((s.launch? x a.id.gen).getD {}).desc; (Desc.rw d, Desc.rh d)) else (1, 1)
    let origins := (List.range 6).flatMap fun cl => (List.range (13 - h)).flatMap fun oy => (List.range (17 - w)).map fun ox => 192 * cl + 16 * oy + ox
    match origins.find? fun o => ms.all fun m => s.fitsBack (o + m.2) m.1 with
    | none => .next s
    | some o =>
      let s := ms.foldl (fun (s : State) m => s.putBack (o + m.2) m.1) s
      .next ((s.modCtx x fun c => { c with saved := c.saved.filter fun t => !(ms.any fun m => m.1.id.uid == t.id.uid) }).dueOnce (.restorePlace x))

end Sys2Proof.Machine
end

