-- ==== Sys2Proof/Machine/Ras.lean ====
section
/-! DEFINITION. Reliability: storage errors, rollback and replay, self-tests and in-field tests, lost dies, the evacuation of a stack, checkpoints (R367 to R382, R387). -/
namespace Sys2Proof.Machine

/-- A choice that the part makes (log entry 6). -/
def State.flip (s : State) : Bool × State := (Config.chance s.freeCtr, { s with freeCtr := s.freeCtr + 1 })

/-! ## Units and their records (R374, R375) -/

/-- The physical address that the region table routes to a GDDR7 storage key. -/
def State.paOfKey (s : State) (k : Nat) : Option Nat :=
  let st := (k - gddrBase) / 2 ^ 36
  let off := (k - gddrBase) % 2 ^ 36
  s.activeBank.toList.findSome? fun e =>
    let o := off - e.off st * 2 ^ 21
    let pa := e.base * 2 ^ 21 + (if e.mode = 1 then (2 * (o / 4096) + st) * 4096 + o % 4096 else o)
    if isGddrKey k ∧ s.route pa = some (st, off) then some pa else none
/-- The unit that holds a storage key: a GDDR7 granule, a surface bank (R46), a core. -/
def unitOf (k : Nat) : TestUnit :=
  if isGddrKey k then .gddr ((k - gddrBase) / 2 ^ 36) ((k - gddrBase) % 2 ^ 36 / 4096)
  else if frameBase ≤ k && k < caddyBase then
    let o := (k - frameBase) % 2 ^ 29
    .bank ((k - frameBase) / 2 ^ 29) (64 * (o / 2 ^ 24) + o % 4096 / 64)
  else
    let c := if isScratch k then (k - scratchBase) / 2 ^ 18 else (k - caddyBase) / 2 ^ 16
    .core (c / 192) (c % 192)
/-! The words that no storage key names, as the addresses of MEMORY_ERROR number them: register words by team, member, lane and word (g, then the
halves of h, then k), accumulator words by core, slot and element, link lanes by number. -/

def regBase : Nat := 2 ^ 58
def accBase : Nat := 2 ^ 58 + 2 ^ 56
def linkBase : Nat := 2 ^ 58 + 2 ^ 57
/-- A word that carries the code: a register word, an accumulator element, a link lane, a caddy word, or what a storage key holds. -/
inductive ErrWord where
  | reg (p : Party) (lane n : Nat) | acc (core slot elem : Nat) | link (n : Nat) | caddy (key : Nat) | key (key : Nat)
  deriving DecidableEq, Repr
def ErrWord.of (k : Nat) : ErrWord :=
  if regBase ≤ k ∧ k < accBase then
    let o := k - regBase
    let m := o / 2 ^ 14 % 64
    .reg { team := o / 2 ^ 20, mem := if m < 32 then .group m else .engine (m - 32) } (o / 2 ^ 9 % 32) (o % 2 ^ 9)
  else if accBase ≤ k ∧ k < linkBase then
    let o := k - accBase
    .acc (o / 2 ^ 14) (o / 2 ^ 10 % 16) (o % 2 ^ 10)
  else if linkBase ≤ k ∧ k < texelBase then .link (k - linkBase)
  else if caddyBase ≤ k ∧ k < regBase then .caddy k
  else .key k
/-- The unit that holds a word. -/
def State.unitAt (s : State) : ErrWord → TestUnit
  | .reg p _ _ => .core (s.team p.team).id.cluster (s.team p.team).id.core
  | .acc c _ _ => .core (c / 192) (c % 192)
  | .link n => .link n
  | .caddy k | .key k => unitOf k
/-- A record about a unit. -/
def State.rasUnit (s : State) (kind : Nat) (u : TestUnit) (data : Nat) : State :=
  match u with
  | .gddr st g => s.rasNow kind 0 ((s.paOfKey (gddrBase + 2 ^ 36 * st + 4096 * g)).getD 0 / 4096) 0 data
  | .bank st b => s.rasNow kind 1 (2048 * st + b) 0 data
  | .core _ _ => s.rasPlace kind 2 0 data
  | .link n => s.rasNow kind 4 n 0 data

/-! ## Storage errors (R24, R57, R367, R374) -/

/-- A unit counts a correctable error; at the sixteenth since its last test the threshold is reported and a test is due. -/
def State.correctableError (s : State) (u : TestUnit) : State :=
  let n := ((s.dev.errs.find? (·.1 == u)).map (·.2)).getD 0 + 1
  let s := { s with dev := { s.dev with errs := (u, n) :: s.dev.errs.filter (·.1 != u) } }
  let s := match u with | .gddr st _ => { s with dev := { s.dev with correctable := vmod s.dev.correctable st (· + 1) } } | _ => s
  if n = 16 then (s.rasUnit 1 u 0).dueOnce (.selfTest u) else s
/-- The positions of a stream whose element lies in a caddy word, or whose block's scale byte does. -/
def Stream.positionsIn (st : Stream) (fmt : Vector Word 8) (word : Nat) : List Nat :=
  let b := Cds.blk st.w0
  let hits (off n : Nat) : Bool := (List.range n).any fun i => (Cds.base st.w0 + off + i) / 4 == word
  ((List.range (st.tail - st.head)).map (st.head + ·)).filter fun q =>
    hits ((q % st.cap fmt) * st.ebits fmt / 8) (max 1 (st.ebits fmt / 8)) || (b != 0 && hits (Cds.soff st.w0 + (q / b) % st.scap) 1)
/-- The positions of streams that a caddy word holds are poisoned. -/
def State.poisonCaddy (s : State) (key : Nat) : State :=
  { s with teams := s.teams.map fun (t : Team) =>
      if caddyKey t.id.cluster t.id.core t.regs.cdBase ≤ key ∧ key < caddyKey t.id.cluster t.id.core (t.regs.cdBase + t.regs.cdSize) then
        { t with streams := t.streams.map fun (st : Stream) =>
            { st with poison := st.positionsIn t.regs.fmt ((key - caddyKey t.id.cluster t.id.core 0) / 4) ++ st.poison } }
      else t }
/-- A word is marked poisoned (R24, R57, R367, R368). -/
def State.poisonWord (s : State) : ErrWord → State
  | .reg p l n =>
    if n < 256 then s.modThread p l fun h => { h with gPoison := setBit h.gPoison n true }
    else if n < 288 then s.modThread p l fun h => { h with hPoison := setBit h.hPoison ((n - 256) / 2) true }
    else s.modTeam p.team fun t => { t with regs := { t.regs with kPoison := setBit t.regs.kPoison (n - 288) true } }
  | .acc c i e => s.modCore c fun k => { k with slots := vmod k.slots i fun a => if a.poison.contains e then a else { a with poison := e :: a.poison } }
  | .link _ => s
  | .caddy k => s.poisonCaddy k
  | .key k => s.poisonKey k
/-- Memory with free bytes at some storage keys. -/
def State.freeBytes (s : State) (base n : Nat) : State :=
  { s with mem := (List.range n).foldl (fun (m : Memory) i => m.write (base + i) ((Config.freeValue (s.freeCtr + i)).setWidth 8)) s.mem, freeCtr := s.freeCtr + n }
/-- A word holds any bits. -/
def State.freeWord (s : State) (w : ErrWord) : State :=
  let v : DWord := Config.freeValue s.freeCtr
  let s1 := { s with freeCtr := s.freeCtr + 1 }
  let half (old : DWord) (n : Nat) : DWord := setFld old (32 * (n % 2)) 32 (fld v 0 32)
  match w with
  | .reg p l n =>
    if n < 256 then s1.modThread p l fun h => { h with g := vset h.g n (v.setWidth 32) }
    else if n < 288 then s1.modThread p l fun h => { h with h := vmod h.h ((n - 256) / 2) (half · n) }
    else s1.modTeam p.team fun t => { t with regs := { t.regs with k := vset t.regs.k (n - 288) (v.setWidth 32) } }
  | .acc c i e => s1.modCore c fun k => { k with slots := vmod k.slots i fun a => { (a.put e (fld v 0 32)) with poison := a.poison } }
  | .link _ => s
  | .caddy k => s.freeBytes (k / 4 * 4) 4
  | .key k => if isGddrKey k then s.freeBytes (k / 64 * 64) 64 else s.freeBytes (k / 4 * 4) 4
/-- MEMORY_ERROR: `symbols` symbols (of a GDDR7 block) or bits (of any other word) at a physical address or another store's word are
wrong: corrected and counted, or poisoned; with more than the code promises to see, the bits may be any and may go unmarked. -/
def execMemoryError (addr symbols : Nat) (s : State) : Outcome :=
  let w := ErrWord.of (if addr < Config.gddrBytes then s.storage addr else addr)
  let u := s.unitAt w
  let seen := match w with | .key k => if isGddrKey k then 3 else 2 | _ => 2
  if symbols = 0 then .next s
  else if symbols = 1 then .next (s.correctableError u)
  else if symbols ≤ seen then .next ((s.poisonWord w).dueOnce (.selfTest u))
  else
    let (marked, s) := (s.freeWord w).flip
    .next (if marked then (s.poisonWord w).dueOnce (.selfTest u) else s)

/-! ## Rollback and replay (R371, R372) -/

/-- The root launches that one launch is rolled back with: those that share a snapshotted page with one of them. -/
def State.rollbackSet (s : State) (x gen : Nat) : List Nat :=
  let ls := (s.ctx x).launches.filter (·.parent.isNone)
  let shares (a b : Launch) : Bool := a.snaps.any fun p => b.snaps.any fun q => p.1 == q.1
  let grow (set : List Nat) : List Nat :=
    set ++ ((ls.filter fun l => !set.contains l.gen && ls.any fun o => set.contains o.gen && shares l o).map (·.gen))
  (List.range ls.length).foldl (fun set _ => grow set) [gen]
/-- A team is discarded: it stops as a save would stop it, and leaves its core once what it issued has drained (R372). -/
def State.discardTeam (s : State) (uid : Nat) : State :=
  ((s.holdTiles uid).modTeam uid fun t => { t with discard := true, vxms := [], img := {} }).stopTeam uid
/-- A team on a lost die is gone with all that it had issued (R378). -/
def State.loseTeam (s : State) (uid : Nat) : State :=
  let t := s.team uid
  let s := s.modTeam uid fun t => { t.modOrd fun o => { o with buf := [], pool := [], pend := [] } with copy := .replicate 4 {} }
  (s.modCore t.coreNo fun c => { c with tiles := c.tiles.filter (!·.of uid), steepUsed := c.steepUsed - (t.groups.filter (·.steep.isSome)).length }).freeTeam uid
/-- The collectives of a team that are in flight: their groups, each with the attempt after the present one. -/
def State.collTokens (s : State) (t : Team) : List Instr :=
  ((t.copy.toList.flatMap fun c => (c.recs.filter fun r => r.accepted && r.status == 0 && Rec.kind r.w == 5).map fun r => Rec.grp r.w).eraseDups).map fun g =>
    Instr.abortToken t.id.ctx g ((s.collGroup t.id.ctx g).2.2 + 1)
/-- Every snapshot of some launches goes back to its page. -/
def State.restoreSnaps (s : State) (x : Nat) (set : List Nat) : State :=
  let pages := (((s.ctx x).launches.filter fun l => set.contains l.gen).flatMap (·.snaps)).eraseDups
  pages.foldl (fun (s : State) p =>
    let base := fld (s.creg x .snapPool) 16 36 * 2 ^ 16 + p.2 * 2 ^ 16
    s.homeWrite ((List.range (2 ^ 16)).map fun i => (p.1 * 2 ^ 16 + i, s.homeRead (base + i)))) s
/-- A launch begins again; while an evacuation runs it is held (R378). -/
def State.replay (s : State) (x gen : Nat) : State :=
  let busy := (s.dreg .dieStat).getLsbD 0
  let s := s.modLaunch x gen fun l => { l with snaps := [], replays := l.replays + 1, started := true, held := busy, dieLost := false, lostRead := false, rolling := false }
  match s.launch? x gen with
  | none => s
  | some l => if busy then s else s.distribute x l
/-- The launches of a context that belong to root launches of a set. -/
def State.familyOf (s : State) (x : Nat) (set : List Nat) : List Nat :=
  ((s.ctx x).launches.filter fun l => set.contains (s.rootGen x 10 l.gen)).map (·.gen)
/-- Saved teams of some launches are discarded, and the image is written without them (DESIGN CHOICE, log entry 16). -/
def State.dropSaved (s : State) (x : Nat) (fam : List Nat) : State :=
  let rest := (s.ctx x).saved.filter fun t => !fam.contains t.id.gen
  if rest.length = (s.ctx x).saved.length then s
  else
    let s := s.modCtx x fun c => { c with saved := rest }
    if s.preBit x 1 then s.putImage x rest else s
/-- The teams and tasks of a rollback set stop, discarded (R372 step 1); its collectives are aborted. -/
def State.rollStop (s : State) (x : Nat) (set : List Nat) : State :=
  let fam := s.familyOf x set
  let mine := s.teams.filter fun t => t.id.ctx == x && fam.contains t.id.gen
  let s := (mine.flatMap s.collTokens).foldl State.dueOnce s
  let s := mine.foldl (fun (s : State) t => s.discardTeam t.id.uid) s
  let s := s.dropPrims x fam.contains
  let s := { s with clusters := s.clusters.map fun (c : Cluster) =>
    { c with parts := c.parts.filter (fun q => !(q.x == x && fam.contains q.gen)),
             tasks := vmod c.tasks x fun q => { q with recs := q.recs.filter fun r => !fam.contains r.gen } } }
  let s := ((List.range 6).foldl (fun (s : State) cl => s.taskPull cl x) s).dropSaved x fam
  fam.foldl (fun (s : State) g => s.modLaunch x g fun l => { l with rolling := true }) s
/-- Once the teams of a set have left, its snapshots go back, and its members begin again in ascending generation (R372 steps 2 and 3). -/
def State.rollBack (s : State) (x : Nat) (set : List Nat) : State :=
  let fam := s.familyOf x set
  let s := s.restoreSnaps x set
  let s := s.modCtx x fun c => { c with launches := c.launches.filter fun l => set.contains l.gen || !fam.contains l.gen }
  ((sortBy (· ≤ ·) set).foldl (fun (s : State) g => s.replay x g) s).setUsed x
/-- ROLLBACK (R372): the teams of the launch's rollback set stop, and once they have left the set is replayed; or the launch ends with an error report. -/
def execRollback (x gen : Nat) (s : State) : Outcome :=
  let root := s.rootGen x 10 gen
  match s.launch? x root with
  | none => .next s
  | some l =>
    let set := s.rollbackSet x root
    let may (l : Launch) : Bool := (s.creg x .rasCfg).getLsbD 0 && !l.noReplay && l.replays < fld (s.creg x .rasCfg) 1 3
    let lostPage (l : Launch) : Bool := l.replays != 0 && l.lostRead
    let cause (l : Launch) : Nat := if lostPage l then 6 else if l.dieLost then 8 else 7
    let rolls := set.filter fun g => (s.launch? x g).any fun o => o.rolling && !o.failed
    if l.failed then .next s
    else if l.rolling then
      .next (if s.teams.any fun t => t.id.ctx == x && t.discard && (s.familyOf x rolls).contains t.id.gen then s else s.rollBack x rolls)
    else if lostPage l || !may l then .next (s.due (.errorReport x root (cause l)))
    else
      let stay := set.filter fun g => match s.launch? x g with | some o => may o && !lostPage o && !o.failed && !o.rolling | none => false
      let ends := set.filter fun g => !stay.contains g && !rolls.contains g
      .next (ends.foldl (fun (s : State) g => s.due (.errorReport x g (match s.launch? x g with | some o => cause o | none => 7))) (s.rollStop x stay))

/-! ## Lost tiles and frames that move (R374, R379) -/

/-- An evacuation's own write to virtual memory: it is the mover, so a page with MIG = 1 does not hold it (log entry 18). -/
def State.evacWrite (s : State) (x va : Nat) (bs : List Byte) : State :=
  match s.engLocs none x va bs.length .read (raw := false) with
  | .ok locs => s.putPlain (locs.zip bs)
  | .error _ => s
/-- A tile is lost: state 3 with descriptor byte 0, and a record (R379). -/
def State.loseTile (s : State) (x h t : Nat) : State :=
  match s.surf? x h with
  | none => s
  | some u =>
    let u' := setTile u t 3
    (((s.evacWrite x (Surf.spill u + t) [0]).setSurf x u').evacWrite x (Surf.tmap u + t / 4) [mapByte u' t]).rasNow 10 1 t 0 0
/-- The tiles that stand in a frame of a surface and have data there. -/
def State.frameLoad (s : State) (x h n k : Nat) : List Nat :=
  match s.surf? x h with
  | none => []
  | some u => if Surf.weight u then [] else ((frameTiles u n k).map (spillIx u n)).filter fun t => Surf.tile u t == 0
/-- A frame that finds no room is lost, with the tiles that it holds or as a frame of a weight surface; the count of what was lost. -/
def State.loseFrame (s : State) (st x h n k ix : Nat) : State × Nat :=
  let ts := s.frameLoad x h n k
  let s := (ts.foldl (fun (s : State) t => s.loseTile x h t) s).setFrame st x h ix none
  if ((s.surf? x h).map Surf.weight).getD false then (s.rasNow 10 1 0 0 0, 1) else (s, ts.length)
/-- A frame's bytes and poison, copied. -/
def State.copyFrame (s : State) (st f st' f' : Nat) : State :=
  (List.range 4096).foldl (fun (s : State) i =>
    let s1 := { s with mem := s.mem.write (frameKey st' f' i) (s.mem.read (frameKey st f i)) }
    if s.poisonedKey (frameKey st f i) then s1.poisonKey (frameKey st' f' i) else s1) s
/-- Room on a stack for `per` frames of a context: a frame, or for a row block of a weight surface frames of the slice with the most of them free
(R74); while there is none, victims of the context are spilled (R60). -/
def State.roomFor (s : State) (x st per : Nat) (wt : Bool) : Option (List Nat) × State :=
  let find (s : State) : Option (List Nat) :=
    if wt then ((s.weightSlices st 1 per).bind (·.head?)).map fun k => (((List.range 4096).map (4096 * k + ·)).filter fun f => !s.frameUsed st f).take per
    else (s.freeFrame? st).map fun f => [f]
  let spill (s : State) : State := ([0, 1].filter fun n => s.stackOf n == st).foldl (fun (s : State) n => (s.evict x n (s.used x st - 1) none).1) s
  let s1 := ((List.range (s.used x st)).foldl (fun (a : State × Bool) _ =>
    if !a.2 || (find a.1).isSome then a else let s' := spill a.1; (s', s'.used x st < a.1.used x st)) (s, true)).1
  (find s1, s1)
/-- The frames at `per` indices of a surface move to a stack, in one piece; whether they found room. -/
def State.moveFrames (s : State) (x h st ix per : Nat) (wt : Bool) (st' ix' : Nat) : Bool × State :=
  match s.roomFor x st' per wt with
  | (none, s) => (false, s)
  | (some fs, s) => (true, ((List.range per).zip fs).foldl (fun (s : State) p =>
      match ((vget s.dev.frameTab st).find? fun e => e.ix == ix + p.1 && e.x == x && e.handle == h).bind (·.frame) with
      | some f => (s.copyFrame st f st' p.2).setFrame st' x h (ix' + p.1) (some p.2)
      | none => s) s)
/-- Frames that move together: a row block of a weight surface whole, any other frame alone (R74). -/
def pieceOf (u : Surface) : Nat := if Surf.weight u then Surf.wblockBytes u / 4096 else 1
/-- The side of a surface that a frame-table entry of a stack belongs to, and the frame's index on it. -/
def sideOf (u : Surface) (ix : Nat) (st : Nat) : Nat × Nat :=
  if Surf.home u st ≤ ix && ix < Surf.home u st + Surf.frames u st then (st, ix - Surf.home u st) else (1 - st, ix - Surf.home u (1 - st))
/-- A retired slice gives its frames to other slices of its stack; what finds no room is lost (R374). -/
def State.emptySlice (s : State) (st slice : Nat) : State :=
  let inSlice (s : State) : List FrameEntry := (vget s.dev.frameTab st).filter fun e => match e.frame with | some f => f / 4096 == slice | none => false
  let pieces := ((inSlice s).filterMap fun e => (s.surf? e.x e.handle).map fun u =>
    let (n, k) := sideOf u e.ix st
    (e.x, e.handle, n, k / pieceOf u * pieceOf u, e.ix - k % pieceOf u, pieceOf u, Surf.weight u)).eraseDups
  pieces.foldl (fun (s : State) q =>
    let (x, h, n, k, ix, per, wt) := q
    if !((inSlice s).any fun e => e.x == x && e.handle == h && ix ≤ e.ix && e.ix < ix + per) then s
    else match s.moveFrames x h st ix per wt st ix with
      | (true, s) => s
      | (false, s) => (List.range per).foldl (fun (s : State) j => (s.loseFrame st x h n (k + j) (ix + j)).1) s) s

/-! ## Self-tests (R373, R374) -/

/-- SELF_TEST: a targeted test of a unit, that of a core once no team is on it. A link that is left without a lane runs degraded, and DATA = 1 of
its record reports that (DESIGN CHOICE, log entry 17: the spec gives the report no form). -/
def execSelfTest (u : TestUnit) (s : State) : Outcome :=
  let waits := match u with | .core cl n => !(s.onCore (coreNo cl n)).isEmpty | _ => false
  let s := match u with | .core cl n => s.modCore (coreNo cl n) fun c => { c with tainted := true } | _ => s
  if waits then .next s
  else
    let (pass, s) := s.flip
    let s := { s with dev := { s.dev with errs := s.dev.errs.filter (·.1 != u) } }
    let try_ : Bool × State := if pass then (true, s) else match u with | .gddr _ _ | .link _ => s.flip | _ => (true, s)
    let spare := try_.1
    let s := try_.2.rasUnit (if pass then 4 else 5) u (match u with | .link _ => if spare then 0 else 1 | _ => 0)
    match u with
    | .gddr _ _ =>
      .next (if pass || spare then s else s.rasUnit 10 u 0)
    | .bank st b =>
      if pass then .next s
      else
        let s := { s with dev := { s.dev with retiredBanks := (st, b) :: s.dev.retiredBanks } }
        .next (if s.sliceOff st (b / 64) then s.emptySlice st (b / 64) else s)
    | .core cl n =>
      if pass then .next (s.modCore (coreNo cl n) fun c => { c with tainted := false })
      else
        let s := (s.modCore (coreNo cl n) fun c => { c with tainted := false, retired := true }).modCluster cl fun c => { c with offline := true }
        let hit := ((s.teams.filter fun t => t.id.cluster == cl && t.phase != .saved).map fun t => (t.id.ctx, t.id.gen)).eraseDups
        .next (hit.foldl (fun (s : State) g => s.dueOnce (.rollback g.1 g.2)) s)
    | .link n => .next (if pass then s else { s with dev :=
        if spare then { s.dev with linkRepaired := n :: s.dev.linkRepaired } else { s.dev with linkDegraded := n :: s.dev.linkDegraded } })

/-! ## In-field tests (R376) -/

def State.setIft (s : State) (lo len v : Nat) : State := s.setDreg .iftStat (setFld (s.dreg .iftStat) lo len v)
/-- Whether a cluster is offline: retired, or on the die of a stack that went offline, once no team is resident on it (R14, R380). -/
def State.clusterOff (s : State) (cl : Nat) : Bool :=
  (vget s.clusters cl).offline || ((s.dreg .dieStat).getLsbD (6 + cl / 3) && !s.teams.any fun t => t.id.cluster == cl && t.phase != .saved)
/-- A write of IFT_CTL. -/
def State.iftCtl (s : State) (v : DWord) : State :=
  let cl := fld v 1 3
  let k := vget s.clusters cl
  if !v.getLsbD 0 then s
  else if (s.dreg .iftStat).getLsbD 0 || 6 ≤ cl || !k.enabled || s.clusterOff cl then s.setIft 4 1 1
  else (((s.modCluster cl fun c => { c with testDue := true }).setIft 5 3 cl).setIft 0 2 3).dueOnce .inFieldTest
/-- IFT_START by a host. -/
def execIftStart (fn : Nat) (v : BitVec 32) (s : State) : Outcome := .next (s.shared fn 0x1300 fun s => s.iftCtl (v.setWidth 64))
/-- The taint report of a cluster: the generations placed there since its last passing test, ascending, three to a record (R375, R376). -/
def State.taintReport (s : State) (gens : List Nat) : State :=
  let g := sortBy (· ≤ ·) gens
  let s := s.rasPlace 6 3 0 g.length
  (List.range (ceilDiv g.length 3)).foldl (fun (s : State) i =>
    { s with freeCtr := s.freeCtr + 1 }.rasRecord 7 3 (Config.freeValue s.freeCtr).toNat (g.getD (3 * i) 0) (g.getD (3 * i + 1) 0) (g.getD (3 * i + 2) 0)) s
/-- IN_FIELD_TEST: once no team is resident on the cluster, the test runs, its result is recorded (R374), and it passes or retires it. -/
def execInFieldTest (s : State) : Outcome :=
  match (List.range 6).find? fun c => (vget s.clusters c).testDue with
  | none => .next s
  | some cl =>
    if s.teams.any fun t => t.id.cluster == cl && t.phase != .saved then .next s
    else
      let placed := (vget s.clusters cl).placed
      let (pass, s) := s.flip
      let s := (s.setIft 0 2 0).rasPlace (if pass then 4 else 5) 3 0 0
      if pass then .next ((s.modCluster cl fun c => { c with testDue := false, placed := [] }).setIft 2 1 1)
      else
        let s := ((s.modCluster cl fun c => { c with testDue := false, offline := true }).setIft 3 1 1).taintReport (placed.map (·.2))
        let mine := s.teams.filter fun t => placed.contains (t.id.ctx, t.id.gen)
        .next ((mine.flatMap s.collTokens).foldl State.dueOnce s)

/-! ## Stacks that leave (R378 to R380) -/

def State.dieBit (s : State) (i : Nat) : Bool := (s.dreg .dieStat).getLsbD i
def State.setDie (s : State) (i : Nat) (b : Bool) : State := s.setDreg .dieStat (setBit (s.dreg .dieStat) i b)
/-- A stack goes offline and its evacuation begins. -/
def State.startEvac (s : State) (n : Nat) : State :=
  if s.dieBit (6 + n) then s else ((s.setDie (6 + n) true).setDie 0 true).dueOnce .evacuateStack
def evacPool (n : Nat) : DReg := if n = 0 then .evacPool0 else .evacPool1
/-- A write of DIE_CTL. -/
def State.dieCtl (s : State) (v : DWord) : State :=
  [0, 1].foldl (fun (s : State) n =>
    if !v.getLsbD n then s
    else if s.dieBit (6 + n) || s.dieBit (6 + (1 - n)) || (vget s.dies (1 - n)).lost || s.dieBit 0 || fld (s.dreg (evacPool (1 - n))) 0 16 == 0 then s.setDie 2 true
    else s.startEvac n) s
/-- DIE_CTL_OFF by a host. -/
def execDieCtlOff (fn : Nat) (v : BitVec 32) (s : State) : Outcome := .next (s.shared fn 0x12C0 fun s => s.dieCtl (v.setWidth 64))

/-- Valid entries below a page table: virtual address, address of the entry, entry. -/
def State.ptesUnder (s : State) (key table va : Nat) : Nat → List (Nat × Nat × DWord)
  | 0 => (List.range 1024).filterMap fun i =>
    let e := BitVec.ofNat 64 (s.readPa key (table + 8 * i) 8)
    if e.getLsbD 0 && !pteRsv e then some (va + i * 2 ^ 16, table + 8 * i, e) else none
  | l + 1 => (List.range 1024).flatMap fun i =>
    let e := BitVec.ofNat 64 (s.readPa key (table + 8 * i) 8)
    let next := fld e 13 39 * 2 ^ 13
    if e.getLsbD 0 && !ptrRsv e && next + 8192 ≤ Config.gddrBytes && (s.route next).isSome then
      s.ptesUnder key next (va + i * 2 ^ (16 + 10 * (l + 1))) l
    else []
/-- The valid page table entries of a context. -/
def State.ptes (s : State) (x : Nat) : List (Nat × Nat × DWord) :=
  let r := s.creg x .ptRoot
  let root := fld r 13 39 * 2 ^ 13
  if r.getLsbD 0 && root + 8192 ≤ Config.gddrBytes && (s.route root).isSome then s.ptesUnder (fld r 58 6) root 0 3 else []
/-- Entries of the pinned-range list: context, first page, pages; and how many break the layout. -/
def State.pinList (s : State) : List (Nat × Nat × Nat) × Nat :=
  let r := s.dreg .evacPin
  let rows := (List.range (fld r 52 12)).map fun i =>
    (BitVec.ofNat 64 (s.readPa 0 (fld r 4 48 * 16 + 16 * i) 8), BitVec.ofNat 64 (s.readPa 0 (fld r 4 48 * 16 + 16 * i + 8) 8))
  let good (w : DWord × DWord) : Bool := fld w.1 0 16 == 0 && fld w.1 56 8 == 0 && fld w.2 6 26 == 0
  ((rows.filter good).map fun w => (fld w.2 0 6, fld w.1 16 40, fld w.2 32 32), (rows.filter (!good ·)).length)
/-- What an evacuation has done so far. -/
structure Evac where
  s : State
  pool : Nat := 0
  lost : Nat := 0
/-- One page that routes to the stack moves to the next pool frame, with MIG clear at the end, or is lost. -/
def Evac.page (ev : Evac) (n x : Nat) (p : Nat × Nat × DWord) : Evac :=
  let s := ev.s
  let q := s.dreg (evacPool (1 - n))
  let key := fld p.2.2 58 6
  let src := s.slotTag key * keyUnit + fld p.2.2 16 36 * 2 ^ 16
  let frame := fld q 16 36 + ev.pool
  if fld q 0 16 ≤ ev.pool || s.stackDead n then { ev with s := s.rasNow 10 0 (fld p.2.2 16 36 * 16) 0 0, lost := ev.lost + 1 }
  else
    let dst := s.slotTag key * keyUnit + frame * 2 ^ 16
    let bad := if s.anyPoison then (List.range (2 ^ 16)).filter fun i => s.homePoisoned (src + i) else []
    let s1 := s.homeWrite ((List.range (2 ^ 16)).map fun i => (dst + i, s.homeRead (src + i)))
    let s2 := s1.homePoison (bad.map (dst + ·))
    let s3 := s2.homeWriteN (s.slotTag (fld (s.creg x .ptRoot) 58 6) * keyUnit + p.2.1) 8 (setBit (setFld p.2.2 16 36 frame) 6 false).toNat
    let s4 := (s3.tlbDrop x (some p.1)).ptGenWrite x (s3.creg x .ptGen + 1)
    { ev with s := s4, pool := ev.pool + 1 }
/-- The frames of one side of a surface move to the other stack's frame table and free frames, or are lost. -/
def Evac.surface (ev : Evac) (n x h : Nat) : Evac :=
  match ev.s.surf? x h with
  | none => ev
  | some u =>
    let sv := 1 - n
    let count := Surf.frames u n
    let old := Surf.home u n
    if count = 0 then ev
    else match ev.s.frameRun sv count with
    | none => (List.range count).foldl (fun (ev : Evac) k =>
        if (ev.s.frameLoad x h n k).isEmpty then ev
        else let (s, l) := ev.s.loseFrame n x h n k (old + k); { ev with s, lost := ev.lost + l }) ev
    | some home =>
      let s := ev.s.modFrames sv fun l => l ++ (List.range count).map fun k => { ix := home + k, x, handle := h, frame := none }
      let per := pieceOf u
      let ev := (List.range (count / max 1 per)).foldl (fun (ev : Evac) b =>
        let k := b * per
        if !((vget ev.s.dev.frameTab n).any fun e => e.x == x && e.handle == h && old + k ≤ e.ix && e.ix < old + k + per && e.frame.isSome) then ev
        else match (if (vget ev.s.dies (2 + n)).lost then (false, ev.s) else ev.s.moveFrames x h n (old + k) per (Surf.weight u) sv (home + k)) with
          | (true, s) => { ev with s }
          | (false, s) => (List.range per).foldl (fun (ev : Evac) j =>
              let (s, l) := ev.s.loseFrame n x h n (k + j) (old + k + j); { ev with s, lost := ev.lost + l }) { ev with s }) { ev with s }
      let s := ev.s.modFrames n fun l => l.filter fun e => !(e.x == x && e.handle == h)
      { ev with s := match s.surf? x h with
          | some u => s.putEntry x { u with w := vset u.w 1 (if n = 0 then setFld (vget u.w 1) 0 18 home else setFld (vget u.w 1) 32 18 home) }
          | none => s }
/-- The quotas of a context follow its frames. -/
def State.moveQuota (s : State) (n x : Nat) : State :=
  let sum := s.quota x 0 + s.quota x 1
  s.setCreg x .surfQuota (BitVec.ofNat 64 (if n = 0 then sum * 2 ^ 32 else sum))
/-- The pages of a class that route to a stack, by context and address (R379). -/
def State.evacPages (s : State) (n c : Nat) (pins : List (Nat × Nat × Nat)) : List (Nat × Nat × Nat × Nat × DWord) :=
  let cls (x va : Nat) (e : DWord) : Nat :=
    if (s.unpinned x va).isNone || pins.any (fun q => q.1 == x && q.2.1 ≤ va / 2 ^ 16 && va / 2 ^ 16 < q.2.1 + q.2.2) then 1 else if e.getLsbD 7 then 3 else 4
  let onStack (e : DWord) : Bool := (List.range 16).any fun k => match s.route (fld e 16 36 * 2 ^ 16 + 4096 * k) with | some (st, _) => st == n | none => false
  (List.range 64).flatMap fun x => ((s.ptes x).filter fun p => onStack p.2.2 && cls x p.1 p.2.2 == c).map fun p => (c, x, p)
/-- The region table after an evacuation: written through a commit (R45). DESIGN CHOICE (log entry 18): every page that has moved is reached through
the entries of the pool, so the entries are committed as they are, once a commit before has drained. -/
def State.evacCommit (s : State) : State :=
  let s := if (s.dreg .rtStat).getLsbD 1 then s.drained else s
  (s.setShadow s.activeBank).rtCommit
/-- EVACUATE_STACK: the contents of the stack that goes offline move to the survivor; what does not fit is lost (R379). -/
def execEvacuateStack (s : State) : Outcome :=
  if !s.dieBit 0 then .next s
  else
    let n := if s.dieBit 6 && !(s.dieBit 7 && (vget s.dies 1).lost) then 0 else 1
    let (pins, badPin) := s.pinList
    let surfs := (List.range 64).flatMap fun x => (s.ctx x).surfaces.map fun u => (x, u)
    let pages (ev : Evac) (c : Nat) : Evac := (ev.s.evacPages n c pins).foldl (fun (ev : Evac) p => ev.page n p.2.1 p.2.2) ev
    let faces (ev : Evac) (l : List (Nat × Surface)) : Evac := l.foldl (fun (ev : Evac) q => ev.surface n q.1 q.2.handle) ev
    let s1 := (List.range 64).foldl (fun (s : State) x => s.moveQuota n x) s
    let ev := faces (pages { s := s1 } 1) (surfs.filter fun q => Surf.frameClass q.2)
    let ev := faces (pages (pages ev 3) 4) (surfs.filter fun q => !Surf.frameClass q.2)
    let s2 := ev.s.setDreg .evacStat (BitVec.ofNat 64 (min 255 badPin * 2 ^ 24 + min (2 ^ 24 - 1) ev.lost))
    let s3 := ((s2.evacCommit.rasNow 9 5 n 0 0).setDie 0 false).setDie 1 true
    let s4 := (List.range 3).foldl (fun (s : State) i =>
      if s.teams.any fun t => t.id.cluster == 3 * n + i && t.phase != .saved then s else s.modCluster (3 * n + i) fun c => { c with offline := true }) s3
    let go (s : State) (x : Nat) : State := ((s.ctx x).launches.filter (·.held)).foldl (fun (s : State) l =>
      (s.modLaunch x l.gen fun l => { l with held := false }).distribute x { l with held := false }) s
    .next ((List.range 64).foldl go s4)

/-- Surface memory and home cache of a lost SRAM die (R378). -/
def State.loseSram (s : State) (n : Nat) : State :=
  (vget s.dev.frameTab n).foldl (fun (s : State) e =>
    match e.frame, s.surf? e.x e.handle with
    | some _, some u => let (d, k) := sideOf u e.ix n; (s.loseFrame n e.x e.handle d k e.ix).1
    | _, _ => s) s
/-- Teams that stood on a lost compute die end; what its clusters held is gone. -/
def State.loseClusters (s : State) (n : Nat) : State :=
  let s := (s.teams.filter fun t => t.id.cluster / 3 == n && t.phase != .saved).foldl (fun (s : State) t => s.loseTeam t.id.uid) s
  (List.range 3).foldl (fun (s : State) i => s.modCluster (3 * n + i) fun c => { c with offline := true, merge := [], outq := [] }) s
/-- DIE_LOST (R378): the package is lost with the I/O die or the trust die. A compute die takes its SRAM die with it; contexts that touched a
lost die roll their launches back, and a stack whose compute die is lost is evacuated. -/
def execDieLost (d : Nat) (s : State) : Outcome :=
  if 6 ≤ d then .next s
  else if 4 ≤ d then .fault (.packageLost d)
  else
    let n := d % 2
    let gone := if d < 2 then [n, 2 + n] else [d]
    let (answers, s) := s.flip
    let s := gone.foldl (fun (s : State) i => (s.modDie i fun k => { k with lost := true, answers := i < 2 && answers }).setDie (8 + i) true) s
    let s := if d < 2 then s.loseClusters n else s
    let s := (s.loseSram n).rasNow 8 5 d 0 0
    let hit (x : Nat) : Bool := gone.any fun i => (s.creg x .ctxTdm).getLsbD i
    let s := ((List.range 64).filter hit).foldl (fun (s : State) x =>
      (((s.ctx x).launches.filter fun l => l.parent.isNone && !l.failed).foldl (fun (s : State) l =>
        (s.modLaunch x l.gen fun l => { l with dieLost := true }).dueOnce (.rollback x l.gen)) s)) s
    .next (if d < 2 then s.startEvac n else s)

/-! ## Checkpoints (R381, R382, R387) -/

/-- The checkpoint descriptor, when it keeps its layout. -/
def State.ckptDesc (s : State) : Option (Vector DWord 8) :=
  let d : Vector DWord 8 := Vector.ofFn fun i => BitVec.ofNat 64 (s.readPa 0 ((s.dreg .ckptDesc).toNat / 64 * 64 + 8 * i.val) 8)
  let ends := (List.range (fld (vget d 0) 0 3 + 1)).all fun e => fld (vget d (2 + e)) 51 13 == 0 && fld (vget d (2 + e)) 0 16 == 0
  if fld (vget d 0) 3 61 = 0 ∧ fld (vget d 0) 0 3 ≤ 5 ∧ fld (vget d 1) 52 12 = 0 ∧ ends then some d else none
/-- The image's length: package GDDR7, then the frames of each stack. -/
def imageBytes : Nat := Config.gddrBytes + 2 * 4096 * Config.framesPerStack
/-- Where byte `i` of the image goes: a location of a peer's memory (R387). -/
def imageAt (d : Vector DWord 8) (i : Nat) : Nat :=
  let e := fld (vget d 0) 0 3 + 1
  let w := vget d (2 + i / 2 ^ 16 % e)
  2 ^ 51 + fld w 38 13 * 2 ^ 38 + (fld w 0 38 + i / 2 ^ 16 / e * 2 ^ 16 + i % 2 ^ 16)
/-- The byte of the image that a peer location holds. -/
def imageIndex (d : Vector DWord 8) (loc : Nat) : Option Nat :=
  let e := fld (vget d 0) 0 3 + 1
  (List.range e).findSome? fun j =>
    let w := vget d (2 + j)
    let base := 2 ^ 51 + fld w 38 13 * 2 ^ 38 + fld w 0 38
    let o := loc - base
    let i := (o / 2 ^ 16 * e + j) * 2 ^ 16 + o % 2 ^ 16
    if base ≤ loc ∧ i < imageBytes then some i else none
/-- The byte of the image that a storage key is. -/
def State.imageOfKey (s : State) (k : Nat) : Option Nat :=
  if isGddrKey k then s.paOfKey k
  else if frameBase ≤ k ∧ k < caddyBase then some (Config.gddrBytes + (k - frameBase) / 2 ^ 29 * (4096 * Config.framesPerStack) + (k - frameBase) % 2 ^ 29)
  else none
/-- The storage key of a byte of the image, where the region table routes it. -/
def State.keyOfImage (s : State) (i : Nat) : Option Nat :=
  if i < Config.gddrBytes then (if (s.route i).isSome then some (s.storage i) else none)
  else
    let o := i - Config.gddrBytes
    let per := 4096 * Config.framesPerStack
    some (frameBase + 2 ^ 29 * (o / per) + o % per)
/-- Memory with some keys' bytes taken away and others put in. -/
def Memory.swap (m : Memory) (gone : Nat → Bool) (put : List Host.Cell) : Memory :=
  put.foldl (fun (m : Memory) c => m.write c.1 c.2) (m.filter fun c => !gone c.1)
/-- Poison marks with some sectors' taken away and others put in. -/
def swapPoison (l : List (Nat × BitVec 32)) (gone : Nat → Bool) (put : List Nat) : List (Nat × BitVec 32) :=
  (l.filter fun e => !gone (32 * e.1)) ++ put.map fun k => (k / 32, 0)
/-- Memory as GDDR7 and the other stores hold it: encrypted blocks as ciphertext (R25). -/
def State.rawMem (s : State) : Memory := s.dev.keyed.foldl (fun (m : Memory) e => m.putBlock e.1 (s.seenBlock (0, 0) e.1)) s.mem
/-- The image at this moment, by place. -/
def State.imageNow (s : State) : Memory :=
  s.rawMem.foldl (fun (m : Memory) c => match s.imageOfKey c.1 with | some i => m.write i c.2 | none => m) []
/-- Bytes as they are stored take the place of those at some keys, with their poison marks. -/
def State.swapRaw (s : State) (gone : Nat → Bool) (cells : List Host.Cell) (marks : List Nat) : State :=
  { s with mem := s.mem.swap gone cells,
           dev := { s.dev with poison := swapPoison s.dev.poison gone marks, keyed := s.dev.keyed.filter fun e => !gone (64 * e.1) } }
/-- The image goes to its endpoints, poisoned blocks with their mark. -/
def State.writeImage (s : State) (d : Vector DWord 8) (img : Memory) (bad : List Nat) : State :=
  s.swapRaw (fun k => (imageIndex d k).isSome) (img.map fun c => (s.storage (imageAt d c.1), c.2)) (bad.map fun i => s.storage (imageAt d i))
/-- The image comes back from its endpoints: what is under a key is under it again once the key has been set again (R25, R382). -/
def State.readImage (s : State) (d : Vector DWord 8) : State :=
  s.swapRaw (fun k => (s.imageOfKey k).isSome) (s.mem.filterMap fun c => ((imageIndex d c.1).bind s.keyOfImage).map fun k => (k, c.2))
    (s.dev.poison.filterMap fun e => (imageIndex d (32 * e.1)).bind s.keyOfImage)
/-- The checkpoint engine begins: 1 to write, 2 to restore. -/
def State.ckptBegin (s : State) (n : Nat) : State :=
  let s := s.setDreg .ckptStat (setBit (s.dreg .ckptStat) 0 true)
  { s with dev := { s.dev with ckpt := n } }
/-- CKPT_CTL.START: the descriptor is read, and the image is what stands at the homes now (R381, R387). -/
def State.ckptStart (s : State) : State :=
  if (s.dreg .ckptStat).getLsbD 0 then s
  else match s.ckptDesc with
  | none => (s.ckptBegin 1).dueOnce (.ckptFinish false)
  | some d =>
    let s := s.ckptBegin 1
    { s with dev := { s.dev with ckptDesc := d, ckptImg := s.imageNow, ckptBad := s.dev.poison.filterMap fun e => s.imageOfKey (32 * e.1) } }
/-- CKPT_CTL.RESTORE: ignored while the engine is busy or a team is resident. -/
def State.ckptRestore (s : State) : State :=
  if (s.dreg .ckptStat).getLsbD 0 || s.teams.any (·.phase != .saved) then s
  else match s.ckptDesc with
  | none => (s.ckptBegin 2).dueOnce (.ckptFinish false)
  | some d => ((s.ckptBegin 2).readImage d).dueOnce (.ckptFinish true)
/-- The first frame of a checkpoint's pool, and its frames. -/
def State.ckptPool (s : State) : Nat × Nat := (fld (vget s.dev.ckptDesc 1) 16 36, fld (vget s.dev.ckptDesc 1) 0 16)
/-- The 64 KiB units of the image that have been written since START, but for the pool itself, ascending. -/
def State.ckptDirty (s : State) : List Nat :=
  let now := s.imageNow
  let diff (a b : Memory) : List Nat := (a.filter fun c => b.read c.1 != c.2).map (·.1 / 2 ^ 16)
  let (base, n) := s.ckptPool
  (sortBy (· ≤ ·) (diff s.dev.ckptImg now ++ diff now s.dev.ckptImg).eraseDups).filter fun u => !(base ≤ u && u < base + n)
/-- Those units as they were, in the frames of the pool. -/
def State.fillCkptPool (s : State) : State :=
  (s.ckptDirty.zip (List.range s.ckptDirty.length)).foldl (fun (s : State) q =>
    s.homeWrite ((List.range (2 ^ 16)).map fun i => ((s.ckptPool.1 + q.2) * 2 ^ 16 + i, s.dev.ckptImg.read (q.1 * 2 ^ 16 + i)))) s
/-- CKPT_START by a host. -/
def execCkptStart (fn : Nat) (s : State) : Outcome := .next (s.shared fn 0x1248 State.ckptStart)
/-- CKPT_RESTORE by a host. -/
def execCkptRestore (fn : Nat) (s : State) : Outcome := .next (s.shared fn 0x1248 State.ckptRestore)
/-- The checkpoint engine ends with DONE or FAIL. -/
def State.ckptEnd (s : State) (ok : Bool) : State :=
  let s := s.setDreg .ckptStat (setBit (setBit (s.dreg .ckptStat) 0 false) (if ok then 1 else 2) true)
  { s with dev := { s.dev with ckpt := 0, ckptDesc := .replicate 8 0, ckptImg := [], ckptBad := [] } }
/-- CKPT_FINISH: a checkpoint or a restore ends. A checkpoint whose pool cannot hold every unit written since START fails; else the pool holds them as
they were, and the image of START goes to the endpoints (R381, R387). DESIGN CHOICE (log entry 18): the copies stand in the pool from the end of
the stream on, in ascending order of their units. -/
def execCkptFinish (ok : Bool) (s : State) : Outcome :=
  if s.dev.ckpt = 0 then .next s
  else if s.dev.ckpt = 1 && ok then
    .next (if s.ckptPool.2 < s.ckptDirty.length then s.ckptEnd false
      else (s.fillCkptPool.writeImage s.dev.ckptDesc s.dev.ckptImg s.dev.ckptBad).ckptEnd true)
  else .next (s.ckptEnd ok)

end Sys2Proof.Machine
end

