-- ==== Sys2Proof/Machine/Host.lean ====
section
/-! DEFINITION. The host's side: register blocks of BAR0, the host links, the fabric, common time and frames, scan-out, the trust die and its mailbox (R20 to R22, R326 to R331, R383 to R397). -/
namespace Sys2Proof.Machine

/-! ## Common time and frames (R389, R390) -/

/-- The instant of a frame's start. -/
def State.frameStartAt (s : State) (k : Nat) : Nat := (s.dreg .flT0).toNat + k * fld (s.dreg .flPer) 0 40 / 256
/-- The first frame whose instant is not earlier than `$time` of the package. -/
def State.nextFrame (s : State) : Nat := ceilDiv (256 * (s.packTime - (s.dreg .flT0).toNat)) (fld (s.dreg .flPer) 0 40)
/-- A write of FL_CTL (R390). -/
def State.flCtlWrite (s : State) (v : DWord) : State :=
  if !v.getLsbD 0 then { s.setDreg .flCtl 0 with dev := { (s.setDreg .flCtl 0).dev with soDue := .replicate 4 [] } }
  else if (s.dreg .flCtl).getLsbD 0 || fld (s.dreg .flPer) 0 40 == 0 then s
  else { s.setDreg .flCtl 1 with dev := { (s.setDreg .flCtl 1).dev with frame := s.nextFrame } }
/-- FL_CTL_ENABLE by a host. -/
def execFlCtlEnable (fn : Nat) (v : BitVec 32) (s : State) : Outcome := .next (s.shared fn 0x1210 fun s => s.flCtlWrite (v.setWidth 64))
/-- FRAME_START: the I/O die's counter has reached the next frame's instant. The frame's number goes to FL_WORD, the streams learn of it, and
frames whose instants have passed are left out. -/
def execFrameStart (s : State) : Outcome :=
  let k := s.dev.frame
  if !(s.dreg .flCtl).getLsbD 0 || s.packTime < s.frameStartAt k then .next s
  else
    let s1 := { s with dev := { s.dev with frame := max (k + 1) s.nextFrame } }
    let on (n : Nat) : Bool := !vget s.dev.soAway n && s.dreg ([DReg.soDesc0, .soDesc1, .soDesc2, .soDesc3].getD n .soDesc0) != 0
    let s2 := { s1 with dev := { s1.dev with soDue := Vector.ofFn fun n => let q := vget s1.dev.soDue n.val; if on n.val then q ++ [k] else q } }
    .next (s2.homeWriteN (fld (s.dreg .flWord) 3 49 * 8) 8 k)

/-- The servo's slew in units of 2^-32: at most 100 ppm. -/
def slewMax : Nat := 429496
/-- SYNC_MESSAGE: a follower's Sync. OFFS takes the offset, LOCKED follows its rule, and the servo steps the I/O die's counter while no team is
resident, else it slews it. The other dies follow, in a step by their OFFSET (R22, R389). Frames whose instants a step has passed are skipped (R390). -/
def execSyncMessage (offs : BitVec 32) (s : State) : Outcome :=
  if fld (s.dreg .tsCfg) 30 2 ≠ 1 then .next s
  else
    let locked := (s.dreg .tsStat).getLsbD 0
    let inside := offs.toInt.natAbs ≤ 15
    let n := if inside != locked then s.dev.syncRuns + 1 else 0
    let flip := if locked then 4 ≤ n else 16 ≤ n
    let stat : DWord := (offs ++ BitVec.ofNat 32 (if locked != flip then 1 else 0) : BitVec 64)
    let s := { s.setDreg .tsStat stat with dev := { (s.setDreg .tsStat stat).dev with syncRuns := if flip then 0 else n } }
    if s.teams.any (·.phase != .saved) then
      let slew : Int := ((Config.freeValue s.freeCtr).toNat % (2 * slewMax + 1) : Nat) - (slewMax : Int)
      .next { s with freeCtr := s.freeCtr + 1, dev := { s.dev with slew } }
    else
      let s := [0, 1, 2, 3, 5].foldl (fun (s : State) i => s.modDie i fun d => { d with off := d.off - offs.signExtend 64 })
        (s.modDie 4 fun d => { d with cnt := d.cnt - offs.signExtend 64 })
      .next (if (s.dreg .flCtl).getLsbD 0 then { s with dev := { s.dev with frame := max s.dev.frame s.nextFrame } } else s)

/-! ## Scan-out (R391, R392) -/

/-- A stream's descriptor, none when the stream is disabled. -/
def State.soDesc (s : State) (n : Nat) : Option (Vector DWord 8) :=
  let a := (s.dreg ([DReg.soDesc0, .soDesc1, .soDesc2, .soDesc3].getD n .soDesc0)).toNat
  let d : Vector DWord 8 := Vector.ofFn fun i => BitVec.ofNat 64 (s.readPa 0 (a + 8 * i.val) 8)
  if a = 0 ∨ 2 < fld (vget d 0) 56 8 ∨ fld (vget d 0) 0 18 < 200 ∨ fld (vget d 5) 14 50 ≠ 0 ∨ vget d 7 ≠ 0 then none else some d
/-- Whether a surface can be presented at a size. -/
def State.presentable (s : State) (x h w ht : Nat) : Bool :=
  match s.surf? x h with
  | some u => Surf.valid u && [0x02, 0x03, 0x06].contains (Surf.format u) && Surf.width u == w && Surf.height u == ht
  | none => false
/-- Whether a generation has ended with an error report or is being rolled back. -/
def State.genFailed (s : State) (x gen : Nat) : Bool :=
  (s.ctx x).failed.contains gen || s.agenda.contains (.rollback x gen) || s.agenda.contains (.rollback x (s.rootGen x 10 gen)) ||
  (s.launch? x gen).any fun l => l.held || l.failed || l.rolling
def soMiss (n : Nat) : DReg := [DReg.soMiss0, .soMiss1, .soMiss2, .soMiss3].getD n .soMiss0
/-- SCAN_OUT_FRAME: GUARD after a frame's start, the stream sends the presented surface, or its last good frame reprojected. A present
record that cannot be read names no good frame. -/
def execScanOutFrame (n : Nat) (s : State) : Outcome :=
  match vget s.dev.soDue n with
  | [] => .next s
  | k :: rest =>
    let drop (s : State) : State := { s with dev := { s.dev with soDue := vset s.dev.soDue n rest } }
    match s.soDesc n with
    | none => .next (drop s)
    | some d =>
      if s.packTime < s.frameStartAt k + 1000 * fld (vget d 0) 0 18 then .next s
      else
        let x := fld (vget d 0) 18 6
        let shown := match s.devRead x (vget d 1).toNat 24 with
          | .error _ => none
          | .ok bs =>
            let r := dwordsOf 3 bs
            let h := fld (vget r 1) 52 12
            if k ≤ (vget r 0).toNat ∧ s.presentable x h (fld (vget d 0) 42 14 + 1) (fld (vget d 0) 28 14 + 1) ∧ !s.genFailed x (vget r 2).toNat then some h else none
        let s := drop s
        match shown with
        | some h => .next { s with dev := { s.dev with soGood := vset s.dev.soGood n (x, h), soSent := vset s.dev.soSent n (some (k, h, false)) } }
        | none =>
          let good := vget s.dev.soGood n
          let last := if good.1 = x && (s.surf? x good.2).isSome then good.2 else 0
          let s := { s with dev := { s.dev with soSent := vset s.dev.soSent n (some (k, last, true)) } }
          .next (s.setDreg (soMiss n) (BitVec.ofNat 64 ((fld (s.dreg (soMiss n)) 0 32 + 1) % 2 ^ 32)))

/-! ## Key slots (R396) -/

def State.setTm (s : State) (fn : Nat) (b : Bool) : State := s.modFn fn fun f => { f with tmStat := setBit f.tmStat 1 (b || f.tmStat.getLsbD 1) }
/-- Whether a slot may not be named by a function. -/
def State.slotBad (s : State) (fn slot : Nat) : Bool :=
  slot % 64 == 0 || match vget s.dev.slotOwner (slot % 64) with | some x => fnOf x != fn | none => false
/-- A slot granted to a context of the writing function. -/
def State.keyGrant (s : State) (fn x slot : Nat) : State :=
  if s.slotBad fn slot || fnOf x != fn then s.setTm fn true
  else ({ s with dev := { s.dev with slotOwner := vset s.dev.slotOwner (slot % 64) (some x) } }).setCreg x .keyAllow (setBit (s.creg x .keyAllow) (slot % 64) true)
/-- A slot revoked from every context, with a fresh key. -/
def State.keyRevoke (s : State) (fn slot : Nat) : State :=
  if s.slotBad fn slot then s.setTm fn true
  else
    let n := slot % 64
    let s := (List.range 64).foldl (fun (s : State) x => s.setCreg x .keyAllow (setBit (s.creg x .keyAllow) n false)) s
    { s with dev := { s.dev with slotOwner := vset s.dev.slotOwner n none, slotGen := vmod s.dev.slotGen n (· + 1) } }
/-- TM_CMD_GRANT. -/
def execTmCmdGrant (fn x slot : Nat) (s : State) : Outcome := .next (s.keyGrant fn x slot)
/-- TM_CMD_REVOKE. -/
def execTmCmdRevoke (fn slot : Nat) (s : State) : Outcome := .next (s.keyRevoke fn slot)
/-- A write of TM_CMD: an OP that is neither grant nor revoke is ignored. -/
def State.tmCmd (s : State) (fn : Nat) (v : DWord) : State :=
  if fld v 28 4 = 1 then s.keyGrant fn (fld v 22 6) (fld v 0 6) else if fld v 28 4 = 2 then s.keyRevoke fn (fld v 0 6) else s

/-! ## The shared block (R327) -/

/-- RW bits of a device register; registers with behaviour of their own have none here. -/
def DReg.rw : DReg → DWord
  | .rtSel => msk 0 6
  | .thermCfg => msk 24 8 ||| msk 0 8
  | .lbCfg => msk 0 32
  | .tsCfg => msk 30 2 ||| msk 0 24
  | .flT0 | .ckptDesc | .soDesc0 | .soDesc1 | .soDesc2 | .soDesc3 => msk 0 64
  | .flPer => msk 0 40
  | .flWord => msk 3 49
  | .rasBase => msk 12 40 ||| msk 0 5
  | .rasHead => msk 0 32
  | .evacPool0 | .evacPool1 => msk 16 36 ||| msk 0 16
  | .evacPin => msk 52 12 ||| msk 4 48
  | _ => 0
/-- W1C bits of a device register. -/
def DReg.w1c : DReg → DWord
  | .rtStat => msk 2 2
  | .ckptStat | .dieStat => msk 1 2
  | .iftStat => msk 2 3
  | _ => 0
/-- What lies at an offset of the shared block that a host can write. -/
inductive Shared where
  | reg (r : DReg) | rtCtl | rtWord (one : Bool) | carve (stack : Nat) | ldt (i : Nat) | flCtl | ckptCtl | dieCtl | iftCtl
  deriving DecidableEq, Repr, Inhabited
/-- The writable registers of the shared block that need the semaphore: offset, 64 bits or 32, register. -/
def sharedMap : List (Nat × Bool × Shared) :=
  [(0x1000, false, .reg .rtSel), (0x1004, false, .rtCtl), (0x1008, false, .reg .rtStat), (0x1010, true, .rtWord false), (0x1018, true, .rtWord true),
   (0x1020, false, .carve 0), (0x1024, false, .carve 1), (0x1030, false, .reg .thermCfg), (0x1034, false, .reg .lbCfg)] ++
  (List.range 64).map (fun i => (0x1100 + 4 * i, false, Shared.ldt i)) ++
  [(0x1200, false, .reg .tsCfg), (0x1210, false, .flCtl), (0x1218, true, .reg .flT0), (0x1220, true, .reg .flPer), (0x1228, true, .reg .flWord),
   (0x1240, true, .reg .ckptDesc), (0x1248, false, .ckptCtl), (0x124C, false, .reg .ckptStat), (0x1260, true, .reg .soDesc0), (0x1268, true, .reg .soDesc1),
   (0x1270, true, .reg .soDesc2), (0x1278, true, .reg .soDesc3), (0x12A0, true, .reg .rasBase), (0x12AC, false, .reg .rasHead), (0x12C0, false, .dieCtl),
   (0x12C4, false, .reg .dieStat), (0x12D0, true, .reg .evacPool0), (0x12D8, true, .reg .evacPool1), (0x12E0, true, .reg .evacPin), (0x1300, false, .iftCtl),
   (0x1304, false, .reg .iftStat)]
/-- The stream that a device register describes. -/
def soOf : DReg → Option Nat | .soDesc0 => some 0 | .soDesc1 => some 1 | .soDesc2 => some 2 | .soDesc3 => some 3 | _ => none
/-- A device register's value after a write; T0 and PER stay while frames run (R390). A stream whose descriptor is written is this package's again. -/
def State.writeDreg (s : State) (r : DReg) (v : DWord) : State :=
  let s := match soOf r with | some n => { s with dev := { s.dev with soAway := vset s.dev.soAway n false } } | none => s
  if (r = .flT0 ∨ r = .flPer) ∧ (s.dreg .flCtl).getLsbD 0 then s else s.setDreg r (regAfter r.rw r.w1c (s.dreg r) v)
/-- The streams of a package that leaves its domain, those that name a backup, pass to it (R393). -/
def State.passStreams (s : State) : State :=
  (List.range 4).foldl (fun (s : State) n =>
    match s.soDesc n with
    | some d =>
      if (vget d 5).getLsbD 13 && !vget s.dev.soAway n then
        { s with dev := { s.dev with soAway := vset s.dev.soAway n true, soDue := vset s.dev.soDue n [] } }.send (.stream (fld (vget d 5) 0 13) n)
      else s
    | none => s) s
/-- A write of a launch domain table entry; where it takes this package's own entry away, the package leaves the domain. -/
def State.ldtWrite (s : State) (i : Nat) (v : DWord) : State :=
  let old := vget s.dev.ldt i
  let new : Word := (regAfter (msk 31 1 ||| msk 0 13) 0 (old.setWidth 64) v).setWidth 32
  let own (w : Word) : Bool := w.getLsbD 31 && fld w 0 13 == Config.packageNumber
  let s := { s with dev := { s.dev with ldt := vset s.dev.ldt i new } }
  if own old && !own new then s.passStreams else s
/-- CKPT_CTL: with both bits set the checkpoint starts, and the restore finds the engine busy. -/
def State.ckptCtl (s : State) (v : DWord) : State :=
  let s := if v.getLsbD 0 then s.ckptStart else s
  if v.getLsbD 1 then s.ckptRestore else s
/-- The value that a half-write of a 64-bit shared register joins. -/
def State.sharedRead (s : State) (r : Shared) : DWord :=
  let e := vget s.shadowBank (fld (s.dreg .rtSel) 0 6)
  match r with | .reg r => s.dreg r | .rtWord one => if one then e.w1 else e.w0 | _ => 0
/-- A whole write of a shared register. -/
def State.sharedWrite (s : State) (r : Shared) (v : DWord) : State :=
  match r with
  | .reg r => s.writeDreg r v
  | .rtCtl => s.rtCtl v
  | .rtWord one => s.rtWord one v
  | .carve n => s.carveWrite n v
  | .ldt i => s.ldtWrite i v
  | .flCtl => s.flCtlWrite v
  | .ckptCtl => s.ckptCtl v
  | .dieCtl => s.dieCtl v
  | .iftCtl => s.iftCtl v

/-! ## Queues and contexts (R328, R329) -/

/-- A package whose queues are disabled refuses what waits at a start barrier: the origin aborts it, a member sends REFUSE and waits for the ABORT
(R338, R393). -/
def State.refusePending (s : State) (x : Nat) : State :=
  if (s.openQueue? x).isSome then s
  else ((s.ctx x).launches.filter fun l => !l.started && !l.go && !l.failed && Pkt.mask l.pkt != 0).foldl (fun (s : State) l =>
    if l.queue.isSome then s.dueOnce (.startAbort x l.gen)
    else (s.modLaunch x l.gen fun l => { l with failed := true }).send (.refuse l.gen)) s
/-- A write of a queue register at its block offset. -/
def State.queueReg (s : State) (fn q o : Nat) (wide high : Bool) (v : DWord) : State :=
  let k := s.queue q
  if o = 0 then s.modQueue q fun k => { k with base := halfWrite k.base wide high v &&& msk 6 58 }
  else if o = 8 then
    if fnOf (fld v 0 6) ≠ fn then s.violate (BitVec.ofNat 64 (0x10000 + 0x40 * q + 8)) fn 1
    else if 4 < fld v 27 3 || fld v 16 5 < 4 || 16 < fld v 16 5 then s
    else ((s.modQueue q fun k => { k with cfg := ((regAfter (msk 27 5 ||| msk 16 5 ||| msk 0 6) 0 (k.cfg.setWidth 64) v).setWidth 32) }).refusePending
      (fld k.cfg 0 6)).cpKick
  else if o = 0xC then s.ringBell q (v.setWidth 32)
  else { s with queues := vset s.queues q k }
/-- Context registers that only the control port reaches, by block offset; 64 bits or 32. -/
def portRegs : List (Nat × Bool × CReg) :=
  [(0x400, true, .trapBase), (0x408, false, .fltCfg), (0x410, true, .fltBase), (0x418, false, .fltTail), (0x41C, false, .fltHead), (0x424, false, .preStat),
   (0x428, true, .saveBase), (0x430, true, .saveLen), (0x43C, false, .dbgStat), (0x440, false, .rasCfg), (0x444, false, .snapStat), (0x448, true, .snapPool),
   (0x450, true, .ctxGen), (0x458, false, .ctxTdm), (0x460, true, .cgBase)]
/-- Every register of a context block that MOVSW numbers or that only the port reaches. -/
def ctxRegs : List (Nat × Bool × CReg) := sysCtx.map (fun r => (4 * (r.1.base - 0x100), r.1.wide, r.2)) ++ portRegs
/-- A write of PRE_CTL: STOP before RESUME. -/
def State.preCtl (s : State) (x : Nat) (v : DWord) : State :=
  let s := if v.getLsbD 0 then s.stopCtx x else s
  if v.getLsbD 1 then s.resumeCtx x else s
/-- A write of DBG_CTL: HALT before RESUME. -/
def State.dbgCtl (s : State) (x : Nat) (v : DWord) : State :=
  let s := if v.getLsbD 0 then s.halt x else s
  if v.getLsbD 1 then s.debugGo x else s
/-- A write of a context block at an offset that lies in it; none where no register lies there. -/
def State.ctxWrite (s : State) (x o : Nat) (wide : Bool) (v : DWord) : Option State :=
  let tq (k : Nat) (f : TaskQueue → TaskQueue) : State := s.modCluster k fun c => { c with tasks := vmod c.tasks x f }
  match ctxRegs.find? fun r => r.1 == o || (r.2.1 && r.1 + 4 == o) with
  | some r => some (s.writeCreg x r.2.2 (if r.2.1 then halfWrite (s.creg x r.2.2) wide (r.1 != o) v else v))
  | none =>
    if o = 0x420 then some (s.preCtl x v)
    else if o = 0x438 then some (s.dbgCtl x v)
    else if o = 0xA0 ∨ o = 0xA4 then some s
    else if o = 0x468 then some (s.collAbort x (fld v 0 12))
    else if 0x480 ≤ o ∧ o < 0x4E0 then
      let k := (o - 0x480) / 16
      if o % 16 = 0 ∨ o % 16 = 4 then some (tq k fun q => { q with base := halfWrite q.base wide (o % 16 == 4) v &&& msk 12 40 })
      else if o % 16 = 8 then some (tq k fun q => { q with len := (v.setWidth 32 : Word) &&& 0xFFFFF })
      else none
    else none

/-! ## REGISTER_WRITE (R7, R326 to R331) -/

/-- A write of VIOL_INFO: VALID and OVF clear on 1; the count starts again with VALID. -/
def Device.violClear (d : Device) (v : DWord) : Device :=
  let i := ((regAfter 0 (msk 30 2) (d.violInfo.setWidth 64) v).setWidth 32 : Word)
  { d with violInfo := if v.getLsbD 31 then setFld i 0 16 0 else i }
/-- A 4-byte write, or an 8-byte write of a 64-bit register, at a BAR0 offset. -/
def State.barWrite (s : State) (fn off : Nat) (wide : Bool) (v : DWord) : State :=
  if 0x100 ≤ off ∧ off < 0x140 then
    let n := (off - 0x100) / 4
    let s := if v.getLsbD 1 && vget s.dev.hsem n == fn + 1 then { s with dev := { s.dev with hsem := vset s.dev.hsem n 0 } } else s
    if v.getLsbD 0 && vget s.dev.hsem n == 0 then { s with dev := { s.dev with hsem := vset s.dev.hsem n (fn + 1) } } else s
  else if off = 0x208 then { s with dev := s.dev.violClear v }
  else if off = 0x1310 then s.tmCmd fn v
  else if off = 0x1314 then s.modFn fn fun f => { f with tmStat := (regAfter 0 (msk 1 1) (f.tmStat.setWidth 64) v).setWidth 32 }
  else if 0x1000 ≤ off ∧ off < 0x2000 then
    match sharedMap.find? fun r => r.1 == off || (r.2.1 && r.1 + 4 == off) with
    | none => s
    | some r => s.shared fn off fun s => s.sharedWrite r.2.2 (if r.2.1 then halfWrite (s.sharedRead r.2.2) wide (r.1 != off) v else v)
  else if 0x10000 ≤ off ∧ off < 0x11000 then
    let q := (off - 0x10000) / 0x40
    let o := off % 0x40
    if 0x10 < o then s
    else if fnOf q ≠ fn then s.violate (BitVec.ofNat 64 off) fn 1
    else s.queueReg fn q (if o = 4 then 0 else o) wide (o == 4) v
  else if 0x100000 ≤ off ∧ off < 0x500000 then
    let x := (off - 0x100000) / 0x10000
    match s.ctxWrite x (off % 0x10000) wide v with
    | none => s
    | some t => if fnOf x = fn then t else s.violate (BitVec.ofNat 64 off) fn 1
  else s
/-- Whether a 64-bit register starts at a BAR0 offset. -/
def wideAt (off : Nat) : Bool :=
  if 0x1000 ≤ off ∧ off < 0x2000 then sharedMap.any fun r => r.1 == off && r.2.1
  else if 0x10000 ≤ off ∧ off < 0x11000 then off % 0x40 == 0
  else if 0x100000 ≤ off ∧ off < 0x500000 then
    (ctxRegs.any fun r => r.1 == off % 0x10000 && r.2.1) || (0x480 ≤ off % 0x10000 && off % 0x10000 < 0x4E0 && off % 16 == 0)
  else false
/-- REGISTER_WRITE: a host's write of 4 or 8 bytes to its BAR0. An 8-byte write that reaches no 64-bit register is its two halves, the
low one first; an offset that is not aligned reaches no register. -/
def execRegisterWrite (fn off : Nat) (wide : Bool) (v : BitVec 64) (s : State) : Outcome :=
  if off % 4 ≠ 0 then .next s
  else if wide && wideAt off then .next (s.barWrite fn off true v)
  else
    let s := s.barWrite fn off false (fld v 0 32)
    .next (if wide then s.barWrite fn (off + 4) false (fld v 32 32) else s)

/-! ## What a host reads (R7, R326 to R331, R343) -/

/-- HOTMAP of a cluster: 64 logical cores from `64 k` on (R343). -/
def State.hotmap (s : State) (cl k : Nat) : DWord := ofBits 64 ((List.range 64).filter fun i => (vget s.cores (192 * cl + 64 * k + i)).hot)
/-- The read-only registers of the shared block: offset, 64 bits or 32, register. -/
def sharedRo : List (Nat × Bool × DReg) :=
  [(0x1038, false, .bootStat), (0x103C, false, .pwrStat), (0x1208, true, .tsStat), (0x1280, false, .soMiss0), (0x1284, false, .soMiss1),
   (0x1288, false, .soMiss2), (0x128C, false, .soMiss3), (0x12A8, false, .rasTail), (0x12E8, false, .evacStat)]
/-- What a shared register reads as; write-only ones read zero. -/
def State.sharedGet (s : State) (r : Shared) : DWord :=
  match r with
  | .carve n => s.dreg (carveReg n)
  | .ldt i => (vget s.dev.ldt i).setWidth 64
  | .flCtl => s.dreg .flCtl
  | .rtCtl | .ckptCtl | .dieCtl | .iftCtl => 0
  | r => s.sharedRead r
/-- A whole register and whether the offset names its high half, for the offsets of the shared block. -/
def State.sharedAt (s : State) (fn off : Nat) : DWord × Bool :=
  match sharedMap.find? fun r => r.1 == off || (r.2.1 && r.1 + 4 == off) with
  | some r => (s.sharedGet r.2.2, r.1 != off)
  | none =>
    match sharedRo.find? fun r => r.1 == off || (r.2.1 && r.1 + 4 == off) with
    | some r => (s.dreg r.2.2, r.1 != off)
    | none =>
      if 0x1040 ≤ off ∧ off < 0x10D0 then (s.hotmap ((off - 0x1040) / 0x18) ((off - 0x1040) % 0x18 / 8), off % 8 == 4)
      else if off = 0x1314 then ((vget s.dev.fns fn).tmStat.setWidth 64, false)
      else (0, false)
/-- As `sharedAt`, for a context block. -/
def State.ctxAt (s : State) (x o : Nat) : DWord × Bool :=
  match ctxRegs.find? fun r => r.1 == o || (r.2.1 && r.1 + 4 == o) with
  | some r => (if r.2.2 = .saveLen then BitVec.ofNat 64 (s.saveLen x) else s.creg x r.2.2, r.1 != o)
  | none =>
    if o = 0xA0 ∨ o = 0xA4 then (BitVec.ofNat 64 (s.used x 1 * 2 ^ 32 + s.used x 0), o == 0xA4)
    else if 0x480 ≤ o ∧ o < 0x4E0 then
      let q := vget (vget s.clusters ((o - 0x480) / 16)).tasks x
      if o % 16 = 8 then (q.len.setWidth 64, false) else if o % 16 < 8 then (q.base, o % 16 == 4) else (0, false)
    else (0, false)
/-- A host's read of 4 bytes at a BAR0 offset; none is an Unsupported Request completion. -/
def State.barRead (s : State) (fn off : Nat) : Option Word :=
  let half (p : DWord × Bool) : Word := if p.2 then p.1.extractLsb' 32 32 else p.1.setWidth 32
  if off % 4 ≠ 0 then some 0
  else if 0x100 ≤ off ∧ off < 0x140 then some (BitVec.ofNat 32 (4 * vget s.dev.hsem ((off - 0x100) / 4)))
  else if off = 0x200 ∨ off = 0x204 then some (half (s.dev.viol, off == 0x204))
  else if off = 0x208 then some s.dev.violInfo
  else if 0x1000 ≤ off ∧ off < 0x2000 then some (half (s.sharedAt fn off))
  else if 0x10000 ≤ off ∧ off < 0x11000 then
    let q := (off - 0x10000) / 0x40
    let k := s.queue q
    let o := off % 0x40
    if fnOf q ≠ fn then none
    else some (if o < 8 then half (k.base, o == 4) else if o = 8 then k.cfg else if o = 0xC then k.tail else if o = 0x10 then k.head else 0)
  else if 0x100000 ≤ off ∧ off < 0x500000 then
    let x := (off - 0x100000) / 0x10000
    if fnOf x ≠ fn then none else some (half (s.ctxAt x (off % 0x10000)))
  else some 0

/-! ## Host links (R383) -/

/-- The functions that a function's link carries. -/
def State.linkFns (s : State) (fn : Nat) : List Nat := if s.dev.split then [fn] else [0, 1]
/-- HOST_LINK_DOWN: a function that holds HSEM0 is reported when the device releases it, another at once. -/
def execHostLinkDown (fn : Nat) (s : State) : Outcome :=
  .next ((s.linkFns fn).foldl (fun (s : State) f =>
    if !(vget s.dev.fns f).linkUp then s
    else if s.hsemHeld f then s.modFn f fun k => { k with linkUp := false, downAt := some s.packTime }
    else (s.modFn f fun k => { k with linkUp := false }).rasNow 11 4 f 0 0) s)
/-- HSEM_LINK_RELEASE: 1 ms after its link went down, a function's hold on HSEM0 is released. -/
def execHsemLinkRelease (fn : Nat) (s : State) : Outcome :=
  match (vget s.dev.fns fn).downAt with
  | none => .next s
  | some t =>
    if s.packTime < t + 1000000 then .next s
    else
      let s1 := s.modFn fn fun k => { k with downAt := none }
      .next (if s.hsemHeld fn then { s1 with dev := { s1.dev with hsem := vset s1.dev.hsem 0 0 } }.rasNow 11 4 fn 0 1 else s1.rasNow 11 4 fn 0 0)
/-- HOST_LINK_TRAINED: a link comes up at a rate of at most 128 GT/s and a width of at most its lanes; without the I/O die there is none. -/
def execHostLinkTrained (fn rate width : Nat) (s : State) : Outcome :=
  let lanes := if s.dev.split then 8 else 16
  if !(vget s.dies 4).released || 128 < rate || rate == 0 || lanes < width || width == 0 then .next s
  else .next ((s.linkFns fn).foldl (fun (s : State) f => s.modFn f fun k => { k with linkUp := true, rate, width }) s)

/-! ## The fabric (R384) -/

/-- PEER_REQUEST: a peer's read, write or atomic of this package's GDDR7 performs at the home; a reserved or unrouted address is refused. -/
def execPeerRequest (src addr : Nat) (wr : Bool) (at_ : Option AtomOp) (ty : Ty) (v cmp : BitVec 64) (s : State) : Outcome :=
  let n := ty.width / 8
  if src = Config.packageNumber ∨ Config.gddrBytes < addr + n ∨ (s.route addr).isNone then .next s
  else
  let s := if s.rtHeld addr then s.drained else s
  match at_ with
  | some op => .next (s.homeAtomic op ty addr v cmp).2
  | none => .next (if wr then s.homeWriteN addr n v.toNat else s)
/-- BURZIL_PORT_DOWN: a port is taken down; the traffic goes over the others. -/
def execBurzilPortDown (port : Nat) (s : State) : Outcome := .next { s with dev := { s.dev with portsUp := vset s.dev.portsUp port false } }
/-- REQUEST_UNDELIVERABLE: a request to a peer fails. The MEM instruction that a guarded lane stands at, with its request out, takes a protection fault
with sub-cause 8, and performs nothing (R347, R348); a copy context `c`, named as the role 64 + c, waits on a fault batch. -/
def execRequestUndeliverable (p : Party) (lane : Nat) (addr : BitVec 64) (s : State) : Outcome :=
  let t := s.team p.team
  let remote := match s.xlate (some t.coreNo) t.id.ctx addr.toNat .read with | .ok (loc, _) => isPeer (loc % keyUnit) && isRemote loc | .error _ => false
  if !remote then .next s
  else match p.mem with
  | .engine r =>
    let c := vget t.copy (r - 64)
    if r < 64 || c.batch.isSome || c.aborting || !(c.recs.any fun q => q.accepted && q.status == 0) then .next s
    else .next (s.copyFault p.team (r - 64) addr.toNat { sub := 8 } .engine)
  | .group _ =>
    let atMem (r : Run) : Bool := !r.words.isEmpty && (Mn.ofOp (r.word.extractLsb' 55 9)).bind Mn.cls == some .mem
    match s.blockedRun? p lane, (s.group p).run with
    | some r, _ => .next (if atMem r then s.trapLanes p r (bitsOf r.lanes) [lane] 0x0B addr 8 else s)
    | none, some r =>
      let held := s.guarded p r (bitsOf r.lanes)
      if !atMem r || !held.contains lane then .next s
      else
        let s := s.wake p (bitsOf r.lanes)
        .next (s.trapAt p held { cause := 0x0B, addr, aux := 8, lanes := ofBits 32 [lane], pc := r.slotPc, mid := r.here.2 })
    | none, none => .next s

/-! ## The trust die (R394, R395) and the clock (R397) -/

/-- The dies in the order in which the trust die releases them. -/
def bootOrder : List Nat := [4, 0, 1, 2, 3]
/-- A die's image is measured: the die leaves reset, or stays in it and its BOOT_STAT bit reads 1. -/
def State.bootDie (s : State) (d : Nat) : State :=
  let (ok, s) := s.flip
  if ok then s.modDie d fun k => { k with released := true }
  else (s.setDreg .bootStat (setBit (s.dreg .bootStat) d true)).modDie d fun k => { k with lost := true }
/-- Region table entry 0 as the trust die leaves it: all of package GDDR7, interleaved (R41); it last changed in table generation 1
(DEDUCED, log entry 21). -/
def bootEntry : RtEntry := { w0 := setFld (setFld (setFld 0 16 16 0xF000) 32 2 1) 48 16 1, w1 := 0 }
/-- TRUST_DIE_BOOT: the dies are measured and released; the record's remap and limits are loaded; time is aligned; slots 1 to 63 take
fresh keys; the strap that sets the links is sampled; region table entry 0 is written. A cluster on a die that stays in reset is absent. -/
def execTrustDieBoot (s : State) : Outcome :=
  let s := s.modDie 5 fun k => { k with released := true }
  let s := bootOrder.foldl State.bootDie s
  let base := (vget s.dies 4).cnt
  let (split, s) := s.flip
  .next { s with
    dies := s.dies.map fun (d : Die) => { d with off := base - d.cnt, rate := 0 }
    clusters := Vector.ofFn fun c =>
      { vget s.clusters c.val with leftOut := Vector.ofFn fun i => Config.leftOutRow c.val i.val, enabled := !(vget s.dies (c.val / 3)).lost }
    dev := { s.dev with
      split, bankA := Vector.ofFn fun i => if i.val = 0 then bootEntry else {}
      slotGen := Vector.ofFn fun n => if n.val = 0 then 0 else vget s.dev.slotGen n.val + 1 } }

def State.answer (s : State) (fn : Nat) (a : Answer) : Outcome := .next (s.modFn fn fun f => { f with mailbox := some a })
/-- GET_VERSION. -/
def execGetVersion (fn : Nat) (s : State) : Outcome := s.answer fn (.version 1 3)
/-- GET_CAPABILITIES: no secure sessions. -/
def execGetCapabilities (fn : Nat) (s : State) : Outcome := s.answer fn (.capabilities false)
/-- NEGOTIATE_ALGORITHMS: SHA-384 and Ed25519. -/
def execNegotiateAlgorithms (fn : Nat) (s : State) : Outcome := s.answer fn (.algorithms true true)
/-- GET_DIGESTS: the digest of the certificate chain, which the spec does not give. -/
def execGetDigests (fn : Nat) (s : State) : Outcome := s.answer fn (.digests (Config.digest 8))
/-- GET_CERTIFICATE. -/
def execGetCertificate (fn : Nat) (s : State) : Outcome := s.answer fn (.certificate (Config.digest 9))
/-- The measurements: the six firmware digests in the order of the dies, and the configuration record's digest. -/
def measurements : List (Nat × BitVec 384) := (List.range 7).map fun i => (i + 1, Config.digest (i + 1))
/-- CHALLENGE: the signature over the transcript is a free value. -/
def execChallenge (fn : Nat) (s : State) : Outcome :=
  { s with freeCtr := s.freeCtr + 1 }.answer fn (.challengeAuth (Config.digest 10) (Config.freeValue s.freeCtr))
/-- GET_MEASUREMENTS: both signatures are free values. -/
def execGetMeasurements (fn : Nat) (s : State) : Outcome :=
  { s with freeCtr := s.freeCtr + 2 }.answer fn (.measurements measurements (Config.freeValue s.freeCtr) (Config.freeValue (s.freeCtr + 1)))
/-- THERMAL_THROTTLE: the arithmetic clock goes down by 50 MHz; it does not stop. -/
def execThermalThrottle (s : State) : Outcome :=
  let f := fld (s.dreg .pwrStat) 0 16
  .next (if 50 < f then s.setDreg .pwrStat (setFld (s.dreg .pwrStat) 0 16 (f - 50)) else s)

end Sys2Proof.Machine
end

