-- ==== Sys2Proof/Machine/Integer.lean ====
section
/-! DEFINITION. Integer and bit operations, predicates and addresses (R201 to R216). -/
namespace Sys2Proof.Machine

/-! ## Moves (R203, R204, R368) -/

/-- A bare copy of SA to DST that copies poison with the data (R203, R368); poison into a queue register is consumed. -/
def execMov (f : VF) (s : State) : Outcome :=
  s.issue (.mov f) fun lanes s0 =>
    let p := s0.cur
    match (Instr.mov f).view with
    | none => .done s0
    | some v =>
      let w := Kind.wide v.shape.dst
      let from_ := if f.b.isLit then f.b else f.a
      let pois := lanes.filter fun l => s0.opPoisoned p l w from_
      if f.dst.isQ && !pois.isEmpty then .trap s0 0x21 lanes 0 0
      else match s0.fetchField p lanes w from_ with
      | none => blockOperand s0 lanes
      | some (a, s) =>
        match s0.results s p v a with
        | .done s => .done (pois.foldl (fun s l => s.poisonOp p l w f.dst) s)
        | r => r
/-- MOVS.get: predicates into a register (R204). -/
def execMovsGet (f : VF) (s : State) : Outcome :=
  s.lanewise (.movsGet f) (fun _ _ _ _ => none) fun s p _ _ l => (BitVec.ofNat 64 ((s.thread p l).p.toNat + 128), 0)
/-- MOVS.set: chosen predicates from a register (R204). -/
def execMovsSet (f : VF) (s : State) : Outcome :=
  s.issue (.movsSet f) fun lanes s0 =>
    let p := s0.cur
    match (Instr.movsSet f).view with
    | none => .done s0
    | some v =>
      match s0.sources p v lanes with
      | none => blockOperand s0 lanes
      | some (src, s) =>
        .done (lanes.foldl (fun s l => s.modThread p l fun t =>
          let a : BitVec 7 := (src l).1.setWidth 7
          let m : BitVec 7 := (src l).2.1.setWidth 7
          { t with p := (t.p &&& ~~~ m) ||| (a &&& m) }) s)

/-! ## Arithmetic (R205, R206) -/

/-- The exact SA and SB values after NA and NB (R201). -/
def VF.ia (f : VF) (a : DWord) : Int := if f.na then -(ival f.ty a) else ival f.ty a
def VF.ib (f : VF) (b : DWord) : Int := if f.nb then -(ival f.ty b) else ival f.ty b

def execIadd (f : VF) (s : State) : Outcome := s.intLane (.iadd f) fun a b _ => deliver f.ty f.sat (VF.ia f a + VF.ib f b)
def execIsub (f : VF) (s : State) : Outcome := s.intLane (.isub f) fun a b _ => deliver f.ty f.sat (VF.ia f a - VF.ib f b)
def execImul (f : VF) (s : State) : Outcome := s.intLane (.imul f) fun a b _ => deliver f.ty f.sat (VF.ia f a * VF.ib f b)
/-- The high half of the exact product (R205). -/
def execImulh (f : VF) (s : State) : Outcome :=
  s.intLane (.imulh f) fun a b _ => deliver f.ty false ((VF.ia f a * VF.ib f b) / 2 ^ f.ty.width)
def execImad (f : VF) (s : State) : Outcome :=
  s.intLane (.imad f) fun a b c => deliver f.ty f.sat (VF.ia f a * VF.ib f b + ival f.ty c)
/-- The 64-bit type of IMADW (R205). -/
def wideOf (t : Ty) : Ty := if t = .s32 then .s64 else .n64
def execImadw (f : VF) (s : State) : Outcome :=
  s.intLane (.imadw f) fun a b c => deliver (wideOf f.ty) f.sat (VF.ia f a * VF.ib f b + ival (wideOf f.ty) c)
def execImin (f : VF) (s : State) : Outcome := s.intLane (.imin f) fun a b _ => deliver f.ty false (min (VF.ia f a) (VF.ib f b))
def execImax (f : VF) (s : State) : Outcome := s.intLane (.imax f) fun a b _ => deliver f.ty false (max (VF.ia f a) (VF.ib f b))
def execIclamp (f : VF) (s : State) : Outcome :=
  s.intLane (.iclamp f) fun a b c => deliver f.ty false (min (max (VF.ia f a) (VF.ib f b)) (ival f.ty c))
def execIabs (f : VF) (s : State) : Outcome := s.intLane (.iabs f) fun a _ _ => deliver f.ty f.sat ((VF.ia f a).natAbs : Int)

/-! ## Logic and shifts (R207, R208) -/

def execAnd (f : VF) (s : State) : Outcome := s.intLane (.and f) fun a b _ => a &&& b
def execOr (f : VF) (s : State) : Outcome := s.intLane (.or f) fun a b _ => a ||| b
def execXor (f : VF) (s : State) : Outcome := s.intLane (.xor f) fun a b _ => a ^^^ b
def execAndn (f : VF) (s : State) : Outcome := s.intLane (.andn f) fun a b _ => a &&& ~~~ b
/-- The shift amount: SB read as .n32. -/
def shiftBy (b : DWord) : Nat := b.toNat % 2 ^ 32
def execShl (f : VF) (s : State) : Outcome :=
  s.intLane (.shl f) fun a b _ => let w := f.ty.width
    if shiftBy b < w then BitVec.ofNat 64 ((a.toNat <<< shiftBy b) % 2 ^ w) else 0
def execShr (f : VF) (s : State) : Outcome :=
  s.intLane (.shr f) fun a b _ => let w := f.ty.width
    if shiftBy b < w then BitVec.ofNat 64 ((a.toNat % 2 ^ w) >>> shiftBy b) else 0
def execSar (f : VF) (s : State) : Outcome :=
  s.intLane (.sar f) fun a b _ => deliver f.ty false (ival f.ty a / 2 ^ min (shiftBy b) f.ty.width)
/-- The bits of an indexed choice, `n` of them. -/
def bitGen (n : Nat) (f : Nat → Bool) : Nat := (List.range n).foldl (fun m i => m + (f i).toNat * 2 ^ i) 0
/-- SHF: a 32-bit window of the pool c:a (R208). -/
def shfVal (sub : Nat) (a b c : DWord) : Nat :=
  let pool := a.toNat % 2 ^ 32 + (c.toNat % 2 ^ 32) * 2 ^ 32
  let n := shiftBy b
  bitGen 32 fun i =>
    match sub with
    | 0 => pool.testBit ((n + i) % 64)
    | 1 => pool.testBit (min n 64 + i)
    | 2 => if min n 64 + i ≤ 63 then pool.testBit (min n 64 + i) else pool.testBit 63
    | _ => if min n 64 ≤ 32 + i then pool.testBit (32 + i - min n 64) else false
def execShf (f : VF) (s : State) : Outcome := s.intLane (.shf f) fun a b c => BitVec.ofNat 64 (shfVal f.sub.toNat a b c)

/-! ## Bit fields, counts and bytes (R209 to R211) -/

/-- BFE (R209). -/
def bfeVal (t : Ty) (a b c : DWord) : DWord :=
  let pos := b.toNat % 256
  let len := min (c.toNat % 256) 32
  let fill := t == .s32 && a.getLsbD 31
  let v := bitGen len fun i => if pos + i ≤ 31 then a.getLsbD (pos + i) else fill
  if len = 0 then 0
  else if t = .s32 ∧ 2 ^ (len - 1) ≤ v then BitVec.ofNat 64 (v + 2 ^ 32 - 2 ^ len) else BitVec.ofNat 64 v
def execBfe (f : VF) (s : State) : Outcome := s.intLane (.bfe f) (bfeVal f.ty)
/-- BFI (R209). -/
def bfiVal (a b c : DWord) : DWord :=
  let pos := c.toNat % 256
  let len := min (c.toNat / 256 % 256) 32
  let m := bitGen 32 fun i => pos ≤ i && i < pos + len
  BitVec.ofNat 64 ((a.toNat % 2 ^ 32 &&& (2 ^ 32 - 1 - m)) ||| ((b.toNat <<< pos) &&& m))
def execBfi (f : VF) (s : State) : Outcome := s.intLane (.bfi f) bfiVal
def execPopc (f : VF) (s : State) : Outcome :=
  s.intLane (.popc f) fun a _ _ => BitVec.ofNat 64 ((List.range f.ty.width).filter a.getLsbD).length
def execClz (f : VF) (s : State) : Outcome :=
  s.intLane (.clz f) fun a _ _ =>
    BitVec.ofNat 64 (((List.range f.ty.width).find? fun i => a.getLsbD (f.ty.width - 1 - i)).getD f.ty.width)
def execBrev (f : VF) (s : State) : Outcome :=
  s.intLane (.brev f) fun a _ _ => BitVec.ofNat 64 (bitGen f.ty.width fun i => a.getLsbD (f.ty.width - 1 - i))
/-- PRMT: one route code per result byte (R210). -/
def prmtVal (a b c : DWord) : DWord :=
  let pool := a.toNat % 2 ^ 32 + (c.toNat % 2 ^ 32) * 2 ^ 32
  let byte (i : Nat) : Nat := pool / 256 ^ i % 256
  let step (acc : Nat × Nat) (i : Nat) : Nat × Nat :=
    let f := b.toNat / 16 ^ i % 16
    let v := if f ≤ 7 then byte f
      else match f with
        | 8 => 0 | 9 => 255 | 10 => if acc.2.testBit 7 then 255 else 0 | 11 => acc.2
        | _ => bitGen 8 fun j => (byte (f - 12)).testBit (7 - j)
    (acc.1 + v * 256 ^ i, v)
  BitVec.ofNat 64 ((List.range 4).foldl step (0, 0)).1
def execPrmt (f : VF) (s : State) : Outcome := s.intLane (.prmt f) prmtVal
/-- IDP4 (R211): packed products, their exact sum and c, delivered as .s32. -/
def idpVal (sub : BitVec 4) (sat : Bool) (a b c : DWord) : DWord :=
  let w := if sub.getLsbD 2 then 4 else 8
  let el (x : DWord) (i : Nat) (sg : Bool) : Int := if sg then sfld x (w * i) w else (fld x (w * i) w : Int)
  deliver .s32 sat ((List.range (32 / w)).foldl (fun acc i => acc + el a i (sub.getLsbD 0) * el b i (sub.getLsbD 1)) (ival .s32 c))
def execIdp4 (f : VF) (s : State) : Outcome := s.intLane (.idp4 f) (idpVal f.sub f.sat)

/-! ## Compare and select (R212 to R214) -/

/-- The integer compares of R168. -/
def icmp (sub : Nat) (a b : Int) : Bool :=
  match sub with | 0 => a == b | 1 => a != b | 2 => decide (a < b) | 3 => decide (a ≤ b) | 4 => decide (b < a) | _ => decide (b ≤ a)
def ofBool (b : Bool) : DWord := if b then 1 else 0
def execIset (f : VF) (s : State) : Outcome := s.intLane (.iset f) fun a b _ => ofBool (icmp f.sub.toNat (VF.ia f a) (VF.ib f b))
def execIsel (f : VF) (s : State) : Outcome := s.intLane (.isel f) fun a b c => if c != 0 then a else b
/-- PLOG: the table's bit 4·pa + 2·pb + pc (R214). -/
def execPlog (f : VF) (table : BitVec 8) (s : State) : Outcome :=
  s.intLane (.plog f table) fun a b c => ofBool (table.getLsbD (4 * (a != 0).toNat + 2 * (b != 0).toNat + (c != 0).toNat))

/-! ## Addresses (R215, R216) -/

def execLea (f : VF) (s : State) : Outcome :=
  s.intLane (.lea f) fun a b c => a + BitVec.ofInt 64 (VF.ib f b * 2 ^ (c.toNat % 64))
/-- Whether a place is outside its ranges or outside the cluster grid, seen from logical core `core` = 16·y + x (R18, R77). -/
def placeBad (core : Nat) (dx dy : Int) : Bool :=
  let x : Int := (core % 16 : Nat) + dx
  let y : Int := (core / 16 : Nat) + dy
  dx < -15 || 15 < dx || dy < -11 || 11 < dy || x < 0 || 15 < x || y < 0 || 11 < y
/-- TRAP_AUX of a place fault (R216). -/
def placeAux (dx dy : Int) : DWord := BitVec.ofNat 64 ((dx % 256).toNat + 256 * (dy % 256).toNat)
def execPlace (f : VF) (s : State) : Outcome :=
  let d (x : DWord) : Int := ival .s32 x
  s.lanewise (.place f)
    (fun s p lanes src =>
      let core := (s.team p.team).id.core
      match lanes.filter (fun l => placeBad core (d (src l).2.1) (d (src l).2.2)) with
      | b :: bs => some (0x13, b :: bs, 0, placeAux (d (src b).2.1) (d (src b).2.2))
      | [] =>
        match lanes.filter (fun l => 0x30000 ≤ (src l).1.toNat % 2 ^ 32) with
        | b :: bs => some (0x0D, b :: bs, (src b).1, 0)
        | [] => none)
    fun _ _ _ src l =>
      let (off, dx, dy) := src l
      (BitVec.ofNat 64 (dy.toNat % 32 * 2 ^ 23 + dx.toNat % 32 * 2 ^ 18 + off.toNat % 2 ^ 18), 0)

end Sys2Proof.Machine
end

