-- ==== Sys2Proof/Machine/Lane.lean ====
section
/-! DEFINITION. Operations across the lanes of one issue group: SHFL, VOTE and REDUX (R217 to R219). -/
namespace Sys2Proof.Machine

/-- The source lane of SHFL (R218). -/
def shflFrom (sub ws l b : Nat) : Nat :=
  let seg := l / ws * ws
  match sub with
  | 0 => seg + b % ws
  | 1 => seg + (l - seg + b) % ws
  | 2 => seg + ws - 1 - (l - seg)
  | _ => l ^^^ (b % ws)
/-- The segment width: c[5:0] down to a power of two, at most 32, 0 giving 32. -/
def shflWidth (c : DWord) : Nat := let n := c.toNat % 64; if n = 0 then 32 else min 32 (2 ^ n.log2)
/-- The values that the members of an issue group supply to SHFL, each whatever its guard; a queue register pops an entry for each (R165, R218). -/
def State.supplied (s : State) (p : Party) (r : Run) (lanes : List Nat) (wide : Bool) (o : Operand) : Option (List (Nat × DWord) × State) :=
  if lanes.isEmpty then some ([], s) else s.fetchField p (bitsOf r.lanes) wide o
/-- SHFL (R218): the source lane's value, with its poison (R368); a lane of the segment outside the issue group gives the lane its own. -/
def execShfl (f : VF) (s : State) : Outcome :=
  s.issue (.shfl f) fun lanes s0 =>
    let p := s0.cur
    match (Instr.shfl f).view, (s0.group p).run with
    | some v, some r =>
      let w := Kind.wide v.shape.dst
      (match (s0.supplied p r lanes w v.a).bind fun a => (a.2.sources p { v with a := .none } lanes).map fun b => (a.1, b) with
       | none => blockOperand s0 lanes
       | some (vals, src, s) =>
         let val (l : Nat) : DWord := laneVal vals l
         let from_ (l : Nat) : Nat :=
           let k := shflFrom f.sub.toNat (shflWidth (src l).2.2) l ((src l).2.1.toNat % 2 ^ 32)
           if r.lanes.getLsbD k then k else l
         let used (o : Operand) : Bool := lanes.any fun l => s0.opPoisoned p l false o
         if used f.b || used f.c then .trap s0 0x21 lanes 0 0
         else match s0.results s p v (lanes.map fun l => (l, val (from_ l))) with
         | .done s => .done (lanes.foldl (fun s l => if s0.opPoisoned p (from_ l) w f.a then s.poisonOp p l w f.dst else s) s)
         | r => r)
    | _, _ => .done s0

/-- What VOTE gives its participating lanes, from their votes (or values) in ascending lane order (R218). -/
def voteVal (sub : Nat) (vs : List (Nat × DWord)) : DWord :=
  let yes := vs.filter (·.2 != 0)
  match sub with
  | 0 => ofBool (yes.length == vs.length)
  | 1 => ofBool (!yes.isEmpty)
  | 2 => BitVec.ofNat 64 (ofBits 32 (yes.map (·.1))).toNat
  | 3 => BitVec.ofNat 64 yes.length
  | 4 => BitVec.ofNat 64 ((yes.head?.map (·.1)).getD 32)
  | _ => ofBool (vs.all fun x => x.2 == (vs.headD (0, 0)).2)
def execVote (f : VF) (s : State) : Outcome :=
  s.lanewise (.vote f) (fun _ _ _ _ => none) fun _ _ lanes src _ => (voteVal f.sub.toNat (lanes.map fun l => (l, (src l).1)), 0)

/-- What REDUX gives lane `l` (R219). -/
def reduxVal (sub : Nat) (t : Ty) (sat : Bool) (vs : List (Nat × DWord)) (l : Nat) : DWord :=
  let sum (q : List (Nat × DWord)) : Int := q.foldl (fun m x => m + ival t x.2) 0
  let first : DWord := (vs.headD (0, 0)).2
  match sub with
  | 0 => deliver t sat (sum vs)
  | 1 => deliver t false (vs.foldl (fun m x => min m (ival t x.2)) (ival t first))
  | 2 => deliver t false (vs.foldl (fun m x => max m (ival t x.2)) (ival t first))
  | 3 => vs.foldl (fun m x => m &&& x.2) first
  | 4 => vs.foldl (fun m x => m ||| x.2) 0
  | 5 => vs.foldl (fun m x => m ^^^ x.2) 0
  | 6 => deliver t sat (sum (vs.filter (·.1 ≤ l)))
  | _ => deliver t sat (sum (vs.filter (·.1 < l)))
def execRedux (f : VF) (s : State) : Outcome :=
  s.lanewise (.redux f) (fun _ _ _ _ => none) fun _ _ lanes src l => (reduxVal f.sub.toNat f.ty f.sat (lanes.map fun k => (k, (src k).1)) l, 0)

end Sys2Proof.Machine
end

