-- ==== Sys2Proof/Machine/Dispatch.lean ====
section
/-! DEFINITION. One arm per instruction and device step: each calls its meaning, or is rejected by name. -/
namespace Sys2Proof.Machine

/-- What an instruction or a device step does. -/
def exec (i : Instr) (s : State) : Host.Outcome State Fault Refusal :=
  match i with
  | .nop f => Sys2Proof.Machine.execNop f s
  | .bra g off => Sys2Proof.Machine.execBra g off s
  | .brx f => Sys2Proof.Machine.execBrx f s
  | .call g dst off => Sys2Proof.Machine.execCall g dst off s
  | .callx f => Sys2Proof.Machine.execCallx f s
  | .ret f => Sys2Proof.Machine.execRet f s
  | .exit f => Sys2Proof.Machine.execExit f s
  | .trap f => Sys2Proof.Machine.execTrap f s
  | .tret f => Sys2Proof.Machine.execTret f s
  | .trapf f => Sys2Proof.Machine.execTrapf f s
  | .brk f => Sys2Proof.Machine.execBrk f s
  | .sleep f => Sys2Proof.Machine.execSleep f s
  | .sleepExpiry p lane => Sys2Proof.Machine.execSleepExpiry p lane s
  | .wait f => Sys2Proof.Machine.execWait f s
  | .waittl f => Sys2Proof.Machine.execWaittl f s
  | .waitct f => Sys2Proof.Machine.execWaitct f s
  | .waitEnd p lane => Sys2Proof.Machine.execWaitEnd p lane s
  | .phase f => Sys2Proof.Machine.execPhase f s
  | .bar f => Sys2Proof.Machine.execBar f s
  | .tbinit f => Sys2Proof.Machine.execTbinit f s
  | .tbexp f => Sys2Proof.Machine.execTbexp f s
  | .tbarv f => Sys2Proof.Machine.execTbarv f s
  | .tbwait f => Sys2Proof.Machine.execTbwait f s
  | .barrierNetworkClock => Sys2Proof.Machine.execBarrierNetworkClock s
  | .xfer f ch snd rcv => Sys2Proof.Machine.execXfer f ch snd rcv s
  | .roleq f src dst => Sys2Proof.Machine.execRoleq f src dst s
  | .gangset f => Sys2Proof.Machine.execGangset f s
  | .driftset f => Sys2Proof.Machine.execDriftset f s
  | .kset f => Sys2Proof.Machine.execKset f s
  | .spawn f => Sys2Proof.Machine.execSpawn f s
  | .launch f => Sys2Proof.Machine.execLaunch f s
  | .mov f => Sys2Proof.Machine.execMov f s
  | .movsGet f => Sys2Proof.Machine.execMovsGet f s
  | .movsSet f => Sys2Proof.Machine.execMovsSet f s
  | .iadd f => Sys2Proof.Machine.execIadd f s
  | .isub f => Sys2Proof.Machine.execIsub f s
  | .imul f => Sys2Proof.Machine.execImul f s
  | .imulh f => Sys2Proof.Machine.execImulh f s
  | .imad f => Sys2Proof.Machine.execImad f s
  | .imadw f => Sys2Proof.Machine.execImadw f s
  | .imin f => Sys2Proof.Machine.execImin f s
  | .imax f => Sys2Proof.Machine.execImax f s
  | .iclamp f => Sys2Proof.Machine.execIclamp f s
  | .iabs f => Sys2Proof.Machine.execIabs f s
  | .and f => Sys2Proof.Machine.execAnd f s
  | .or f => Sys2Proof.Machine.execOr f s
  | .xor f => Sys2Proof.Machine.execXor f s
  | .andn f => Sys2Proof.Machine.execAndn f s
  | .shl f => Sys2Proof.Machine.execShl f s
  | .shr f => Sys2Proof.Machine.execShr f s
  | .sar f => Sys2Proof.Machine.execSar f s
  | .shf f => Sys2Proof.Machine.execShf f s
  | .bfe f => Sys2Proof.Machine.execBfe f s
  | .bfi f => Sys2Proof.Machine.execBfi f s
  | .popc f => Sys2Proof.Machine.execPopc f s
  | .clz f => Sys2Proof.Machine.execClz f s
  | .brev f => Sys2Proof.Machine.execBrev f s
  | .prmt f => Sys2Proof.Machine.execPrmt f s
  | .iset f => Sys2Proof.Machine.execIset f s
  | .isel f => Sys2Proof.Machine.execIsel f s
  | .plog f table => Sys2Proof.Machine.execPlog f table s
  | .lea f => Sys2Proof.Machine.execLea f s
  | .place f => Sys2Proof.Machine.execPlace f s
  | .shfl f => Sys2Proof.Machine.execShfl f s
  | .vote f => Sys2Proof.Machine.execVote f s
  | .redux f => Sys2Proof.Machine.execRedux f s
  | .idp4 f => Sys2Proof.Machine.execIdp4 f s
  | .fadd f => Sys2Proof.Machine.execFadd f s
  | .fsub f => Sys2Proof.Machine.execFsub f s
  | .fmul f => Sys2Proof.Machine.execFmul f s
  | .ffma f => Sys2Proof.Machine.execFfma f s
  | .fmin f => Sys2Proof.Machine.execFmin f s
  | .fmax f => Sys2Proof.Machine.execFmax f s
  | .fset f => Sys2Proof.Machine.execFset f s
  | .fclass f => Sys2Proof.Machine.execFclass f s
  | .frcp f => Sys2Proof.Machine.execFrcp f s
  | .frsq f => Sys2Proof.Machine.execFrsq f s
  | .fsqrt f => Sys2Proof.Machine.execFsqrt f s
  | .fdiv f => Sys2Proof.Machine.execFdiv f s
  | .fexp2 f => Sys2Proof.Machine.execFexp2 f s
  | .flog2 f => Sys2Proof.Machine.execFlog2 f s
  | .fsin f => Sys2Proof.Machine.execFsin f s
  | .fcos f => Sys2Proof.Machine.execFcos f s
  | .ftanh f => Sys2Proof.Machine.execFtanh f s
  | .frnd f => Sys2Proof.Machine.execFrnd f s
  | .fscale f => Sys2Proof.Machine.execFscale f s
  | .fcvt f => Sys2Proof.Machine.execFcvt f s
  | .i2f f => Sys2Proof.Machine.execI2f f s
  | .f2i f => Sys2Proof.Machine.execF2i f s
  | .hfma2 f => Sys2Proof.Machine.execHfma2 f s
  | .fdot2 f => Sys2Proof.Machine.execFdot2 f s
  | .fpack f => Sys2Proof.Machine.execFpack f s
  | .funpk f => Sys2Proof.Machine.execFunpk f s
  | .lds f => Sys2Proof.Machine.execLds f s
  | .sts f => Sys2Proof.Machine.execSts f s
  | .atoms f => Sys2Proof.Machine.execAtoms f s
  | .ldsr f => Sys2Proof.Machine.execLdsr f s
  | .stsr f => Sys2Proof.Machine.execStsr f s
  | .atomsr f => Sys2Proof.Machine.execAtomsr f s
  | .mapr f => Sys2Proof.Machine.execMapr f s
  | .unmapr f => Sys2Proof.Machine.execUnmapr f s
  | .flushr f => Sys2Proof.Machine.execFlushr f s
  | .mapLineFill team map line => Sys2Proof.Machine.execMapLineFill team map line s
  | .atomg f => Sys2Proof.Machine.execAtomg f s
  | .sld f => Sys2Proof.Machine.execSld f s
  | .sst f => Sys2Proof.Machine.execSst f s
  | .atomf f => Sys2Proof.Machine.execAtomf f s
  | .ldref f => Sys2Proof.Machine.execLdref f s
  | .stref f => Sys2Proof.Machine.execStref f s
  | .ldh f => Sys2Proof.Machine.execLdh f s
  | .sth f => Sys2Proof.Machine.execSth f s
  | .atomh f => Sys2Proof.Machine.execAtomh f s
  | .newobj f => Sys2Proof.Machine.execNewobj f s
  | .pin f => Sys2Proof.Machine.execPin f s
  | .unpin f => Sys2Proof.Machine.execUnpin f s
  | .refeq f => Sys2Proof.Machine.execRefeq f s
  | .cpy f ctx => Sys2Proof.Machine.execCpy f ctx s
  | .cpyg f ctx => Sys2Proof.Machine.execCpyg f ctx s
  | .cpys f ctx => Sys2Proof.Machine.execCpys f ctx s
  | .cpyw f ctx => Sys2Proof.Machine.execCpyw f ctx s
  | .chain f ctx => Sys2Proof.Machine.execChain f ctx s
  | .cpyx f ctx => Sys2Proof.Machine.execCpyx f ctx s
  | .coll f ctx => Sys2Proof.Machine.execColl f ctx s
  | .recordAccept team ctx => Sys2Proof.Machine.execRecordAccept team ctx s
  | .recordChunkDelivered team ctx recno => Sys2Proof.Machine.execRecordChunkDelivered team ctx recno s
  | .recordComplete team ctx recno => Sys2Proof.Machine.execRecordComplete team ctx recno s
  | .chainRecordPoll team ctx => Sys2Proof.Machine.execChainRecordPoll team ctx s
  | .skip team ctx => Sys2Proof.Machine.execSkip team ctx s
  | .abort team ctx => Sys2Proof.Machine.execAbort team ctx s
  | .cdres f tag => Sys2Proof.Machine.execCdres f tag s
  | .cdrel f tag => Sys2Proof.Machine.execCdrel f tag s
  | .cdpush f sz tag => Sys2Proof.Machine.execCdpush f sz tag s
  | .streamAppend team tag => Sys2Proof.Machine.execStreamAppend team tag s
  | .mma f acc aty bty => Sys2Proof.Machine.execMma f acc aty bty s
  | .mmag f acc aty bty => Sys2Proof.Machine.execMmag f acc aty bty s
  | .mmaSlice cluster core => Sys2Proof.Machine.execMmaSlice cluster core s
  | .tileOpComplete cluster core => Sys2Proof.Machine.execTileOpComplete cluster core s
  | .accrd f acc ty rnd => Sys2Proof.Machine.execAccrd f acc ty rnd s
  | .accwr f acc ty => Sys2Proof.Machine.execAccwr f acc ty s
  | .accst f acc ty sf => Sys2Proof.Machine.execAccst f acc ty sf s
  | .accrel f acc => Sys2Proof.Machine.execAccrel f acc s
  | .accSlotCleared cluster core slot => Sys2Proof.Machine.execAccSlotCleared cluster core slot s
  | .vxm f => Sys2Proof.Machine.execVxm f s
  | .vxmPass team => Sys2Proof.Machine.execVxmPass team s
  | .vxmcfg f wfmt => Sys2Proof.Machine.execVxmcfg f wfmt s
  | .salloc f => Sys2Proof.Machine.execSalloc f s
  | .sfree f => Sys2Proof.Machine.execSfree f s
  | .sprio f => Sys2Proof.Machine.execSprio f s
  | .prim f => Sys2Proof.Machine.execPrim f s
  | .exprt f kill => Sys2Proof.Machine.execExprt f kill s
  | .hevac f => Sys2Proof.Machine.execHevac f s
  | .movsr f => Sys2Proof.Machine.execMovsr f s
  | .movsw f => Sys2Proof.Machine.execMovsw f s
  | .tlbinvAll f => Sys2Proof.Machine.execTlbinvAll f s
  | .tlbinvPage f => Sys2Proof.Machine.execTlbinvPage f s
  | .rng f => Sys2Proof.Machine.execRng f s
  | .perfc f => Sys2Proof.Machine.execPerfc f s
  | .clauseFetch p => Sys2Proof.Machine.execClauseFetch p s
  | .issueClock cluster core => Sys2Proof.Machine.execIssueClock cluster core s
  | .registerWriteback team ix => Sys2Proof.Machine.execRegisterWriteback team ix s
  | .pooledAtomic team ix => Sys2Proof.Machine.execPooledAtomic team ix s
  | .drain cluster ix out => Sys2Proof.Machine.execDrain cluster ix out s
  | .combine cluster ix out => Sys2Proof.Machine.execCombine cluster ix out s
  | .spillTile x handle stack => Sys2Proof.Machine.execSpillTile x handle stack s
  | .tileRefill x handle t => Sys2Proof.Machine.execTileRefill x handle t s
  | .surfaceFramesFreed x handle => Sys2Proof.Machine.execSurfaceFramesFreed x handle s
  | .rasterise x stack => Sys2Proof.Machine.execRasterise x stack s
  | .fragmentTeamLaunch x stack cluster => Sys2Proof.Machine.execFragmentTeamLaunch x stack cluster s
  | .exportApply x handle px py => Sys2Proof.Machine.execExportApply x handle px py s
  | .relCtlStart x ctl => Sys2Proof.Machine.execRelCtlStart x ctl s
  | .flipAck x cluster core => Sys2Proof.Machine.execFlipAck x cluster core s
  | .relocateObject x die => Sys2Proof.Machine.execRelocateObject x die s
  | .rtCtlCopy fn => Sys2Proof.Machine.execRtCtlCopy fn s
  | .rtCtlCommit fn => Sys2Proof.Machine.execRtCtlCommit fn s
  | .regionTableDrained => Sys2Proof.Machine.execRegionTableDrained s
  | .ptRootWrite x v => Sys2Proof.Machine.execPtRootWrite x v s
  | .ptGenWrite x v => Sys2Proof.Machine.execPtGenWrite x v s
  | .srfCarveWrite fn stack v => Sys2Proof.Machine.execSrfCarveWrite fn stack v s
  | .carveShrinkDone stack => Sys2Proof.Machine.execCarveShrinkDone stack s
  | .surfQuotaWrite x v => Sys2Proof.Machine.execSurfQuotaWrite x v s
  | .ctOffWrite die v => Sys2Proof.Machine.execCtOffWrite die v s
  | .registerWrite fn off wide v => Sys2Proof.Machine.execRegisterWrite fn off wide v s
  | .hsemTake fn n => Sys2Proof.Machine.execHsemTake fn n s
  | .hsemGive fn n => Sys2Proof.Machine.execHsemGive fn n s
  | .cqTailDoorbell fn q v => Sys2Proof.Machine.execCqTailDoorbell fn q v s
  | .queueEntryNop q => Sys2Proof.Machine.execQueueEntryNop q s
  | .queueEntryLaunch q => Sys2Proof.Machine.execQueueEntryLaunch q s
  | .queueEntryTlbInvalidate q => Sys2Proof.Machine.execQueueEntryTlbInvalidate q s
  | .queueEntryFaultReplay q => Sys2Proof.Machine.execQueueEntryFaultReplay q s
  | .queueEntrySignal q => Sys2Proof.Machine.execQueueEntrySignal q s
  | .queueEntryWait q => Sys2Proof.Machine.execQueueEntryWait q s
  | .queueEntryReserved q => Sys2Proof.Machine.execQueueEntryReserved q s
  | .queueRingFault q => Sys2Proof.Machine.execQueueRingFault q s
  | .replayRelease x => Sys2Proof.Machine.execReplayRelease x s
  | .ready x gen mem => Sys2Proof.Machine.execReady x gen mem s
  | .refuse x gen mem => Sys2Proof.Machine.execRefuse x gen mem s
  | .go x gen tstart => Sys2Proof.Machine.execGo x gen tstart s
  | .tstartReached x gen => Sys2Proof.Machine.execTstartReached x gen s
  | .startBarrierTimeout x gen => Sys2Proof.Machine.execStartBarrierTimeout x gen s
  | .startAbort x gen => Sys2Proof.Machine.execStartAbort x gen s
  | .unitPlace cluster => Sys2Proof.Machine.execUnitPlace cluster s
  | .unitSteal cluster => Sys2Proof.Machine.execUnitSteal cluster s
  | .thermalSample cluster core temp droops => Sys2Proof.Machine.execThermalSample cluster core temp droops s
  | .teamEnd team => Sys2Proof.Machine.execTeamEnd team s
  | .gridRetire x gen => Sys2Proof.Machine.execGridRetire x gen s
  | .errorReport x gen cause => Sys2Proof.Machine.execErrorReport x gen cause s
  | .taskEvaluate x cluster ix => Sys2Proof.Machine.execTaskEvaluate x cluster ix s
  | .taskRun x cluster => Sys2Proof.Machine.execTaskRun x cluster s
  | .steepEnd team group => Sys2Proof.Machine.execSteepEnd team group s
  | .dbgHalt fn x => Sys2Proof.Machine.execDbgHalt fn x s
  | .dbgResume fn x => Sys2Proof.Machine.execDbgResume fn x s
  | .teamParked x => Sys2Proof.Machine.execTeamParked x s
  | .preStop fn x => Sys2Proof.Machine.execPreStop fn x s
  | .cutDrainDone x => Sys2Proof.Machine.execCutDrainDone x s
  | .preResume fn x => Sys2Proof.Machine.execPreResume fn x s
  | .restorePlace x => Sys2Proof.Machine.execRestorePlace x s
  | .memoryError addr symbols => Sys2Proof.Machine.execMemoryError addr symbols s
  | .rollback x gen => Sys2Proof.Machine.execRollback x gen s
  | .selfTest u => Sys2Proof.Machine.execSelfTest u s
  | .iftStart fn v => Sys2Proof.Machine.execIftStart fn v s
  | .inFieldTest => Sys2Proof.Machine.execInFieldTest s
  | .dieLost d => Sys2Proof.Machine.execDieLost d s
  | .dieCtlOff fn v => Sys2Proof.Machine.execDieCtlOff fn v s
  | .evacuateStack => Sys2Proof.Machine.execEvacuateStack s
  | .ckptStart fn => Sys2Proof.Machine.execCkptStart fn s
  | .ckptRestore fn => Sys2Proof.Machine.execCkptRestore fn s
  | .ckptFinish ok => Sys2Proof.Machine.execCkptFinish ok s
  | .hostLinkDown fn => Sys2Proof.Machine.execHostLinkDown fn s
  | .hsemLinkRelease fn => Sys2Proof.Machine.execHsemLinkRelease fn s
  | .peerRequest src addr wr at_ ty v cmp => Sys2Proof.Machine.execPeerRequest src addr wr at_ ty v cmp s
  | .burzilPortDown port => Sys2Proof.Machine.execBurzilPortDown port s
  | .requestUndeliverable p lane addr => Sys2Proof.Machine.execRequestUndeliverable p lane addr s
  | .collAbort fn x grp => Sys2Proof.Machine.execCollAbort fn x grp s
  | .abortToken x grp attempt => Sys2Proof.Machine.execAbortToken x grp attempt s
  | .collectivePacket x grp attempt addr v => Sys2Proof.Machine.execCollectivePacket x grp attempt addr v s
  | .syncMessage offs => Sys2Proof.Machine.execSyncMessage offs s
  | .flCtlEnable fn v => Sys2Proof.Machine.execFlCtlEnable fn v s
  | .frameStart => Sys2Proof.Machine.execFrameStart s
  | .scanOutFrame n => Sys2Proof.Machine.execScanOutFrame n s
  | .trustDieBoot => Sys2Proof.Machine.execTrustDieBoot s
  | .getVersion fn => Sys2Proof.Machine.execGetVersion fn s
  | .getCapabilities fn => Sys2Proof.Machine.execGetCapabilities fn s
  | .negotiateAlgorithms fn => Sys2Proof.Machine.execNegotiateAlgorithms fn s
  | .getDigests fn => Sys2Proof.Machine.execGetDigests fn s
  | .getCertificate fn => Sys2Proof.Machine.execGetCertificate fn s
  | .challenge fn => Sys2Proof.Machine.execChallenge fn s
  | .getMeasurements fn => Sys2Proof.Machine.execGetMeasurements fn s
  | .tmCmdGrant fn x slot => Sys2Proof.Machine.execTmCmdGrant fn x slot s
  | .tmCmdRevoke fn slot => Sys2Proof.Machine.execTmCmdRevoke fn slot s
  | .thermalThrottle => Sys2Proof.Machine.execThermalThrottle s
  | .forwardedLaunchPacket x gen pkt => Sys2Proof.Machine.execForwardedLaunchPacket x gen pkt s
  | .hostLinkTrained fn rate width => Sys2Proof.Machine.execHostLinkTrained fn rate width s
  | .hostAtomicopCompletion p lane ok => Sys2Proof.Machine.execHostAtomicopCompletion p lane ok s

end Sys2Proof.Machine
end

