-- ==== Sys2Proof/Machine/Step.lean ====
section
/-! DEFINITION. One step: the instruction of the next party in the issue slots, else the next device step of the agenda, else an issue clock of the next core (R145, R314). -/
namespace Sys2Proof.Machine

/-- One step of the machine. -/
def step (s : State) : Host.Outcome State Fault Refusal :=
  match s.slots with
  | p :: rest =>
    let s := { s with slots := rest, cur := p }
    match (s.group p).run with
    | none => .next s
    | some r =>
      if r.words.isEmpty then exec (.clauseFetch p) s
      else match decodeWord r.word with
      | .ok i => exec i s
      | .error b => .next (s.illegal p r b)
  | [] =>
    match s.agenda with
    | i :: rest => exec i { s with agenda := rest }
    | [] => exec (.issueClock (s.turnCore / 192) (s.turnCore % 192)) s

/-- The state with an instruction where `step` fetches its next one. -/
def State.withFetchWord (s : State) (nbits w : Nat) : State := s.placeWord (BitVec.ofNat 64 (w % 2 ^ nbits))

end Sys2Proof.Machine
end

