-- ==== Sys2Proof/Safety.lean ====
section
/-! DEFINITION. The terms that statements are made in: when an instruction acts, where it leaves its path, what an instruction that only computes may change, and what is true of every state of a safe run. -/
namespace Sys2Proof

/-- The fields of an instruction (R161). -/
def Instr.fv (i : Instr) : View := i.view.getD default

namespace Machine

/-! ## When an instruction acts -/

/-- The path that the party whose turn it is runs. -/
def State.path (s : State) : Run := (s.group s.cur).run.getD {}
/-- The lanes of the issue group whose guard holds (R160, R162). -/
def State.acting (s : State) (i : Instr) : List Nat := (bitsOf s.path.lanes).filter fun l => (s.thread s.cur l).guardOk i.fv.guard
/-- Nothing keeps the instruction from acting at this issue: the party runs a path; the checks of R179 that need the team pass; no register of
it waits for a write (R176); its class counter has room (R175); no store of its lanes' accumulators is still to perform (R127); the path does not run
ahead (R354); no lane that reads its sources consumes poison (R281, R368); the queue registers of a SYNC or SYS instruction have the entries that it pops and the room that it fills (R165). -/
def State.acts (s : State) (i : Instr) : Bool :=
  (s.group s.cur).run.isSome && i.view.isSome && (s.dynBad s.cur i.fv).isNone && !s.interlocked s.cur (bitsOf s.path.lanes) i.fv &&
  !s.counterFull s.cur i.fv && !s.storeHeld s.cur (bitsOf s.path.lanes) i.fv && !s.inSteep s.cur && !s.consumes s.cur (s.readers s.cur i.fv (s.acting i)) i.fv &&
  (!queueForm i.fv || ((s.noteTime s.cur i.fv (s.acting i)).pull s.cur i.fv (s.acting i)).isSome)
/-- The state that the effect of an acting instruction starts from: a `$time` that it reads is remembered (R22), and the queue registers of a
SYNC or SYS instruction are popped (R165). -/
def State.begun (s : State) (i : Instr) : State :=
  let t := s.noteTime s.cur i.fv (s.acting i)
  if queueForm i.fv then (t.pull s.cur i.fv (s.acting i)).getD t else t
/-- An effect's state with the instruction's pops undone (R165) and no `$time` returned (R22). -/
def State.unread (s : State) (i : Instr) (t : State) : State :=
  { (if queueForm i.fv then (s.noteTime s.cur i.fv (s.acting i)).unpop t s.cur else t) with dies := s.dies }
/-- The state that an instruction leaves which is to be issued again, at a save aside of its path (R238, R362). -/
def State.again (s : State) (i : Instr) (t : State) : State := (s.unread i t).heldOn s.cur i.fv

/-! ## Where it leaves its path -/

/-- After the effect: counted (R303), and the path goes on to the next slot or header (R173, R189), once a result for a caddy stream has entered it
(R259). -/
def State.performed (s0 : State) (i : Instr) (s : State) : State := (s.tally s0.cur (s0.acting i).length).leave s0.cur i.fv
/-- After the effect of a transfer: the listed lanes go where it says. -/
def State.gone (s0 : State) (i : Instr) (s : State) (dest : List (Nat × Spot)) : State :=
  (s.tally s0.cur (s0.acting i).length).advance s0.cur [] dest
/-- After an exact trap: the guarded lanes enter the handler, the others go on (R345, R348). -/
def State.trapped (s0 : State) (i : Instr) (s : State) (x : Trap) : State := (s.tally s0.cur 0).trapAt s0.cur (s0.acting i) x
/-- The trap of a slot: TRAP_PC is the slot's address (R345). -/
def State.slotTrap (s : State) (cause : Nat) (bad : List Nat) (addr aux : DWord) : Trap :=
  { cause, addr, aux, lanes := ofBits 32 bad, pc := s.path.slotPc, mid := s.path.here.2 }
/-- After a translation that failed: the TLBs forget the page (R36), and the trap names the address (R33). -/
def State.faulted (s0 : State) (i : Instr) (s : State) (a : Acc) (f : XFail) (bad : List Nat) (va : Nat) : State :=
  s0.trapped i (s.tlbRefresh (s.team s0.cur.team).coreNo (s.ctxOf s0.cur) va a) (s0.slotTrap (f.cause a) bad (BitVec.ofNat 64 va) f.aux)
/-- After an instruction whose lanes wait at it (R312). -/
def State.waiting (s0 : State) (i : Instr) (s : State) (ws : List (Nat × Wait)) : State :=
  ((s.tally s0.cur (s0.acting i).length).setWaits s0.cur ws).advance s0.cur (ws.map (·.1)) []

/-! ## Instructions that compute in each lane (R160) -/

/-- The flags of each lane raised. -/
def State.raised (s : State) (p : Party) (fl : List (Nat × BitVec 5)) : State :=
  fl.foldl (fun s r => if r.2 == 0#5 then s else s.modThread p r.1 (·.raise r.2)) s
/-- The state after results and flags: what each acting lane makes of the lanes’ sources, in DST. False when a queue register keeps the instruction
waiting: a source that has no entry yet, or a destination without room (R165). -/
def State.computed (s : State) (i : Instr) (f : Src → Nat → DWord × BitVec 5) : State × Bool :=
  match (s.begun i).sources s.cur i.fv (s.acting i) with
  | none => (s, false)
  | some (src, s1) =>
    let rs := (s.acting i).map fun l => (l, f src l)
    (s1.raised s.cur (rs.map fun r => (r.1, r.2.2))).storeField s.cur (Kind.wide i.fv.shape.dst) i.fv.dst (rs.map fun r => (r.1, r.2.1))
/-- A source as a lane reads it before the instruction, for an operand that is no queue register. -/
def State.srcs (s : State) (i : Instr) (l : Nat) : DWord × DWord × DWord :=
  ((s.begun i).readOp s.cur l (Kind.wide i.fv.shape.a) i.fv.a, (s.begun i).readOp s.cur l (Kind.wide i.fv.shape.b) i.fv.b,
   (s.begun i).readOp s.cur l (Kind.wide i.fv.shape.c) i.fv.c)

/-! ## Frames -/

/-- Whether a team has a member. -/
def Team.has (t : Team) (m : Member) : Bool :=
  match m with
  | .group i => decide (i < t.groups.length)
  | .engine r => (t.engines.find? fun g => g.role == r).isSome
/-- Whether a party belongs to the machine. -/
def State.has (s : State) (p : Party) : Bool := (s.team? p.team).isSome && (s.team p.team).has p.mem

/-- A register destination that is no queue register: what one lane's thread becomes. A destination that no thread holds leaves it. -/
def Thread.put (t : Thread) (o : Operand) (wide : Bool) (v : DWord) : Thread :=
  match o with
  | .g n => (t.gwrite n.toNat wide v).setGPoison n.toNat wide false
  | .h n => { t with h := vset t.h n.toNat v, hPoison := setBit t.hPoison n.toNat false }
  | .p n => t.pwrite (.p n) (v != 0)
  | _ => t
/-- Destinations that a thread holds, and none. -/
def Operand.own : Operand → Bool | .g _ | .h _ | .p _ | .none => true | _ => false
/-- An operand that is read without waiting. -/
def Operand.still : Operand → Bool | .q _ => false | _ => true

/-- What an instruction that only computes leaves as it was: all of the machine but teams and the times that dies remember; every other team; of
the party's team all but its groups, engine members and event counts; every other party of it; of the party all but its threads and where its
path stands. -/
structure Local (s t : State) : Prop where
  machine : t = { s with teams := t.teams, dies := t.dies }
  times : ∀ d, vget t.dies d = { vget s.dies d with lastTime := (vget t.dies d).lastTime }
  teams : ∀ u, u ≠ s.cur.team → t.team u = s.team u
  team : t.team s.cur.team =
    { s.team s.cur.team with groups := (t.team s.cur.team).groups, engines := (t.team s.cur.team).engines
                             regs := { (s.team s.cur.team).regs with perf := (t.team s.cur.team).regs.perf } }
  parties : ∀ m, m ≠ s.cur.mem → (t.team s.cur.team).member m = (s.team s.cur.team).member m
  party : t.group s.cur =
    { s.group s.cur with threads := (t.group s.cur).threads, run := (t.group s.cur).run, blocked := (t.group s.cur).blocked
                         yield := (t.group s.cur).yield, age := (t.group s.cur).age }
/-- A thread that a thread became by moving on, changed in nothing else. -/
def Thread.Moved (a b : Thread) : Prop := b = { a with pc := b.pc, mid := b.mid }
/-- The instruction leaves a clause that asks for the trap fence (R351). -/
def State.fenced (s : State) : Bool := s.path.last && (headerOf s.path.hword).f

/-- The operands need no waiting, the destination is one that a thread holds, and the clause does not end in the trap fence. -/
def State.plain (s : State) (i : Instr) : Bool :=
  s.acts i && Operand.still i.fv.a && Operand.still i.fv.b && Operand.still i.fv.c && Operand.own i.fv.dst && !s.fenced
/-- The instruction is performed, and what it does is this: each acting lane gets its result in DST and its flags, from the lanes' sources as they
were before; nothing else changes. -/
def Gives (s : State) (i : Instr) (f : Src → Nat → DWord × BitVec 5) : Prop :=
  ∃ (t : State) (src : Src), (∀ l ∈ s.acting i, src l = s.srcs i l) ∧ exec i s = .next t ∧ Local s t ∧
    (∀ l ∈ s.acting i, Thread.Moved
      (((s.thread s.cur l).raise (f src l).2).put i.fv.dst (Kind.wide i.fv.shape.dst) (f src l).1) (t.thread s.cur l)) ∧
    ∀ l, l ∉ s.acting i → Thread.Moved (s.thread s.cur l) (t.thread s.cur l)
/-- The instruction is performed with queue registers, uniform destinations and the trap fence too, whenever its operands flow. -/
def Runs (s : State) (i : Instr) (f : Src → Nat → DWord × BitVec 5) : Prop :=
  s.acts i = true → (s.computed i f).2 = true → exec i s = .next (s.performed i (s.computed i f).1)
/-- Every lane of the issue group waits at the instruction for a queue register, the path is kept as it was, and no thread changes in anything
else (R165; that the lanes wait whose guard fails is DEDUCED, log entry 27). -/
abbrev State.AllWait (s t : State) : Prop :=
  { s.path with stall := none } ∈ (t.group s.cur).blocked ∧
  ∀ l, t.thread s.cur l = if s.path.lanes.getLsbD l then { s.thread s.cur l with wait := some .operand } else s.thread s.cur l
/-- A queue register that has no entry to give, or no room, keeps the issue group waiting at the instruction. -/
def Waits (s : State) (i : Instr) (f : Src → Nat → DWord × BitVec 5) : Prop :=
  s.acts i = true → (s.computed i f).2 = false → ∃ t, exec i s = .next t ∧ s.AllWait t
/-- What a lane makes of its own three sources. -/
abbrev laneFn (f : DWord → DWord → DWord → DWord × BitVec 5) : Src → Nat → DWord × BitVec 5 := fun src l => f (src l).1 (src l).2.1 (src l).2.2
/-- An instruction that gives each lane a result of the lane's own sources: with plain operands, with queue operands, and when they must wait. -/
def PerLane (i : Instr) (f : DWord → DWord → DWord → DWord × BitVec 5) : Prop :=
  ∀ s : State, (s.plain i = true → Gives s i (laneFn f)) ∧ Runs s i (laneFn f) ∧ Waits s i (laneFn f)
/-- No upset of the core stands for the shadow unit to see (R115, R222). -/
def State.steady (s : State) (i : Instr) : Bool := s.acts i && (vget s.cores (s.team s.cur.team).coreNo).upset.isEmpty
/-- As `PerLane`, of the floating-point instructions: under the team's narrow formats, while the shadow unit agrees. -/
def PerLaneFp (i : Instr) (f : Vector Word 8 → DWord → DWord → DWord → DWord × BitVec 5) : Prop :=
  ∀ s : State, s.steady i = true →
    (s.plain i = true → Gives s i (laneFn (f (s.fmtOf s.cur)))) ∧ Runs s i (laneFn (f (s.fmtOf s.cur))) ∧ Waits s i (laneFn (f (s.fmtOf s.cur)))

/-! ## Safe runs -/

/-- Memory is in its canonical form. -/
def State.Canonical (s : State) : Prop := s.mem.wf = true

end Machine
end Sys2Proof
end

