-- ==== Sys2Proof/Certificates/Slice0/Obligations.lean ====
section
/-! DEFINITION. The statements for the provers. -/
open Sys2Proof Sys2Proof.Machine

/-! ## Encoding (R161 to R180) -/

/-- Decoding the word of any well-formed instruction gives it back. For every well-formed instruction of every family, with every operand at every value its encoding admits: decoding its word gives that instruction, and the word read as the opcode table numbers its bits gives it too. No bit of an encoding is dropped and no two instructions share a word. -/
def Obligations.EncodedInstructionDecodesToItself : Prop :=
  ∀ i : Instr, i.wf = true → decodeWord (encode i) = .ok i ∧ decodeTableWord 64 (encode i).toNat = some i ∧
    ∀ j : Instr, j.wf = true → encode i = encode j → i = j

/-- A word that decodes is the word of the well-formed instruction it decodes to. Whatever word the decoder accepts, it gives a well-formed instruction whose own word is that word: no second encoding of an instruction is accepted, and no accepted bit is ignored. -/
def Obligations.DecodedInstructionEncodesToItsWord : Prop :=
  ∀ (w : BitVec 64) (i : Instr), decodeWord w = .ok i → i.wf = true ∧ encode i = w

/-- The zero word and unassigned opcodes are illegal. The all-zero word is rejected with reason 1, and a nonzero word whose OP is unassigned with reason 2; OP 0x000 and 0x00D are unassigned. -/
def Obligations.UnassignedWordsAreRejected : Prop :=
  decodeWord 0 = .error { reason := 1 } ∧
  (∀ w : BitVec 64, w ≠ 0 → Mn.ofOp (w.extractLsb' 55 9) = none → decodeWord w = .error { reason := 2 }) ∧
  Mn.ofOp 0x000 = none ∧ Mn.ofOp 0x00D = none

/-- Words that the spec writes out decode to their instructions. The worked words of the spec: the canonical NOP, IADD g7, g7, #16, ISET.lt.s32 p1, g4, g5, FADD g4, g5, #1.5, FSET.lt.f32 p1, g4, g5 and FCVT.nf1.f32 g6, g7. -/
def Obligations.WordsOfTheSpecDecode : Prop :=
  decodeWord 0x009FFFFFFFFFC000 = .ok (.nop {}) ∧
  decodeWord 0x415C0E0700000010 = .ok (.iadd { dst := .g 7, a := .g 7, b := .lit 16, ty := .s32 }) ∧
  decodeWord 0x4D1C020402FFC240 = .ok (.iset { dst := .p 1, a := .g 4, b := .g 5, ty := .s32, sub := 2 }) ∧
  decodeWord 0x805C08053FC00000 = .ok (.fadd { dst := .g 4, a := .g 5, b := .lit 0x3FC00000, ty := .f32 }) ∧
  decodeWord 0x831C020402FFC640 = .ok (.fset { dst := .p 1, a := .g 4, b := .g 5, ty := .f32, sub := 2 }) ∧
  decodeWord 0x899C0C07FF80E200 = .ok (.fcvt { dst := .g 6, a := .g 7, c := .tyc .f32, ty := .nf 1 })

/-! ## One step, and every step -/

/-- A step runs the decoded instruction of the next party. When a party waits in the issue slots, the step takes the first: with its clause fetched and the word of its slot decoding to an instruction, the step is exec of that instruction with that party’s turn; with a word that does not decode, it takes the illegal-instruction trap with the reason; with the clause not fetched, it fetches it; with nothing left to run, nothing happens. With no party waiting the step takes the next device step that is due, and with none due the issue clock of the next core. The order of these is the model’s (log entry 8). -/
def Obligations.StepRunsTheDecodedInstruction : Prop :=
  (∀ (s : State) (p : Party) (rest : List Party), s.slots = p :: rest →
    (∀ r i, (s.group p).run = some r → r.words ≠ [] → decodeWord (r.words.getD r.idx 0) = .ok i →
      step s = exec i { s with slots := rest, cur := p }) ∧
    (∀ r b, (s.group p).run = some r → r.words ≠ [] → decodeWord (r.words.getD r.idx 0) = .error b →
      step s = .next (({ s with slots := rest, cur := p } : State).takeTrap p (bitsOf r.lanes)
        { cause := 0x01, aux := BitVec.ofNat 64 (b.reason + 256 * b.field), lanes := r.lanes, pc := r.slotPc, mid := some (r.hdr, r.idx) })) ∧
    (∀ r, (s.group p).run = some r → r.words = [] → step s = exec (.clauseFetch p) { s with slots := rest, cur := p }) ∧
    ((s.group p).run = none → step s = .next { s with slots := rest, cur := p })) ∧
  ∀ s : State, s.slots = [] →
    (∀ i rest, s.agenda = i :: rest → step s = exec i { s with agenda := rest }) ∧
    (s.agenda = [] → step s = exec (.issueClock (s.turnCore / 192) (s.turnCore % 192)) s ∧ s.turnCore ∈ s.liveCores)

/-- A word placed where the machine fetches runs next. For every word that decodes: the step after it is placed as the next instruction is exec of the decoded instruction, with the placed party’s turn; everything else is as it was. How a word is placed is the model’s (log entry 9). -/
def Obligations.AnInstructionRunsAtItsFetchPlace : Prop :=
  ∀ (s : State) (w : BitVec 64) (i : Instr), decodeWord w = .ok i →
    step (s.withFetchWord 64 w.toNat) = exec i { s.placeWord w with slots := [], cur := { team := s.nextUid, mem := .group 0 } } ∧
    (s.placeWord w).mem = s.mem ∧ (s.placeWord w).dev = s.dev ∧ (s.placeWord w).agenda = s.agenda

/-- The machine stops only when the package is lost. Every step answers a next state, but for the loss of the I/O die or of the trust die, where the package is lost: no instruction and no device step is refused, in any state. -/
def Obligations.NoStepIsRefused : Prop :=
  ∀ s : State, (∃ t, step s = .next t) ∨
    (s.slots = [] ∧ ∃ rest d, s.agenda = .dieLost d :: rest ∧ 4 ≤ d ∧ step s = .fault (.packageLost d))

/-- Every step keeps memory in its canonical form. In every state with memory in canonical form, whatever the step does (an instruction, a trap, a copy record, an evacuation, a rollback, a restore, a key change), memory stays in canonical form: addresses strictly rising and no entry equal to what an unlisted address reads as. -/
def Obligations.MemoryStaysCanonical : Prop :=
  ∀ s t : State, s.Canonical → step s = .next t → t.Canonical

/-- The machine after reset. After reset: memory lists nothing and is canonical, no team is resident, every counter of a die is zero, every context generation, trap base, page table root and fault register is zero, and each register with another reset value in its table holds that value (KEY_ALLOW, RAST_THR, the heap and trap quantum, the fault and reliability ring sizes, RAS_CFG, RT_STAT, the carve-outs, THERM_CFG, LB_CFG, PWR_STAT). The trust die’s boot is due first (log entry 8). -/
def Obligations.ResetState : Prop :=
  State.reset.Canonical ∧ State.reset.mem = [] ∧ State.reset.teams = [] ∧ State.reset.slots = [] ∧ State.reset.agenda = [.trustDieBoot] ∧
  (∀ d, (vget State.reset.dies d).cnt = 0 ∧ (vget State.reset.dies d).lost = false) ∧
  (∀ x, x < 64 → State.reset.creg x .keyAllow = 1 ∧ State.reset.creg x .rastThr = 0x100 ∧ State.reset.creg x .quantum = 0x400 ∧
    State.reset.creg x .fltBase = 0x0A ∧ State.reset.creg x .rasCfg = 4 ∧ State.reset.creg x .trapBase = 0 ∧ State.reset.creg x .ptRoot = 0 ∧
    State.reset.creg x .ctxGen = 0 ∧ State.reset.creg x .heapNreg = 0) ∧
  State.reset.dreg .rtStat = 0x10000 ∧ State.reset.dreg .srfCarve0 = 1 ∧ State.reset.dreg .srfCarve1 = 1 ∧ State.reset.dreg .thermCfg = 0x0800005A ∧
  State.reset.dreg .lbCfg = 0x03E80005 ∧ State.reset.dreg .rasBase = 0x0A ∧ State.reset.dreg .pwrStat = 1200 ∧ State.reset.dreg .dieStat = 0

/-! ## Issue (R160, R175, R176, R179, R354, R368) -/

/-- A failing team check is an illegal instruction. For every Hexlin instruction: when a check of R179 that needs the team fails at issue (an unbound queue register, an unset narrow format, a register beyond the quota), the instruction is not performed in any lane and every lane of the issue group takes the exact trap 0x01 with the reason and field in TRAP_AUX, TRAP_PC at the slot and TRAP_LANES all lanes of the group, whatever their guards. In run-ahead nothing is raised: a MEM instruction is missing, as a demand fault would be, and another ends the run-ahead (the model’s reading, log entry 24). Of a group such a MEM instruction changes neither memory nor a register of context, cluster, core or device, nor a pending or buffered access, and of its threads only where they stand and which registers count as unknown. -/
def Obligations.IllegalAtIssueTraps : Prop :=
  ∀ (s : State) (i : Instr) (r : Run) (v : View) (b : Bad), (s.group s.cur).run = some r → i.view = some v → s.dynBad s.cur v = some b →
    (b.reason = 9 ∨ b.reason = 10 ∨ b.reason = 11) ∧
    (s.inSteep s.cur = false → exec i s = .next (s.takeTrap s.cur (bitsOf r.lanes)
      { cause := 0x01, aux := BitVec.ofNat 64 (b.reason + 256 * b.field), lanes := r.lanes, pc := r.slotPc, mid := some (r.hdr, r.idx) })) ∧
    (s.inSteep s.cur = true → v.mn.cls ≠ some .mem → exec i s = .next (s.stopAhead s.cur)) ∧
    (s.inSteep s.cur = true → v.mn.cls = some .mem → ∃ t, exec i s = .next t ∧ t.mem = s.mem ∧
      (∀ l, (t.thread s.cur l).inh = (s.thread s.cur l).inh) ∧
      ((∃ g, s.cur.mem = .group g) → t.dev = s.dev ∧ t.ctxs = s.ctxs ∧ t.clusters = s.clusters ∧ t.cores = s.cores ∧
        (t.team s.cur.team).ord = (s.team s.cur.team).ord ∧
        ∀ l, let a := t.thread s.cur l
          a = { s.thread s.cur l with pc := a.pc, mid := a.mid, gUnk := a.gUnk, pUnk := a.pUnk, hUnk := a.hUnk }))

/-- An instruction waits for pending registers, its class counter, its lanes’ ACCSTs and its queue registers. For every Hexlin instruction that passes the checks: while a register it names, or its guard’s predicate, has a pending write in some lane of the issue group, and while its class counter stands at 63, it is not performed and nothing changes; it is issued again. A MEM instruction behind an ACCST of one of its lanes that has still to retire is held at its slot (R127, R145). A SYNC or SYS instruction waits at its slot, with nothing popped and in every lane of the issue group, while a queue register lacks an entry that it pops or room for what it pushes; that every lane waits, and that room counts as an entry does, is DEDUCED in log entry 27. -/
def Obligations.InterlockAndFullCounterStall : Prop :=
  (∀ (s : State) (i : Instr) (r : Run) (v : View), (s.group s.cur).run = some r → i.view = some v → s.dynBad s.cur v = none →
    (s.interlocked s.cur (bitsOf r.lanes) v = true ∨ s.counterFull s.cur v = true) → exec i s = .next s) ∧
  (∀ (s : State) (p : Party) (v : View), s.counterFull p v = true ↔ ∃ c, v.counter = some c ∧ 63 ≤ (s.group p).count c) ∧
  (∀ (s : State) (p : Party) (lanes : List Nat) (v : View) (w : PendWrite), w ∈ (s.team p.team).ord.pend → w.who = p → w.lane ∈ lanes → w.wide = false →
    w.dst ∈ v.fields.flatMap Field.each → s.interlocked p lanes v = true) ∧
  (∀ (s : State) (i : Instr), (s.group s.cur).run.isSome = true → i.view.isSome = true → s.dynBad s.cur i.fv = none →
    s.interlocked s.cur (bitsOf s.path.lanes) i.fv = false → s.counterFull s.cur i.fv = false →
    i.fv.mn.cls = some .mem → s.storePending s.cur (bitsOf s.path.lanes) = true → exec i s = .next (s.heldOn s.cur i.fv)) ∧
  ∀ (s : State) (i : Instr), (s.group s.cur).run.isSome = true → i.view.isSome = true → s.dynBad s.cur i.fv = none →
    s.interlocked s.cur (bitsOf s.path.lanes) i.fv = false → s.counterFull s.cur i.fv = false → s.inSteep s.cur = false →
    s.consumes s.cur (s.readers s.cur i.fv (s.acting i)) i.fv = false → queueForm i.fv = true →
    let t := s.noteTime s.cur i.fv (s.acting i)
    t.pull s.cur i.fv (s.acting i) = none →
    exec i s = .next (finish s.cur s.path i.fv (s.acting i) (.block s ((bitsOf s.path.lanes).map fun l => (l, .operand))))

/-- An instruction that would use a poisoned register performs nothing. For every Hexlin instruction but the bare moves (MOV, SHFL, XFER), issued by a group: a poisoned source register in an acting lane that reads it stops it before any effect: the acting threads take the trap registers of cause 0x21 and nothing else of any thread of the group changes, no handler is entered, and the rollback of the launch is due. -/
def Obligations.PoisonIsConsumedExactly : Prop :=
  ∀ (s : State) (i : Instr), (s.group s.cur).run.isSome = true → i.view.isSome = true → s.dynBad s.cur i.fv = none →
    s.interlocked s.cur (bitsOf s.path.lanes) i.fv = false → s.counterFull s.cur i.fv = false →
    s.storeHeld s.cur (bitsOf s.path.lanes) i.fv = false → s.inSteep s.cur = false →
    s.consumes s.cur (s.readers s.cur i.fv (s.acting i)) i.fv = true → (∃ g, s.cur.mem = .group g) →
    ∃ t, exec i s = .next t ∧
      (∀ l ∈ s.acting i, t.thread s.cur l = { s.thread s.cur l with
        trapPc := s.path.slotPc, trapCause := 0x21, trapAddr := 0, trapLanes := ofBits 32 (s.acting i), trapAux := 0 }) ∧
      (∀ l, l ∉ s.acting i → t.thread s.cur l = s.thread s.cur l) ∧ (t.group s.cur).run = (s.group s.cur).run ∧
      .rollback (s.team s.cur.team).id.ctx (s.team s.cur.team).id.gen ∈ t.agenda

/-! ## Integer and bit operations (R201 to R219) -/

/-- What PRMT's route codes make of a pool of eight bytes, byte by byte from 0 up, with the byte below (R210). -/
def Obligation.route (pool : Nat) (f prev : Nat) : Nat :=
  if f ≤ 7 then pool / 256 ^ f % 256
  else if f = 8 then 0 else if f = 9 then 255 else if f = 10 then (if prev.testBit 7 then 255 else 0) else if f = 11 then prev
  else (List.range 8).foldl (fun m j => m + (if (pool / 256 ^ (f - 12) % 256).testBit (7 - j) then 2 ^ j else 0)) 0

/-- Integer arithmetic delivers the exact value of its entry. IADD, ISUB, IMUL, IMULH, IMAD and IMADW, for every type, SAT, NA and NB, every operand and destination: each acting lane gets Deliver of the exact A + B, A - B, A * B, the high half of A * B, A * B + C, and A * B + C in the 64-bit type, with A and B taken after NA and NB; no flag is raised and nothing else changes (registers of lanes, other lanes, other parties, memory, special registers). With queue operands the instruction is performed when they flow and waits when they do not. -/
def Obligations.IntegerArithmeticResults : Prop :=
  ∀ f : VF,
    PerLane (.iadd f) (fun a b _ => (deliver f.ty f.sat (VF.ia f a + VF.ib f b), 0)) ∧
    PerLane (.isub f) (fun a b _ => (deliver f.ty f.sat (VF.ia f a - VF.ib f b), 0)) ∧
    PerLane (.imul f) (fun a b _ => (deliver f.ty f.sat (VF.ia f a * VF.ib f b), 0)) ∧
    PerLane (.imulh f) (fun a b _ => (deliver f.ty false (VF.ia f a * VF.ib f b / 2 ^ f.ty.width), 0)) ∧
    PerLane (.imad f) (fun a b c => (deliver f.ty f.sat (VF.ia f a * VF.ib f b + ival f.ty c), 0)) ∧
    PerLane (.imadw f) (fun a b c =>
      (deliver (if f.ty = .s32 then .s64 else .n64) f.sat (VF.ia f a * VF.ib f b + ival (if f.ty = .s32 then .s64 else .n64) c), 0)) ∧
    Kind.wide (Instr.imadw f).fv.shape.dst = true ∧ Kind.wide (Instr.imadw f).fv.shape.c = true ∧
    Kind.wide (Instr.imadw f).fv.shape.a = false ∧ Kind.wide (Instr.imadw f).fv.shape.b = false ∧
    -- the examples of the edges
    deliver .s32 false (ival .s32 0x7FFFFFFF + ival .s32 1) = 0x80000000 ∧ deliver .s32 true (ival .s32 0x7FFFFFFF + ival .s32 1) = 0x7FFFFFFF ∧
    deliver .n32 true (ival .n32 3 - ival .n32 5) = 0 ∧
    deliver .n32 false (ival .n32 0xFFFFFFFF * ival .n32 0xFFFFFFFF / 2 ^ 32) = 0xFFFFFFFE ∧
    deliver .s32 false (ival .s32 0xFFFFFFFF * ival .s32 0xFFFFFFFF / 2 ^ 32) = 0 ∧
    deliver .s32 false (-ival .s32 0x80000000) = 0x80000000 ∧ deliver .s32 true (-ival .s32 0x80000000) = 0x7FFFFFFF

/-- IMIN, IMAX, ICLAMP and IABS. IMIN gives min(A, B), IMAX max(A, B), ICLAMP min(max(A, B), C) (so C when B > C), IABS |A| wrapped or clamped, in every acting lane, with nothing else changed; for the most negative value IABS gives that value, or MaxOf(t) with SAT. -/
def Obligations.MinimumMaximumClampAbsolute : Prop :=
  (∀ f : VF,
    PerLane (.imin f) (fun a b _ => (deliver f.ty false (min (VF.ia f a) (VF.ib f b)), 0)) ∧
    PerLane (.imax f) (fun a b _ => (deliver f.ty false (max (VF.ia f a) (VF.ib f b)), 0)) ∧
    PerLane (.iclamp f) (fun a b c => (deliver f.ty false (min (max (VF.ia f a) (VF.ib f b)) (ival f.ty c)), 0)) ∧
    PerLane (.iabs f) (fun a _ _ => (deliver f.ty f.sat ((VF.ia f a).natAbs : Int), 0))) ∧
  (∀ a b c : Int, c < b → min (max a b) c = c) ∧
  deliver .s32 false ((ival .s32 0x80000000).natAbs : Int) = 0x80000000 ∧
  deliver .s32 true ((ival .s32 0x80000000).natAbs : Int) = BitVec.ofInt 64 (maxOf .s32) ∧
  deliver .s64 false ((ival .s64 (BitVec.ofNat 64 (2 ^ 63))).natAbs : Int) = BitVec.ofNat 64 (2 ^ 63) ∧
  deliver .s64 true ((ival .s64 (BitVec.ofNat 64 (2 ^ 63))).natAbs : Int) = BitVec.ofInt 64 (maxOf .s64)

/-- Val and Deliver read and write two’s complement. For the types of the INT block: Val of an operand is its low w bits as a signed or unsigned number; Deliver without SAT writes v mod 2^w, so the low w bits of the exact value; Deliver with SAT reads back as v clamped to MinOf(t) and MaxOf(t). -/
def Obligations.DeliverWrapsOrClamps : Prop :=
  ∀ t ∈ Shape.ints, (∀ x : DWord, ival t x = if Ty.signed t then (x.setWidth t.width).toInt else ((x.setWidth t.width).toNat : Int)) ∧
    (∀ v : Int, deliver t false v = (BitVec.ofInt t.width v).setWidth 64) ∧
    ∀ v : Int, ival t (deliver t true v) = max (minOf t) (min v (maxOf t))

/-- Logic and shifts. AND, OR, XOR, ANDN, SHL, SHR, SAR for .b32/.b64 (SAR .s32/.s64): the results of R207 in every acting lane and nothing else changed, with the amount n read as 32 bits: below w the shifted value, from w on 0, or all sign bits for SAR. -/
def Obligations.LogicAndShiftResults : Prop :=
  ∀ f : VF,
    PerLane (.and f) (fun a b _ => (a &&& b, 0)) ∧ PerLane (.or f) (fun a b _ => (a ||| b, 0)) ∧
    PerLane (.xor f) (fun a b _ => (a ^^^ b, 0)) ∧ PerLane (.andn f) (fun a b _ => (a &&& ~~~ b, 0)) ∧
    PerLane (.shl f) (fun a b _ =>
      (if (b.setWidth 32).toNat < f.ty.width then BitVec.ofNat 64 (a.toNat * 2 ^ (b.setWidth 32).toNat % 2 ^ f.ty.width) else 0, 0)) ∧
    PerLane (.shr f) (fun a b _ =>
      (if (b.setWidth 32).toNat < f.ty.width then BitVec.ofNat 64 (a.toNat % 2 ^ f.ty.width / 2 ^ (b.setWidth 32).toNat) else 0, 0)) ∧
    (f.ty ∈ [Ty.s32, .s64] → PerLane (.sar f) (fun a b _ =>
      (if (b.setWidth 32).toNat < f.ty.width then deliver f.ty false (ival f.ty a / 2 ^ (b.setWidth 32).toNat)
       else if a.getLsbD (f.ty.width - 1) then BitVec.ofNat 64 (2 ^ f.ty.width - 1) else 0, 0))) ∧
    Kind.wide (Instr.shl f).fv.shape.b = false ∧ Kind.wide (Instr.shr f).fv.shape.b = false ∧ Kind.wide (Instr.sar f).fv.shape.b = false

/-- SHF takes its window of the pool. SHF in every acting lane gives, for each bit i below 32, the bit of the 64-bit pool c:a that R208 names for the suffix .w, .z, .s or .lz, and its fill outside the pool; nothing else changes. -/
def Obligations.FunnelShiftWindows : Prop :=
  (∀ f : VF, PerLane (.shf f) (fun a b c => (BitVec.ofNat 64 (shfVal f.sub.toNat a b c), 0))) ∧
  ∀ (a b c : DWord) (i : Nat), i < 32 →
    let P : BitVec 64 := c.setWidth 32 ++ a.setWidth 32
    let n := (b.setWidth 32).toNat
    (BitVec.ofNat 64 (shfVal 0 a b c)).getLsbD i = P.getLsbD ((n + i) % 64) ∧
    (BitVec.ofNat 64 (shfVal 1 a b c)).getLsbD i = (if min n 64 + i ≤ 63 then P.getLsbD (min n 64 + i) else false) ∧
    (BitVec.ofNat 64 (shfVal 2 a b c)).getLsbD i = (if min n 64 + i ≤ 63 then P.getLsbD (min n 64 + i) else c.getLsbD 31) ∧
    (BitVec.ofNat 64 (shfVal 3 a b c)).getLsbD i = (if min n 64 ≤ 32 + i then P.getLsbD (32 + i - min n 64) else false)

/-- BFE, BFI, POPC, CLZ, BREV, PRMT and IDP4. Each acting lane gets the bit field, the insertion, the number of one bits, the number of leading zeros, the reversed bits, the routed bytes, and the packed dot product of its entry; nothing else changes. -/
def Obligations.BitFieldsCountsAndBytes : Prop :=
  ∀ f : VF,
    PerLane (.bfe f) (fun a b c =>
      let pos := b.toNat % 256
      let len := min (c.toNat % 256) 32
      let field := (List.range len).foldl (fun m i => m + (if pos + i ≤ 31 then a.getLsbD (pos + i) else f.ty == .s32 && a.getLsbD 31).toNat * 2 ^ i) 0
      (if len = 0 then 0 else if f.ty = .s32 ∧ 2 ^ (len - 1) ≤ field then BitVec.ofNat 64 (field + 2 ^ 32 - 2 ^ len) else BitVec.ofNat 64 field, 0)) ∧
    PerLane (.bfi f) (fun a b c => (bfiVal a b c, 0)) ∧
    (∀ (a b c : DWord) (i : Nat), i < 32 → (bfiVal a b c).getLsbD i =
      (let pos := c.toNat % 256
       let len := min (c.toNat / 256 % 256) 32
       if pos ≤ i ∧ i < pos + len then b.getLsbD (i - pos) else a.getLsbD i)) ∧
    PerLane (.popc f) (fun a _ _ => (BitVec.ofNat 64 ((List.range f.ty.width).countP fun i => a.getLsbD i), 0)) ∧
    PerLane (.clz f) (fun a _ _ =>
      (BitVec.ofNat 64 (((List.range f.ty.width).find? fun k => a.getLsbD (f.ty.width - 1 - k)).getD f.ty.width), 0)) ∧
    PerLane (.brev f) (fun a _ _ =>
      (BitVec.ofNat 64 ((List.range f.ty.width).foldl (fun m i => m + (a.getLsbD (f.ty.width - 1 - i)).toNat * 2 ^ i) 0), 0)) ∧
    PerLane (.prmt f) (fun a b c =>
      let pool := a.toNat % 2 ^ 32 + c.toNat % 2 ^ 32 * 2 ^ 32
      let code (i : Nat) : Nat := b.toNat / 16 ^ i % 16
      let b0 := Obligation.route pool (code 0) 0
      let b1 := Obligation.route pool (code 1) b0
      let b2 := Obligation.route pool (code 2) b1
      let b3 := Obligation.route pool (code 3) b2
      (BitVec.ofNat 64 (b0 + b1 * 256 + b2 * 256 ^ 2 + b3 * 256 ^ 3), 0)) ∧
    PerLane (.idp4 f) (fun a b c =>
      let w := if f.sub.getLsbD 2 then 4 else 8
      let elem (x : DWord) (i : Nat) (signed : Bool) : Int :=
        if signed then (x.extractLsb' (w * i) w).toInt else ((x.extractLsb' (w * i) w).toNat : Int)
      let terms := (List.range (32 / w)).map fun i => elem a i (f.sub.getLsbD 0) * elem b i (f.sub.getLsbD 1)
      (deliver .s32 f.sat (ival .s32 c + terms.sum), 0))

/-- ISET, ISEL, PLOG and LEA. ISET writes the compare of its SUB, ISEL one of its sources by a predicate, PLOG bit 4·pa + 2·pb + pc of its table, LEA the pair plus the index shifted; p7 as a source reads true, 0x1FF false, and p7 or 0x1FF as a destination discards; nothing else changes. -/
def Obligations.ComparesSelectsAndAddresses : Prop :=
  (∀ f : VF,
    PerLane (.iset f) (fun a b _ =>
      let A := VF.ia f a
      let B := VF.ib f b
      (if (match f.sub.toNat with | 0 => decide (A = B) | 1 => decide (A ≠ B) | 2 => decide (A < B) | 3 => decide (A ≤ B) | 4 => decide (B < A) | _ => decide (B ≤ A))
        then 1 else 0, 0)) ∧
    PerLane (.isel f) (fun a b c => (if c ≠ 0 then a else b, 0)) ∧
    (∀ table : BitVec 8, PerLane (.plog f table) (fun a b c =>
      (if table.getLsbD (4 * (if a ≠ 0 then 1 else 0) + 2 * (if b ≠ 0 then 1 else 0) + (if c ≠ 0 then 1 else 0)) then 1 else 0, 0))) ∧
    PerLane (.lea f) (fun a b c => (BitVec.ofInt 64 ((a.toNat : Int) + VF.ib f b * 2 ^ (c.toNat % 64)), 0))) ∧
  -- predicates as sources and destinations
  (∀ (s : State) (p : Party) (l : Nat) (n : BitVec 3), s.readOp p l false (.p n) = if n = 7 ∨ (s.thread p l).p.getLsbD n.toNat then 1 else 0) ∧
  (∀ (s : State) (p : Party) (l : Nat), s.readOp p l false .none = 0) ∧
  (∀ (t : Thread) (w : Bool) (v : DWord), t.put (.p 7) w v = t ∧ t.put .none w v = t) ∧
  (∀ (t : Thread) (w : Bool) (v : DWord) (n : BitVec 3), n ≠ 7 → (t.put (.p n) w v).p.getLsbD n.toNat = (v != 0) ∧
    ∀ k, k < 7 → k ≠ n.toNat → (t.put (.p n) w v).p.getLsbD k = t.p.getLsbD k)

/-- MOV copies bits, MOVS.get and MOVS.set move predicates. With plain operands and no poisoned source, MOV gives every acting lane its source (or the literal) with the same bits; MOVS.get gives DST[6:0] = p6…p0, DST[7] = 1 and zeros above; MOVS.set writes p_i = a[i] for each i with b[i] = 1 and keeps the other predicates. Nothing else changes. -/
def Obligations.MovesAndPredicateMoves : Prop :=
  ∀ (f : VF) (s : State),
    (s.plain (.mov f) = true →
      (s.acting (.mov f)).all (fun l => !(s.begun (.mov f)).opPoisoned s.cur l (Kind.wide (Instr.mov f).fv.shape.dst) (if f.b.isLit then f.b else f.a)) = true →
      Gives s (.mov f) (fun _ l =>
        ((s.begun (.mov f)).readOp s.cur l (Kind.wide (Instr.mov f).fv.shape.dst) (if f.b.isLit then f.b else f.a), 0))) ∧
    (s.plain (.movsGet f) = true → Gives s (.movsGet f) (fun _ l => (BitVec.ofNat 64 ((s.thread s.cur l).p.toNat + 128), 0))) ∧
    (s.plain (.movsSet f) = true →
      ∃ t, exec (.movsSet f) s = .next t ∧ Local s t ∧
        (∀ l ∈ s.acting (.movsSet f), Thread.Moved { s.thread s.cur l with p := (t.thread s.cur l).p } (t.thread s.cur l) ∧
          ∀ i, i < 7 → (t.thread s.cur l).p.getLsbD i =
            if (s.srcs (.movsSet f) l).2.1.getLsbD i then (s.srcs (.movsSet f) l).1.getLsbD i else (s.thread s.cur l).p.getLsbD i) ∧
        ∀ l, l ∉ s.acting (.movsSet f) → Thread.Moved (s.thread s.cur l) (t.thread s.cur l))

/-- PLACE composes the scratchpad word, or takes its two faults. With plain operands: when every acting lane’s dx and dy are in range and reach a core of the cluster grid and every off is below 0x3_0000, each gets dy[4:0]·2^23 + dx[4:0]·2^18 + off; when some lane’s place is bad, trap 0x13 with exactly the bad lanes and TRAP_AUX of the lowest; else when some off is too big, trap 0x0D with those lanes and TRAP_ADDR the off of the lowest. The worked example of the rule comes out. -/
def Obligations.PlaceComposesOrFaults : Prop :=
  (∀ (f : VF) (s : State), s.plain (.place f) = true →
    let off (l : Nat) : Nat := (s.srcs (.place f) l).1.toNat % 2 ^ 32
    let dx (l : Nat) : Int := ((s.srcs (.place f) l).2.1.setWidth 32).toInt
    let dy (l : Nat) : Int := ((s.srcs (.place f) l).2.2.setWidth 32).toInt
    let x : Int := ((s.team s.cur.team).id.core % 16 : Nat)
    let y : Int := ((s.team s.cur.team).id.core / 16 : Nat)
    let out (l : Nat) : Bool := dx l < -15 || 15 < dx l || dy l < -11 || 11 < dy l || x + dx l < 0 || 15 < x + dx l || y + dy l < 0 || 11 < y + dy l
    let bad := (s.acting (.place f)).filter out
    let big := (s.acting (.place f)).filter fun l => decide (0x30000 ≤ off l)
    (bad = [] → big = [] → Gives s (.place f) fun _ l =>
      (BitVec.ofNat 64 ((dy l % 32).toNat * 2 ^ 23 + (dx l % 32).toNat * 2 ^ 18 + off l), 0)) ∧
    (∀ b bs, bad = b :: bs → exec (.place f) s = .next (s.trapped (.place f) (s.begun (.place f))
      (s.slotTrap 0x13 bad 0 (BitVec.ofNat 64 ((dx b % 256).toNat + 256 * (dy b % 256).toNat))))) ∧
    ∀ b bs, bad = [] → big = b :: bs → exec (.place f) s = .next (s.trapped (.place f) (s.begun (.place f))
      (s.slotTrap 0x0D big (s.srcs (.place f) b).1 0))) ∧
  -- the core at logical (3, 5)
  placeBad (16 * 5 + 3) (-2) 1 = false ∧ (1 % 32 * 2 ^ 23 + ((-2 : Int) % 32).toNat * 2 ^ 18 + 0x10200 : Nat) = 0x00F90200 ∧
  placeBad (16 * 5 + 3) (-4) 1 = true ∧ placeAux (-4) 1 = 0x01FC

/-- SHFL, VOTE and REDUX across the issue group. With plain operands (and no poison in SHFL’s), every participating lane gets: SHFL, the value of the source lane of its segment that the SUB names when that lane is a member of the issue group, whatever its guard, else its own; VOTE, the result of its SUB over the participating lanes’ votes; REDUX, the combination, or the running sum in ascending lane order. Lanes that do not participate keep everything. -/
def Obligations.LaneExchangeVoteAndReduction : Prop :=
  ∀ (f : VF) (s : State),
    (s.plain (.shfl f) = true →
      (bitsOf s.path.lanes).all (fun l => !(s.begun (.shfl f)).opPoisoned s.cur l (Kind.wide (Instr.shfl f).fv.shape.dst) f.a) = true →
      (s.acting (.shfl f)).all (fun l => !(s.begun (.shfl f)).opPoisoned s.cur l false f.b && !(s.begun (.shfl f)).opPoisoned s.cur l false f.c) = true →
      Gives s (.shfl f) (fun _ l =>
        let c := (s.srcs (.shfl f) l).2.2.toNat % 64
        let ws := if c = 0 then 32 else min 32 (2 ^ c.log2)
        let b := (s.srcs (.shfl f) l).2.1.toNat % 2 ^ 32
        let seg := l / ws * ws
        let k := match f.sub.toNat with
          | 0 => seg + b % ws
          | 1 => seg + (l - seg + b) % ws
          | 2 => seg + ws - 1 - (l - seg)
          | _ => l ^^^ (b % ws)
        ((s.srcs (.shfl f) (if s.path.lanes.getLsbD k then k else l)).1, 0))) ∧
    (s.plain (.vote f) = true → Gives s (.vote f) (fun src _ =>
      let P := s.acting (.vote f)
      let yes (k : Nat) : Bool := (src k).1 != 0
      (match f.sub.toNat with
       | 0 => if P.all yes then 1 else 0
       | 1 => if P.any yes then 1 else 0
       | 2 => BitVec.ofNat 64 (ofBits 32 (P.filter yes)).toNat
       | 3 => BitVec.ofNat 64 (P.countP yes)
       | 4 => BitVec.ofNat 64 ((P.find? yes).getD 32)
       | _ => if P.all (fun k => P.all fun j => (src k).1 == (src j).1) then 1 else 0, 0))) ∧
    (s.plain (.redux f) = true → Gives s (.redux f) (fun src l =>
      let P := s.acting (.redux f)
      let A (k : Nat) : Int := ival f.ty (src k).1
      (match f.sub.toNat with
       | 0 => deliver f.ty f.sat (P.map A).sum
       | 1 => deliver f.ty false ((P.map A).min?.getD 0)
       | 2 => deliver f.ty false ((P.map A).max?.getD 0)
       | 3 => P.foldl (fun m k => m &&& (src k).1) (BitVec.allOnes 64)
       | 4 => P.foldl (fun m k => m ||| (src k).1) 0
       | 5 => P.foldl (fun m k => m ^^^ (src k).1) 0
       | 6 => deliver f.ty f.sat ((P.filter (· ≤ l)).map A).sum
       | _ => deliver f.ty f.sat ((P.filter (· < l)).map A).sum, 0)))

/-! ## Floating point (R220 to R236) -/

/-- FADD, FSUB, FMUL and FFMA round the exact value once. While the shadow unit agrees: each acting lane gets Out of A + B, A - B, A * B and A * B + C, taken exactly with NA and NB applied (element by element for packed types), and FLAGS gains the flags of the operation and of the rounding; nothing else changes. Special cases: opposite infinities in a sum, and infinity times zero, are NaN with invalid; an exact zero sum of opposite signs is +0, or −0 under rd. -/
def Obligations.FloatSumProductAndFusedResults : Prop :=
  (∀ f : VF,
    PerLaneFp (.fadd f) (fun fmt => perElem f.ty fun a b _ =>
      deliverF fmt (eltTy f.ty) f.rnd f.sat [fsrc fmt (eltTy f.ty) f.na a, fsrc fmt (eltTy f.ty) f.nb b]
        ((fsrc fmt (eltTy f.ty) f.na a).add f.rnd (fsrc fmt (eltTy f.ty) f.nb b))) ∧
    PerLaneFp (.fsub f) (fun fmt => perElem f.ty fun a b _ =>
      deliverF fmt (eltTy f.ty) f.rnd f.sat [fsrc fmt (eltTy f.ty) f.na a, fsrc fmt (eltTy f.ty) f.nb b]
        ((fsrc fmt (eltTy f.ty) f.na a).add f.rnd ((fsrc fmt (eltTy f.ty) f.nb b).negIf true))) ∧
    PerLaneFp (.fmul f) (fun fmt => perElem f.ty fun a b _ =>
      deliverF fmt (eltTy f.ty) f.rnd f.sat [fsrc fmt (eltTy f.ty) f.na a, fsrc fmt (eltTy f.ty) f.nb b]
        ((fsrc fmt (eltTy f.ty) f.na a).mul (fsrc fmt (eltTy f.ty) f.nb b))) ∧
    PerLaneFp (.ffma f) (fun fmt a b c =>
      deliverF fmt f.ty f.rnd f.sat [fsrc fmt f.ty f.na a, fsrc fmt f.ty f.nb b, fsrc fmt f.ty false c]
        ((fsrc fmt f.ty f.na a).fma f.rnd (fsrc fmt f.ty f.nb b) (fsrc fmt f.ty false c)))) ∧
  (∀ (r : Rnd) (n : Bool), (FVal.inf n).add r (.inf !n) = (.nan false, fINV)) ∧
  (∀ (n k : Bool) (e : Int), (FVal.inf n).mul (.fin k 0 e) = (.nan false, fINV) ∧ (FVal.fin k 0 e).mul (.inf n) = (.nan false, fINV)) ∧
  ∀ (r : Rnd) (m : Nat) (e : Int), m ≠ 0 → (FVal.fin false m e).add r (.fin true m e) = (.fin (r == .rd) 0 0, 0)

/-- FRCP, FSQRT and FDIV and their special values. FRCP, FSQRT and FDIV give Out of 1 / A, the square root of A and A / B in each acting lane, and the special operands of R228 give the special results with divide-by-zero, invalid or no flag. -/
def Obligations.FloatReciprocalRootAndQuotient : Prop :=
  (∀ f : VF,
    PerLaneFp (.frcp f) (fun fmt a _ _ => deliverF fmt f.ty f.rnd f.sat [fsrc fmt f.ty f.na a] ((FVal.fin false 1 0).div (fsrc fmt f.ty f.na a))) ∧
    PerLaneFp (.fsqrt f) (fun fmt a _ _ => deliverF fmt f.ty f.rnd f.sat [fsrc fmt f.ty f.na a] (fsrc fmt f.ty f.na a).sqrt) ∧
    PerLaneFp (.fdiv f) (fun fmt => perElem f.ty fun a b _ =>
      deliverF fmt (eltTy f.ty) f.rnd f.sat [fsrc fmt (eltTy f.ty) f.na a, fsrc fmt (eltTy f.ty) f.nb b]
        ((fsrc fmt (eltTy f.ty) f.na a).div (fsrc fmt (eltTy f.ty) f.nb b)))) ∧
  (∀ (n : Bool) (e : Int), (FVal.fin false 1 0).div (.fin n 0 e) = (.inf n, fDZ) ∧ (FVal.fin false 1 0).div (.inf n) = (.fin n 0 0, 0)) ∧
  (∀ e : Int, (FVal.fin true 0 e).sqrt = (.fin true 0 0, 0)) ∧ (FVal.inf true).sqrt = (.nan false, fINV) ∧ (FVal.inf false).sqrt = (.inf false, 0) ∧
  (∀ (m : Nat) (e : Int), m ≠ 0 → (FVal.fin true m e).sqrt = (.nan false, fINV)) ∧
  (∀ (x y : Bool) (m : Nat) (e k : Int), m ≠ 0 → (FVal.fin x m e).div (.fin y 0 k) = (.inf (x != y), fDZ)) ∧
  (∀ (x y : Bool) (e k : Int), (FVal.fin x 0 e).div (.fin y 0 k) = (.nan false, fINV) ∧ (FVal.inf x).div (.inf y) = (.nan false, fINV)) ∧
  ∀ (x y : Bool) (m : Nat) (e : Int), (FVal.fin x m e).div (.inf y) = (.fin (x != y) 0 0, 0)

/-- FMIN, FMAX, FSET and FCLASS. FMIN and FMAX order −0 below +0 and follow the NaN rule of their SUB; FSET writes the compare of its SUB, with invalid for lt, le, gt, ge of any NaN and otherwise of a signalling one, and +0 equals −0; FCLASS writes a mask with the one bit of its operand’s class and no flag. -/
def Obligations.FloatMinimumCompareAndClass : Prop :=
  (∀ f : VF,
    PerLaneFp (.fmin f) (fpMin f false) ∧ PerLaneFp (.fmax f) (fpMin f true) ∧
    PerLaneFp (.fset f) (fun fmt a b _ =>
      (if fcmp f.sub.toNat (fsrc fmt f.ty f.na a) (fsrc fmt f.ty f.nb b) then 1 else 0,
       if f.sub.toNat ∈ [2, 3, 4, 5] then (if (fsrc fmt f.ty f.na a).isNan || (fsrc fmt f.ty f.nb b).isNan then fINV else 0)
       else if (fsrc fmt f.ty f.na a).isSig || (fsrc fmt f.ty f.nb b).isSig then fINV else 0)) ∧
    PerLaneFp (.fclass f) (fun _ a _ _ => (BitVec.ofNat 64 (2 ^ fclass f.ty (a.toNat % 2 ^ f.ty.width)), 0))) ∧
  (∀ (e k : Int) (p : Bool), fminVal p false (.fin false 0 e) (.fin true 0 k) = .fin true 0 k ∧ fminVal p false (.fin true 0 k) (.fin false 0 e) = .fin true 0 k ∧
    fminVal p true (.fin false 0 e) (.fin true 0 k) = .fin false 0 e ∧ fminVal p true (.fin true 0 k) (.fin false 0 e) = .fin false 0 e ∧
    fcmp 0 (.fin false 0 e) (.fin true 0 k) = true) ∧
  (∀ (s mx : Bool) (v : FVal), v.isNan = false → fminVal false mx (.nan s) v = v ∧ fminVal false mx v (.nan s) = v ∧
    fminVal true mx (.nan s) v = .nan false ∧ fminVal true mx v (.nan s) = .nan false) ∧
  fclass .f32 0x7F800001 = 0 ∧ fclass .f32 0x7FC00000 = 1 ∧ fclass .f32 0xFF800000 = 2 ∧ fclass .f32 0xBF800000 = 3 ∧ fclass .f32 0x80000001 = 4 ∧
  fclass .f32 0x80000000 = 5 ∧ fclass .f32 0 = 6 ∧ fclass .f32 1 = 7 ∧ fclass .f32 0x3F800000 = 8 ∧ fclass .f32 0x7F800000 = 9 ∧ fclass .bf16 1 = 7

/-- FRND, FSCALE, FCVT, I2F, F2I, FPACK and FUNPK. Each acting lane gets: FRND, the value rounded to an integer in its own format, inexact only with .x; FSCALE, Out of A · 2^n with n read as .s32; FCVT, the exact source value rounded to the destination type; I2F, the exact integer rounded; F2I, the value rounded, 0 for NaN and the nearer bound out of range, each invalid, a narrow result extended; FPACK, two elements rounded alone; FUNPK, element SUB widened exactly. -/
def Obligations.FloatRoundScaleAndConvert : Prop :=
  (∀ f : VF,
    PerLaneFp (.frnd f) (fun fmt a _ _ =>
      match fsrc fmt f.ty f.na a with
      | .fin n m e => ((roundTy fmt f.ty .rn (.fin n (roundTo f.rnd n m e 0).1 0)).1, if f.sub = 1 ∧ (roundTo f.rnd n m e 0).2 then fNX else 0)
      | .inf n => ((roundTy fmt f.ty .rn (.inf n)).1, 0)
      | .nan sg => ((roundTy fmt f.ty .rn (.nan sg)).1, if sg then fINV else 0)) ∧
    PerLaneFp (.fcvt f) (fun fmt a _ _ =>
      deliverF fmt f.ty f.rnd f.sat [fsrc fmt (VF.srcTy f) f.na a] (fsrc fmt (VF.srcTy f) f.na a, 0)) ∧
    PerLaneFp (.i2f f) (fun fmt a _ _ =>
      deliverF fmt f.ty f.rnd f.sat [] (.fin (decide (ival (VF.srcTy f) a < 0)) (ival (VF.srcTy f) a).natAbs 0, 0)) ∧
    PerLaneFp (.f2i f) (fun fmt a _ _ =>
      ((toInt f.ty f.rnd (fsrc fmt (VF.srcTy f) f.na a)).1,
       (toInt f.ty f.rnd (fsrc fmt (VF.srcTy f) f.na a)).2 ||| if (fsrc fmt (VF.srcTy f) f.na a).isSig then fINV else 0)) ∧
    PerLaneFp (.fpack f) (fun fmt a b _ =>
      (BitVec.ofNat 64
        ((deliverF fmt (eltTy f.ty) f.rnd f.sat [fsrc fmt .f32 f.na a] (fsrc fmt .f32 f.na a, 0)).1.toNat +
         (deliverF fmt (eltTy f.ty) f.rnd f.sat [fsrc fmt .f32 f.nb b] (fsrc fmt .f32 f.nb b, 0)).1.toNat * 2 ^ 16),
       (deliverF fmt (eltTy f.ty) f.rnd f.sat [fsrc fmt .f32 f.na a] (fsrc fmt .f32 f.na a, 0)).2 |||
       (deliverF fmt (eltTy f.ty) f.rnd f.sat [fsrc fmt .f32 f.nb b] (fsrc fmt .f32 f.nb b, 0)).2)) ∧
    PerLaneFp (.funpk f) (fun fmt a _ _ =>
      deliverF fmt .f32 .rn false [fsrc fmt (eltTy f.ty) f.na (elt a (f.sub.toNat % 2))] (fsrc fmt (eltTy f.ty) f.na (elt a (f.sub.toNat % 2)), 0)) ∧
    PerLaneFp (.fscale f) (fun fmt a b _ =>
      deliverF fmt f.ty f.rnd f.sat [fsrc fmt f.ty f.na a]
        (match fsrc fmt f.ty f.na a with | .fin g m e => .fin g m (e + max (-5000) (min 5000 (ival .s32 b))) | v => v, 0))) ∧
  -- the worked results of R233
  (∀ fmt, deliverF fmt .f16 .rn false [] (.fin false 70000 0, 0) = (0x7C00, fOF ||| fNX) ∧ deliverF fmt .f16 .rz false [] (.fin false 70000 0, 0) = (0x7BFF, fOF ||| fNX)) ∧
  toInt .s8 .rn (.fin false 2007 (-3)) = (0x7F, fINV) ∧ toInt .s8 .rn (.fin true 3 (-1)) = (0xFFFFFFFE, fNX) ∧
  toInt .n64 .rz (.fin false 1 64) = (BitVec.allOnes 64, fINV) ∧ (∀ t r sg, toInt t r (.nan sg) = (0, fINV))

/-- HFMA2 and FDOT2. HFMA2 gives each element Out of A[e] · B’[e] + C[e] with B’ rearranged by SUB and NB after it; FDOT2 gives Out of A[0] · B[0] + A[1] · B[1] + C in .f32, products and sum exact and rounded once; opposite infinities among the products and C are invalid. -/
def Obligations.PackedFusedAndDotResults : Prop :=
  ∀ f : VF,
    PerLaneFp (.hfma2 f) (fun fmt a b c =>
      perElem f.ty (fun a b c =>
        deliverF fmt (eltTy f.ty) f.rnd f.sat [fsrc fmt (eltTy f.ty) f.na a, fsrc fmt (eltTy f.ty) f.nb b, fsrc fmt (eltTy f.ty) false c]
          ((fsrc fmt (eltTy f.ty) f.na a).fma f.rnd (fsrc fmt (eltTy f.ty) f.nb b) (fsrc fmt (eltTy f.ty) false c)))
        a
        (match f.sub.toNat with
         | 0 => BitVec.ofNat 64 ((elt b 0).toNat + (elt b 1).toNat * 2 ^ 16)
         | 1 => BitVec.ofNat 64 ((elt b 0).toNat + (elt b 0).toNat * 2 ^ 16)
         | 2 => BitVec.ofNat 64 ((elt b 1).toNat + (elt b 1).toNat * 2 ^ 16)
         | _ => BitVec.ofNat 64 ((elt b 1).toNat + (elt b 0).toNat * 2 ^ 16)) c) ∧
    PerLaneFp (.fdot2 f) (fun fmt a b c =>
      let p0 := (fsrc fmt (eltTy f.ty) f.na (elt a 0)).mul (fsrc fmt (eltTy f.ty) f.nb (elt b 0))
      let p1 := (fsrc fmt (eltTy f.ty) f.na (elt a 1)).mul (fsrc fmt (eltTy f.ty) f.nb (elt b 1))
      let q := p0.1.add f.rnd p1.1
      let r := q.1.add f.rnd (fsrc fmt .f32 false c)
      deliverF fmt .f32 f.rnd f.sat
        [fsrc fmt (eltTy f.ty) f.na (elt a 0), fsrc fmt (eltTy f.ty) f.nb (elt b 0), fsrc fmt (eltTy f.ty) f.na (elt a 1),
         fsrc fmt (eltTy f.ty) f.nb (elt b 1), fsrc fmt .f32 false c]
        (r.1, p0.2 ||| p1.2 |||
          if [p0.1, p1.1, fsrc fmt .f32 false c].any (· == .inf true) && [p0.1, p1.1, fsrc fmt .f32 false c].any (· == .inf false) then fINV else 0))

/-- FRSQ, FEXP2, FLOG2, FSIN, FCOS and FTANH. Each acting lane gets the function’s result; for .f32 and every operand that is neither special nor an exact case (nor FTANH’s ±1), the result keeps the error bound of R229 whatever the part’s own value is, or is the correctly rounded one, and sets inexact; the special operands give their special results and flags. That the part’s own value is used where it keeps the bound is the model’s choice (log entry 5). -/
def Obligations.ApproximateFunctionsKeepTheirBound : Prop :=
  (∀ f : VF,
    PerLaneFp (.frsq f) (fun fmt a _ _ => appLane .rsq f fmt a) ∧ PerLaneFp (.fexp2 f) (fun fmt a _ _ => appLane .exp2 f fmt a) ∧
    PerLaneFp (.flog2 f) (fun fmt a _ _ => appLane .log2 f fmt a) ∧ PerLaneFp (.fsin f) (fun fmt a _ _ => appLane .sin f fmt a) ∧
    PerLaneFp (.fcos f) (fun fmt a _ _ => appLane .cos f fmt a) ∧ PerLaneFp (.ftanh f) (fun fmt a _ _ => appLane .tanh f fmt a)) ∧
  (∀ (fn : AppFn) (f : FFmt) (code : Nat) (a : FVal) (bits : DWord), appSpecial fn f a = none → appIsExact fn f a = false →
    (fn = .tanh → (FVal.fin false 91 0).le ((FVal.abs a).mul (.fin false 10 0)).1 = false) →
    (appOk fn f a (appResult fn f code a bits).1 = true ∨ (appResult fn f code a bits).1 = (f.round .rn (appExact fn false a)).1) ∧
    (appResult fn f code a bits).2.1 &&& fNX = fNX) ∧
  (∀ (fn : AppFn) (f : FFmt) (code : Nat) (a : FVal) (bits : DWord) (r : Nat × BitVec 5), appSpecial fn f a = some r →
    appResult fn f code a bits = (r.1, r.2, false)) ∧
  (∀ (n : Bool) (e : Int),
    appSpecial .rsq f32F (.fin n 0 e) = some (if n then 0xFF800000 else 0x7F800000, fDZ) ∧ appSpecial .exp2 f32F (.fin n 0 e) = some (0x3F800000, 0) ∧
    appSpecial .log2 f32F (.fin n 0 e) = some (0xFF800000, fDZ) ∧ appSpecial .sin f32F (.fin n 0 e) = some (if n then 0x80000000 else 0, 0) ∧
    appSpecial .cos f32F (.fin n 0 e) = some (0x3F800000, 0) ∧ appSpecial .tanh f32F (.fin n 0 e) = some (if n then 0x80000000 else 0, 0) ∧
    appSpecial .sin f32F (.inf n) = some (0x7FC00000, fINV) ∧ appSpecial .cos f32F (.inf n) = some (0x7FC00000, fINV) ∧
    appSpecial .tanh f32F (.inf n) = some (if n then 0xBF800000 else 0x3F800000, 0))

/-- A value that a format holds is delivered unchanged. For .f64, .f32, .f16 and .bf16 and every rounding direction: rounding the exact value of a bit pattern that is no NaN gives that bit pattern back, with no flag (subnormals, zeros of both signs and infinities among them); a NaN becomes the canonical one. -/
def Obligations.RoundingKeepsRepresentableValues : Prop :=
  ∀ f ∈ [f64F, f32F, f16F, bf16F], ∀ (r : Rnd) (b : Nat), b < 2 ^ (1 + f.eb + f.mb) →
    f.round r (f.decode b) = if (f.decode b).isNan then (f.qnan, 0) else (b, 0)

/-- A shadow mismatch writes nothing and rolls back. For every instruction of the block: where an upset of the core makes some lane’s result differ from the shadow’s as R115 lists, and the result is written, the instruction ends in the trap 0x22: no destination and no flag of any lane is written, the acting threads take the trap’s registers with TRAP_LANES exactly the mismatching lanes, the core’s self-test and the launch’s rollback are due, and no handler is entered. Where DST discards the result the instruction is performed. FSET, FCLASS and F2I differ where any bit does. The lists of R115: NaN or infinity in one of the two only; the signs of nonzero results; and the example of the top seven bits. -/
def Obligations.ShadowMismatchIsExact : Prop :=
  (∀ f : VF, ∀ q ∈ [(Instr.fadd f, some f.ty), (.fsub f, some f.ty), (.fmul f, some f.ty), (.ffma f, some f.ty), (.fmin f, some f.ty), (.fmax f, some f.ty),
      (.fset f, none), (.fclass f, none), (.frcp f, some f.ty), (.frsq f, some f.ty), (.fsqrt f, some f.ty), (.fdiv f, some f.ty), (.fexp2 f, some f.ty),
      (.flog2 f, some f.ty), (.fsin f, some f.ty), (.fcos f, some f.ty), (.ftanh f, some f.ty), (.frnd f, some f.ty), (.fscale f, some f.ty),
      (.fcvt f, some f.ty), (.i2f f, some f.ty), (.f2i f, none), (.hfma2 f, some f.ty), (.fdot2 f, some .f32), (.fpack f, some f.ty), (.funpk f, some .f32)],
    ∃ (k : Shadow) (g : Vector Word 8 → DWord → DWord → DWord → DWord × BitVec 5), k.ty = q.2 ∧ ∀ s : State,
      let i := q.1
      let good (l : Nat) : DWord := (g (s.fmtOf s.cur) (s.srcs i l).1 (s.srcs i l).2.1 (s.srcs i l).2.2).1
      let bad := (s.acting i).filter fun l =>
        k.bad (s.fmtOf s.cur) (s.srcs i l).1 (s.srcs i l).2.1 (s.srcs i l).2.2 (good l ^^^ s.flips s.cur l) (good l)
      s.acts i = true → Operand.still i.fv.a = true → Operand.still i.fv.b = true → Operand.still i.fv.c = true →
      (Instr.writesDst i = true → (vget s.cores (s.team s.cur.team).coreNo).upset ≠ [] → bad ≠ [] → (∃ n, s.cur.mem = .group n) →
        ∃ t, exec i s = .next t ∧
          (∀ l ∈ s.acting i, t.thread s.cur l = { s.thread s.cur l with
            trapPc := s.path.slotPc, trapCause := 0x22, trapAddr := 0, trapLanes := ofBits 32 bad, trapAux := 0 }) ∧
          (∀ l, l ∉ s.acting i → t.thread s.cur l = s.thread s.cur l) ∧
          .rollback (s.team s.cur.team).id.ctx (s.team s.cur.team).id.gen ∈ t.agenda ∧
          .selfTest (.core (s.team s.cur.team).id.cluster (s.team s.cur.team).id.core) ∈ t.agenda) ∧
      (Instr.writesDst i = false → ∃ t, exec i s = .next (s.performed i t) ∧ ∀ l, (t.thread s.cur l).g = (s.thread s.cur l).g ∧
        (t.thread s.cur l).p = (s.thread s.cur l).p)) ∧
  (∀ (k : Shadow) (fmt : Vector Word 8) (a b c main good : DWord), k.ty = none → k.bad fmt a b c main good = (main != good)) ∧
  (∀ (e : Int) (m c : FVal) (ops : List FVal),
    (m.isNan ≠ c.isNan ∨ m.isInf ≠ c.isInf → shadowBad e m c ops = true) ∧
    (m.isNan = false → c.isNan = false → m.isZero = false → c.isZero = false → m.neg ≠ c.neg → shadowBad e m c ops = true)) ∧
  -- 1.011010 · 2^3 against 1.011101 · 2^3 and 1.011100 · 2^3
  shadowBad (-126) (.fin false 90 (-3)) (.fin false 93 (-3)) [] = true ∧ shadowBad (-126) (.fin false 90 (-3)) (.fin false 92 (-3)) [] = false

/-! ## Control transfer (R189 to R200) and traps (R345 to R351) -/

/-- Where an instruction leaves the lanes of its path. When an instruction is over and its clause asks for no trap fence, every live lane of the issue group stands where the instruction sent it, else at the next slot of the clause or, past the last slot, at NextHeader(H); a thread of another lane, and everything but the places, is as before; and the path goes on with the next slot, or is over with the clause. -/
def Obligations.LanesMoveOn : Prop :=
  ∀ (s : State) (p : Party) (r : Run) (dest : List (Nat × Spot)), (s.group p).run = some r → (r.last && (headerOf r.hword).f) = false →
    (∀ l, l < 32 → r.lanes.getLsbD l = true → (s.thread p l).life = .live →
      (s.advance p [] dest).thread p l =
        { s.thread p l with pc := (((dest.find? (·.1 == l)).map (·.2)).getD r.next).1, mid := (((dest.find? (·.1 == l)).map (·.2)).getD r.next).2 }) ∧
    (∀ l, r.lanes.getLsbD l = false ∨ (s.thread p l).life ≠ .live → (s.advance p [] dest).thread p l = s.thread p l) ∧
    (r.last = true → r.next = (r.hdr + BitVec.ofNat 64 (8 * ((headerOf r.hword).slots + 1)), none) ∧ ((s.advance p [] dest).group p).run = none) ∧
    (r.last = false → r.next.1 = r.slotPc + 8 ∧ ∀ q, ((s.advance p [] dest).group p).run = some q → q.idx = r.idx + 1 ∧ q.words = r.words)

/-- NOP, BRA, CALL, BRX, CALLX and RET. NOP has no effect. BRA sends the acting lanes to Target(H, lit). CALL writes the link NextHeader(H) to DST and sends them to Target(H, lit). BRX, CALLX and RET read the pair SA: when it is a multiple of 8 in every acting lane they go there, the link first written to DST; when it is not in some lane, trap 0x0C with exactly those lanes and TRAP_ADDR of the lowest, no lane branches and no link is written. While a queue register among the sources has no entry, or the link’s has no room, every lane of the issue group waits (DEDUCED, log entry 27). -/
def Obligations.BranchesCallsAndReturns : Prop :=
  ∀ s : State,
    (∀ f : VF, s.acts (.nop f) = true → exec (.nop f) s = .next (s.performed (.nop f) (s.begun (.nop f)))) ∧
    (∀ (g : Guard) (off : BitVec 32), s.acts (.bra g off) = true →
      exec (.bra g off) s = .next (s.gone (.bra g off) (s.begun (.bra g off))
        ((s.acting (.bra g off)).map fun l => (l, (s.path.hdr + BitVec.ofInt 64 (8 * off.toInt), none))))) ∧
    (∀ (g : Guard) (dst : Operand) (off : BitVec 32), s.acts (.call g dst off) = true →
      ((s.begun (.call g dst off)).storeField s.cur true dst ((s.acting (.call g dst off)).map fun l => (l, s.path.next.1))).2 = true →
      exec (.call g dst off) s = .next (s.gone (.call g dst off)
        ((s.begun (.call g dst off)).storeField s.cur true dst ((s.acting (.call g dst off)).map fun l => (l, s.path.next.1))).1
        ((s.acting (.call g dst off)).map fun l => (l, (s.path.hdr + BitVec.ofInt 64 (8 * off.toInt), none))))) ∧
    (∀ (g : Guard) (dst : Operand) (off : BitVec 32), s.acts (.call g dst off) = true →
      ((s.begun (.call g dst off)).storeField s.cur true dst ((s.acting (.call g dst off)).map fun l => (l, s.path.next.1))).2 = false →
      ∃ t, exec (.call g dst off) s = .next t ∧ s.AllWait t) ∧
    ∀ f : VF, ∀ i ∈ [Instr.brx f, .callx f, .ret f], s.acts i = true →
      (∀ src u, (s.begun i).sources s.cur i.fv (s.acting i) = some (src, u) →
        ((∀ l ∈ s.acting i, (src l).1.toNat % 8 = 0) →
          (u.storeField s.cur true i.fv.dst ((s.acting i).map fun l => (l, s.path.next.1))).2 = true →
          exec i s = .next (s.gone i (u.storeField s.cur true i.fv.dst ((s.acting i).map fun l => (l, s.path.next.1))).1
            ((s.acting i).map fun l => (l, ((src l).1, none))))) ∧
        ((∀ l ∈ s.acting i, (src l).1.toNat % 8 = 0) →
          (u.storeField s.cur true i.fv.dst ((s.acting i).map fun l => (l, s.path.next.1))).2 = false → ∃ t, exec i s = .next t ∧ s.AllWait t) ∧
        ∀ b bs, (s.acting i).filter (fun l => (src l).1.toNat % 8 != 0) = b :: bs →
          exec i s = .next (s.trapped i u (s.slotTrap 0x0C (b :: bs) (src b).1 0))) ∧
      ((s.begun i).sources s.cur i.fv (s.acting i) = none →
        ∃ t, exec i s = .next t ∧ s.AllWait t)

/-- EXIT and SLEEP. EXIT ends every acting thread and no other; with every thread of the team ended, the team’s exit is due. SLEEP makes each acting thread ineligible for min(n, 1,048,575) clocks, and with n = 0 in some lane the group yields. While the queue register that SLEEP names has no entry every lane of the issue group waits (DEDUCED, log entry 27). The expiry of a sleep ends it in that thread alone. -/
def Obligations.ThreadsEndAndSleep : Prop :=
  (∀ (f : VF) (s : State), s.acts (.exit f) = true → s.acting (.exit f) ≠ [] →
    exec (.exit f) s = .next (s.performed (.exit f) (((s.begun (.exit f)).gangExit s.cur).endThreads s.cur (s.acting (.exit f)))) ∧
    (∀ l ∈ s.acting (.exit f), ((s.endThreads s.cur (s.acting (.exit f))).thread s.cur l).life = .ended) ∧
    (∀ l, l ∉ s.acting (.exit f) → ((s.endThreads s.cur (s.acting (.exit f))).thread s.cur l).life = (s.thread s.cur l).life) ∧
    (((s.endThreads s.cur (s.acting (.exit f))).team s.cur.team).allEnded = true →
      .teamEnd s.cur.team ∈ (s.endThreads s.cur (s.acting (.exit f))).agenda)) ∧
  (∀ (f : VF) (s : State), s.acts (.exit f) = true → s.acting (.exit f) = [] → exec (.exit f) s = .next (s.performed (.exit f) (s.begun (.exit f)))) ∧
  (∀ (f : VF) (s : State), s.acts (.sleep f) = true →
    ((s.begun (.sleep f)).sources s.cur (Instr.sleep f).fv (s.acting (.sleep f)) = none →
      ∃ t, exec (.sleep f) s = .next t ∧ s.AllWait t)) ∧
  (∀ (f : VF) (s : State), s.plain (.sleep f) = true →
    ∃ t, exec (.sleep f) s = .next t ∧ Local s t ∧
      (∀ l ∈ s.acting (.sleep f), Thread.Moved { s.thread s.cur l with sleep := min ((s.srcs (.sleep f) l).2.1.setWidth 32).toNat 1048575 } (t.thread s.cur l)) ∧
      (∀ l, l ∉ s.acting (.sleep f) → Thread.Moved (s.thread s.cur l) (t.thread s.cur l)) ∧
      ((∃ l ∈ s.acting (.sleep f), ((s.srcs (.sleep f) l).2.1.setWidth 32).toNat = 0) → (t.group s.cur).yield = true)) ∧
  ∀ (p : Party) (l : Nat) (s : State), s.has p = true → l < 32 →
    ∃ t, exec (.sleepExpiry p l) s = .next t ∧ t.thread p l = { s.thread p l with sleep := 0 } ∧ ∀ k, k ≠ l → t.thread p k = s.thread p k

/-- TRAP, TRET, TRAPF and BRK. TRAP raises 0x29 in the acting lanes with TRAP_PC at NextHeader(H) and the code in TRAP_AUX. TRET sends each acting thread that is in its handler to its TRAP_PC, FLAGS gaining HFL and INH and HFL cleared; the acting threads that are in none, and only they, raise 0x29 with TRAP_AUX[63:32] = 1 at the slot. TRAPF takes 0x18 past the clause in exactly the lanes, outside a handler, whose enabled flags are set. BRK parks the acting threads with their trap registers set past the clause, each with its own code in TRAP_AUX, inside a handler too, and the team begins to park. TRAP and BRK wait with every lane of the issue group for the entries of a queue register that they name (DEDUCED, log entry 27); without an acting lane TRAP, BRK, TRET and TRAPF are performed with no effect. -/
def Obligations.SoftwareTrapsBreakpointsAndReturn : Prop :=
  ∀ (f : VF) (s : State),
    (∀ i ∈ [Instr.trap f, .brk f], s.acts i = true → ∀ src u, (s.begun i).sources s.cur i.fv (s.acting i) = some (src, u) →
      s.acting i = [] → exec i s = .next (s.performed i (s.begun i))) ∧
    (∀ i ∈ [Instr.trap f, .brk f], s.acts i = true → (s.begun i).sources s.cur i.fv (s.acting i) = none →
      ∃ t, exec i s = .next t ∧ s.AllWait t) ∧
    (s.acts (.trap f) = true → ∀ l ls src u, s.acting (.trap f) = l :: ls →
      (s.begun (.trap f)).sources s.cur (Instr.trap f).fv (l :: ls) = some (src, u) →
      exec (.trap f) s = .next (s.trapped (.trap f) u
        { cause := 0x29, addr := 0, aux := ((src l).2.1.setWidth 32).toNat, lanes := ofBits 32 (l :: ls), pc := s.path.next.1, mid := none })) ∧
    (s.acts (.tret f) = true →
      let inside := (s.acting (.tret f)).filter fun l => (s.thread s.cur l).inh
      let outside := (s.acting (.tret f)).filter fun l => !(s.thread s.cur l).inh
      let back : State := inside.foldl (fun u l => u.modThread s.cur l fun h =>
        { h with flags := h.flags ||| h.hfl, inh := false, hfl := 0, pc := h.resume.1, mid := h.resume.2 }) (s.begun (.tret f))
      exec (.tret f) s = .next (s.gone (.tret f)
        (if outside = [] then back else back.takeTrap s.cur outside (s.slotTrap 0x29 outside 0 (BitVec.ofNat 64 (2 ^ 32))))
        (inside.map fun l => (l, (s.thread s.cur l).resume)))) ∧
    (∀ l, (s.thread s.cur l).resume.1 = (s.thread s.cur l).trapPc) ∧
    (s.acts (.trapf f) = true →
      ∃ u : State, exec (.trapf f) s = .next (s.performed (.trapf f) (u.fence s.cur (s.acting (.trapf f)))) ∧
        (∀ l ∈ s.acting (.trapf f), u.thread s.cur l = { s.thread s.cur l with pc := s.path.next.1, mid := s.path.next.2 }) ∧
        (∀ l, l ∉ s.acting (.trapf f) → u.thread s.cur l = s.thread s.cur l) ∧
        let e (l : Nat) : BitVec 5 :=
          if (s.thread s.cur l).life = .live ∧ (s.thread s.cur l).inh = false then (s.thread s.cur l).flags &&& (s.thread s.cur l).en else 0
        ((∀ l ∈ s.acting (.trapf f), e l = 0) → u.fence s.cur (s.acting (.trapf f)) = u) ∧
        (s.creg (s.ctxOf s.cur) .trapBase ≠ 0 → (∃ n, s.cur.mem = .group n) →
          (∀ l, l ∉ s.acting (.trapf f) → (u.fence s.cur (s.acting (.trapf f))).thread s.cur l = s.thread s.cur l) ∧ ∀ l ∈ s.acting (.trapf f),
          (e l = 0 → (u.fence s.cur (s.acting (.trapf f))).thread s.cur l = u.thread s.cur l) ∧
          (e l ≠ 0 → ∃ m, (u.fence s.cur (s.acting (.trapf f))).thread s.cur l =
            { u.thread s.cur l with
              pc := s.creg (s.ctxOf s.cur) .trapBase, mid := none, inh := true, hfl := 0, trapPc := s.path.next.1, trapMid := m, trapCause := 0x18
              trapAddr := 0, trapLanes := ofBits 32 ((s.acting (.trapf f)).filter fun k => e k == e l), trapAux := (e l).setWidth 64
              wait := none, sleep := 0 }))) ∧
    (s.acts (.brk f) = true → ∀ l ls src v, s.acting (.brk f) = l :: ls →
      (s.begun (.brk f)).sources s.cur (Instr.brk f).fv (l :: ls) = some (src, v) →
      ∃ u : State, exec (.brk f) s = .next (s.performed (.brk f) u) ∧ (u.team s.cur.team).parking = true ∧ .teamParked (s.ctxOf s.cur) ∈ u.agenda ∧
        (∀ k ∈ l :: ls, u.thread s.cur k = { v.thread s.cur k with
          parked := true, trapPc := s.path.next.1, trapMid := none, trapCause := 0x28, trapAddr := 0, trapLanes := ofBits 32 (l :: ls)
          trapAux := ((src k).2.1.setWidth 32).setWidth 64 }) ∧
        ∀ k, k ∉ l :: ls → u.thread s.cur k = v.thread s.cur k)

/-- Taking a trap, and the double fault. A trap that a group takes with TRAP_BASE set and no entering thread inside a handler: each entering thread stands at TRAP_BASE with INH set, HFL clear, and TRAP_PC, TRAP_CAUSE, TRAP_ADDR, TRAP_LANES and TRAP_AUX as the trap gives them, keeps its registers, predicates, FLAGS and TRAP_EN mask; no other thread of the group changes. With TRAP_BASE 0, or with an entering thread in its handler, the team is killed instead: its threads end, its exit and the error report of its launch with cause 4 are due. Cause 4 and the order of these device steps are the model’s (log entry 8). -/
def Obligations.TakingATrap : Prop :=
  ∀ (s : State) (g : Nat) (p : Party) (lanes : List Nat) (x : Trap), p.mem = .group g → s.has p = true → lanes.Nodup → (∀ l ∈ lanes, l < 32) →
    (s.creg (s.ctxOf p) .trapBase ≠ 0 → (∀ l ∈ lanes, (s.thread p l).inh = false) →
      (∀ l ∈ lanes, ∃ m, (s.takeTrap p lanes x).thread p l =
        { s.thread p l with
          pc := s.creg (s.ctxOf p) .trapBase, mid := none, inh := true, hfl := 0, trapPc := x.pc, trapMid := m, trapCause := BitVec.ofNat 8 x.cause
          trapAddr := x.addr, trapLanes := x.lanes, trapAux := x.aux, wait := none, sleep := 0 }) ∧
      (∀ l, l ∉ lanes → (s.takeTrap p lanes x).thread p l = s.thread p l) ∧
      (s.takeTrap p lanes x).mem = s.mem ∧ (s.takeTrap p lanes x).agenda = s.agenda) ∧
    (s.creg (s.ctxOf p) .trapBase = 0 ∨ (∃ l ∈ lanes, (s.thread p l).inh = true) →
      ((s.takeTrap p lanes x).team p.team).killed = true ∧ (∀ l, ((s.takeTrap p lanes x).thread p l).life ≠ .live) ∧
      .teamEnd p.team ∈ (s.takeTrap p lanes x).agenda ∧
      .errorReport (s.ctxOf p) (s.team p.team).id.gen 4 ∈ (s.takeTrap p lanes x).agenda)

/-! ## Waits, phases, barriers, hand-overs and launches (R144 to R159, R282 to R297) -/

/-- The lanes of the issue group. -/
abbrev Sys2Proof.Machine.State.crew (s : State) : List Nat := bitsOf s.path.lanes
/-- How a wait of the whole issue group goes from a state: over, tried again while an acquire finds its lanes' pool not clear, a fault in the acting
lanes, or every lane of the group waits. -/
def Sys2Proof.Machine.State.waitsFor (s : State) (i : Instr) (u : State) (w : Wait) : Prop :=
    (u.waitOver s.cur w = true →
      ((w.scope.isSome = true → u.poolClear s.cur (s.acting i) = true) → exec i s = .next (s.performed i (u.waitAcquire s.cur w))) ∧
      (w.scope.isSome = true → u.poolClear s.cur (s.acting i) = false → exec i s = .next (s.again i u))) ∧
    (u.waitOver s.cur w = false →
      (u.waitFault s.cur w = none → exec i s = .next (s.waiting i u (s.crew.map fun l => (l, w)))) ∧
      ∀ cause addr aux, u.waitFault s.cur w = some (cause, addr, aux) →
        exec i s = .next (s.trapped i u (s.slotTrap cause (s.acting i) addr aux)))
/-- Of lanes that wait at one path, no home that they wait for lies in an invalid line of a map (R81). -/
def Sys2Proof.Machine.State.noFill (s : State) (p : Party) (r : Run) : Prop :=
  ∀ l, r.lanes.getLsbD l = true → ∀ w, (s.thread p l).wait = some w → ∀ a ∈ w.homes, s.invalidLine a = none

/-- WAIT, WAITTL and WAITCT. Each goes on, in the same issue, when what it waits for has come, with the acquire of its scope (device for WAITTL and WAITCT, none for WAIT); else every lane of the issue group waits at it, or, for a counter of a stopped copy context, its acting lanes take the fault of R89. WAIT: the four class counters at most their fields. WAITTL: timeline counter N at least the target. WAITCT: the 8 bytes at the counter’s home, unsigned, at least the target; a translation of the .g form that fails is a fault and never a demand fault. A stopped context of any team whose failed record names the counter makes WAITCT take its fault, one of the own team WAITTL. While the acting lanes have an atomic or an ACCST yet to perform, or what an acquire brings home is held (R44), a satisfied WAITTL or WAITCT is issued again. A .g counter’s page is then in the TLBs. With no acting lane each is performed with no effect. -/
def Obligations.WaitsHoldTheIssueGroup : Prop :=
  ∀ (f : VF) (s : State),
    (∀ i ∈ [Instr.wait f, .waittl f, .waitct f], s.acts i = true → s.acting i = [] → exec i s = .next (s.performed i (s.begun i))) ∧
    (s.acts (.wait f) = true → s.acting (.wait f) ≠ [] → s.waitsFor (.wait f) (s.begun (.wait f)) (.counters (numOf f.dst) (numOf f.a) (numOf f.b) (numOf f.c))) ∧
    (s.acts (.waittl f) = true → ∀ l ls, s.acting (.waittl f) = l :: ls →
      s.waitsFor (.waittl f) (s.begun (.waittl f)) (.tl (numOf f.dst) ((s.begun (.waittl f)).readOp s.cur l (f.ty == .b64) f.b).toNat)) ∧
    (s.acts (.waitct f) = true → ∀ l ls loc pg, s.acting (.waitct f) = l :: ls →
      (if f.sub = 1 then (s.begun (.waitct f)).ldsrRange (s.team s.cur.team) 1 (((s.begun (.waitct f)).readOp s.cur l false f.a).setWidth 32) 8 8
       else (s.begun (.waitct f)).globalCheck s.cur ((s.begun (.waitct f)).readOp s.cur l true f.a) 8 .read) = .ok loc pg →
      s.waitsFor (.waitct f)
        (if f.sub = 1 then s.begun (.waitct f)
         else (s.begun (.waitct f)).tlbUseAll s.cur [((s.begun (.waitct f)).readOp s.cur l true f.a).toNat] .read) (.ct ((List.range 8).map fun i => loc + i) ((s.begun (.waitct f)).readOp s.cur l true f.b).toNat)) ∧
    (s.acts (.waitct f) = true → ∀ l ls rank e va d, s.acting (.waitct f) = l :: ls → f.sub ≠ 1 →
      (s.begun (.waitct f)).globalCheck s.cur ((s.begun (.waitct f)).readOp s.cur l true f.a) 8 .read = .xfault rank e va d → e.held = false →
      exec (.waitct f) s = .next (s.faulted (.waitct f) (s.begun (.waitct f)) .read e [l] va)) ∧
    (∀ (t : Team) (k : Nat) (q : CopyRec), k < 4 → (vget t.copy k).failed? = some q → ((vget t.copy k).waitFault k).isSome = true →
      (∀ a locs target, t ∈ s.teams → s.cntLoc t q.w = .ok (some a) → locs.head? = some a → (s.waitFault s.cur (.ct locs target)).isSome = true) ∧
      (∀ target, t = s.team s.cur.team → q.no ≤ target → (s.waitFault s.cur (.tl k target)).isSome = true)) ∧
    (∀ a b c d, s.waitOver s.cur (.counters a b c d) = true ↔
      (s.group s.cur).ldCnt ≤ a ∧ (s.group s.cur).stCnt ≤ b ∧ (s.group s.cur).cpCnt ≤ c ∧ (s.group s.cur).tlCnt ≤ d) ∧
    (∀ n target, s.waitOver s.cur (.tl n target) = true ↔ target ≤ (vget (s.team s.cur.team).tl n).done) ∧
    (∀ loc target, s.waitOver s.cur (.ct ((List.range 8).map fun i => loc + i) target) = true ↔
      target ≤ ofLe ((List.range 8).map fun i => s.homeRead (loc + i))) ∧
    (∀ (c : CopyCtx) (k : Nat), c.fstat < 6 → c.waitFault k =
      match c.fstat with
      | 2 => some (0x0E, c.faddr, BitVec.ofNat 64 (2 + 16 * k)) | 3 => some (0x0E, c.faddr, BitVec.ofNat 64 (3 + 16 * k))
      | 4 => some (0x0F, c.fsurf, BitVec.ofNat 64 c.fsub) | 5 => some (0x1B, c.faddr, BitVec.ofNat 64 (5 + 16 * k)) | _ => none)

/-- WAIT_END: lanes that wait go on once their event has come. For lanes that wait on counters, a timeline or a completion counter at one instruction: once that has come (and, for a wait that acquires, their pool is clear), they all leave the instruction together after its acquire; while it has not come and no stopped copy context makes it a fault, nothing changes. Barrier waiters do so once the open phase is complete, which is settled first, for a thread may have exited. A receiver whose hand-over is there takes it in that step, a group whose quota move is done its status. A counter or record in an invalid line of a map is filled first; where the fill cannot be translated the instruction is issued again. A lane that leaves before the end of its clause stands at the next slot, without a wait. A lane that waits for an operand or to be issued again becomes eligible where it stands. -/
def Obligations.AWaitEndsAtItsEvent : Prop :=
  ∀ (p : Party) (lane : Nat) (s : State) (w : Wait) (r : Run), (s.thread p lane).wait = some w → s.blockedRun? p lane = some r →
    let same := (bitsOf r.lanes).filter fun l => (s.thread p l).wait == some w
    let mates := (bitsOf r.lanes).filter fun l => (s.thread p l).wait.isSome
    (∀ t, s.filled (mates.flatMap fun l => ((s.thread p l).wait.map Wait.homes).getD []) (.go s 0) = .wait t → exec (.waitEnd p lane) s = .next t) ∧
    (∀ t va e a, s.filled (mates.flatMap fun l => ((s.thread p l).wait.map Wait.homes).getD []) (.go s 0) = .fault t va e a → e.held = false →
      exec (.waitEnd p lane) s = .next (s.wake p mates)) ∧
    (s.noFill p r →
      ((∃ a b c d, w = .counters a b c d) ∨ (∃ n v, w = .tl n v) ∨ (∃ l v, w = .ct l v) →
        (s.waitOver p w = true → (w.scope.isSome = true → s.poolClear p same = true) →
          exec (.waitEnd p lane) s = .next (same.foldl (fun u l => u.goOn p l) (s.waitAcquire p w))) ∧
        (s.waitOver p w = false → s.waitFault p w = none → exec (.waitEnd p lane) s = .next s)) ∧
      (∀ n v, w = .bar n v →
        let u := s.modTeam p.team fun t => t.barSettle n
        (v < (vget (u.team p.team).bars n).phase → u.poolClear p same = true →
          exec (.waitEnd p lane) s = .next (same.foldl (fun u l => u.goOn p l) u)) ∧
        ((vget (u.team p.team).bars n).phase ≤ v → exec (.waitEnd p lane) s = .next u)) ∧
      (∀ ch n f c snd rcv v bad takers, w = .receiver ch n → decodeWord r.word = .ok (.xfer f c snd rcv) →
        ((vget (s.team p.team).chans ch).entries.find? fun e => e.1 == n) = some (n, v, bad, takers) → s.poolClear p same = true →
        s.queueTakes p f.dst (2 * (s.guarded p r same).length) = true →
        exec (.waitEnd p lane) s = .next ((s.receive p ch n (s.guarded p r same) f.dst v bad).goAll p same)) ∧
      (∀ src dst f a b st q, w = .roleq src dst → decodeWord r.word = .ok (.roleq f a b) →
        let u := s.roleqMeet p.team src dst
        ((u.team p.team).roleq.find? fun x => x.group == groupIx p && x.src == src && x.dst == dst) = some q → q.status = some st →
        exec (.waitEnd p lane) s = .next (((same.foldl (fun v l => v.deliverOp p l false f.dst (BitVec.ofNat 64 st)) u).modTeam p.team fun t =>
          { t with roleq := t.roleq.filter fun x => !(x.group == groupIx p && x.src == src && x.dst == dst) }).goAll p same)) ∧
      (w = .operand ∨ w = .retry → exec (.waitEnd p lane) s = .next (s.wake p same))) ∧
    (s.has p = true → lane < 32 → r.last = false → (s.goOn p lane).thread p lane =
      { s.thread p lane with wait := none, pc := r.hdr + BitVec.ofNat 64 (8 * (r.idx + 2)), mid := some (r.hdr, r.idx + 1) })

/-- What a release moves, and what an acquire shows, at each scope. Release by a thread, in one step. Team: its entries of the write buffer become visible, nothing moves. Cluster: its entries and the visible ones leave the write buffer, and those not yet at home join the end of the merge buffer in order; no home changes. Device: the merge buffer is then empty. System: the outbound queue too. Acquire, in one step: a team acquire changes no state; after a wider one every byte outside the write buffer reads, for every thread of the team, as the overlay value of its cluster; after a device or system acquire the merge buffer is empty, and after a system acquire the value is the home’s. -/
def Obligations.ReleasesAndAcquiresMoveWrites : Prop :=
  (∀ (s : State) (p : Party) (l : Nat), (s.team? p.team).isSome = true → (s.team p.team).id.cluster < 6 →
    let cl := (s.team p.team).id.cluster
    let go (e : WEntry) : Bool := e.writer == (p, l) || e.visible
    (((s.release p l .team).team p.team).ord.buf =
        (s.team p.team).ord.buf.map (fun e => if e.writer = (p, l) then { e with visible := true } else e) ∧
      (s.release p l .team).mem = s.mem ∧ (s.release p l .team).clusters = s.clusters) ∧
    (((s.release p l .cluster).team p.team).ord.buf = (s.team p.team).ord.buf.filter (!go ·) ∧
      (vget (s.release p l .cluster).clusters cl).merge =
        (vget s.clusters cl).merge ++ ((s.team p.team).ord.buf.filter fun e => go e && !e.homed).map (fun e => MEntry.plain e.cells) ∧
      (s.release p l .cluster).mem = s.mem) ∧
    (vget (s.release p l .device).clusters cl).merge = [] ∧
    (vget (s.release p l .system).clusters cl).merge = [] ∧ (vget (s.release p l .system).clusters cl).outq = []) ∧
  ∀ (s : State) (u : Nat), (s.team? u).isSome = true → (s.team u).id.cluster < 6 →
    s.acquire u .team = s ∧
    (∀ sc, sc ≠ .team → ∀ loc, (s.acquire u sc).snapRead ((s.acquire u sc).team u) loc = (s.acquire u sc).overlay (s.team u).id.cluster loc) ∧
    (∀ loc, (s.acquire u .cluster).overlay (s.team u).id.cluster loc = s.overlay (s.team u).id.cluster loc) ∧
    (vget (s.acquire u .device).clusters (s.team u).id.cluster).merge = [] ∧
    ∀ loc, (s.acquire u .system).snapRead ((s.acquire u .system).team u) loc = (s.acquire u .system).homeRead loc

/-- PHASE: the release and the acquire of every acting lane. With the acting lanes’ pool clear (no atomic or ACCST of theirs is yet to perform, R127, and nothing that would move home is held, R44): PHASE performs, for each acting lane in order, a release at its scope for .rel and .ra, then an acquire at its scope for .acq and .ra, after which at device and system scope clean lines of the team’s maps become invalid. A release at device or system scope first writes back the dirty lines of the maps; where that fails the acting lanes trap and neither release nor acquire happens. With a pool that is not clear, or a write-back that is held, nothing is performed and PHASE is issued again. -/
def Obligations.PhasePerformsItsSteps : Prop :=
  ∀ (f : VF) (s : State), s.acts (.phase f) = true → s.acting (.phase f) ≠ [] → 4 ≤ f.sub.toNat →
    let i := Instr.phase f
    let sc : Scope := match f.sub.toNat % 4 with | 0 => .team | 1 => .cluster | 2 => .device | _ => .system
    let rel : Bool := f.sub.toNat / 4 == 1 || f.sub.toNat / 4 == 3
    let acq : Bool := f.sub.toNat / 4 == 2 || f.sub.toNat / 4 == 3
    let wide : Bool := sc == .device || sc == .system
    let lane (u : State) (l : Nat) : State :=
      let v := if rel then u.release s.cur l sc else u
      if acq then (if wide then (v.acquire s.cur.team sc).dropClean s.cur.team else v.acquire s.cur.team sc) else v
    (s.poolClear s.cur (s.acting i) = false → exec i s = .next (s.again i (s.begun i))) ∧
    (s.poolClear s.cur (s.acting i) = true →
      ((rel && wide) = false → exec i s = .next (s.performed i ((s.acting i).foldl lane (s.begun i)))) ∧
      ((rel && wide) = true →
        (∀ u, (s.begun i).writeBack s.cur.team (s.team s.cur.team).allMaps = .ok u → exec i s = .next (s.performed i ((s.acting i).foldl lane u))) ∧
        (∀ u, (s.begun i).writeBack s.cur.team (s.team s.cur.team).allMaps = .hold u → (u.team s.cur.team).parking = false →
          exec i s = .next (s.again i u)) ∧
        ∀ u e va, (s.begun i).writeBack s.cur.team (s.team s.cur.team).allMaps = .fail u e va →
          exec i s = .next (s.faulted i u .engine e (s.acting i) va)))

/-- BAR: arrivals, counts and phases. With the acting lanes’ pool clear (no atomic or ACCST of theirs yet to perform, nothing held from home), every acting lane of BAR.bN, in ascending order, releases at team scope and arrives at barrier N; BAR goes on when the phase of every one of them is complete, else those lanes wait for it. An arrival that opens a phase sets its mode: with SA a register its count, clamped to 1–1,024, with SA = 0x1FF the live threads of the groups whose role the clause’s ROLE mask includes. The arrival that reaches the count completes the phase, and so does the exit of a thread that leaves no more than arrived; other barriers do not change. -/
def Obligations.TeamBarriers : Prop :=
  (∀ (f : VF) (s : State), s.acts (.bar f) = true → s.poolClear s.cur (s.acting (.bar f)) = true →
    let i := Instr.bar f
    let count (l : Nat) : Option Nat :=
      if f.a.isNone then none else some (max 1 (min 1024 (((s.begun i).readOp s.cur l false f.a).toNat % 2 ^ 32)))
    let arrive (x : State × List (Nat × Wait)) (l : Nat) : State × List (Nat × Wait) :=
      let v := x.1.release s.cur l .team
      (v.modTeam s.cur.team fun t => t.barArrive f.sub.toNat (groupIx s.cur) l (count l) (headerOf s.path.hword).role,
       x.2 ++ [(l, .bar f.sub.toNat (vget (v.team s.cur.team).bars f.sub.toNat).phase)])
    let u := (s.acting i).foldl arrive (s.begun i, [])
    let ws := u.2.filter fun w => !u.1.waitOver s.cur w.2
    (ws = [] → exec i s = .next (s.performed i u.1)) ∧ (ws ≠ [] → exec i s = .next (s.waiting i u.1 ws))) ∧
  (∀ (f : VF) (s : State), s.acts (.bar f) = true → s.poolClear s.cur (s.acting (.bar f)) = false →
    exec (.bar f) s = .next (s.again (.bar f) (s.begun (.bar f)))) ∧
  ∀ (t : Team) (n g l : Nat) (cnt : Option Nat) (roles : Byte), n < 16 →
    let b := vget t.bars n
    let mode := if b.arrived = [] then (cnt, roles) else (b.count, b.roles)
    let need := match mode.1 with
      | some k => k
      | none => ((t.groups.filter fun h => mode.2.getLsbD h.role).map fun h => (h.threads.toList.filter fun x => x.life == .live).length).sum
    (need ≤ b.arrived.length + 1 → vget (t.barArrive n g l cnt roles).bars n = { phase := b.phase + 1 }) ∧
    (b.arrived.length + 1 < need → vget (t.barArrive n g l cnt roles).bars n =
      { phase := b.phase, count := mode.1, roles := mode.2, arrived := b.arrived ++ [(g, l)] }) ∧
    (∀ m, m ≠ n → vget (t.barArrive n g l cnt roles).bars m = vget t.bars m) ∧
    let wanted := match b.count with
      | some k => k
      | none => ((t.groups.filter fun h => b.roles.getLsbD h.role).map fun h => (h.threads.toList.filter fun x => x.life == .live).length).sum
    t.barSettle n = if b.arrived ≠ [] ∧ wanted ≤ b.arrived.length then { t with bars := vset t.bars n { phase := b.phase + 1 } } else t

/-- Transaction barriers: one clock of a record, the operations that reach it, and TBWAIT. A record of one clock without TBINIT: with A arrivals the first PENDA of them take the open phase’s ticket and the others the next one’s, PENDA falls by A down to 0 and the rest adds to EARLYA, saturating; every arrival’s bytes leave PENDB; when both then read 0 the phase closes (PNUM + 1, PENDB 0, PENDA := EXPA − min(EARLYA, EXPA), EARLYA 0); expectations are added last. A TBINIT resets the record first. BARRIER_NETWORK_CLOCK serves a record that stands alone so, reading and writing its 16 bytes at their homes, and the tickets become pending register writes; while its line cannot be filled its operations wait (DESIGN CHOICE, log entry 14). TBINIT, TBEXP and TBARV send the operation of every acting lane, TBARV after its release at cluster scope and with its lanes’ pool clear. TBWAIT goes on when for every acting lane (PNUM − ticket) mod 2^15 lies in 1 … 16,384, with a cluster acquire for each; else every lane of the issue group waits at it. A bad place traps 0x13 in the lanes that have one. -/
def Obligations.TransactionBarrierNetwork : Prop :=
  (∀ (r : TbRec) (ops : List TbOp), r.early ≤ 65535 → (∀ o ∈ ops, ∀ a b, o ≠ .init a b) →
    let arrivals : List (Nat × Party × Nat × Operand) := ops.filterMap fun o => match o with | .arv _ n w l d => some (n, w, l, d) | _ => none
    let bytes : List Nat := ops.filterMap fun o => match o with | .arv _ n _ _ _ => some n | .copy _ n => some n | _ => none
    let posted : List Nat := ops.filterMap fun o => match o with | .exp _ n => some n | _ => none
    let early := min 65535 (r.early + (arrivals.length - r.penda))
    let b1 : DWord := r.pendb - BitVec.ofNat 64 bytes.sum
    let more : DWord := BitVec.ofNat 64 posted.sum
    (r.clock ops).1 = (if r.penda - arrivals.length = 0 ∧ b1 = 0
      then { pnum := (r.pnum + 1) % 2 ^ 15, expa := r.expa, early := 0, penda := r.expa - min early r.expa, pendb := more }
      else { r with early, penda := r.penda - arrivals.length, pendb := b1 + more }) ∧
    (r.clock ops).2 = (List.range arrivals.length).map fun k =>
      let a := arrivals.getD k default
      (a.2.1, a.2.2.1, a.2.2.2, if k < r.penda then r.pnum else (r.pnum + 1) % 2 ^ 15)) ∧
  (∀ (r : TbRec) (a e : Nat) (ops : List TbOp), (∀ o ∈ ops, ∀ x y, o ≠ .init x y) →
    r.clock (.init a e :: ops) = ({ expa := e, penda := e } : TbRec).clock ops) ∧
  (∀ (s : State) (cl loc : Nat), cl < 6 → (vget s.clusters cl).tbars = [(loc, false)] → (∀ o ∈ (vget s.clusters cl).tbOps, o.op.loc = loc) →
    (∀ c, c < 6 → c ≠ cl → (vget s.clusters c).tbars = [] ∧ (vget s.clusters c).tbOps = []) →
    exec .barrierNetworkClock s = .next ((s.modCluster cl fun c => { c with tbOps := [] }).tbServe cl loc
      (sortBy (fun (a b : TbPost) => a.key ≤ b.key) (vget s.clusters cl).tbOps))) ∧
  (∀ (s : State) (cl loc : Nat) (posts : List TbPost), s.invalidLine loc = none →
    ((vget s.clusters cl).tbars.any fun b => b.1 == loc && b.2) = false →
    let q := (TbRec.ofWords (BitVec.ofNat 64 (s.homeReadN loc 8)) (BitVec.ofNat 64 (s.homeReadN (loc + 8) 8))).clock (posts.map (·.op))
    s.tbServe cl loc posts = q.2.foldl (fun u o => if o.2.2.1.isNone then u else u.modTeam o.1.team fun t =>
        { t with ord := { t.ord with pend := t.ord.pend ++ [{ who := o.1, lane := o.2.1, dst := o.2.2.1, v := BitVec.ofNat 64 o.2.2.2 }] } })
      (((s.homeWriteN loc 8 q.1.w0).homeWriteN (loc + 8) 8 q.1.pendb.toNat).modCluster cl fun c =>
        { c with tbars := (loc, false) :: c.tbars.filter fun b => b.1 != loc })) ∧
  (∀ (s : State) (cl loc : Nat) (posts : List TbPost) (l : Nat × Nat × Nat), s.invalidLine loc = some l →
    ((s.fillLine l.1 l.2.1 l.2.2).invalidLine loc).isSome = true →
    s.tbServe cl loc posts = (s.fillLine l.1 l.2.1 l.2.2).modCluster cl fun c => { c with tbOps := c.tbOps ++ posts }) ∧
  (∀ (f : VF) (s : State),
    let at_ (i : Instr) (l : Nat) : Chk := (s.begun i).tbCheck (s.team s.cur.team) (((s.begun i).readOp s.cur l false f.a).setWidth 32)
    let n (i : Instr) (l : Nat) : Nat := ((s.begun i).readOp s.cur l false f.b).toNat % 2 ^ 32
    ∀ loc : Nat → Nat,
      (s.acts (.tbinit f) = true → (∀ l ∈ s.acting (.tbinit f), at_ (.tbinit f) l = .ok (loc l)) →
        exec (.tbinit f) s = .next (s.performed (.tbinit f) ((s.acting (.tbinit f)).foldl
          (fun u l => u.tbPost s.cur l (.init (loc l) (max 1 (min 65535 (n (.tbinit f) l))))) (s.begun (.tbinit f))))) ∧
      (s.acts (.tbexp f) = true → (∀ l ∈ s.acting (.tbexp f), at_ (.tbexp f) l = .ok (loc l)) →
        exec (.tbexp f) s = .next (s.performed (.tbexp f) ((s.acting (.tbexp f)).foldl
          (fun u l => u.tbPost s.cur l (.exp (loc l) (n (.tbexp f) l))) (s.begun (.tbexp f))))) ∧
      (s.acts (.tbarv f) = true → s.poolClear s.cur (s.acting (.tbarv f)) = true → (∀ l ∈ s.acting (.tbarv f), at_ (.tbarv f) l = .ok (loc l)) →
        exec (.tbarv f) s = .next (s.performed (.tbarv f) ((s.acting (.tbarv f)).foldl
          (fun u l => (u.release s.cur l .cluster).tbPost s.cur l (.arv (loc l) (n (.tbarv f) l) s.cur l f.dst)) (s.begun (.tbarv f))))) ∧
      (s.acts (.tbarv f) = true → s.poolClear s.cur (s.acting (.tbarv f)) = false → (∀ l ∈ s.acting (.tbarv f), at_ (.tbarv f) l = .ok (loc l)) →
        exec (.tbarv f) s = .next (s.again (.tbarv f) (s.begun (.tbarv f))))) ∧
  (∀ (f : VF) (s : State), s.acts (.tbwait f) = true → s.acting (.tbwait f) = [] →
    exec (.tbwait f) s = .next (s.performed (.tbwait f) (s.begun (.tbwait f)))) ∧
  -- the place of a record: 16 bytes of a scratchpad in reach, 16-byte aligned, and no invalid line of a map
  (∀ (s : State) (t : Team) (w : Word) (loc : Nat), Spw.bad t.id.core w = false → s.spRange t w (Spw.off w) 16 = .ok loc → Spw.off w % 16 = 0 →
    (∀ q ∈ s.teams, q.maps = []) → s.tbCheck t w = .ok loc) ∧
  ∀ (f : VF) (s : State), s.acts (.tbwait f) = true → s.acting (.tbwait f) ≠ [] →
    let i := Instr.tbwait f
    let word (l : Nat) : Word := ((s.begun i).readOp s.cur l false f.a).setWidth 32
    let ticket (l : Nat) : Nat := ((s.begun i).readOp s.cur l false f.b).toNat % 2 ^ 15
    (∀ loc : Nat → Nat, (∀ l ∈ s.acting i, (s.begun i).tbCheck (s.team s.cur.team) (word l) = .ok (loc l)) →
      let met (l : Nat) : Bool :=
        let d := ((s.begun i).homeReadN (loc l + 6) 2 % 2 ^ 15 + 2 ^ 15 - ticket l) % 2 ^ 15
        decide (1 ≤ d) && decide (d ≤ 16384)
      ((s.acting i).all met = true → s.poolClear s.cur (s.acting i) = true →
        exec i s = .next (s.performed i ((s.acting i).foldl (fun u _ => u.acquire s.cur.team .cluster) (s.begun i)))) ∧
      ((s.acting i).all met = false → ∃ w : Nat → Wait, (∀ l ∈ s.acting i, w l = .tb (loc l) (ticket l)) ∧
        exec i s = .next (s.waiting i (s.begun i) (s.crew.map fun l => (l, w l))))) ∧
    ∀ b bs, (s.acting i).filter (fun l => Spw.bad (s.team s.cur.team).id.core (word l)) = b :: bs →
      exec i s = .next (s.trapped i (s.begun i) (s.slotTrap 0x13 (b :: bs) ((word b).setWidth 64) (Spw.aux (word b))))

/-- XFER: numbered hand-overs from a sender to a receiver role. A member of neither role counts the XFER and has no other effect. A sender beyond the drift bound min(DRIFT, 16), or whose lanes’ pool is not clear, waits at it with no effect. With one live member on each side and an idle channel: the sender’s XFER releases at team scope and pushes entry n with the value of its lowest acting lane (0 without one), and the receiver’s XFER writes that value to DST in its acting lanes, takes the entry from the channel and sets the completed count to n. A receiver without its entry waits, and, once every sender has exited and no entry is left, traps 0x29 with TRAP_AUX 2 and the channel; with a pool that is not clear it is issued again. -/
def Obligations.HandOversAreOrdered : Prop :=
  ∀ (f : VF) (ch snd rcv : BitVec 3) (s : State), s.acts (.xfer f ch snd rcv) = true →
    let i := Instr.xfer f ch snd rcv
    let t := s.team s.cur.team
    let n := vget (s.group s.cur).xfers ch.toNat + 1
    let c := vget t.chans ch.toNat
    let bump (u : State) : State := u.modGroup s.cur fun g => { g with xfers := vset g.xfers ch.toNat n }
    let role := (s.group s.cur).role
    (role ≠ snd.toNat → role ≠ rcv.toNat → exec i s = .next (s.performed i (bump (s.begun i)))) ∧
    (role = snd.toNat →
      (t.liveIn rcv.toNat ≠ [] → min t.regs.drift 16 < n - c.done → exec i s = .next (s.again i (s.begun i))) ∧
      (∀ m, t.liveIn snd.toNat = [s.cur.mem] → t.liveIn rcv.toNat = [m] → n - c.done ≤ min t.regs.drift 16 →
        s.poolClear s.cur s.crew = true → c.arrivals = [] → c.entries = [] →
        ∃ u : State, exec i s = .next (s.performed i u) ∧ (u.group s.cur).xfers = vset (s.group s.cur).xfers ch.toNat n ∧
          (vget (u.team s.cur.team).chans ch.toNat).entries =
            [(n, (match s.acting i with | [] => 0 | l :: _ => (s.begun i).readOp s.cur l true f.a),
                 (match s.acting i with | [] => false | l :: _ => (s.begun i).opPoisoned s.cur l true f.a), [])] ∧
          (u.team s.cur.team).ord = (((s.begun i).releaseLanes s.cur s.crew .team).team s.cur.team).ord)) ∧
    ((role = snd.toNat ∨ role = rcv.toNat) → s.poolClear s.cur s.crew = false → exec i s = .next (s.again i (s.begun i))) ∧
    (role = rcv.toNat → role ≠ snd.toNat → s.poolClear s.cur s.crew = true → s.crew ≠ [] →
      (∀ v, t.liveIn rcv.toNat = [s.cur.mem] → c.arrivals = [] → c.entries = [(n, v, false, [])] → Operand.own f.dst = true →
        ∃ u : State, exec i s = .next (s.performed i u) ∧ (u.group s.cur).xfers = vset (s.group s.cur).xfers ch.toNat n ∧
          (vget (u.team s.cur.team).chans ch.toNat).entries = [] ∧ (vget (u.team s.cur.team).chans ch.toNat).done = max c.done n ∧
          (∀ l ∈ s.acting i, u.thread s.cur l = (s.thread s.cur l).put f.dst true v) ∧ ∀ l, l ∉ s.acting i → u.thread s.cur l = s.thread s.cur l) ∧
      ((c.entries.find? fun e => e.1 == n) = none →
        ((t.liveIn snd.toNat ≠ [] ∨ c.entries ≠ []) → exec i s = .next (s.waiting i (s.begun i) (s.crew.map fun l => (l, .receiver ch.toNat n)))) ∧
        (t.liveIn snd.toNat = [] → c.entries = [] →
          exec i s = .next (s.trapped i (s.begun i) (s.slotTrap 0x29 (s.acting i) 0 (BitVec.ofNat 64 (2 * 2 ^ 32 + ch.toNat)))))))

/-- ROLEQ, GANGSET, DRIFTSET and KSET. ROLEQ: a group of neither role has no effect (DEDUCED, log entry 19). A group of one of the roles arrives with its amount. When that makes every live group of both roles there, with no register write of theirs on its way, the arrival performs the move by the amount of the lowest FROM group and goes on with the status in DST; else it waits. A move is refused with status 4, 1, 2 or 3 under the first condition of R293 that holds, in the order 4, 1, 2, 3; else status 0, and each TO group gains n·F/T; a group whose quota changes keeps its registers below the lesser quota, and the others read 0. GANGSET writes GANG, or traps 0x1A with reason 7 for 1 or more than 6 groups or a group that the team has not. DRIFTSET clamps to 1–64. KSET by the leader writes kN (to 0x1FF nothing: DESIGN CHOICE, log entry 27), in the others nothing. -/
def Obligations.QuotaMovesGangsAndUniformRegisters : Prop :=
  (∀ (f : VF) (src dst : BitVec 3) (s : State), ∀ i ∈ [Instr.roleq f src dst, .gangset f, .driftset f], s.acts i = true → s.acting i = [] →
    exec i s = .next (s.performed i (s.begun i))) ∧
  (∀ (f : VF) (src dst : BitVec 3) (s : State), s.acts (.roleq f src dst) = true → ∀ l ls, s.acting (.roleq f src dst) = l :: ls →
    ((s.group s.cur).role ≠ src.toNat → (s.group s.cur).role ≠ dst.toNat →
      exec (.roleq f src dst) s = .next (s.performed (.roleq f src dst) (s.begun (.roleq f src dst)))) ∧
    ((s.group s.cur).role = src.toNat ∨ (s.group s.cur).role = dst.toNat → (s.team s.cur.team).groups.length ≤ 32 →
      (∀ q ∈ (s.team s.cur.team).roleq, q.group ≠ groupIx s.cur) →
      let u := (s.begun (.roleq f src dst)).modTeam s.cur.team fun t =>
          { t with roleq := t.roleq ++ [{ src := src.toNat, dst := dst.toNat, group := groupIx s.cur, n := ((s.begun (.roleq f src dst)).readOp s.cur l false f.a).toNat % 2 ^ 32 }] }
      let t := u.team s.cur.team
      let here (g : Nat) : Option RoleqArr := t.roleq.find? fun q => q.group == g && q.src == src.toNat && q.dst == dst.toNat && q.status.isNone
      let both := t.liveGroups src.toNat ++ t.liveGroups dst.toNat
      let flying (p : Party) : Prop := ∃ g ∈ both, p.mem = .group g
      let met : Prop := (∀ g ∈ both, (here g).isSome = true) ∧ (∀ w ∈ t.ord.pend, ¬ flying w.who) ∧ (∀ w ∈ t.ord.pool, ¬ flying w.who) ∧
        ∀ w ∈ (vget u.clusters t.id.cluster).tbOps, ∀ a n p k d, w.op = .arv a n p k d → d.isNone = false → p.team = s.cur.team → ¬ flying p
      (¬ met → exec (.roleq f src dst) s = .next (s.waiting (.roleq f src dst) u ((l :: ls).map fun k => (k, .roleq src.toNat dst.toNat)))) ∧
      (met →
        let n := (((t.liveGroups src.toNat).min?.bind here).map (·.n)).getD 0
        let st := t.roleqStatus src.toNat dst.toNat n
        ∃ v : State, exec (.roleq f src dst) s = .next (s.performed (.roleq f src dst) v) ∧
          (∀ g h, t.groups[g]? = some h → ((v.team s.cur.team).groups[g]?).map (·.quota) = some
            (if st.1 ≠ 0 then h.quota else if g ∈ t.liveGroups src.toNat then h.quota - n else if g ∈ t.liveGroups dst.toNat then h.quota + st.2 else h.quota)) ∧
          ∀ r, f.dst = .g r → (∃ g, s.cur.mem = .group g) → ∀ k ∈ l :: ls, vget (v.thread s.cur k).g r.toNat = BitVec.ofNat 32 st.1))) ∧
  (∀ (t : Team) (src dst n : Nat),
    let quota (g : Nat) : Nat := (t.groups.getD g default).quota
    let F := (t.liveGroups src).length
    let T := (t.liveGroups dst).length
    let four := src = dst ∨ F = 0 ∨ T = 0 ∨ 2 ≤ vget t.regs.kinds src ∨ 2 ≤ vget t.regs.kinds dst
    let one := n = 0 ∨ n % 8 ≠ 0
    let two := ∃ g ∈ t.liveGroups src, quota g < 16 + n
    let three := n * F % (8 * T) ≠ 0 ∨ ∃ g ∈ t.liveGroups dst, 256 < quota g + n * F / T
    (four → t.roleqStatus src dst n = (4, 0)) ∧ (¬ four → one → t.roleqStatus src dst n = (1, 0)) ∧
    (¬ four → ¬ one → two → t.roleqStatus src dst n = (2, 0)) ∧ (¬ four → ¬ one → ¬ two → three → t.roleqStatus src dst n = (3, 0)) ∧
    (¬ four → ¬ one → ¬ two → ¬ three → t.roleqStatus src dst n = (0, n * F / T))) ∧
  (∀ (g : Group) (q l k : Nat), l < 32 → k < 256 → (g.setQuota q).quota = q ∧
    vget (vget (g.setQuota q).threads l).g k = if k < min q g.quota then vget (vget g.threads l).g k else 0) ∧
  ∀ (f : VF) (s : State),
    (s.acts (.gangset f) = true → ∀ l ls, s.acting (.gangset f) = l :: ls →
      let m : Word := ((s.begun (.gangset f)).readOp s.cur l false f.b).setWidth 32
      ((bitsOf m).length = 1 ∨ 6 < (bitsOf m).length ∨ (∃ g ∈ bitsOf m, (s.team s.cur.team).groups.length ≤ g) →
        exec (.gangset f) s = .next (s.trapped (.gangset f) (s.begun (.gangset f)) (s.slotTrap 0x1A [l] 0 7))) ∧
      ((bitsOf m).length ≠ 1 → (bitsOf m).length ≤ 6 → (∀ g ∈ bitsOf m, g < (s.team s.cur.team).groups.length) → (s.team s.cur.team).latch = [] →
        exec (.gangset f) s = .next (s.performed (.gangset f) ((s.begun (.gangset f)).modTeam s.cur.team fun t =>
          { t with regs := { t.regs with gang := m, gangDead := false } })))) ∧
    (s.acts (.driftset f) = true → ∀ l ls, s.acting (.driftset f) = l :: ls →
      exec (.driftset f) s = .next (s.performed (.driftset f) ((s.begun (.driftset f)).modTeam s.cur.team fun t =>
        { t with regs := { t.regs with drift := max 1 (min 64 (((s.begun (.driftset f)).readOp s.cur l false f.b).toNat % 2 ^ 32)) } }))) ∧
    (s.acts (.kset f) = true →
      (s.cur.mem = .group 0 → 0 ∈ s.acting (.kset f) → exec (.kset f) s = .next (s.performed (.kset f)
        ((s.begun (.kset f)).writeOp s.cur 0 (f.ty == .b64) f.dst ((s.begun (.kset f)).readOp s.cur 0 (f.ty == .b64) f.b)))) ∧
      (s.cur.mem ≠ .group 0 ∨ 0 ∉ s.acting (.kset f) → exec (.kset f) s = .next (s.performed (.kset f) (s.begun (.kset f)))))

/-! ## Memory (R75 to R83, R144 to R155, R238 to R245) -/

/-- Checks over all acting lanes before any is performed (R238): the fault of the earliest check that some lane fails, with every lane failing
it in TRAP_LANES and the address of the lowest; nothing is performed. `kept` is what the checks leave behind: the spills of a request that found
no frame (R62). -/
def Sys2Proof.Machine.AllOrNothing (i : Instr) (chk : State → Nat → Chk) (kept : State → Nat → DWord → List Nat → State := fun s _ _ _ => s) : Prop :=
  ∀ s : State, s.acts i = true → ∀ (k b : Nat) (bs : List Nat) (cause : Nat) (addr aux : DWord),
    (s.acting i).filter (fun l => (chk (s.begun i) l).settle.rank == some k) = b :: bs → (∀ l ∈ s.acting i, ∀ r, (chk (s.begun i) l).settle.rank = some r → k ≤ r) →
    chk (s.begun i) b = .bad k cause addr aux → exec i s = .next (s.trapped i (kept (s.begun i) cause aux (b :: bs)) (s.slotTrap cause (b :: bs) addr aux))
/-- The checks of a scratchpad access of a lane. -/
def Sys2Proof.Machine.spAt (f : MF) (remote : Bool) (s : State) (l : Nat) : Chk := s.spCheck s.cur remote (MF.base32 f s s.cur l) (offOf f.c) (MF.size f)

/-- Scratchpad accesses: the checks, all or nothing. For LDS, STS, ATOMS, LDSR, STSR and ATOMSR: when some acting lane fails a check, the earliest such check decides the exact fault, with all lanes that fail it, and no lane is performed. The checks of a lane, with the exact offset SA[17:0] + SC·size: the place (for LDS, STS, ATOMS, SA[31:18] not zero) 0x13 with TRAP_ADDR the word and TRAP_AUX the place; the alignment 0x0C; the window (the team’s own, or one of a team of the context on the target core) and offset 0x3_0000 up, 0x0D; the two latter with TRAP_ADDR the offset. -/
def Obligations.ScratchpadChecks : Prop :=
  (∀ f : MF, AllOrNothing (.lds f) (spAt f false) ∧ AllOrNothing (.sts f) (spAt f false) ∧ AllOrNothing (.atoms f) (spAt f false) ∧
    AllOrNothing (.ldsr f) (spAt f true) ∧ AllOrNothing (.stsr f) (spAt f true) ∧ AllOrNothing (.atomsr f) (spAt f true)) ∧
  ∀ (s : State) (p : Party) (remote : Bool) (w : Word) (o : Int) (size : Nat), 0 < size →
    let t := s.team p.team
    let off : Int := (w.toNat % 2 ^ 18 : Nat) + o * size
    let here : DWord := BitVec.ofNat 64 (off % 2 ^ 32).toNat
    let badPlace : Prop := if remote then Spw.bad t.id.core w = true else 2 ^ 18 ≤ w.toNat
    let core := if remote then Spw.target t.id.core w else t.id.core
    let outside : Prop := off < 0 ∨ 0x30000 ≤ off ∨ (if remote then s.windowAt t.id.ctx t.id.cluster core off.toNat size = none
      else off.toNat < t.regs.spBase ∨ t.regs.spBase + t.regs.spSize < off.toNat + size)
    (badPlace → s.spCheck p remote w o size = .bad 1 0x13 (w.setWidth 64) (Spw.aux w)) ∧
    (¬ badPlace → off % size ≠ 0 → s.spCheck p remote w o size = .bad 2 0x0C here 0) ∧
    (¬ badPlace → off % size = 0 → outside → s.spCheck p remote w o size = .bad 3 0x0D here 0) ∧
    (¬ badPlace → off % size = 0 → ¬ outside → s.invalidLine (scratchLoc t.id.cluster core off.toNat) = none →
      s.spCheck p remote w o size = .ok (scratchLoc t.id.cluster core off.toNat))

/-- LDS, LDSR, STS and STSR, and reading what was written. With good checks in every acting lane and no poison: a load gives each acting lane the little-endian bytes at its location, as the type extends them: through the team’s snapshot and write buffer (its own newest entry, else the newest visible one), for a quantum load at the homes; and it changes nothing else, no byte of memory and no write buffer. A store changes no home: afterwards its lane reads its value at the bytes it stored, of which a byte that a higher lane stored too is none, and every other byte as before, and every other thread reads every byte as before. -/
def Obligations.ScratchpadLoadsAndStores : Prop :=
  ∀ (f : MF) (remote : Bool) (s : State) (loc : Nat → Nat),
    let ld : Instr := if remote then .ldsr f else .lds f
    let st : Instr := if remote then .stsr f else .sts f
    (s.acts ld = true → s.fenced = false → Operand.own f.dst = true → (s.begun ld).anyPoison = false →
      (∀ l ∈ s.acting ld, spAt f remote (s.begun ld) l = .ok (loc l)) →
      ∃ t, exec ld s = .next t ∧ Local s t ∧
        (∀ l ∈ s.acting ld, Thread.Moved ((s.thread s.cur l).put f.dst f.ty.wide (loadBits f.ty
          (if f.use = .quantum then ofLe ((List.range (MF.size f)).map fun i => (s.begun ld).homeRead (loc l + i))
           else ofLe ((List.range (MF.size f)).map fun i => (s.begun ld).seenByte s.cur l (loc l + i))))) (t.thread s.cur l)) ∧
        ∀ l, l ∉ s.acting ld → Thread.Moved (s.thread s.cur l) (t.thread s.cur l)) ∧
    (s.acts st = true → (∀ l ∈ s.acting st, spAt f remote (s.begun st) l = .ok (loc l)) →
      ∃ u : State, exec st s = .next (s.performed st u) ∧ u.mem = s.mem ∧ u.clusters = s.clusters ∧ (∀ q k, u.thread q k = s.thread q k) ∧
        (∀ l ∈ s.acting st, ∀ a, isTexel (a % keyUnit) = false → u.seenByte s.cur l a =
          if (loc l ≤ a ∧ a < loc l + MF.size f) ∧ ∀ k ∈ s.acting st, l < k → a < loc k ∨ loc k + MF.size f ≤ a then BitVec.ofNat 8 (((s.begun st).readOp s.cur l f.ty.wide f.data).toNat >>> (8 * (a - loc l)))
          else (s.begun st).seenByte s.cur l a) ∧
        ∀ q k, (q ≠ s.cur ∨ k ∉ s.acting st) → ∀ a, u.seenByte q k a = (s.begun st).seenByte q k a)

/-- Atomics: plain, commute and pooled, and their later steps. ATOMS and ATOMSR with good checks and no poison, and so ATOMG, ATOMF and ATOMH (the last through references that are not null), outside host memory: of use plain each acting lane in ascending order releases at SCOPE, applies its operation at the home after its own buffered bytes, and acquires at SCOPE, and DST receives the old values; while an atomic or an ACCST of the lanes has yet to perform, what moves home is held (R44), or a tile cannot be made resident (R55), the instruction is issued again. Of use commute an update entry joins the merge buffer for each lane. Of the pooled uses an entry joins the pool for each lane and the class counter rises by one. A pooled atomic performs once no earlier noorder atomic of its lane to common bytes is pooled and its home is neither held nor spilled beyond reach, its old value as a pending register write; that write lands in order. Drain applies the oldest entry of its locations, unless it is held; Combine joins two updates and the launches that they stand for. At a scratchpad home the new value is AtomicResult of the old one. -/
def Obligations.AtomicsAtTheHome : Prop :=
  (∀ (f : MF) (s : State) (loc : Nat → Nat) (i : Instr) (b : State),
    (((i = .atoms f ∧ ∀ l ∈ s.acting i, spAt f false (s.begun i) l = .ok (loc l)) ∨
      (i = .atomsr f ∧ ∀ l ∈ s.acting i, spAt f true (s.begun i) l = .ok (loc l))) ∧ b = s.begun i) ∨
    (i = .atomg f ∧ (∀ l ∈ s.acting i, isHost (loc l % keyUnit) = false ∧
      ∃ pg : Page, pg.snap = false ∧ (s.begun i).globalCheck s.cur (MF.gaddr f (s.begun i) s.cur l (MF.size f)) (MF.size f) .write = .ok (loc l) pg) ∧
      b = (s.begun i).tlbUseAll s.cur ((s.acting i).map fun l => (MF.gaddr f (s.begun i) s.cur l (MF.size f)).toNat) .write) ∨
    (i = .atomf f ∧ (∀ l ∈ s.acting i, (s.begun i).surfCheck (s.ctxOf s.cur) ((s.begun i).readOp s.cur l true f.base) (offOf f.c) (MF.size f) (.atomic f.op f.ty) s.path.held = .ok (loc l)) ∧
      b = (s.begun i).touchLocs ((s.acting i).map loc)) ∨
    (i = .atomh f ∧ ∃ rs, (s.begun i).resolveAll s.cur true (refsOf (s.begun i) s.cur (s.acting i) f.base) = .inr rs ∧
      (∀ l ∈ s.acting i, Ref.gi (laneVal rs l) ≠ 0 ∧ isHost (loc l % keyUnit) = false ∧
        ∃ pg : Page, pg.snap = false ∧ (s.begun i).fieldCheck s.cur (laneVal rs l) (offOf f.c * MF.size f) (MF.size f) .write = .ok (loc l) pg) ∧
      b = ((s.begun i).writeBackRef s.cur f.base (refsOf (s.begun i) s.cur (s.acting i) f.base) rs).strain s.cur rs (offOf f.c * MF.size f) .write) →
    s.acts i = true → b.anyPoison = false →
    let c := b.countBanks s.cur (MF.size f) ((s.acting i).map loc)
    let val (l : Nat) : DWord := b.readOp s.cur l f.ty.wide f.data
    let cmp (l : Nat) : DWord := if f.op = .cas then b.readOp s.cur l f.ty.wide f.dst else 0
    let one (x : State × List (Nat × DWord)) (l : Nat) : State × List (Nat × DWord) :=
      let a := (x.1.release s.cur l f.scope).atomicStep s.cur l f.op f.ty (loc l) (val l) (cmp l)
      (a.2.acquire s.cur.team f.scope, x.2 ++ [(l, a.1)])
    (f.use = .plain → b.poolClear s.cur (s.acting i) = true → (∀ l ∈ s.acting i, b.atomStuck (loc l) = false) →
      exec i s = .next (s.performed i ((((s.acting i).foldl one (c, [])).2).foldl
        (fun v x => v.writeOp s.cur x.1 f.ty.wide f.dst (loadBits f.ty x.2.toNat)) ((s.acting i).foldl one (c, [])).1))) ∧
    (f.use = .plain → b.poolClear s.cur (s.acting i) = false ∨ (∃ l ∈ s.acting i, b.atomStuck (loc l) = true) → exec i s = .next (s.again i b)) ∧
    (f.use = .commute → exec i s = .next (s.performed i
      ((s.acting i).foldl (fun v l => v.commute s.cur (loc l) f.op f.ty (val l)) c))) ∧
    (f.use = .unpaired ∨ f.use = .noorder ∨ f.use = .spec → s.acting i ≠ [] →
      ∃ u : State, exec i s = .next (s.performed i u) ∧ u.mem = b.mem ∧
        (u.team s.cur.team).ord.pool = (s.team s.cur.team).ord.pool ++ (s.acting i).map (fun l =>
          { no := b.nextUid, who := s.cur, lane := l, loc := loc l, op := f.op, ty := f.ty, v := val l, cmp := cmp l, use := f.use, load := !f.dst.isNone, dst := f.dst }) ∧
        (u.group s.cur).count (if f.dst.isNone then .store else .load) = (s.group s.cur).count (if f.dst.isNone then .store else .load) + 1)) ∧
  (∀ (s : State) (u ix : Nat) (a : Pooled), (s.team u).ord.pool[ix]? = some a →
    ((s.team u).ord.pool.take ix).all (fun c => c.who != a.who || c.lane != a.lane || c.use != .noorder || a.use != .noorder ||
      decide (a.loc + a.ty.width / 8 ≤ c.loc) || decide (c.loc + c.ty.width / 8 ≤ a.loc)) = true → s.anyPoison = false →
    s.atomStuck a.loc = false → s.locHeld a.loc = false →
    let v := s.modTeam u fun t => t.modOrd fun o => { o with pool := o.pool.eraseIdx ix }
    let r := if a.use = .unpaired then v.homeAtomic a.op a.ty a.loc a.v a.cmp else v.atomicStep a.who a.lane a.op a.ty a.loc a.v a.cmp
    (a.dst.isNone = true → exec (.pooledAtomic u ix) s = .next (r.2.uncount a.who a.no .store)) ∧
    (a.dst.isNone = false → exec (.pooledAtomic u ix) s = .next (r.2.modTeam u fun t => t.modOrd fun o =>
      { o with pend := o.pend ++ [{ no := a.no, who := a.who, lane := a.lane, dst := a.dst, wide := a.ty.wide, v := loadBits a.ty r.1.toNat }] }))) ∧
  (∀ (s : State) (u ix : Nat) (w : PendWrite), (s.team u).ord.pend[ix]? = some w →
    ((s.team u).ord.pend.take ix).all (fun v => v.who != w.who || v.lane != w.lane || v.dst != w.dst) = true →
    let v := s.modTeam u fun t => t.modOrd fun o => { o with pend := o.pend.eraseIdx ix }
    ((s.thread w.who w.lane).life ≠ .ended → exec (.registerWriteback u ix) s = .next ((v.landOp w.who w.lane w.wide w.dst w.v).uncount w.who w.no .load)) ∧
    ((s.thread w.who w.lane).life = .ended → exec (.registerWriteback u ix) s = .next (v.uncount w.who w.no .load))) ∧
  (∀ (s : State) (cl : Nat) (e : MEntry) (rest : List MEntry), (vget s.clusters cl).outq = e :: rest →
    (s.entryHeld e = true → exec (.drain cl 0 true) s = .next s) ∧
    (s.entryHeld e = false → exec (.drain cl 0 true) s = .next ((s.applyEntry e).modOutq cl fun l => l.eraseIdx 0))) ∧
  (∀ (s : State) (cl loc : Nat) (op : AtomOp) (ty : Ty) (a b : DWord) (x y : List (Nat × Nat)) (rest : List MEntry), 8 ≤ ty.width →
    (vget s.clusters cl).outq = .update loc op ty a x :: .update loc op ty b y :: rest →
    exec (.combine cl 0 true) s = .next (s.keepSnaps (s.modOutq cl fun l => combineAt l 0) (MEntry.locs (.update loc op ty a x))) ∧
    combineAt (.update loc op ty a x :: .update loc op ty b y :: rest) 0 = .update loc op ty (combineOp op ty a b) (x ++ y).eraseDups :: rest) ∧
  ∀ (s : State) (op : AtomOp) (ty : Ty) (loc : Nat) (v cmp : DWord), s.Canonical → scratchBase ≤ loc → loc + ty.width / 8 ≤ gddrBase →
    (s.homeAtomic op ty loc v cmp).1 = BitVec.ofNat 64 (s.homeReadN loc (ty.width / 8)) ∧
    (s.homeAtomic op ty loc v cmp).2.homeReadN loc (ty.width / 8) =
      (atomicResult op ty (BitVec.ofNat 64 (s.homeReadN loc (ty.width / 8))) v cmp).toNat % 2 ^ (8 * (ty.width / 8))

/-- An atomic to host memory waits for the host. An ATOMG of one acting lane whose location is host memory and whose operation PCIe carries leaves the lane waiting for the completion, its path standing at the instruction; the path leaves it with the last completion of its lanes. A completion is the atomic’s place: of use plain, with no atomic of the lane pooled, release at SCOPE, the operation at the host’s home after the lane’s own buffered bytes, acquire at SCOPE; of noorder and spec the same operation, of unpaired at the home alone; then the old value to DST; of commute an update entry. Unsupported Request makes every lane whose guard holds take cause 0x0B with sub-cause 0x09, the address and the lane in TRAP_LANES. -/
def Obligations.HostAtomicsComplete : Prop :=
  (∀ (f : MF) (s : State) (l loc : Nat) (pg : Page), s.acts (.atomg f) = true → s.acting (.atomg f) = [l] → (f.use = .plain → (s.begun (.atomg f)).poolClear s.cur [l] = true) →
    (s.begun (.atomg f)).globalCheck s.cur (MF.gaddr f (s.begun (.atomg f)) s.cur l (MF.size f)) (MF.size f) .write = .ok loc pg →
    isHost (loc % keyUnit) = true → hostAtomic f.op = true →
    exec (.atomg f) s = .next ((((s.begun (.atomg f)).tlbUseAll s.cur [(MF.gaddr f (s.begun (.atomg f)) s.cur l (MF.size f)).toNat] .write).tally s.cur 1).setWaits
      s.cur [(l, .host loc (MF.gaddr f (s.begun (.atomg f)) s.cur l (MF.size f)) 0 0)])) ∧
  (∀ (s : State) (p : Party) (l : Nat) (r : Run), (s.group p).run = some r → s.has p = true → l < 32 →
    let u := s.modThread p l fun t => { t with wait := none }
    ((∃ k, k ≠ l ∧ r.lanes.getLsbD k = true ∧ ∃ loc va o n, (s.thread p k).wait = some (.host loc va o n)) → s.hostDone p l = u) ∧
    ((∀ k, k ≠ l → r.lanes.getLsbD k = true → ∀ loc va o n, (s.thread p k).wait ≠ some (.host loc va o n)) → s.hostDone p l = u.advance p [] [])) ∧
  ∀ (f : MF) (s : State) (p : Party) (l loc : Nat) (va old new : DWord) (r : Run), (s.thread p l).wait = some (.host loc va old new) → (s.group p).run = some r →
    decodeWord r.word = .ok (.atomg f) ∨ decodeWord r.word = .ok (.atomh f) →
    let v := s.readOp p l f.ty.wide f.data
    let cmp := if f.op = .cas then s.readOp p l f.ty.wide f.dst else 0
    let back (old : DWord) (u : State) : State := (u.writeOp p l f.ty.wide f.dst (loadBits f.ty old.toNat)).hostDone p l
    exec (.hostAtomicopCompletion p l false) s = .next
      ((s.modGroup p fun g => { g with threads := (bitsOf r.lanes).foldl (fun ts l => vmod ts l fun t => { t with wait := none }) g.threads }).trapAt p
        ((bitsOf r.lanes).filter fun k => (s.thread p k).guardOk f.guard)
        { cause := 0x0B, addr := va, aux := 9, lanes := ofBits 32 [l], pc := r.slotPc, mid := r.here.2 }) ∧
    (f.use = .plain → s.poolClear p [l] = true →
      let a := (s.release p l f.scope).atomicStep p l f.op f.ty loc v cmp
      exec (.hostAtomicopCompletion p l true) s = .next (back a.1 (a.2.acquire p.team f.scope))) ∧
    (f.use = .plain → s.poolClear p [l] = false → exec (.hostAtomicopCompletion p l true) s = .next s) ∧
    (f.use = .noorder ∨ f.use = .spec →
      exec (.hostAtomicopCompletion p l true) s = .next (back (s.atomicStep p l f.op f.ty loc v cmp).1 (s.atomicStep p l f.op f.ty loc v cmp).2)) ∧
    (f.use = .unpaired →
      exec (.hostAtomicopCompletion p l true) s = .next (back (s.homeAtomic f.op f.ty loc v cmp).1 (s.homeAtomic f.op f.ty loc v cmp).2)) ∧
    (f.use = .commute → exec (.hostAtomicopCompletion p l true) s = .next ((s.commute p loc f.op f.ty v).hostDone p l))

/-- MAPR, UNMAPR, FLUSHR and the fill of a line. With good checks MAPR binds a region for every acting lane, every line invalid, once what teams of the core stored there has reached the bank; MAPR, FLUSHR and UNMAPR are issued again while an accepted record still delivers there, MAPR also while an atomic or ACCST that the core issued there has yet to perform; a bad place traps 0x13, a base, length or address that is no multiple of 256, or a length of 0, 0x0C, a region outside the window, a ninth map or an overlap 0x0D. FLUSHR and UNMAPR write back the maps that the acting lanes name, UNMAPR then removes them; a write-back that fails traps the lanes whose map holds the line and keeps the maps; a page that MIG or the region table holds, they wait for. A fill of an invalid line whose address translates gives every byte whose mask bit is clear the overlay value of the cluster, keeps the others, and makes the line clean, or dirty where the mask is not empty; of any other line, or one that does not translate, it changes nothing. -/
def Obligations.MapsBindFillAndWriteBack : Prop :=
  (∀ (f : MF) (s : State), s.acts (.mapr f) = true →
    let i := Instr.mapr f
    let ask (l : Nat) : MapAsk := { lane := l, w := MF.base32 f (s.begun i) s.cur l, len := ((s.begun i).readOp s.cur l false f.c).toNat, va := (s.begun i).readOp s.cur l true f.data }
    let asks := (s.acting i).map ask
    ((∀ k a, asks[k]? = some a → (s.team s.cur.team).mapCheck asks k a = .ok 0) → (∀ a ∈ asks, (s.team s.cur.team).delivering (Spw.off a.w) a.len = false) →
      let hit (x : Nat) : Bool := isScratch x && scratchCore x == (s.team s.cur.team).coreNo && asks.any fun a =>
        decide (Spw.off a.w ≤ scratchOff x) && decide (scratchOff x < Spw.off a.w + a.len)
      (s.begun i).pooledAt (s.team s.cur.team).coreNo hit = false →
      let stored := (s.begun i).bringHome ((s.teams.filter fun u => u.coreNo == (s.team s.cur.team).coreNo).map fun u => u.id.uid) (s.team s.cur.team).id.cluster hit
      exec i s = .next (s.performed i (stored.modTeam s.cur.team fun t => { t with maps := t.maps ++ asks.map fun a =>
        { base := Spw.off a.w, len := a.len, va := a.va, lines := List.replicate (a.len / 256) {} } }))) ∧
    ((∀ k a, asks[k]? = some a → (s.team s.cur.team).mapCheck asks k a = .ok 0) →
      (∃ a ∈ asks, (s.team s.cur.team).delivering (Spw.off a.w) a.len = true) ∨ (s.begun i).pooledAt (s.team s.cur.team).coreNo (fun x =>
        isScratch x && scratchCore x == (s.team s.cur.team).coreNo && asks.any fun a =>
          decide (Spw.off a.w ≤ scratchOff x) && decide (scratchOff x < Spw.off a.w + a.len)) = true →
      exec i s = .next (s.again i (s.begun i)))) ∧
  (∀ (t : Team) (a : MapAsk),
    let here : DWord := a.w.setWidth 64
    let n : DWord := BitVec.ofNat 64 a.len
    let off := a.w.toNat % 2 ^ 18
    (2 ^ 18 ≤ a.w.toNat → t.mapCheck [a] 0 a = .bad 1 0x13 here (Spw.aux a.w)) ∧
    (a.w.toNat < 2 ^ 18 → off % 256 ≠ 0 ∨ a.len % 256 ≠ 0 ∨ a.va.toNat % 256 ≠ 0 → t.mapCheck [a] 0 a = .bad 2 0x0C here n) ∧
    (a.w.toNat < 2 ^ 18 → off % 256 = 0 → a.len % 256 = 0 → a.va.toNat % 256 = 0 →
      (a.len = 0 → t.mapCheck [a] 0 a = .bad 3 0x0C here n) ∧
      (a.len ≠ 0 → off < t.regs.spBase ∨ t.regs.spBase + t.regs.spSize < off + a.len → t.mapCheck [a] 0 a = .bad 4 0x0D here n) ∧
      (a.len ≠ 0 → t.regs.spBase ≤ off → off + a.len ≤ t.regs.spBase + t.regs.spSize →
        (8 ≤ t.maps.length ∨ (∃ m ∈ t.maps, off < m.base + m.len ∧ m.base < off + a.len) → t.mapCheck [a] 0 a = .bad 5 0x0D here n) ∧
        (t.maps.length < 8 → (∀ m ∈ t.maps, m.base + m.len ≤ off ∨ off + a.len ≤ m.base) →
          (2 ^ 56 ≤ a.va.toNat → t.mapCheck [a] 0 a = .xfault 6 { sub := 1 } a.va.toNat none) ∧ (a.va.toNat < 2 ^ 56 → t.mapCheck [a] 0 a = .ok 0))))) ∧
  (∀ (f : MF) (s : State) (drop : Bool),
    let i : Instr := if drop then .unmapr f else .flushr f
    let t := s.team s.cur.team
    ∀ mapOf : Nat → Nat, s.acts i = true →
      (∀ l ∈ s.acting i, (MF.base32 f (s.begun i) s.cur l).toNat < 2 ^ 18 ∧ mapOf l < t.maps.length ∧
        (t.maps.getD (mapOf l) default).base = (MF.base32 f (s.begun i) s.cur l).toNat ∧
        ∀ m, m < mapOf l → (t.maps.getD m default).base ≠ (MF.base32 f (s.begun i) s.cur l).toNat) →
      let ms := ((s.acting i).map mapOf).eraseDups
      ((∃ m ∈ ms, t.delivering (t.maps.getD m default).base (t.maps.getD m default).len = true) → exec i s = .next (s.again i (s.begun i))) ∧
      ((∀ m ∈ ms, t.delivering (t.maps.getD m default).base (t.maps.getD m default).len = false) →
      (∀ u, (s.begun i).writeBack s.cur.team ms = .hold u → (u.team s.cur.team).parking = false → exec i s = .next (s.again i u)) ∧
      (∀ u, (s.begun i).writeBack s.cur.team ms = .ok u → exec i s = .next (s.performed i (if drop then u.modTeam s.cur.team fun t =>
        { t with maps := ((List.range t.maps.length).filter fun m => !ms.contains m).map fun m => t.maps.getD m default } else u))) ∧
      ∀ u e va, (s.begun i).writeBack s.cur.team ms = .fail u e va → exec i s = .next (s.faulted i u .engine e
        ((s.acting i).filter fun l => let m := t.maps.getD (mapOf l) default; decide (m.va.toNat ≤ va) && decide (va < m.va.toNat + m.len)) va))) ∧
  ∀ (s : State) (u m l : Nat),
    let t := s.team u
    let e := t.maps.getD m default
    let ln := e.lines.getD l default
    let key (i : Nat) : Nat := scratchLoc t.id.cluster t.id.core (e.base + 256 * l + i)
    ∃ w, exec (.mapLineFill u m l) s = .next w ∧
      (ln.st ≠ 0 ∨ e.lines.length ≤ l → w = s) ∧
      (∀ x, s.xlate (some t.coreNo) t.id.ctx (t.lineVa m l) .read = .error x → w = s) ∧
      (s.Canonical → ln.st = 0 → l < e.lines.length → (s.team? u).isSome = true →
        ∀ loc pg, s.xlate (some t.coreNo) t.id.ctx (t.lineVa m l) .read = .ok (loc, pg) →
          (((w.team u).maps.getD m default).lines.getD l default).st = (if ln.mask = 0 then 1 else 2) ∧
          (((w.team u).maps.getD m default).lines.getD l default).mask = ln.mask ∧
          (∀ i, i < 256 → w.mem.read (key i) = if ln.mask.getLsbD i then s.mem.read (key i) else s.overlay t.id.cluster (loc + i)) ∧
          ∀ k, (∀ i, i < 256 → k ≠ key i) → w.mem.read k = s.mem.read k)

/-! ## Surfaces and the raster pipeline (R46 to R74, R246, R247, R275 to R280) -/

/-- The checks of a texel access of a lane. -/
def Sys2Proof.Machine.texAt (f : MF) (op : SurfOp) (s : State) (l : Nat) : Chk :=
  s.surfCheck (s.ctxOf s.cur) (s.readOp s.cur l true f.base) (offOf f.c) (MF.size f) op s.path.held
/-- The spills that the lanes of a fault without a frame made, which stay made (R54 sub-cause 4, R62). -/
def Sys2Proof.Machine.spillsOf (f : MF) (s : State) (cause : Nat) (aux : DWord) (bad : List Nat) : State :=
  if cause = 0x0F ∧ aux.toNat % 256 = 4 then
    bad.foldl (fun u l => u.noFrameOf (s.ctxOf s.cur) (texelOf (s.readOp s.cur l true f.base) (offOf f.c))) s else s

/-- SLD, SST, SALLOC, SFREE, SPRIO and the eviction engine. Texel accesses are checked all or nothing: reserved address bits give sub-cause 7, a misaligned byte offset 0x0C, an invalid handle sub-cause 1, a texel outside sub-cause 2, an operation that the format does not allow sub-cause 3; a resident tile’s texel is then good unless the access runs past it (3). A good SLD gives the texel’s bytes as a read step, a good SST is a write step; both only touch the surface’s time besides. SALLOC answers each lane a new handle, the lowest free, whose entry is valid, or the first reason that refuses it; it reads the descriptor as its cluster sees it (DESIGN CHOICE, log entry 19). SFREE clears the valid bit, SPRIO sets PRIO. TILE_REFILL makes its tile resident: the tile has a frame, which holds its bytes, and nothing waits for it; where that fails, what was spilled stays so. SPILL_TILE ends the request within the quota, but first finishes a frame that is half spilled; else it spills the highest resident tile of the victim’s highest frame and frees the frame after the last; a spill fault passes the victim over, MIG holds it. A freed surface leaves once nothing uses it, and no snapshot keeps its texels (DESIGN CHOICE, log entry 19). -/
def Obligations.SurfaceAccessesAndAllocation : Prop :=
  (∀ f : MF, AllOrNothing (.sld f) (texAt f .load) (spillsOf f) ∧ AllOrNothing (.sst f) (texAt f .store) (spillsOf f) ∧
    AllOrNothing (.atomf f) (texAt f (.atomic f.op f.ty)) (spillsOf f)) ∧
  (∀ (s : State) (x : Nat) (a : DWord) (o : Int) (size : Nat) (op : SurfOp) (held : List Nat),
    let t := texelOf a o
    (t.rsv = true → s.surfCheck x a o size op held = t.fault 1 7) ∧
    (t.rsv = false → t.boff % size ≠ 0 → s.surfCheck x a o size op held = .bad 2 0x0C (surfAddr t.x t.y t.layer) (surfAux t.boff t.h)) ∧
    (t.rsv = false → t.boff % size = 0 → s.validSurf? x t.h = none → held.contains t.h = false → s.surfCheck x a o size op held = t.fault 3 1) ∧
    ∀ u, t.rsv = false → t.boff % size = 0 → s.validSurf? x t.h = some u →
      (t.x < 0 ∨ (Surf.width u : Int) ≤ t.x ∨ Surf.height u ≤ t.y ∨ Surf.layers u ≤ t.layer → s.surfCheck x a o size op held = t.fault 4 2) ∧
      (0 ≤ t.x → t.x < Surf.width u → t.y < Surf.height u → t.layer < Surf.layers u →
        (op.bad (Surf.format u) t.boff = true → s.surfCheck x a o size op held = t.fault 5 3) ∧
        (op.bad (Surf.format u) t.boff = false → Surf.tile u (Surf.place u t.x.toNat t.y t.layer).2.2.1 = 0 →
          s.surfCheck x a o size op held = if Surf.bytes u < t.boff + size then t.fault 7 3 else .ok (texelLoc x t.h t.layer t.x.toNat t.y t.boff)))) ∧
  (∀ (f : MF) (s : State) (loc : Nat → Nat),
    (s.acts (.sld f) = true → (∀ l ∈ s.acting (.sld f), texAt f .load (s.begun (.sld f)) l = .ok (loc l)) →
      ∃ b : State, b.mem = s.mem ∧ b.teams = s.teams ∧
        exec (.sld f) s = .next (s.performed (.sld f) (b.loadAll s.cur f ((s.acting (.sld f)).map fun l => (l, loc l, {}))))) ∧
    (s.acts (.sst f) = true → (∀ l ∈ s.acting (.sst f), texAt f .store (s.begun (.sst f)) l = .ok (loc l)) →
      ∃ b : State, b.mem = s.mem ∧ b.teams = s.teams ∧
        exec (.sst f) s = .next (s.performed (.sst f) (b.storeAll s.cur f ((s.acting (.sst f)).map fun l => (l, loc l, {}))))) ) ∧
  (∀ (f : EF) (s : State),
    (s.acts (.salloc f) = true → Operand.still f.a = true → ∀ l loc, s.acting (.salloc f) = [l] →
      (s.begun (.salloc f)).ldsrRange (s.team s.cur.team) 1 (((s.begun (.salloc f)).readOp s.cur l false f.a).setWidth 32) 32 32 = .ok loc →
      ∀ u v, (s.begun (.salloc f)).allocSurf (s.ctxOf s.cur) (dwordsOf 4 ((List.range 32).map fun i => (s.begun (.salloc f)).overlay (s.team s.cur.team).id.cluster (loc + i))) = .got u v →
        exec (.salloc f) s = .next (s.performed (.salloc f) (u.deliverOp s.cur l false f.dst (BitVec.ofNat 64 v)))) ∧
    (s.acts (.salloc f) = true → Operand.still f.a = true → ∀ l loc u, s.acting (.salloc f) = [l] →
      (s.begun (.salloc f)).ldsrRange (s.team s.cur.team) 1 (((s.begun (.salloc f)).readOp s.cur l false f.a).setWidth 32) 32 32 = .ok loc →
      (s.begun (.salloc f)).allocSurf (s.ctxOf s.cur) (dwordsOf 4 ((List.range 32).map fun i => (s.begun (.salloc f)).overlay (s.team s.cur.team).id.cluster (loc + i))) = .hold u →
        exec (.salloc f) s = .next (s.again (.salloc f) ((s.begun (.salloc f)).unpop u s.cur))) ∧
    (s.acts (.sfree f) = true → Operand.still f.a = true → ∀ l u, s.acting (.sfree f) = [l] →
      s.validSurf? (s.ctxOf s.cur) ((s.begun (.sfree f)).readOp s.cur l false f.a).toNat = some u →
      exec (.sfree f) s = .next (s.performed (.sfree f) ((((s.begun (.sfree f)).putEntry (s.ctxOf s.cur)
        { u with w := vset u.w 0 (setBit (vget u.w 0) 11 false), draining := true }).dropGood (s.ctxOf s.cur) u.handle).dueOnce (.surfaceFramesFreed (s.ctxOf s.cur) u.handle)))) ∧
    (s.acts (.sprio f) = true → Operand.still f.a = true → Operand.still f.b = true → ∀ l u, s.acting (.sprio f) = [l] →
      s.validSurf? (s.ctxOf s.cur) ((s.begun (.sprio f)).readOp s.cur l false f.a).toNat = some u → ((s.begun (.sprio f)).readOp s.cur l false f.b).toNat ≤ 7 →
      exec (.sprio f) s = .next (s.performed (.sprio f) ((s.begun (.sprio f)).putEntry (s.ctxOf s.cur)
        { u with w := vset u.w 0 (setFld (vget u.w 0) 14 3 ((s.begun (.sprio f)).readOp s.cur l false f.b).toNat) })))) ∧
  (∀ (s : State) (x : Nat) (w : Vector DWord 4), x < 64 →
    (surfDescBad w = true → s.allocSurf x w = .got s 0x30000) ∧
    (surfDescBad w = false → (∀ h, 1 ≤ h → h ≤ 4095 → s.surf? x h ≠ none) → s.allocSurf x w = .got s 0x10000) ∧
    ∀ u h, s.allocSurf x w = .got u h → h < 0x10000 →
      1 ≤ h ∧ h ≤ 4095 ∧ s.surf? x h = none ∧ (∀ k, 1 ≤ k → k < h → s.surf? x k ≠ none) ∧ ∃ v, u.surf? x h = some v ∧ Surf.valid v = true) ∧
  ∀ (s : State) (x h n : Nat),
    (∀ u, s.makeResident x h n = .ok u → exec (.tileRefill x h n) s = .next u) ∧
    (∀ u, s.makeResident x h n = .noFrame u ∨ (∃ e va, s.makeResident x h n = .fault u e va) ∨ s.makeResident x h n = .hold u → exec (.tileRefill x h n) s = .next u) ∧
    (∀ u v, x < 64 → s.surf? x h = some u → s.makeResident x h n = .ok v →
      (Surf.tile u n = 0 → v = s) ∧
      (Surf.tile u n ≠ 0 → ∃ w, v.surf? x h = some w ∧ Surf.tile w n = 0 ∧ ∀ y ∈ w.waiting, y.pos / 256 ≠ n) ∧
      let sz := 16 * Surf.bytes u
      let m := (Surf.side u n).1
      let j := (Surf.side u n).2
      (Surf.tile u n ≠ 0 → s.Canonical → (s.frameAt x h m (Surf.home u m + j * sz / 4096)).isSome = true →
        ∀ i k, i < sz → i < ((s.tileData x u n).getD []).length → s.surfKey x u m (j * sz + i) = some k →
          v.mem.read k = ((s.tileData x u n).getD []).getD i 0)) ∧
    (s.victimOf x n ≠ some h → exec (.spillTile x h n) s = .next s) ∧
    (s.victimOf x n = some h → s.validSurf? x h = none → exec (.spillTile x h n) s = .next (s.setVictim x n none)) ∧
    (∀ u, s.victimOf x n = some h → s.validSurf? x h = some u →
      let half : Option Nat := (vget (s.ctx x).victims n).bind fun v => if v.h = h then v.frame else none
      (half = none → s.used x (s.stackOf n) ≤ s.quota x (s.stackOf n) → exec (.spillTile x h n) s = .next (s.modCtx x fun c =>
        { c with victims := vset c.victims n none, passed := c.passed.filter fun q => q.1 != n })) ∧
      ∀ k, half.or (s.presentFrames x n u).head? = some k → half = some k ∨ s.quota x (s.stackOf n) < s.used x (s.stackOf n) →
        ((frameTiles u n k).all (fun t => Surf.tile u (spillIx u n t) != 0) = true → exec (.spillTile x h n) s = .next (s.dropFrame x h n k u)) ∧
        ∀ t, (frameTiles u n k).reverse.find? (fun t => Surf.tile u (spillIx u n t) == 0) = some t →
          (∀ e va, s.spillTile x h (spillIx u n t) = .fail e va → exec (.spillTile x h n) s = .next (s.passOver x n h)) ∧
          (s.spillTile x h (spillIx u n t) = .hold → exec (.spillTile x h n) s = .next (s.setVictim x n (some { h, frame := some k }))) ∧
          ∀ v w, s.spillTile x h (spillIx u n t) = .ok v → v.surf? x h = some w → exec (.spillTile x h n) s =
            .next (if (frameTiles u n k).any (fun t => Surf.tile w (spillIx u n t) == 0) then v.setVictim x n (some { h, frame := some k }) else v.dropFrame x h n k u)) ∧
    (∀ u, s.surf? x h = some u → u.draining = true → Surf.valid u = false → s.surfBusy x h = false →
      ∃ t, exec (.surfaceFramesFreed x h) s = .next t ∧ t.mem = s.mem ∧ (x < 64 → t.surf? x h = none) ∧
        (∀ k, k ≠ h → t.surf? x k = s.surf? x k) ∧ ∀ m, m < 2 → (∀ e ∈ vget t.dev.frameTab m, ¬ (e.x = x ∧ e.handle = h)) ∧
        ∀ q ∈ t.teams, ∀ c ∈ q.ord.snap, onSurf x h c.1 = false)

/-- PRIM, EXPRT and the steps of the raster sequencer. With good checks and no poison, PRIM declines a primitive whose screen area is below RAST_THR (DST 1, its number complete), else accepts it as the next of the context’s sequence with both bank rasterisers due (DST 0). RASTERISE covers the pixels of the next primitive of its stack in order, unless a tile queue would hold more than 64 tickets. FRAGMENT_TEAM_LAUNCH starts a team for the next one or two tiles on a cluster of its die. EXPRT takes the lane’s ticket and hands colour, depth (without SB the fragment’s own) and kill to the bank unit, with a release at cluster scope; without a ticket it traps with sub-cause 6 and the last ticket’s pixel. EXPORT_APPLY, once the export’s turn has come, drops a killed one (that this waits for the turn is DESIGN CHOICE, log entry 19), and applies another when the tiles it needs are there: those it writes resident, those it only reads at least clear; else it waits (for a refill that fails, DESIGN CHOICE, log entry 19). Pixel coverage follows the top-left rule. -/
def Obligations.PrimitivesFragmentsAndExports : Prop :=
  (∀ (f : EF) (s : State) (l : Nat), s.acts (.prim f) = true → Operand.still f.a = true → Operand.still f.b = true → s.acting (.prim f) = [l] →
    s.poolClear s.cur [l] = true → s.anyPoison = false →
    let t := s.team s.cur.team
    let x := t.id.ctx
    let u := ((s.begun (.prim f)).release s.cur l .cluster)
    let w : Word := ((s.begun (.prim f)).readOp s.cur l false f.a).setWidth 32
    let ix : Word := ((s.begun (.prim f)).readOp s.cur l false f.b).setWidth 32
    let v := u.vtxAt t.id.cluster (t.spLoc w)
    u.primCheck t w ix = .ok 0 → u.anyPoison = false → (u.team s.cur.team).id = t.id →
    ∃ r : State, exec (.prim f) s = .next (s.performed (.prim f) r) ∧
      (x < 64 → (r.ctx x).raster.seq = (u.ctx x).raster.seq + 1) ∧
      (screenArea v < fld (u.creg x .rastThr) 0 24 → (r.ctx x).raster.prims = (u.ctx x).raster.prims ∧ (Operand.own f.dst = true → r.thread s.cur l = (s.thread s.cur l).put f.dst false 1)) ∧
      (fld (u.creg x .rastThr) 0 24 ≤ screenArea v → x < 64 → (∃ q : Prim, q.seq = (u.ctx x).raster.seq ∧ q.vtx = v ∧ q.id = t.id ∧ q.declined = false ∧
          (r.ctx x).raster.prims = (u.ctx x).raster.prims ++ [q]) ∧
        .rasterise x 0 ∈ r.agenda ∧ .rasterise x 1 ∈ r.agenda ∧ (Operand.own f.dst = true → r.thread s.cur l = (s.thread s.cur l).put f.dst false 0))) ∧
  (∀ (f : EF) (kill : Bool) (s : State) (l : Nat), s.acts (.exprt f kill) = true → Operand.still f.b = true → s.acting (.exprt f kill) = [l] →
    ((s.thread s.cur l).ticket = none → exec (.exprt f kill) s = .next (s.trapped (.exprt f kill) (s.begun (.exprt f kill)) (s.slotTrap 0x0F [l]
      (((s.thread s.cur l).spent.map fun k => surfAddr k.px k.py 0).getD 0) (surfAux 6 (((s.thread s.cur l).spent.map fun k => k.surf).getD 0))))) ∧
    ∀ k, (s.thread s.cur l).ticket = some k → (s.begun (.exprt f kill)).exprtCheck s.cur kill l = .ok 0 → s.poolClear s.cur [l] = true → k.x < 64 →
      let u := (s.begun (.exprt f kill)).release s.cur l .cluster
      ∃ r : State, ∃ e : Export, exec (.exprt f kill) s = .next (s.performed (.exprt f kill) r) ∧ r.thread s.cur l = { s.thread s.cur l with ticket := none, spent := some k } ∧
        e.ticket = k ∧ e.kill = kill ∧
        (∀ i, i < 4 → vget e.col i = (u.readOp s.cur l false (colReg f.a i)).setWidth 32) ∧
        e.z = (if f.b.isNone then k.z else ((s.begun (.exprt f kill)).readOp s.cur l false f.b).setWidth 32) ∧
        (r.ctx k.x).raster.exports = (u.ctx k.x).raster.exports ++ [e] ∧ .exportApply k.x k.surf k.px k.py ∈ r.agenda) ∧
  (∀ (s : State) (x n : Nat) (q : Prim), ((s.ctx x).raster.prims.find? fun q => !q.done.contains n) = some q →
    (((s.primPixels x n q).any fun p => decide (64 < ((s.tickets x (Rs.chnd q.state)).filter fun t => sameTile t.2 p).length + ((s.primPixels x n q).filter (sameTile p)).length)) = true →
      exec (.rasterise x n) s = .next s) ∧
    (((s.primPixels x n q).any fun p => decide (64 < ((s.tickets x (Rs.chnd q.state)).filter fun t => sameTile t.2 p).length + ((s.primPixels x n q).filter (sameTile p)).length)) = false →
      exec (.rasterise x n) s = .next ((s.modRaster x fun r => { r with prims := r.prims.map fun o =>
        if o.seq = q.seq then { o with done := n :: o.done, frags := o.frags ++ (s.primPixels x n q).map fun p => (n, p) } else o }).primsDone x))) ∧
  (∀ (s : State) (x n cl : Nat) (q : Prim) (a : Nat × Nat) (rest : List (Nat × Nat)), cl / 3 = n → ((s.ctx x).raster.prims.find? fun q => q.frags.any (·.1 == n)) = some q →
    (q.frags.filter (·.1 == n)).map (·.2) = a :: rest → ∀ c sp cd, s.bestCore cl q.desc = some (c, sp, cd) →
      ∃ (t : State) (tm : Team), exec (.fragmentTeamLaunch x n cl) s = .next t ∧ t.nextUid = s.nextUid + 1 ∧ t.teams.getLast? = some tm ∧ tm.id.uid = s.nextUid ∧
        ((vget (tm.groups.getD 0 default).threads 0).ticket.map fun k => (k.px, k.py, k.seq)) = some (a.1, a.2, q.seq) ∧
        tm.id.cluster = c / 192 ∧ tm.id.core = c % 192) ∧
  (∀ (s : State) (x h px py : Nat) (e : Export) (rest : List Export),
    sortBy (fun (a b : Export) => a.ticket.seq ≤ b.ticket.seq) ((s.ctx x).raster.exports.filter fun e => e.ticket.surf == h && e.ticket.px == px && e.ticket.py == py) = e :: rest →
    s.exportReady e = true →
    (e.kill = true → exec (.exportApply x h px py) s = .next ((s.modRaster x fun r => { r with exports := r.exports.erase e }).primsDone x)) ∧
    (∀ k w u, s.surf? e.ticket.x k = some u →
      let st := Surf.tile u (Surf.place u e.ticket.px e.ticket.py 0).2.2.1
      (st = 0 ∨ (st = 2 ∧ w = false) → s.exportTile e k w = .ok s) ∧
      (st ≠ 0 → ¬ (st = 2 ∧ w = false) → ∀ v, s.makeResident e.ticket.x k (Surf.place u e.ticket.px e.ticket.py 0).2.2.1 = .ok v →
        s.exportTile e k w = .ok (if st = 2 then v else v.perfAdd e.team 10 1))) ∧
    (e.kill = false → ∀ v, s.exportTiles e = .noFrame v ∨ (∃ f va, s.exportTiles e = .fault v f va) ∨ s.exportTiles e = .hold v →
      exec (.exportApply x h px py) s = .next v) ∧
    (e.kill = false → ∀ v, s.exportTiles e = .ok v → v.exportPoison e = false →
      exec (.exportApply x h px py) s = .next (((v.applyExport e).modRaster x fun r => { r with exports := r.exports.erase e }).primsDone x))) ∧
  ∀ (v : Vector DWord 8) (x y : Nat), 0 < area2 v →
    let e (a b : Nat) : Int := (coord v b 0 - coord v a 0) * (256 * y + 128 - coord v a 1) - (coord v b 1 - coord v a 1) * (256 * x + 128 - coord v a 0)
    let top (a b : Nat) : Prop := coord v b 1 < coord v a 1 ∨ (coord v b 1 = coord v a 1 ∧ coord v a 0 < coord v b 0)
    let inside (a b : Nat) : Prop := 0 < e a b ∨ (e a b = 0 ∧ top a b)
    (covers v x y = true ↔ inside 0 1 ∧ inside 1 2 ∧ inside 2 0)

/-! ## The managed heap (R130 to R142, R248 to R255, R281, R404, R405) -/

/-- The Strainer: references, field accesses, slots and compares. A reference resolves so: 0 to 0; a tag that is not 2 traps 0x10 with sub-cause 1, a reserved bit with 2, a granule outside the heap with 3; a null reference, and one of the good colour while no flip is under way, to itself. LDH gives each acting lane the field’s bytes, and 0 through a null reference that may read as zero; STH is a write step; LDREF gives the slot’s reference (for USE quantum as it stands at the home), resolved, and heals the slot where it still holds the loaded value; a lane whose slot lies in host memory waits for the host, and the completion of its compare-and-swap then writes DST; STREF stores the resolved reference, a null one as NullRef of its flags, a common byte by the highest lane; REFEQ compares the objects. A changed resolution of an h register goes back to it. -/
def Obligations.ReferencesResolve : Prop :=
  (∀ (s : State) (x : Nat) (write : Bool) (r : DWord),
    s.resolve x write 0 = .ok 0 ∧
    (r ≠ 0 → fld r 62 2 ≠ 2 → s.resolve x write r = .bad 1) ∧
    (fld r 62 2 = 2 → fld r 2 4 ≠ 0 → s.resolve x write r = .bad 2) ∧
    (fld r 62 2 = 2 → fld r 2 4 = 0 → fld r 6 54 = 0 → s.resolve x write r = .ok r) ∧
    (fld r 62 2 = 2 → fld r 2 4 = 0 → fld r 6 54 ≠ 0 → 32768 * s.heapCount x ≤ fld r 6 54 → s.resolve x write r = .bad 3) ∧
    (fld r 62 2 = 2 → fld r 2 4 = 0 → fld r 6 54 ≠ 0 → fld r 6 54 < 32768 * s.heapCount x → fld r 60 2 = s.goodCol x → s.flipBusy x = false →
      s.resolve x write r = .ok r)) ∧
  (∀ (f : MF) (s : State) (rs : List (Nat × DWord)) (loc : Nat → Nat) (pg : Nat → Page),
    let b (i : Instr) (a : Acc) : State := ((s.begun i).writeBackRef s.cur f.base (refsOf (s.begun i) s.cur (s.acting i) f.base) rs).strain s.cur rs (offOf f.c * MF.size f) a
    let locs (i : Instr) : List (Nat × Nat × Page) := (s.acting i).map fun l => (l, loc l, pg l)
    (s.acts (.ldh f) = true → f.op = .add → (s.begun (.ldh f)).resolveAll s.cur false (refsOf (s.begun (.ldh f)) s.cur (s.acting (.ldh f)) f.base) = .inr rs →
      (∀ l ∈ s.acting (.ldh f), (s.begun (.ldh f)).fieldCheck s.cur (laneVal rs l) (offOf f.c * MF.size f) (MF.size f) .read = .ok (loc l) (pg l)) →
      exec (.ldh f) s = .next (s.performed (.ldh f) (((b (.ldh f) .read).loadAll s.cur f (live rs (locs (.ldh f)))).loadDst s.cur f.ty.wide f.dst
        ((nulls rs (locs (.ldh f))).map fun x => (x.1, 0, false))))) ∧
    (s.acts (.sth f) = true → f.op = .add → (s.begun (.sth f)).resolveAll s.cur true (refsOf (s.begun (.sth f)) s.cur (s.acting (.sth f)) f.base) = .inr rs →
      (∀ l ∈ s.acting (.sth f), (s.begun (.sth f)).fieldCheck s.cur (laneVal rs l) (offOf f.c * MF.size f) (MF.size f) .write = .ok (loc l) (pg l)) →
      exec (.sth f) s = .next (s.performed (.sth f) ((b (.sth f) .write).storeAll s.cur f (live rs (locs (.sth f))))))) ∧
  (∀ (f : MF) (s u : State) (rs out : List (Nat × DWord)) (locs : List (Nat × Nat × Page)),
    (s.acts (.ldref f) = true → (s.begun (.ldref f)).slots8 s.cur f (s.acting (.ldref f)) false = .inr (u, rs, locs) →
      let b := s.begun (.ldref f)
      let vals := (live rs locs).map fun x => (x.1, BitVec.ofNat 64 (if f.use = .quantum then b.homeReadN x.2.1 8 else b.seenN s.cur x.1 x.2.1 8))
      let slots := (live rs locs).map fun x => b.healSlot s.cur (b.slotVa s.cur f rs x.1) x
      let away := slots.filter fun x => healOut x (laneVal vals x.1) (laneVal out x.1)
      let got := ((s.acting (.ldref f)).filter fun l => !away.any (·.1 == l)).foldl (fun v l => v.writeOp s.cur l true f.dst (laneVal out l))
        ((slots.foldl (fun v x => if laneVal vals x.1 = 0 || healOut x (laneVal vals x.1) (laneVal out x.1) then v
          else v.heal s.cur x (laneVal vals x.1) (laneVal out x.1)) u).countBanks s.cur 8 (slots.map (·.2.1)))
      (∀ x ∈ live rs locs, (b.slotValue s.cur f x).2 = false) → b.resolveAll s.cur false vals = .inr out →
      (∀ x ∈ slots, (healCheck x (laneVal vals x.1) (laneVal out x.1)).rank = none ∧ b.healPoison s.cur x (laneVal vals x.1) (laneVal out x.1) = false) →
      (away = [] → exec (.ldref f) s = .next (s.performed (.ldref f) got)) ∧
      (away ≠ [] → exec (.ldref f) s = .next ((got.tally s.cur (s.acting (.ldref f)).length).setWaits s.cur
        (away.map fun x => (x.1, .host x.2.1 (BitVec.ofNat 64 (b.slotVa s.cur f rs x.1)) (laneVal vals x.1) (laneVal out x.1)))))) ∧
    (s.acts (.stref f) = true → (s.begun (.stref f)).slots8 s.cur f (s.acting (.stref f)) true = .inr (u, rs, locs) →
      u.resolveAll s.cur false (refsOf u s.cur (s.acting (.stref f)) f.data) = .inr out →
      let value (l : Nat) : DWord := if Ref.gi (laneVal out l) = 0 then Ref.null (laneVal out l) else laneVal out l
      let slots := live rs locs
      let mine (k : Nat) (c : Host.Cell) : Bool := (slots.drop (k + 1)).all fun y => decide (c.1 < y.2.1) || decide (y.2.1 + 8 ≤ c.1)
      exec (.stref f) s = .next (s.performed (.stref f) ((List.range slots.length).foldl (fun v k =>
        let x := slots.getD k default
        let cells := (cellsOf x.2.1 8 (value x.1).toNat).filter (mine k)
        let v := v.snapFirst ((s.begun (.stref f)).ctxOf s.cur) ((s.begun (.stref f)).team s.cur.team).id.gen x.2.1 x.2.2
        if cells = [] then v else v.bufWrite s.cur x.1 cells)
        ((u.writeBackRef s.cur f.data (refsOf u s.cur (s.acting (.stref f)) f.data) out).countBanks s.cur 8 (slots.map (·.2.1)))))) ∧
    (s.acts (.refeq f) = true → ∀ ra rb,
      (s.begun (.refeq f)).resolveAll s.cur false (refsOf (s.begun (.refeq f)) s.cur (s.acting (.refeq f)) f.base) = .inr ra →
      (s.begun (.refeq f)).resolveAll s.cur false (refsOf (s.begun (.refeq f)) s.cur (s.acting (.refeq f)) f.data) = .inr rb →
      exec (.refeq f) s = .next (s.performed (.refeq f) ((s.acting (.refeq f)).foldl
        (fun v l => v.writeOp s.cur l false f.dst (if Ref.gi (laneVal ra l) = Ref.gi (laneVal rb l) then 1 else 0))
        (((s.begun (.refeq f)).writeBackRef s.cur f.base (refsOf (s.begun (.refeq f)) s.cur (s.acting (.refeq f)) f.base) ra).writeBackRef s.cur f.data
          (refsOf (s.begun (.refeq f)) s.cur (s.acting (.refeq f)) f.data) rb))))) ∧
  (∀ (f : MF) (s : State) (p : Party) (l loc : Nat) (va old new : DWord) (w : Run), (s.thread p l).wait = some (.host loc va old new) → (s.group p).run = some w →
    decodeWord w.word = .ok (.ldref f) →
    exec (.hostAtomicopCompletion p l true) s = .next (((s.homeAtomic .cas .b64 loc new old).2.writeOp p l true f.dst new).hostDone p l)) ∧
  ∀ (s : State) (p : Party) (x : Nat × Nat × Page) (v r : DWord),
    (r = v → s.heal p x v r = s) ∧ (isScratch (x.2.1 % keyUnit) = false → x.2.2.w = false → s.heal p x v r = s) ∧
    (r ≠ v → s.inSteep p = false → isScratch (x.2.1 % keyUnit) = true ∨ x.2.2.w = true →
      s.heal p x v r = if BitVec.ofNat 64 (s.homeReadN x.2.1 8) = v then (s.snapFirst (s.ctxOf p) (s.team p.team).id.gen x.2.1 x.2.2).homeWriteN x.2.1 8 r.toNat
        else s)

/-- NEWOBJ, PIN, UNPIN, HEVAC, the colour flip and the relocation engines. NEWOBJ with a size that is no multiple of 8, below 16 or above 2,097,152 traps 0x11; else the lane gets the new reference and whether there is one: with a heap of no region none, with room in the current region the granule at its top. An allocation whose translation fails traps. PIN and UNPIN count the object’s pins up and down at device scope, and the region’s with the first and the last; an object in host memory faults with sub-cause 0x09. HEVAC (its status in DST of the lowest acting lane, which is DEDUCED: log 19) and REL_CTL’s START start an evacuation, or answer 1, 2 or 3 why not. FLIP_ACK of a core does nothing while no flip waits for it or a team of it is part-way; the last one advances EPOCH, clears FLIPBUSY and starts the copying. RELOCATE_OBJECT does nothing while no copying is under way, and serves an object that a writer asked for first. -/
def Obligations.ObjectsPinsAndEvacuation : Prop :=
  (∀ (f : MF) (s : State) (l : Nat), s.acts (.newobj f) = true → s.acting (.newobj f) = [l] →
    let b := s.begun (.newobj f)
    let x := s.ctxOf s.cur
    let n := (b.readOp s.cur l false f.base).toNat % 2 ^ 32
    (n % 8 ≠ 0 ∨ n < 16 ∨ 2097152 < n → exec (.newobj f) s = .next (s.trapped (.newobj f) b (s.slotTrap 0x11 [l] 0 (BitVec.ofNat 64 n)))) ∧
    (n % 8 = 0 → 16 ≤ n → n ≤ 2097152 → (∀ rg, rg < b.heapCount x → b.tableOk (b.hrtAddr x rg) = true) →
      (∀ va e, b.alloc s.cur x n (b.readOp s.cur l false f.data).toNat = .error (va, e) → e.held = false →
        exec (.newobj f) s = .next (s.faulted (.newobj f) b .write e [l] va)) ∧
      ∀ r u, b.alloc s.cur x n (b.readOp s.cur l false f.data).toNat = .ok (r, u) →
        exec (.newobj f) s = .next (s.performed (.newobj f) ((u.writeOp s.cur l true f.dst r).writeOp s.cur l false f.c (if r = 0 then 0 else 1))))) ∧
  (∀ (s : State) (p : Party) (x size ty : Nat) (r : DWord) (u : State), s.alloc p x size ty = .ok (r, u) →
    (s.heapCount x = 0 → r = 0) ∧
    (s.heapCount x ≠ 0 → (s.creg x .heapAlloc).getLsbD 31 = true → s.rgTop x (fld (s.creg x .heapAlloc) 0 16) + ceilDiv size 64 ≤ 32768 →
      Ref.tag r = 2 ∧ Ref.gi r = 32768 * fld (s.creg x .heapAlloc) 0 16 + s.rgTop x (fld (s.creg x .heapAlloc) 0 16) ∧ fld r 0 6 = 0)) ∧
  (∀ (f : MF) (s : State) (up : Bool) (l : Nat) (r : DWord) (h : Hdr),
    let i : Instr := if up then .pin f else .unpin f
    let x := s.ctxOf s.cur
    let refs := refsOf (s.begun i) s.cur [l] f.base
    s.acts i = true → s.acting i = [l] → (s.begun i).resolveAll s.cur true refs = .inr [(l, r)] → (s.begun i).anyPoison = false → s.poolClear s.cur [l] = true →
    Ref.gi r ≠ 0 → (s.begun i).header (some (s.team s.cur.team).coreNo) x (Ref.gi r) .write = .ok h → h.hst ≠ 2 →
    (isHost (h.loc % keyUnit) = true → exec i s = .next (s.faulted i (s.begun i) .write { sub := 9 } [l] (s.granVa x (Ref.gi r)))) ∧
    (isHost (h.loc % keyUnit) = false →
    (if up then h.pinc < 255 else 1 ≤ h.pinc) → (h.pinc = (if up then 0 else 1) → (s.begun i).tableOk ((s.begun i).hrtAddr x (Ref.gi r / 32768)) = true) →
    let v0 := ((((s.begun i).writeBackRef s.cur f.base refs [(l, r)]).tlbUseAll s.cur [s.granVa x (Ref.gi r)] .write).release s.cur l .device).snapFirst x
      (s.team s.cur.team).id.gen h.loc h.page
    let c := v0.homeReadN (h.loc + 8) 1
    let v1 := v0.homeWriteN (h.loc + 8) 1 (if up then c + 1 else c - 1)
    let rg := Ref.gi r / 32768
    let v2 := if up && c = 0 then v1.setHrt0 x rg (setFld (v1.hrt0 x rg) 32 16 (v1.rgPins x rg + 1))
      else if !up && c = 1 then v1.setHrt0 x rg (setFld (v1.hrt0 x rg) 32 16 (v1.rgPins x rg - 1)) else v1
    let v3 := v2.acquire s.cur.team .device
    exec i s = .next (s.performed i (if up then v3.writeOp s.cur l true f.dst (BitVec.ofNat 64 (v3.granVa x (Ref.gi r))) else v3)))) ∧
  (∀ (f : EF) (s : State) (l : Nat) (ls : List Nat), s.acts (.hevac f) = true → s.acting (.hevac f) = l :: ls →
    Operand.still f.a = true → Operand.still f.b = true → Operand.still f.c = true → s.poolClear s.cur (l :: ls) = true →
    let b := s.begun (.hevac f)
    let u := b.releaseLanes s.cur (l :: ls) .cluster
    let x := s.ctxOf s.cur
    let t := s.team s.cur.team
    let w : Word := (b.readOp s.cur l false f.a).setWidth 32
    let n := (b.readOp s.cur l false f.b).toNat + 1
    let col := (b.readOp s.cur l false f.c).toNat
    let list := (List.range n).map fun i => ofLe [u.overlay t.id.cluster (t.spLoc w + 2 * i), u.overlay t.id.cluster (t.spLoc w + 2 * i + 1)]
    let no (v : Nat) : Prop := exec (.hevac f) s = .next (s.performed (.hevac f) ((u.setRelStat x 2 1 1).deliverOp s.cur l false f.dst (BitVec.ofNat 64 v)))
    ((s.creg x .relStat).getLsbD 0 = true → no 1) ∧
    ((s.creg x .relStat).getLsbD 0 = false → (4 ≤ col ∨ col = s.goodCol x) → no 2) ∧
    ((s.creg x .relStat).getLsbD 0 = false → col < 4 → col ≠ s.goodCol x → (256 < n → no 3) ∧
      (n ≤ 256 → ∀ loc, b.ldsrRange t 1 w (2 * n) 2 = .ok loc →
        ((∃ rg ∈ list, s.heapCount x ≤ rg) → no 3) ∧
        ((∀ rg ∈ list, rg < s.heapCount x) → exec (.hevac f) s = .next (s.performed (.hevac f) ((u.evacuate x col list).deliverOp s.cur l false f.dst 0)))))) ∧
  (∀ (s : State) (x : Nat) (v : Word), v.getLsbD 0 = false → exec (.relCtlStart x v) s = .next (s.setCreg x .relCtl (BitVec.ofNat 64 (fld v 2 10 * 4)))) ∧
  (∀ (s : State) (x : Nat) (v : Word), v.getLsbD 0 = true →
    let u := s.setCreg x .relCtl (BitVec.ofNat 64 (fld v 2 10 * 4))
    let list := (List.range (fld v 4 8 + 1)).map fun i => u.readPa 0 (fld (u.creg x .relList) 9 43 * 512 + 2 * i) 2
    (u.evacRefusal x (fld v 2 2) list ≠ none → exec (.relCtlStart x v) s = .next (u.setRelStat x 2 1 1)) ∧
    (u.evacRefusal x (fld v 2 2) list = none → exec (.relCtlStart x v) s = .next (u.evacuate x (fld v 2 2) list))) ∧
  (∀ (s : State) (x cl c : Nat),
    (s.flipBusy x = false ∨ (s.ctx x).reloc.acks.contains (coreNo cl c) = false → exec (.flipAck x cl c) s = .next s) ∧
    (s.flipBusy x = true → (s.ctx x).reloc.acks = [coreNo cl c] → x < 64 →
      (s.teams.filter fun t => t.id.ctx == x && t.coreNo == coreNo cl c && t.phase != .saved) = [] →
      ∃ t : State, exec (.flipAck x cl c) s = .next t ∧ fld (t.creg x .heapCol) 32 32 = (fld (s.creg x .heapCol) 32 32 + 1) % 2 ^ 32 ∧ t.flipBusy x = false ∧
        t.goodCol x = s.goodCol x ∧ (t.ctx x).reloc.copying = true ∧ (t.ctx x).reloc.acks = [] ∧ t.mem = s.mem)) ∧
  ∀ (s : State) (x d : Nat),
    ((s.ctx x).reloc.copying = false ∨ s.flipBusy x = true ∨ (vget (s.ctx x).reloc.batch d).isSome = true → exec (.relocateObject x d) s = .next s) ∧
    ((s.ctx x).reloc.copying = true → s.flipBusy x = false → vget (s.ctx x).reloc.batch d = none →
      ∀ g, (s.ctx x).reloc.asked.find? (fun g => g / 32768 % 2 == d) = some g → fld (s.fwd x g) 62 2 = 0 →
        exec (.relocateObject x d) s = .next (s.engineObject x d g))

/-! ## The copy engine (R84 to R97, R256 to R266) -/

/-- Copy records: pushes, chains, acceptance, delivery and completion. CPY, CPYG, CPYS, CPYW, CPYX and COLL with a good record image push one record for an acting lane after a release at cluster scope: it holds the 64 bytes that the lane reads there, takes the next number of the context’s timeline, which DST receives, and counts in the copy counter; with 16 pushed records not accepted the instruction is issued again. CHAIN sets the channel register, or traps 0x0C or 0x0D for a bad address, or waits while a chain runs. A record is accepted in number order; a failed check stops the context with its STATUS in FSTAT, once the record’s global word 0 may be written. A chunk, once the words that the engine writes beside it are ready, adds its bytes to the counter; the last byte lets the record complete with STATUS 1 and its number on the timeline, which reads n once 1 to n have completed; a transaction barrier that is out of bounds by then is STATUS 2. SKIP resumes past the failed record, the first in order where two failed, which is the model’s choice (DESIGN CHOICE, log 15); ABORT drops everything and completes every number given, or goes on later while a record’s word 0 cannot be written. -/
def Obligations.RecordsArePushedAndComplete : Prop :=
  (∀ (f : EF) (c : BitVec 2) (s : State) (l loc : Nat), ∀ ik ∈ [(Instr.cpy f c, 0), (.cpyg f c, 1), (.cpys f c, 2), (.cpyw f c, 3), (.cpyx f c, 4), (.coll f c, 5)],
    let i := ik.1
    let b := s.begun i
    let t := s.team s.cur.team
    let w : Word := (b.readOp s.cur l false f.a).setWidth 32
    s.acts i = true → s.acting i = [l] → (s.group s.cur).pushed = 0 → Operand.still f.a = true → Operand.own f.dst = true →
    b.spCheck s.cur true w 0 64 = .ok loc → s.poolClear s.cur [l] = true →
    ((vget t.copy c.toNat).full = true → exec i s = .next (s.again i b)) ∧
    ((vget t.copy c.toNat).full = false →
      let n := (vget t.tl c.toNat).given + 1
      ∃ v : State, exec i s = .next (s.performed i v) ∧
        (vget (v.team s.cur.team).copy c.toNat).recs = (vget t.copy c.toNat).recs ++
          [{ no := n, w := recOfBytes ((List.range 64).map fun k => b.seenByte s.cur l (loc + k)), src := .pushed w, want := some ik.2, owner := some s.cur, inst := 4 * n + c.toNat }] ∧
        (vget (v.team s.cur.team).tl c.toNat).given = n ∧ (v.group s.cur).cpCnt = (s.group s.cur).cpCnt + 1 ∧ v.mem = s.mem ∧ v.clusters = (b.release s.cur l .cluster).clusters ∧
        v.thread s.cur l = (s.thread s.cur l).put f.dst false (BitVec.ofNat 64 (n % 2 ^ 32)) ∧ ∀ k, k ≠ l → v.thread s.cur k = s.thread s.cur k)) ∧
  (∀ (f : EF) (c : BitVec 2) (s : State) (l : Nat) (ls : List Nat), s.acts (.chain f c) = true → s.acting (.chain f c) = l :: ls → Operand.still f.a = true →
    let b := s.begun (.chain f c)
    let v := b.readOp s.cur l true f.a
    (fld v 1 5 ≠ 0 → exec (.chain f c) s = .next (s.trapped (.chain f c) b (s.slotTrap 0x0C [l] v 0))) ∧
    (fld v 1 5 = 0 → v.getLsbD 0 = true → fld v 32 32 ≠ 0 → exec (.chain f c) s = .next (s.trapped (.chain f c) b (s.slotTrap 0x0D [l] v 0))) ∧
    (fld v 1 5 = 0 → (v.getLsbD 0 = false ∨ fld v 32 32 = 0) →
      (s.poolClear s.cur (l :: ls) = false → exec (.chain f c) s = .next (s.again (.chain f c) b)) ∧
      ((vget (s.team s.cur.team).copy c.toNat).idle = false → (vget (s.team s.cur.team).copy c.toNat).parked = false → exec (.chain f c) s = .next (s.again (.chain f c) b)) ∧
      (s.poolClear s.cur (l :: ls) = true → (vget (s.team s.cur.team).copy c.toNat).idle = true ∨ (vget (s.team s.cur.team).copy c.toNat).parked = true →
        exec (.chain f c) s = .next (s.performed (.chain f c) ((b.releaseLanes s.cur (l :: ls) .cluster).modTeam s.cur.team fun t =>
          t.modCopy c.toNat fun k => { k with chan := if fld v 6 58 = 0 then 0 else v, parked := false }))))) ∧
  (∀ (s : State) (u c : Nat),
    (s.copyOpen u c = false → exec (.recordAccept u c) s = .next s ∧ exec (.chainRecordPoll u c) s = .next s) ∧
    (s.copyOpen u c = true →
      (∀ r, (vget (s.team u).copy c).recs.find? (fun r => !r.accepted) = some r → r.src ≠ .queue ∨ (vget (s.team u).copy c).compq.length < 16 → exec (.recordAccept u c) s = .next (s.acceptRec u c r)) ∧
      ((vget (s.team u).copy c).recs.find? (fun r => !r.accepted) = none → (vget (s.team u).copy c).parked = false →
        exec (.recordAccept u c) s = .next (if fld (vget (s.team u).copy c).chan 6 58 = 0 then s else s.acceptChain u c)) ∧
      ((vget (s.team u).copy c).recs.find? (fun r => !r.accepted) = none → (vget (s.team u).copy c).parked = true →
        exec (.chainRecordPoll u c) s = .next ((s.modTeam u fun t => t.modCopy c fun k => { k with parked := false }).acceptChain u c)))) ∧
  (∀ (s : State) (u c : Nat) (r : CopyRec) (st sub : Nat) (x : Int) (y : Nat), c < 4 → (s.team? u).isSome = true →
    (vget ((s.recFail u c r st sub x y).team u).copy c).stopped = true ∧ (vget ((s.recFail u c r st sub x y).team u).copy c).fstat = st ∧
    (vget ((s.recFail u c r st sub x y).team u).copy c).recno = BitVec.ofNat 32 r.no) ∧
  (∀ (s : State) (u c : Nat) (r : CopyRec), Rec.kind r.w ≠ 1 →
    (∀ st sub x y, s.recCheck (s.team u) r [] = some (st, sub, x, y) → s.acceptRec u c r = s.withStatus u c r fun v => v.recFail u c r st sub x y) ∧
    (∀ go : State → State, (r.statusWord = [] → s.withStatus u c r go = go s) ∧
      ∀ q k, s.engWords (s.team u) r.statusWord = .go q k → s.withStatus u c r go = go q) ∧
    (s.recCheck (s.team u) r [] = none → Rec.kind r.w ≠ 5 → s.recProbe (s.team u) r.w [] = none →
      s.acceptRec u c r = (s.recTouch (s.team u) r.w).modTeam u fun t => t.modCopy c fun k => { k with recs := k.recs.map fun q => if q.no = r.no then { r with accepted := true, idx := [] } else q })) ∧
  (∀ (s : State) (u c no : Nat) (r : CopyRec), (s.team? u).isSome = true → (vget (s.team u).copy c).recs.find? (·.no == no) = some r → r.accepted = true → r.status = 0 →
    (vget (s.team u).copy c).batch = none → (vget (s.team u).copy c).aborting = false → Rec.dsp r.w ≠ 3 → Rec.kind r.w ≠ 5 →
    (r.delivered < s.recTotal (s.team u).id.ctx r.w →
      exec (.recordComplete u c no) s = .next s ∧
      ∀ q k v n, s.wordsReady (s.team u) r false = .go q k → q.chunk (s.team u) r r.delivered (min 4096 (s.recTotal (s.team u).id.ctx r.w - r.delivered)) = .go v n →
        exec (.recordChunkDelivered u c no) s = .next ((((v.chunkTouch (s.team u) r r.delivered n).addCnt u r n).perfAdd u 7 n).modRec u c no fun r => { r with delivered := r.delivered + n, counted := r.counted + n })) ∧
    (s.recTotal (s.team u).id.ctx r.w ≤ r.delivered → exec (.recordChunkDelivered u c no) s = .next s ∧
      (∀ q k, s.wordsReady (s.team u) r true = .go q k → Rec.kind r.w ≠ 4 → Rec.tba r.w = false → exec (.recordComplete u c no) s = .next (q.recEnd u c r 1)) ∧
      (∀ q k e, s.wordsReady (s.team u) r true = .go q k → Rec.kind r.w ≠ 4 → Rec.tba r.w = true → q.spRange (s.team u) (Rec.tbar r.w) (Spw.off (Rec.tbar r.w)) 16 = .error e →
        exec (.recordComplete u c no) s = .next (q.recFail u c r 2 0 0 0)))) ∧
  (∀ (x : Timeline) (n : Nat), x.above = [] →
    (n ≤ x.done → x.finish n = x) ∧ (n = x.done + 1 → (x.finish n).done = n) ∧ (x.done + 1 < n → (x.finish n).done = x.done ∧ n ∈ (x.finish n).above)) ∧
  ∀ (s : State) (u c : Nat), c < 4 → (s.team? u).isSome = true →
    ((vget (s.team u).copy c).stopped = false → exec (.skip u c) s = .next s ∧ ((s.team u).killed = false → exec (.abort u c) s = .next s)) ∧
    ((vget (s.team u).copy c).stopped = true →
      ((vget (s.team u).copy c).aborting = false → ∃ t : State, exec (.skip u c) s = .next t ∧ (vget (t.team u).copy c).stopped = false ∧
        ∀ r, (vget (s.team u).copy c).recs.find? (fun r => r.status != 0) = some r →
          (vget (t.team u).copy c).recs = (vget (s.team u).copy c).recs.filter (·.no != r.no) ∧ (vget (t.team u).tl c) = (vget (s.team u).tl c).finish r.no) ∧
      ∃ t : State, exec (.abort u c) s = .next t ∧
        (((vget (t.team u).copy c).recs = [] ∧ (vget (t.team u).copy c).stopped = false ∧ (vget (t.team u).copy c).chan = 0 ∧
            (vget (t.team u).copy c).aborting = false ∧ (vget (t.team u).tl c).done = (vget (t.team u).tl c).given) ∨
          ((∃ r ∈ (vget (s.team u).copy c).recs, r.statusWord ≠ []) ∧ (vget (t.team u).copy c).aborting = true)))

/-! ## Caddy streams, the matrix engine and the near-bank arrays (R111 to R129, R258, R267 to R274) -/

/-- Caddy streams, tile operations, accumulators and the near-bank arrays. CDRES reserves a tag or traps 0x1B; CDREL waits for the tag’s users and releases it; CDPUSH enters its bytes; STREAM_APPEND never lets TAIL pass HEAD by more than CAP; the unit that the oldest producer’s bytes complete is written at TAIL, its scale beside it, and TAIL moves on, where there is room, and nothing enters where there is none. MMA traps 0x1B on a bad size or stream and 0x19 over the quota, waits for a slot, and else joins the matrix engine’s order; MMAG, numbered and counted, waits in the latch until every listed group came; a gang at odds or not listed traps every member, the arriving one in its lowest acting lane (the model’s choice, log 31). A k-slice is taken once its positions have arrived; the completed multiply writes each element, in reproducibility mode the canonical sum, and consumes A and B; one that the shadow unit finds wrong traps 0x22 with the tile undefined. ACCRD waits for the tag in its place in the order and converts a row; ACCWR, ACCST and ACCREL work the accumulators, an ACCST’s elements reaching their homes as it retires. VXMCFG sets VXC or traps 0x0F; VXM checks every lane, then joins its team’s passes. -/
def Obligations.StreamsTilesAndNearBankArrays : Prop :=
  (∀ (f : EF) (tag : BitVec 3) (s : State) (l : Nat) (ls : List Nat), s.acts (.cdres f tag) = true → s.acting (.cdres f tag) = l :: ls → Operand.still f.a = true →
    let b := s.begun (.cdres f tag)
    let w := b.readOp s.cur l true f.a
    (∀ r, (b.team s.cur.team).cdresBad tag.toNat w = some r → exec (.cdres f tag) s = .next (s.trapped (.cdres f tag) b (s.slotTrap 0x1B [l] 0 (streamAux r tag.toNat 0)))) ∧
    ((b.team s.cur.team).cdresBad tag.toNat w = none → exec (.cdres f tag) s = .next (s.performed (.cdres f tag)
      (b.modTeam s.cur.team fun t => { t with streams := vset t.streams tag.toNat { w0 := setBit w 0 true } })))) ∧
  (∀ (t : Team) (tag : Nat) (w : DWord), (Cds.valid (vget t.streams tag).w0 = true → t.cdresBad tag w = some 4) ∧
    (t.cdresBad tag w = none → 0 < Cds.len w ∧ t.regs.cdBase ≤ Cds.base w ∧ Cds.base w + Cds.len w ≤ t.regs.cdBase + t.regs.cdSize ∧
      ∀ i, i < 8 → i ≠ tag → Cds.valid (vget t.streams i).w0 = true →
        Cds.base w + Cds.len w ≤ Cds.base (vget t.streams i).w0 ∨ Cds.base (vget t.streams i).w0 + Cds.len (vget t.streams i).w0 ≤ Cds.base w)) ∧
  (∀ (f : EF) (tag : BitVec 3) (s : State), s.acts (.cdrel f tag) = true → s.acting (.cdrel f tag) ≠ [] →
    let b := s.begun (.cdrel f tag)
    let t := b.team s.cur.team
    let st := vget t.streams tag.toNat
    (Cds.valid st.w0 = false → exec (.cdrel f tag) s = .next (s.performed (.cdrel f tag) b)) ∧
    (Cds.valid st.w0 = true → ((b.tilesOf t).any (·.names tag.toNat) = true ∨ (∃ x ∈ t.latch, x.a = tag.toNat ∨ x.b = tag.toNat) ∨ st.pend ≠ [] ∨
      t.recordsTo tag.toNat = true) → exec (.cdrel f tag) s = .next (s.again (.cdrel f tag) b)) ∧
    (Cds.valid st.w0 = true → (b.tilesOf t).any (·.names tag.toNat) = false → (∀ x ∈ t.latch, x.a ≠ tag.toNat ∧ x.b ≠ tag.toNat) → st.pend = [] → t.recordsTo tag.toNat = false →
      exec (.cdrel f tag) s = .next (s.performed (.cdrel f tag) (b.modTeam s.cur.team fun t =>
        { t with streams := vmod t.streams tag.toNat fun st => { st with w0 := setBit st.w0 0 false, raw := [], poison := [] } })))) ∧
  (∀ (f : EF) (sz : BitVec 2) (tag : BitVec 3) (s : State) (l : Nat) (ls : List Nat), s.acts (.cdpush f sz tag) = true → s.acting (.cdpush f sz tag) = l :: ls →
    Operand.still f.a = true →
    let b := s.begun (.cdpush f sz tag)
    let st := vget (b.team s.cur.team).streams tag.toNat
    (Cds.valid st.w0 = false → exec (.cdpush f sz tag) s = .next (s.trapped (.cdpush f sz tag) b (s.slotTrap 0x1B (l :: ls) 0 (streamAux 1 tag.toNat 0)))) ∧
    (Cds.valid st.w0 = true → st.pend = [] → b.poolClear s.cur (l :: ls) = true → ∀ (u : State) (d : Bool),
      (b.releaseLanes s.cur (l :: ls) .cluster).streamPush s.cur l tag.toNat
        ((l :: ls).flatMap fun k => leBytes (2 ^ sz.toNat) (b.readOp s.cur k (sz == 3) f.a).toNat) = (u, d) →
      exec (.cdpush f sz tag) s = .next (if d then s.performed (.cdpush f sz tag) u else s.again (.cdpush f sz tag) u))) ∧
  (∀ (s : State) (u tag : Nat), ∃ t : State, exec (.streamAppend u tag) s = .next t ∧
    let st := vget (s.team u).streams tag
    let st' := vget (t.team u).streams tag
    st'.head = st.head ∧ st'.w0 = st.w0 ∧ st.tail ≤ st'.tail ∧ (st.tail ≤ st.head + st.cap (s.team u).regs.fmt → st'.tail ≤ st.head + st.cap (s.team u).regs.fmt) ∧
    (st.pend = [] → t = s) ∧
    ∀ who bs rest, st.pend = (who, bs) :: rest → (s.team? u).isSome = true → tag < 8 → bs ≠ [] →
      let fmt := (s.team u).regs.fmt
      let key (off : Nat) : Nat := caddyKey (s.team u).id.cluster (s.team u).id.core (Cds.base st.w0 + off)
      (st.cap fmt < st.tail + (st.unit fmt).2 - st.head → st' = st ∧ t.mem = s.mem) ∧
      (st.tail + (st.unit fmt).2 ≤ st.head + st.cap fmt → st.head ≤ st.tail → s.mem.wf → st.raw.length + bs.length = (st.unit fmt).1 →
        let unit := st.raw ++ bs
        let els := if Cds.blk st.w0 = 0 then unit else unit.dropLast
        st'.tail = st.tail + (st.unit fmt).2 ∧ st'.raw = [] ∧
        (∀ j, j < els.length → t.mem.read (key (((st.tail % st.cap fmt) * st.ebits fmt / 8 + j) % Cds.soff st.w0)) = els.getD j 0) ∧
        (Cds.blk st.w0 ≠ 0 → t.mem.read (key (Cds.soff st.w0 + (st.tail / Cds.blk st.w0) % st.scap)) = unit.getLastD 0))) ∧
  (∀ (f : EF) (acc : BitVec 4) (ta tb : Option Ty) (s : State) (l : Nat) (ls : List Nat) (m n k : Nat),
    let i : Instr := .mma f acc ta tb
    let b := s.begun i
    s.acts i = true → s.acting i = l :: ls → b.mnk s.cur l f.c = (m, n, k) →
    (∀ r tag, (b.team s.cur.team).mmaBad (qTag f.a) (qTag f.b) ta tb m n k = some (r, tag) →
      exec i s = .next (s.trapped i b (s.slotTrap 0x1B [l] 0 (streamAux r tag acc.toNat)))) ∧
    ((b.team s.cur.team).mmaBad (qTag f.a) (qTag f.b) ta tb m n k = none →
      (b.bindAcc s.cur.team acc.toNat = .quota → exec i s = .next (s.trapped i b (s.slotTrap 0x19 [l] 0 (acc.setWidth 64)))) ∧
      (b.bindAcc s.cur.team acc.toNat = .wait → exec i s = .next (s.again i b)) ∧
      (∀ u, b.bindAcc s.cur.team acc.toNat = .ok u → b.poolClear s.cur (l :: ls) = true →
        exec i s = .next (s.performed i ((u.releaseLanes s.cur (l :: ls) .cluster).pushTile s.cur fun no => .mma s.cur no acc.toNat (qTag f.a) (qTag f.b) m n k 0 false))))) ∧
  (∀ (t : Team) (a b : Nat) (ta tb : Option Ty) (m n k : Nat), (m = 0 ∨ 32 < m ∨ n = 0 ∨ 32 < n ∨ k = 0 ∨ 65535 < k → t.mmaBad a b ta tb m n k = some (5, a)) ∧
    (t.mmaBad a b ta tb m n k = none → Cds.valid (vget t.streams a).w0 = true ∧ Cds.valid (vget t.streams b).w0 = true ∧
      (∀ y, ta = some y → Cds.etype (vget t.streams a).w0 = some y) ∧ ∀ y, tb = some y → Cds.etype (vget t.streams b).w0 = some y)) ∧
  (∀ (s : State) (u acc i : Nat), (vget (s.team u).accs acc = some i → s.bindAcc u acc = .ok s) ∧
    (vget (s.team u).accs acc = none → (s.team u).regs.accq ≤ (s.team u).bound → s.bindAcc u acc = .quota) ∧
    (acc < 16 → (s.team? u).isSome = true → (s.team u).coreNo < 1152 → i < 16 → vget (s.team u).accs acc = none → (s.team u).bound < (s.team u).regs.accq →
      (∀ j, j < i → (vget (vget s.cores (s.team u).coreNo).slots j).bound = true ∨ (vget (vget s.cores (s.team u).coreNo).slots j).clearing = true) →
      (vget (vget s.cores (s.team u).coreNo).slots i).bound = false → (vget (vget s.cores (s.team u).coreNo).slots i).clearing = false →
      ∃ t : State, s.bindAcc u acc = .ok t ∧ vget (t.team u).accs acc = some i ∧ ∀ e, (vget (vget t.cores (t.team u).coreNo).slots i).elem e = 0)) ∧
  (∀ (f : EF) (acc : BitVec 4) (ta tb : Option Ty) (s : State) (l : Nat) (ls : List Nat) (m n k g : Nat),
    let i : Instr := .mmag f acc ta tb
    let b := s.begun i
    let t := b.team s.cur.team
    let me : GangArr := { group := g, acc := acc.toNat, a := qTag f.a, b := qTag f.b, m, n, k }
    let all := t.latch ++ [me]
    s.acts i = true → s.acting i = l :: ls → s.cur.mem = .group g → b.mnk s.cur l f.c = (m, n, k) → t.mmaBad (qTag f.a) (qTag f.b) ta tb m n k = none →
    (t.regs.gang.getLsbD g = false → exec i s = .next (s.trapped i (b.trapLatch s.cur.team 0x1A 6) (s.slotTrap 0x1A [l] 0 6))) ∧
    (t.regs.gang.getLsbD g = true → t.latch.any (·.group == g) = false → (∃ h ∈ bitsOf t.regs.gang, h ≠ g ∧ t.latch.any (·.group == h) = false ∧
        (t.groups.getD h default).threads.toList.all (fun x => x.life != .live) = true) →
      exec i s = .next (s.trapped i (b.trapLatch s.cur.team 0x1A 5) (s.slotTrap 0x1A [l] 0 5))) ∧
    (t.regs.gang.getLsbD g = true → t.gangMissing = false → b.poolClear s.cur (l :: ls) = true →
      (∀ h ∈ bitsOf t.regs.gang, h ≠ g → t.latch.any (·.group == h) = false →
        let r := (b.releaseLanes s.cur (l :: ls) .cluster).takeTile s.cur
        exec i s = .next (s.waiting i (r.2.modTeam s.cur.team fun u => { u with latch := t.latch ++ [{ me with no := r.1 }] }) ((l :: ls).map fun l => (l, .gang)))) ∧
      ((∀ h ∈ bitsOf t.regs.gang, all.any (·.group == h) = true) →
        (∀ r, gangBad all = some r → exec i s = .next (s.trapped i (b.trapLatch s.cur.team 0x1A (BitVec.ofNat 64 r)) (s.slotTrap 0x1A [l] 0 (BitVec.ofNat 64 r)))) ∧
        (gangBad all = none → b.bindGang s.cur.team all = .quota →
          exec i s = .next (s.trapped i (b.trapLatchBy s.cur.team 0x19 fun x => BitVec.ofNat 64 x.acc) (s.slotTrap 0x19 [l] 0 (acc.setWidth 64)))) ∧
        (∀ u, gangBad all = none → b.bindGang s.cur.team all = .ok u →
          let p (h : Nat) : Party := { team := s.cur.team, mem := .group h }
          let r := (u.releaseLanes s.cur (l :: ls) .cluster).takeTile s.cur
          let w := (r.2.modTeam s.cur.team fun t => { t with latch := [] }).placeGang s.cur.team (t.latch ++ [{ me with no := r.1 }])
          exec i s = .next (s.performed i (t.latch.foldl (fun s x => (s.gangLanes (p x.group)).foldl (fun s l => s.goOn (p x.group) l) s) w)))))) ∧
  (∀ (s : State) (cl co : Nat) (who : Party) (no acc a b m n k done : Nat) (gang : Bool) (rest : List TileOp), coreNo cl co < 1152 →
    (vget s.cores (coreNo cl co)).tiles = .mma who no acc a b m n k done gang :: rest →
    let t := s.team who.team
    let sa := vget t.streams a
    let sb := vget t.streams b
    let slices := ceilDiv (max (sa.kc k) (sb.kc k)) 32
    let held := s.headHeld (.mma who no acc a b m n k done gang)
    (done < slices → exec (.tileOpComplete cl co) s = .next s ∧
      exec (.mmaSlice cl co) s = .next (if held = false ∧ sa.sliceReady m k done = true ∧ sb.sliceReady n k done = true then
        s.modCore (coreNo cl co) fun x => { x with tiles := .mma who no acc a b m n k (done + 1) gang :: rest } else s)) ∧
    (held = true → exec (.tileOpComplete cl co) s = .next s) ∧
    (slices ≤ done → held = false → s.mmaPoison t acc a b m n k = false → s.mmaWrong t acc a b m n k = false → a ≠ b → a < 8 → b < 8 → acc < 16 →
      (s.team? who.team).isSome = true → t.coreNo = coreNo cl co → ∀ sl, vget t.accs acc = some sl → sl < 16 →
      ∃ u : State, exec (.tileOpComplete cl co) s = .next u ∧ (vget u.cores (coreNo cl co)).tiles = rest ∧
        vget (vget u.cores (coreNo cl co)).slots sl = (s.mmaResult t acc a b m n k).1 ∧
        (vget (u.team who.team).streams a).head = sa.head + m * sa.kc k ∧ (vget (u.team who.team).streams b).head = sb.head + (if gang then 0 else n * sb.kc k) ∧ u.mem = s.mem) ∧
    (slices ≤ done → held = false → s.mmaPoison t acc a b m n k = false → s.mmaWrong t acc a b m n k = true →
      ∃ u : State, (vget u.cores (coreNo cl co)).tiles = rest ∧ exec (.tileOpComplete cl co) s = .next ((u.undefineSlot t acc).tileTrap who 0x22))) ∧
  (∀ (s : State) (t : Team) (acc a b m n k i j : Nat), t.regs.repro = true → n ≤ 32 →
    let el (tag r row q : Nat) : FVal := s.streamElem t (vget t.streams tag) ((vget t.streams tag).head + row * (vget t.streams tag).kc r + q)
    ((i < m ∧ j < n → ((s.mmaResult t acc a b m n k).1.elem (32 * i + j)) =
      (canonicalSum (((s.slotOf t acc).getD {}).elem (32 * i + j)) ((List.range k).map fun q => ((el a k i q).mul (el b k j q)).1) (ceilDiv k 32) ^^^
        s.engineFlip t.coreNo (32 * i + j)) % 2 ^ 32) ∧
     (j < 32 → ¬ (i < m ∧ j < n) → (s.mmaResult t acc a b m n k).1.elem (32 * i + j) = ((s.slotOf t acc).getD {}).elem (32 * i + j)))) ∧
  (∀ (f : EF) (acc : BitVec 4) (ty : Ty) (rnd : Rnd) (s : State) (l : Nat) (ls : List Nat),
    let i : Instr := .accrd f acc ty rnd
    let b := s.begun i
    let t := b.team s.cur.team
    let row := (b.readOp s.cur l false f.a).toNat
    s.acts i = true → s.acting i = l :: ls → Operand.still f.a = true →
    (32 ≤ row → exec i s = .next (s.trapped i b (s.slotTrap 0x1B [l] 0 (streamAux 5 0 acc.toNat)))) ∧
    (row < 32 → b.queueTakes s.cur f.dst (l :: ls).length = false → exec i s = .next (s.again i (b.dropPlace s.cur))) ∧
    (row < 32 → b.queueTakes s.cur f.dst (l :: ls).length = true →
      let slot := (b.slotOf t acc.toNat).getD {}
      let r (k : Nat) : DWord × BitVec 5 := let v := f32v (slot.elem (32 * row + k)); ((roundTy t.regs.fmt ty rnd v).1, (roundTy t.regs.fmt ty rnd v).2 ||| sigInv [v])
      (b.tagBusy s.cur acc.toNat = true → exec i s = .next (s.again i (b.takePlace s.cur acc.toNat))) ∧
      (b.tagBusy s.cur acc.toNat = false → ∀ k ks, ((l :: ls).filter fun k => slot.poison.contains (32 * row + k)) = k :: ks →
        exec i s = .next (s.trapped i (b.dropPlace s.cur) (s.slotTrap 0x21 (k :: ks) 0 0))) ∧
      (b.tagBusy s.cur acc.toNat = false → (∀ k ∈ l :: ls, slot.poison.contains (32 * row + k) = false) → exec i s = .next (s.performed i
        ((l :: ls).foldl (fun v k => v.deliverOp s.cur k false f.dst (r k).1) ((b.dropPlace s.cur).raised s.cur ((l :: ls).map fun k => (k, (r k).2)))))))) ∧
  (∀ (f : EF) (acc : BitVec 4) (ty : Ty) (s : State) (l : Nat) (ls : List Nat),
    let i : Instr := .accwr f acc ty
    let b := s.begun i
    let row := (b.readOp s.cur l false f.a).toNat
    s.acts i = true → s.acting i = l :: ls → Operand.still f.a = true → Operand.still f.b = true →
    (32 ≤ row → exec i s = .next (s.trapped i b (s.slotTrap 0x1B [l] 0 (streamAux 5 0 acc.toNat)))) ∧
    (row < 32 → b.bindAcc s.cur.team acc.toNat = .quota → exec i s = .next (s.trapped i b (s.slotTrap 0x19 [l] 0 (acc.setWidth 64)))) ∧
    (row < 32 → b.bindAcc s.cur.team acc.toNat = .wait → exec i s = .next (s.again i b)) ∧
    (∀ u, row < 32 → b.bindAcc s.cur.team acc.toNat = .ok u → b.poolClear s.cur (l :: ls) = true →
      exec i s = .next (s.performed i ((u.releaseLanes s.cur (l :: ls) .cluster).pushTile s.cur fun no => .wr s.cur no acc.toNat row
        ((l :: ls).map fun k => (k, BitVec.ofNat 32 (f32r (fvalue (b.team s.cur.team).regs.fmt ty (b.readOp s.cur k false f.b)))))))) ) ∧
  (∀ (f : EF) (acc : BitVec 4) (ty : Ty) (s : State) (l loc : Nat) (ls : List Nat),
    let i : Instr := .accst f acc ty false
    let b := s.begun i
    let t := b.team s.cur.team
    let w : Word := (b.readOp s.cur l false f.a).setWidth 32
    let sb := b.readOp s.cur l false f.b
    let z := ty.width / 8
    let m := if fld sb 0 6 = 0 then 32 else fld sb 0 6
    let n := if fld sb 8 6 = 0 then 32 else fld sb 8 6
    let pitch := if fld sb 16 16 = 0 then n * z else fld sb 16 16
    s.acts i = true → s.acting i = l :: ls → Operand.still f.a = true → Operand.still f.b = true →
    ((32 < m ∨ 32 < n ∨ pitch < n * z ∨ pitch % z ≠ 0) → exec i s = .next (s.trapped i b (s.slotTrap 0x1B [l] 0 (streamAux 5 0 acc.toNat)))) ∧
    (m ≤ 32 → n ≤ 32 → n * z ≤ pitch → pitch % z = 0 → Spw.bad t.id.core w = false → Spw.off w % z = 0 → b.spRange t w (Spw.off w) ((m - 1) * pitch + n * z) = .ok loc →
      b.fillsFor ((List.range m).flatMap fun i => (List.range (n * z)).map fun j => loc + i * pitch + j) = [] → b.poolClear s.cur (l :: ls) = true →
      exec i s = .next (s.performed i ((b.releaseLanes s.cur (l :: ls) .cluster).pushTile s.cur fun no => .st s.cur l no acc.toNat ty
        ((List.range m).map fun i => (List.range n).map fun j => loc + i * pitch + j * z))))) ∧
  (∀ (f : EF) (acc : BitVec 4) (s : State), s.acts (.accrel f acc) = true → s.acting (.accrel f acc) ≠ [] →
    let b := s.begun (.accrel f acc)
    let t := b.team s.cur.team
    (b.tagBusy s.cur acc.toNat = true → exec (.accrel f acc) s = .next (s.again (.accrel f acc) (b.takePlace s.cur acc.toNat))) ∧
    (b.tagBusy s.cur acc.toNat = false → exec (.accrel f acc) s = .next (s.performed (.accrel f acc) ((b.dropPlace s.cur).unbindAcc s.cur.team acc.toNat))) ∧
    (vget t.accs acc.toNat = none → b.unbindAcc s.cur.team acc.toNat = b)) ∧
  (∀ (s : State) (cl co : Nat) (who : Party) (no acc row l : Nat) (ty : Ty) (vals : List (Nat × Word)) (dest : List (List Nat)) (rest : List TileOp),
    let c := coreNo cl co
    let t := s.team who.team
    let slot := (s.slotOf t acc).getD {}
    ((vget s.cores c).tiles = .wr who no acc row vals :: rest → s.headHeld (.wr who no acc row vals) = false → ∀ k, vget t.accs acc = some k →
      exec (.tileOpComplete cl co) s = .next ((s.modSlot c k fun x => vals.foldl (fun (x : AccSlot) (v : Nat × Word) => x.put (32 * row + v.1) v.2.toNat) x).popTile c who no)) ∧
    ((vget s.cores c).tiles = .st who l no acc ty dest :: rest → s.headHeld (.st who l no acc ty dest) = false →
      (slot.poisonedIn dest = true → exec (.tileOpComplete cl co) s = .next ((s.popTile c who no).tileTrap who 0x21)) ∧
      (slot.poisonedIn dest = false → s.storeWrong t slot ty dest = false →
        exec (.tileOpComplete cl co) s = .next ((s.storeTile t who l slot ty dest).popTile c who no)))) ∧
  (∀ (s : State) (cl co i : Nat), coreNo cl co < 1152 → i < 16 → ∃ t : State, exec (.accSlotCleared cl co i) s = .next t ∧
    (vget (vget t.cores (coreNo cl co)).slots i) = (if (vget (vget s.cores (coreNo cl co)).slots i).clearing then {} else vget (vget s.cores (coreNo cl co)).slots i) ∧
    t.teams = s.teams ∧ t.mem = s.mem) ∧
  (∀ (f : EF) (wf : BitVec 3) (s : State) (l : Nat) (ls : List Nat),
    let i : Instr := .vxmcfg f wf
    let b := s.begun i
    let k := (b.readOp s.cur l false f.a).toNat
    let n := (b.readOp s.cur l false f.b).toNat
    let c := (b.readOp s.cur l false f.c).toNat
    s.acts i = true → s.acting i = l :: ls → Operand.still f.a = true → Operand.still f.b = true → Operand.still f.c = true →
    (k < 1 ∨ 4096 < k ∨ n < 1 ∨ 256 < n ∨ 16383 < c → exec i s = .next (s.trapped i b (s.slotTrap 0x0F [l] 0 (surfAux 8 0)))) ∧
    (1 ≤ k → k ≤ 4096 → 1 ≤ n → n ≤ 256 → c ≤ 16383 →
      exec i s = .next (s.performed i (b.modGroup s.cur fun g => { g with vxc := BitVec.ofNat 64 (wf.toNat * 2 ^ 48 + c * 2 ^ 32 + n * 2 ^ 13 + k) })))) ∧
  (∀ (f : EF) (s : State) (l : Nat) (ls : List Nat) (loc : Nat → Nat) (pg : Nat → Page),
    let i : Instr := .vxm f
    let b := s.begun i
    let t := b.team s.cur.team
    let w (o : Operand) (k : Nat) : Word := (b.readOp s.cur k false o).setWidth 32
    s.acts i = true → s.acting i = l :: ls → Operand.still f.a = true → Operand.still f.b = true → Operand.still f.dst = true →
    (Vxc.k (b.group s.cur).vxc = 0 → exec i s = .next (s.trapped i b (s.slotTrap 0x0F (l :: ls) ((w f.b l).setWidth 64) (surfAux 8 (fld (w f.b l) 20 12))))) ∧
    ((∀ k ∈ l :: ls, b.vxmCheck t (b.group s.cur).vxc (w f.a k) (w f.dst k) (w f.b k) = .ok (loc k) (pg k)) → b.poolClear s.cur (l :: ls) = true →
      let u := b.releaseLanes s.cur (l :: ls) .cluster
      exec i s = .next (s.performed i (u.modTeam s.cur.team fun _ => let x := (u.team s.cur.team).number 5
        { x.2 with vxms := x.2.vxms ++ [{ who := s.cur, no := x.1, rows := (l :: ls).map fun k => (k, w f.a k, w f.dst k, w f.b k), vxc := (b.group s.cur).vxc }] })))) ∧
  ∀ (s : State) (u : Nat),
    ((s.team u).vxms = [] → exec (.vxmPass u) s = .next s) ∧
    (∀ v rest, (s.team u).vxms = v :: rest → s.arrayOff (s.team u).id.ctx v = false → ∀ ptr, v.ptrs[v.done]? = some ptr →
      ∀ t : State, (s.touchRows (s.team u).id.ctx v ptr).vxmRows (s.team u) v ptr = (t, false) → s.vxmWrong (s.team u) v ptr = false →
        exec (.vxmPass u) s = .next (if v.done + 1 < v.ptrs.length then t.modTeam u fun t => { t with vxms := { v with done := v.done + 1 } :: rest }
          else ((t.modTeam u fun t => { t with vxms := rest }).finishTl u 5 v.no).modGroup v.who fun g => { g with pix := 0 }))

/-! ## System registers, TLB invalidation, RNG, counts, clause fetch and the issue clock (R22, R173 to R179, R298 to R303, R345, R355) -/
/-- The thread registers of R299 with the field each reads: FLAGS, TRAP_PC, TRAP_CAUSE, TRAP_ADDR, TRAP_LANES, TRAP_AUX, TRAP_EN, RNGCTR. -/
def threadRegs (t : Thread) : List (Nat × DWord) :=
  [(0x000, t.flags.setWidth 64), (0x002, t.trapPc), (0x004, t.trapCause.setWidth 64), (0x006, t.trapAddr), (0x008, t.trapLanes.setWidth 64), (0x00A, t.trapAux),
   (0x00C, t.trapEn.setWidth 64), (0x00E, t.rngctr)]

/-- MOVSR, MOVSW, TLBINV, RNG, PERFC, clause fetch, the issue clock and the end of run-ahead. MOVSR writes to DST the register that each acting lane’s number names; MOVSW writes it; a refused number performs no lane and traps 0x0B with the number and the reason: 1 unassigned or a wrong width, 2 privilege not held (logged once for the instruction, as for TLBINV: DEDUCED, log 13), 3 not writable; a privileged write of CT_CNT changes nothing. TLBINV without privilege traps with reason 2; with it the context’s entries go, and the instruction stays while an access to a page that they named is unperformed. RNG in reproducibility mode gives the formula’s value and advances RNGCTR. PERFC gives the count. A fetched clause traps 0x01 for a zero header and 0x02 for a broken one, is skipped by a role it does not name, and else stands ready, for an engine member one word a clock. A clock advances the core’s clock only. Run-ahead ends with the registers rolled back, its lanes waiting on the batch, or for room in the ring. -/
def Obligations.SystemRegistersAndTheFrontEnd : Prop :=
  (∀ (f : VF) (s : State), s.acts (.movsr f) = true →
    let b := s.begun (.movsr f)
    (∀ l ∈ s.acting (.movsr f), b.sysBad s.cur false (f.ty == .b64) (b.sysNum s.cur f l) = none) →
    exec (.movsr f) s = .next (s.performed (.movsr f) ((s.acting (.movsr f)).foldl
      (fun u l => u.deliverOp s.cur l (f.ty == .b64) f.dst (b.sysGet s.cur l (b.sysNum s.cur f l) (f.ty == .b64))) b))) ∧
  (∀ (f : VF) (s : State), s.acts (.movsw f) = true →
    let b := s.begun (.movsw f)
    (∀ l ∈ s.acting (.movsw f), b.sysBad s.cur true (f.ty == .b64) (b.sysNum s.cur f l) = none) →
    exec (.movsw f) s = .next (s.performed (.movsw f) ((s.acting (.movsw f)).foldl
      (fun u l => u.sysPut s.cur l (b.sysNum s.cur f l) (f.ty == .b64) (b.readOp s.cur l (f.ty == .b64) f.a)) b))) ∧
  (∀ (f : VF) (s : State) (wr : Bool) (n r : Nat),
    let i : Instr := if wr then .movsw f else .movsr f
    let b := s.begun i
    s.acts i = true → s.acting i ≠ [] → (∀ l ∈ s.acting i, b.sysNum s.cur f l = n) → b.sysBad s.cur wr (f.ty == .b64) n = some r →
    exec i s = .next (s.trapped i (if r = 2 then b.violate (BitVec.ofNat 64 n) 2 (if (b.team s.cur.team).regs.priv then 0 else 2) else b)
      (s.slotTrap 0x0B (s.acting i) (BitVec.ofNat 64 n) (BitVec.ofNat 64 (r * 256))))) ∧
  (∀ (s : State) (p : Party) (l : Nat) (v : DWord) (wr wide : Bool) (n : Nat),
    (∀ x ∈ threadRegs (s.thread p l), s.sysRead p l x.1 = x.2 ∧ s.sysBad p false false x.1 = none ∧ s.sysBad p true false x.1 = (if x.1 = 0x00E then some 3 else none)) ∧
    (s.sysGet p l 0x002 true = (s.thread p l).trapPc ∧ s.sysGet p l 0x002 false = ((s.thread p l).trapPc.setWidth 32).setWidth 64 ∧ s.sysGet p l 0x003 false = (s.thread p l).trapPc >>> 32) ∧
    (s.sysWrite p l 0x000 v = s.modThread p l (fun t => { t with flags := v.setWidth 5 }) ∧ s.sysWrite p l 0x002 v = s.modThread p l (fun t => { t with trapPc := v }) ∧
     s.sysWrite p l 0x00C v = s.modThread p l (fun t => { t with en := v.setWidth 5 })) ∧
    (∀ r ∈ [0x110, 0x112, 0x120, 0x122, 0x124, 0x126, 0x130, 0x134, 0x138], s.sysBad p wr true r = if (s.team p.team).regs.priv then none else some 2) ∧
    (∀ r ∈ [0x184, 0x186], s.sysBad p true true r = if (s.team p.team).regs.priv && s.hsemHeld (fnOf (s.team p.team).id.ctx) then none else some 2) ∧
    (∀ r ∈ [0x010, 0x114, 0x128, 0x136], s.sysBad p true true r = some 3) ∧
    (s.sysBad p true wide 0x100 = (if (s.team p.team).regs.priv then none else some 2) ∧ s.sysWrite p l 0x100 v = s) ∧
    (∀ r ∈ [0x003, 0x004, 0x111, 0x13A], s.sysBad p wr true r = some 1) ∧ (0x18A ≤ n → s.sysBad p wr wide n = some 1)) ∧
  (∀ (f : VF) (s : State), s.acts (.tlbinvAll f) = true → s.acting (.tlbinvAll f) ≠ [] →
    let b := s.begun (.tlbinvAll f)
    let t := b.team s.cur.team
    (t.regs.priv = false → exec (.tlbinvAll f) s = .next (s.trapped (.tlbinvAll f) (b.violate 0 2 2) (s.slotTrap 0x0B (s.acting (.tlbinvAll f)) 0 0x200))) ∧
    (t.regs.priv = true →
      let u := b.tlbTake s.cur t.id.ctx none
      exec (.tlbinvAll f) s = .next (if u.translatedLeft t.id.ctx (((u.group s.cur).run.map (·.inval)).getD []) then s.again (.tlbinvAll f) u else s.performed (.tlbinvAll f) u))) ∧
  (∀ (f : VF) (s : State) (l : Nat) (ls : List Nat), s.acts (.tlbinvPage f) = true → s.acting (.tlbinvPage f) = l :: ls →
    let b := s.begun (.tlbinvPage f)
    let t := b.team s.cur.team
    let u := (l :: ls).foldl (fun v k => v.tlbTake s.cur t.id.ctx (some (v.readOp s.cur k true f.a).toNat)) b
    (t.regs.priv = false → exec (.tlbinvPage f) s = .next (s.trapped (.tlbinvPage f) (b.violate (b.readOp s.cur l true f.a) 2 2)
      (s.slotTrap 0x0B (l :: ls) (b.readOp s.cur l true f.a) 0x200))) ∧
    (t.regs.priv = true → exec (.tlbinvPage f) s = .next (if u.translatedLeft t.id.ctx (((u.group s.cur).run.map (·.inval)).getD []) then s.again (.tlbinvPage f) u
      else s.performed (.tlbinvPage f) u))) ∧
  (∀ (s : State) (p : Party) (x : Nat) (page : Option Nat),
    let u := s.tlbTake p x page
    (∀ c ∈ u.cores.toList, ∀ e ∈ c.tlb, e.covers x page = false) ∧ (∀ c ∈ u.clusters.toList, ∀ e ∈ c.tlb, e.covers x page = false) ∧
    (∀ r, s.has p = true → (s.group p).run = some r → (u.group p).run = some { r with inval := (r.inval ++ s.tlbFrames x page).eraseDups }) ∧
    s.translatedLeft x [] = false ∧
    ∀ t ∈ s.teams, t.id.ctx = x → ∀ loc fs, globalLoc loc = true → loc % keyUnit / 2 ^ 16 ∈ fs →
      ((∃ e ∈ t.ord.buf, ∃ c ∈ e.cells, c.1 = loc) ∨ ∃ a ∈ t.ord.pool, a.loc = loc) → s.translatedLeft x fs = true) ∧
  (∀ (f : VF) (s : State), s.acts (.rng f) = true →
    let b := s.begun (.rng f)
    let t := b.team s.cur.team
    exec (.rng f) s = .next (s.performed (.rng f) ((s.acting (.rng f)).foldl (fun u l =>
      let c := (u.thread s.cur l).rngctr
      if t.regs.repro then (u.modThread s.cur l fun h => { h with rngctr := c + 1 }).deliverOp s.cur l (f.ty == .b64) f.dst (rngBits f.ty (rngValue t.id (32 * groupIx s.cur + l) c))
      else (u.fresh.2.modThread s.cur l fun h => { h with rngctr := c + 1 }).deliverOp s.cur l (f.ty == .b64) f.dst (rngBits f.ty u.fresh.1)) b))) ∧
  (∀ (f : VF) (s : State), s.acts (.perfc f) = true →
    let b := s.begun (.perfc f)
    exec (.perfc f) s = .next (s.performed (.perfc f) ((s.acting (.perfc f)).foldl (fun u l => u.deliverOp s.cur l true f.dst
      (BitVec.ofNat 64 ((b.team s.cur.team).regs.perf.toList.getD ((b.readOp s.cur l false f.a).toNat % 256) 0))) b))) ∧
  (∀ (p : Party) (s : State), ((s.group p).run = none → exec (.clauseFetch p) s = .next s) ∧
    (∀ r, (s.group p).run = some r → r.words ≠ [] → exec (.clauseFetch p) s = .next s)) ∧
  (∀ (p : Party) (s : State) (r : Run) (loc : Nat) (pg : Page), (s.group p).run = some r → r.words = [] → r.part = none → s.inSteep p = false →
    let t := s.team p.team
    s.xlate (some t.coreNo) t.id.ctx r.hdr.toNat .fetch = .ok (loc, pg) → pg.mig = false →
    let u := s.tlbTouch p.team t.coreNo t.id.ctx r.hdr.toNat .fetch
    let word (k : Nat) : DWord := BitVec.ofNat 64 (u.homeReadN (loc + 8 * k) 8)
    let h := headerOf (word 0)
    let ws := (List.range h.slots).map fun k => word (k + 1)
    let at_ (x : Spot) : State := u.modGroup p fun g => { g with threads := (bitsOf r.lanes).foldl (fun ts l => vmod ts l fun t => { t with pc := x.1, mid := x.2 }) g.threads }
    (word 0 = 0 → exec (.clauseFetch p) s = .next (u.takeTrap p (bitsOf r.lanes) { cause := 0x01, aux := 1, lanes := r.lanes, pc := r.hdr })) ∧
    (word 0 ≠ 0 → ∀ e, clauseBad r.hdr.toNat (word 0) [] = some e →
      exec (.clauseFetch p) s = .next (u.takeTrap p (bitsOf r.lanes) { cause := 0x02, aux := BitVec.ofNat 64 e, lanes := r.lanes, pc := r.hdr })) ∧
    (word 0 ≠ 0 → clauseBad r.hdr.toNat (word 0) [] = none →
      (h.role.getLsbD (u.group p).role = false → exec (.clauseFetch p) s = .next ((at_ (nextHeader r.hdr (word 0), none)).dropRun p)) ∧
      (h.role.getLsbD (u.group p).role = true →
        (∀ n, p.mem = .engine n → exec (.clauseFetch p) s = .next (u.modGroup p fun g => { g with run := some { r with hword := word 0, part := some (loc, []) } })) ∧
        (∀ n e, p.mem = .group n → clauseBad r.hdr.toNat (word 0) ws = some e →
          exec (.clauseFetch p) s = .next (u.takeTrap p (bitsOf r.lanes) { cause := 0x02, aux := BitVec.ofNat 64 e, lanes := r.lanes, pc := r.hdr })) ∧
        (∀ n, p.mem = .group n → clauseBad r.hdr.toNat (word 0) ws = none →
          exec (.clauseFetch p) s = .next ((at_ (r.slotPc, some (r.hdr, r.idx))).modGroup p fun g => { g with run := some { r with hword := word 0, words := ws, part := none } })))) ) ∧
  (∀ (p : Party) (n : Nat) (s : State) (r : Run) (loc : Nat) (got : List DWord), p.mem = .engine n → (s.group p).run = some r → r.words = [] → r.part = some (loc, got) →
    let ws := got ++ [BitVec.ofNat 64 (s.homeReadN (loc + 8 * (got.length + 1)) 8)]
    let at_ (x : Spot) : State := s.modGroup p fun g => { g with threads := (bitsOf r.lanes).foldl (fun ts l => vmod ts l fun t => { t with pc := x.1, mid := x.2 }) g.threads }
    (ws.length < (headerOf r.hword).slots → exec (.clauseFetch p) s = .next (s.modGroup p fun g => { g with run := some { r with part := some (loc, ws) } })) ∧
    ((headerOf r.hword).slots ≤ ws.length →
      (∀ e, engineClauseBad (s.group p).kind r.hword ws = some e →
        exec (.clauseFetch p) s = .next (s.takeTrap p (bitsOf r.lanes) { cause := 0x02, aux := BitVec.ofNat 64 e, lanes := r.lanes, pc := r.hdr })) ∧
      (engineClauseBad (s.group p).kind r.hword ws = none →
        exec (.clauseFetch p) s = .next ((at_ (r.slotPc, some (r.hdr, r.idx))).modGroup p fun g => { g with run := some { r with words := ws, part := none } })))) ∧
  (∀ (s : State) (cl co : Nat), coreNo cl co < 1152 → ∃ t : State, exec (.issueClock cl co) s = .next t ∧ t.clock = s.clock + 1 ∧ t.mem = s.mem ∧
    (vget t.cores (coreNo cl co)).clk = (vget s.cores (coreNo cl co)).clk + 1 ∧ ∀ c, c < 1152 → c ≠ coreNo cl co → vget t.cores c = vget s.cores c) ∧
  ∀ (s : State) (u g : Nat),
    let p : Party := { team := u, mem := .group g }
    ((s.group p).steep = none → exec (.steepEnd u g) s = .next s) ∧
    (∀ st, s.has p = true → s.ctxOf p < 64 → (s.group p).steep = some st → s.writeBatch (s.ctxOf p) st.pages (s.whereOf p) (some p) st.fault = none →
      ∃ t : State, exec (.steepEnd u g) s = .next t ∧ (t.group p).steep = none ∧ (t.group p).run = none ∧
        (∀ l ∈ bitsOf st.lanes, t.thread p l = { (vget st.saved l) with wait := some .room }) ∧
        { who := p, lanes := st.lanes, pages := st.pages, fault := st.fault } ∈ (t.ctx (s.ctxOf p)).late) ∧
    (∀ st n v, s.has p = true → (s.group p).steep = some st → s.writeBatch (s.ctxOf p) st.pages (s.whereOf p) (some p) st.fault = some (n, v) →
      ∃ t : State, exec (.steepEnd u g) s = .next t ∧ (t.group p).steep = none ∧ (t.group p).run = none ∧
        (∀ l ∈ bitsOf st.lanes, t.thread p l = { (vget st.saved l) with wait := some (.batch n) }) ∧
        ∀ l, l < 32 → l ∉ bitsOf st.lanes → t.thread p l = s.thread p l)

/-! ## Launches, tasks, the start barrier, placement and the ends of teams and grids (R195, R296, R297, R304 to R308, R321 to R325, R333 to R343) -/

/-- SPAWN, LAUNCH, tasks, the start barrier, placement, team exit and retirement. SPAWN appends the acting lanes’ records, after a release at cluster scope, while the queue holds fewer than 512 + LEN (that 1 comes exactly there is log 14’s choice), and gives each lane 0, or 1 for want of room. LAUNCH acts in the leader only: it traps a bad address and depth 10, waits for the region table, and gives the generation of an accepted child or 0. A record becomes eligible when its counters are met, is discarded with error 4 when one cannot be read (log 22, 28), and runs as a team of one group at ENTRY + 8·CODE with FRAME in d0. The start barrier counts READYs, sends GO to every member, starts at Tstart, and times out or aborts with cause 5; a member answers a packet READY or REFUSE (the class in the word behind it and the queue’s privilege are log 22’s choice). A cluster places frame-class units, then tasks, then the rest; a placed unit’s team has the coordinates of its number; a cluster with no part of a running launch and room for its unit takes the upper half of the largest part on its die, else on the other. A team that is done writes back and leaves; its grid retires when nothing of it is left; an error report drops the launch. -/
def Obligations.SpawnsLaunchesAndGrids : Prop :=
  (∀ (f : VF) (s : State) (loc : Nat → Nat) (pg : Nat → Page), s.acts (.spawn f) = true → s.has s.cur = true → Operand.own f.dst = true →
    let b := s.begun (.spawn f)
    let tm := b.team s.cur.team
    tm.id.cluster < 6 → tm.id.ctx < 64 → b.poolClear s.cur (s.acting (.spawn f)) = true →
    (∀ l ∈ s.acting (.spawn f), b.ldsrRange tm 1 ((b.readOp s.cur l false f.a).setWidth 32) 32 32 = .ok (loc l) (pg l)) →
    let u := b.releaseLanes s.cur (s.acting (.spawn f)) .cluster
    let q := vget (vget u.clusters tm.id.cluster).tasks tm.id.ctx
    let room := 512 + fld q.len 0 20 - q.recs.length
    ∃ v : State, exec (.spawn f) s = .next (s.performed (.spawn f) v) ∧
      let recs := (vget (vget v.clusters tm.id.cluster).tasks tm.id.ctx).recs
      (∀ i r, recs[i]? = some r → q.recs.length ≤ i → (r.ring = none ↔ i < 512)) ∧
      recs.map (fun r => { r with ring := none }) = q.recs.map (fun r => { r with ring := none }) ++ ((s.acting (.spawn f)).take room).map (fun l =>
        { w := Vector.ofFn fun i => BitVec.ofNat 64 (u.seenN s.cur l (loc l + 8 * i.val) 8), gen := tm.id.gen, spawner := tm.id, regs := tm.regs }) ∧
      ∀ j l, (s.acting (.spawn f))[j]? = some l → v.thread s.cur l = (u.thread s.cur l).put f.dst false (if j < room then 0 else 1)) ∧
  (∀ (f : VF) (s : State), s.acts (.launch f) = true →
    let b := s.begun (.launch f)
    let va := (b.readOp s.cur 0 true f.a).toNat
    let tm := b.team s.cur.team
    (s.cur.mem ≠ .group 0 ∨ 0 ∉ s.acting (.launch f) → exec (.launch f) s = .next (s.performed (.launch f) b)) ∧
    (s.cur.mem = .group 0 → 0 ∈ s.acting (.launch f) →
      (2 ^ 56 ≤ va → exec (.launch f) s = .next (s.faulted (.launch f) b .read { sub := 1 } [0] va)) ∧
      (va < 2 ^ 56 → va % 64 ≠ 0 → exec (.launch f) s = .next (s.trapped (.launch f) b (s.slotTrap 0x0C [0] (BitVec.ofNat 64 va) 0))) ∧
      (va < 2 ^ 56 → va % 64 = 0 → 10 ≤ tm.id.depth → exec (.launch f) s = .next (s.trapped (.launch f) b (s.slotTrap 0x14 [0] 0 10))) ∧
      (va < 2 ^ 56 → va % 64 = 0 → tm.id.depth < 10 → b.poolClear s.cur [0] = false → exec (.launch f) s = .next (s.again (.launch f) b)) ∧
      (va < 2 ^ 56 → va % 64 = 0 → tm.id.depth < 10 → b.poolClear s.cur [0] = true →
        let x := tm.id.ctx
        let w := b.release s.cur 0 .device
        let held : Prop := w.cpHeld x va 64 .read = true ∨ ∃ bs, w.devRead x va 64 = .ok bs ∧
          w.launchHeld x (dwordsOf 8 bs) (some (((w.launch? x tm.id.gen).map (·.cls)).getD 0)) = true
        let v := w.cpReach x va 64 .read
        let cls := ((v.launch? x tm.id.gen).map (·.cls)).getD 0
        (held → exec (.launch f) s = .next (s.again (.launch f) b)) ∧
        (¬ held → ∀ e, v.devRead x va 64 = .error e → exec (.launch f) s = .next (s.performed (.launch f) (v.deliverOp s.cur 0 false f.dst 0))) ∧
        (¬ held → ∀ bs, v.devRead x va 64 = .ok bs →
          let u := v.launchReach x (dwordsOf 8 bs) (some cls)
          (u.launchCheck x (dwordsOf 8 bs) (some cls) 0 = none → exec (.launch f) s = .next (s.performed (.launch f) (u.deliverOp s.cur 0 false f.dst 0))) ∧
          (∀ g d k, u.launchCheck x (dwordsOf 8 bs) (some cls) 0 = some (g, d, k) →
            exec (.launch f) s = .next (s.performed (.launch f) (((u.modTeam s.cur.team fun t => { t with children := t.children + 1 }).accept x
              { gen := g, pkt := dwordsOf 8 bs, desc := d, depth := tm.id.depth + 1, parent := some tm.id.gen, spawner := s.cur.team, cls := Pkt.pclass (dwordsOf 8 bs), k }).deliverOp
                s.cur 0 false f.dst (BitVec.ofNat 64 (g % 2 ^ 32))))))))) ∧
  (∀ (s : State) (x gen g : Nat), (gen = 0 → s.nextGen x gen = some g → g = (s.creg x .ctxGen).toNat + 1) ∧ (gen ≠ 0 → gen ≤ (s.creg x .ctxGen).toNat → s.nextGen x gen = none) ∧
    (gen ≠ 0 → (s.creg x .ctxGen).toNat < gen → (s.creg x .ctxGen).toNat + 1 < 2 ^ 64 → s.nextGen x gen = some gen)) ∧
  (∀ (x cl ix : Nat) (s : State) (r : TaskRec), (vget (vget s.clusters cl).tasks x).recs[ix]? = some r → ix < 512 → r.eligible = false →
    let v := (r.counters.filter fun c => c.1.toNat % 8 == 0).foldl (fun (v : State) c => v.cpReach x c.1.toNat 8 .read) s
    (v.taskMet x r = none → exec (.taskEvaluate x cl ix) s = .next ((v.modTasks cl x fun q => { q with recs := q.recs.eraseIdx ix }).taskPull cl x |>.due (.errorReport x r.gen ((Named.record r.w).word 4)))) ∧
    (v.taskMet x r = some false → exec (.taskEvaluate x cl ix) s = .next v) ∧
    (v.taskMet x r = some true → exec (.taskEvaluate x cl ix) s =
      .next ((v.modTasks cl x fun q => { q with recs := q.recs.modify ix fun r => { r with eligible := true } }).dueOnce (.unitPlace cl)))) ∧
  (∀ (x cl core ix : Nat) (s : State) (r : TaskRec), x < 64 → cl < 6 → s.taskCore cl = some core →
    (vget (vget s.clusters cl).tasks x).recs.findIdx? (·.eligible) = some ix → ix < 512 → (vget (vget s.clusters cl).tasks x).recs[ix]? = some r → s.ctxRuns x = true →
    ∃ (t : State) (tm : Team), exec (.taskRun x cl) s = .next t ∧ 
      vget (vget t.clusters cl).tasks x = vget (vget ((s.modTasks cl x fun q => { q with recs := q.recs.eraseIdx ix }).taskPull cl x).clusters cl).tasks x ∧
      t.teams.getLast? = some tm ∧ tm.id.uid = s.nextUid ∧ tm.groups.length = 1 ∧ tm.id.core = core % 192 ∧ (tm.groups.getD 0 default).quota = 64 ∧ ∀ l, l < 32 →
        let th := vget (tm.groups.getD 0 default).threads l
        th.life = .live ∧ th.pc = r.spawner.entry + BitVec.ofInt 64 (8 * sfld (vget r.w 0) 0 32) ∧ vget th.g 0 = (vget r.w 1).setWidth 32 ∧ vget th.g 1 = (vget r.w 1).extractLsb' 32 32) ∧
  (∀ (s : State) (x gen mem : Nat) (ts : DWord), s.pending? x gen = none → exec (.ready x gen mem) s = .next s ∧ exec (.refuse x gen mem) s = .next s ∧ exec (.go x gen ts) s = .next s ∧
    exec (.tstartReached x gen) s = .next s ∧ exec (.startBarrierTimeout x gen) s = .next s ∧ exec (.startAbort x gen) s = .next s) ∧
  (∀ (s : State) (x gen mem : Nat) (ts : DWord) (l : Launch), s.pending? x gen = some l →
    (l.go = false → l.queue ≠ none → (Pkt.mask l.pkt).getLsbD mem = true →
      let rs := if l.ready.contains mem then l.ready else l.ready ++ [mem]
      let u := s.modLaunch x gen fun l => { l with ready := rs }
      exec (.refuse x gen mem) s = .next (s.due (.startAbort x gen)) ∧
      ((∃ m ∈ bitsOf (Pkt.mask l.pkt), m ∉ rs) → exec (.ready x gen mem) s = .next u) ∧
      ((∀ m ∈ bitsOf (Pkt.mask l.pkt), m ∈ rs) →
        let ts : DWord := BitVec.ofNat 64 (u.packTime + 1000 * fld (u.dreg .lbCfg) 0 16)
        exec (.ready x gen mem) s = .next ((u.sendOthers (Pkt.mask l.pkt) fun i => .go i gen ts).due (.go x gen ts)))) ∧
    (l.go = false → l.failed = false → exec (.go x gen ts) s = .next ((s.modLaunch x gen fun l => { l with go := true, tstart := ts }).dueOnce (.tstartReached x gen))) ∧
    (exec (.tstartReached x gen) s = .next (if l.go && !l.failed && l.tstart.toNat ≤ s.packTime then s.distribute x l else s)) ∧
    (l.go = false → l.queue ≠ none → exec (.startBarrierTimeout x gen) s =
      .next (if s.packTime < l.accepted.toNat + 1000 * fld (s.dreg .lbCfg) 16 16 then s else s.due (.startAbort x gen))) ∧
    (l.go = true → exec (.startAbort x gen) s = .next s) ∧
    (l.go = false → s.doneHeld x (Pkt.done l.pkt) = true → exec (.startAbort x gen) s = .next (s.dueOnce (.startAbort x gen))) ∧
    (l.go = false → s.doneHeld x (Pkt.done l.pkt) = false → exec (.startAbort x gen) s =
      .next (((if l.queue.isSome then s.sendOthers (Pkt.mask l.pkt) fun i => .abort i gen else s).modCtx x fun c =>
        { c with launches := c.launches.filter (·.gen != gen), failed := gen :: c.failed }).reportAt x (Pkt.done l.pkt) gen 5))) ∧
  (∀ (s : State) (x gen : Nat) (w : List DWord),
    let p : Vector DWord 8 := Vector.ofFn fun i => w.getD i.val 0
    let u := (if s.launchHeld x p none then s.drained else s).launchReach x p none
    let refused (v : State) : Prop := exec (.forwardedLaunchPacket x gen w) s = .next (if (v.launch? x gen).isSome then v.send (.refuse gen)
      else (v.send (.refuse gen)).modCtx x fun c => { c with launches := c.launches ++ [{ gen, pkt := p, failed := true }] })
    (Pkt.mask p = 0 → exec (.forwardedLaunchPacket x gen w) s = .next s) ∧
    (Pkt.mask p ≠ 0 → (u.openQueue? x = none ∨ u.launchCheck x p none gen = none) → refused u) ∧
    (∀ q g d k, Pkt.mask p ≠ 0 → u.openQueue? x = some q → u.launchCheck x p none gen = some (g, d, k) →
      (Desc.invalid d ≠ none → refused (u.setCreg x .ctxGen (BitVec.ofNat 64 g))) ∧
      (Desc.invalid d = none → exec (.forwardedLaunchPacket x gen w) s =
        .next ((u.accept x { gen := g, pkt := p, desc := d, k, cls := min 4 (fld (w.getD 8 0) 0 3), priv := q.cfg.getLsbD 30 }).send (.ready g))))) ∧
  (∀ (s : State) (cl : Nat),
    ((vget s.clusters cl).parts = [] → s.taskReady cl = none → exec (.unitPlace cl) s = .next s) ∧
    (∀ t, ((s.partsInOrder cl).filter fun q => s.partClass q == 4).findSome? (s.tryPart cl) = some t → exec (.unitPlace cl) s = .next t) ∧
    (((s.partsInOrder cl).filter fun q => s.partClass q == 4).findSome? (s.tryPart cl) = none →
      (∀ x, s.taskReady cl = some x → exec (.unitPlace cl) s = .next (s.dueOnce (.taskRun x cl))) ∧
      (∀ t, s.taskReady cl = none → ((s.partsInOrder cl).filter fun q => s.partClass q != 4).findSome? (s.tryPart cl) = some t → exec (.unitPlace cl) s = .next t))) ∧
  (∀ (s t : State) (cl : Nat) (q : Part) (l : Launch), cl < 6 → q.x < 64 → s.launch? q.x q.gen = some l → Desc.rect l.desc = false → s.tryPart cl q = some t →
    ∃ tm, t.teams.getLast? = some tm ∧ tm.id.uid = s.nextUid ∧ tm.id.x = q.lo % Pkt.gx l.pkt ∧ tm.id.y = q.lo / Pkt.gx l.pkt % Pkt.gy l.pkt ∧
      tm.id.z = q.lo / (Pkt.gx l.pkt * Pkt.gy l.pkt) ∧ tm.id.cluster = cl ∧ tm.id.gen = l.gen) ∧
  (∀ (s : State) (cl : Nat), cl < 6 →
    let wants (x : Nat) (l : Launch) : Prop := x < 64 ∧ l ∈ (s.ctx x).launches ∧ l.started = true ∧ l.failed = false ∧ s.ctxRuns x = true ∧
      (∀ q ∈ (vget s.clusters cl).parts, ¬ (q.x = x ∧ q.gen = l.gen)) ∧ (s.placeFor cl l.desc (l.cls == 4)).isSome = true
    ((∀ x l, wants x l → s.victimPart cl x l.gen = none) → exec (.unitSteal cl) s = .next s) ∧
    (∀ x l, wants x l → (s.victimPart cl x l.gen).isSome = true → ∃ x' l' c q, wants x' l' ∧ s.victimPart cl x' l'.gen = some (c, q) ∧
      (l.cls < l'.cls ∨ l.cls = l'.cls ∧ l'.gen ≤ l.gen) ∧
      let n := max 1 ((q.hi - q.lo) / 2)
      exec (.unitSteal cl) s = .next (((s.modCluster c fun k => { k with parts := k.parts.filterMap fun r =>
          if r = q then (if r.lo + n < r.hi then some { r with hi := r.hi - n } else none) else some r }).modCluster cl fun k =>
        { k with parts := k.parts ++ [{ q with lo := q.hi - n }] }).dueOnce (.unitPlace cl))) ∧
    ∀ x gen,
      let first (c : Nat) : Option Part := (vget s.clusters c).parts.find? fun q => q.x == x && q.gen == gen
      (s.victimPart cl x gen = none ↔ ∀ c, c < 6 → c ≠ cl → first c = none) ∧
      ∀ c q, s.victimPart cl x gen = some (c, q) → c < 6 ∧ c ≠ cl ∧ first c = some q ∧ (c / 3 = cl / 3 ∨ ∀ c', c' / 3 = cl / 3 → c' ≠ cl → first c' = none) ∧
        ∀ c' q', c' / 3 = c / 3 → c' ≠ cl → first c' = some q' → q'.hi - q'.lo ≤ q.hi - q.lo ∧ (q'.hi - q'.lo = q.hi - q.lo → c ≤ c')) ∧
  (∀ (s : State) (cl co temp droops : Nat), coreNo cl co < 1152 → ∃ t : State, exec (.thermalSample cl co temp droops) s = .next t ∧
    let k := vget s.cores (coreNo cl co)
    let k' := vget t.cores (coreNo cl co)
    let limit := 4 * fld (s.dreg .thermCfg) 0 8
    k'.temp = temp ∧ k'.droops = droops ∧ (k.hot = false → k'.hot = (decide (limit < temp) && decide (2 ≤ k.hotRuns))) ∧
    (k.hot = true → k'.hot = !(decide (temp + 16 < limit) && decide (9 ≤ k.hotRuns)))) ∧
  (∀ (s : State) (u : Nat), (s.team? u = none → exec (.teamEnd u) s = .next s) ∧
    ∀ tm, s.team? u = some tm →
      let v := s.dropStarved tm
      let rests : Prop := tm.allEnded = true ∧ tm.phase ≠ .saved ∧ tm.children = 0 ∧ v.teamBusy tm = false ∧ v.flushHeld u = false
      (tm.killed = false → v = s) ∧
      (tm.discard = true → exec (.teamEnd u) s = .next (if v.teamBusy tm || v.flushHeld u then v else (v.releaseTeam tm).freeTeam u)) ∧
      (tm.discard = false → ¬ rests → exec (.teamEnd u) s = .next v) ∧
      (tm.discard = false → rests →
        (∀ w, v.writeBack u tm.allMaps = .hold w → exec (.teamEnd u) s = .next w) ∧
        (∀ w, v.writeBack u tm.allMaps = .ok w → ∃ t : State, exec (.teamEnd u) s = .next t ∧ t.team? u = none ∧ .gridRetire tm.id.ctx tm.id.gen ∈ t.agenda) ∧
        ∀ w m va, v.writeBack u tm.allMaps = .fail w m va → ∃ t : State, exec (.teamEnd u) s = .next t ∧ t.team? u = none ∧
          .errorReport tm.id.ctx tm.id.gen ((Named.line (va / 256 * 256)).word 4) ∈ t.agenda)) ∧
  (∀ (s : State) (x gen : Nat), (s.launch? x gen = none → exec (.gridRetire x gen) s = .next s ∧ ∀ c, exec (.errorReport x gen c) s = .next s) ∧
    (∀ l, s.launch? x gen = some l →
      ((l.started = false ∨ s.launchBusy x gen = true ∨ s.doneHeld x (Pkt.done l.pkt) = true) → exec (.gridRetire x gen) s = .next s) ∧
      (l.started = true → s.launchBusy x gen = false → s.doneHeld x (Pkt.done l.pkt) = false → (l.failed = true ∨ Pkt.done l.pkt = 0) → exec (.gridRetire x gen) s =
        .next (if l.parent.isNone then s.dropSnapshots x l
          else ((s.dropSnapshots x l).modTeam l.spawner fun t => { t with children := t.children - 1 }).dueOnce (.teamEnd l.spawner))) ∧
      (∀ a as, l.started = true → s.launchBusy x gen = false → s.doneHeld x (Pkt.done l.pkt) = false → l.failed = false → Pkt.done l.pkt ≠ 0 → s.engLocs none x (Pkt.done l.pkt) 8 .engine = .ok (a :: as) → l.parent = none →
        exec (.gridRetire x gen) s = .next (((s.reachRun x (a :: as)).homeAtomic .add .b64 a 1 0).2.dropSnapshots x l)) ∧
      (l.failed = true ∨ l.rolling = true → ∀ c, exec (.errorReport x gen c) s = .next s) ∧
      (l.failed = false → l.rolling = false → s.doneHeld x (Pkt.done l.pkt) = true → ∀ c, exec (.errorReport x gen c) s = .next (s.dueOnce (.errorReport x gen c))) ∧
      (l.failed = false → l.rolling = false → s.doneHeld x (Pkt.done l.pkt) = false → ∀ c, exec (.errorReport x gen c) s = .next (((((s.modLaunch x gen fun l => { l with failed := true, started := true, error := c }).modCtx x fun k =>
        { k with failed := gen :: k.failed }).dropLaunch x gen).reportAt x (Pkt.done l.pkt) gen c).dueOnce (.gridRetire x gen))))) ∧
  ∀ (s : State) (x done gen cause : Nat), (done = 0 → s.reportAt x done gen cause = s.msix (fnOf x) 0) ∧
    (∀ a as b, done ≠ 0 → s.engLocs none x done 8 .engine = .ok (a :: as) → s.engLocs none x (done + 8) 16 .engine = .ok b →
      s.reportAt x done gen cause = ((((s.reachRun x (a :: as)).reachRun x b).homeWrite (b.zip (leBytes 8 gen ++ leBytes 8 cause))).homeAtomic .add .b64 a 0x8000000000000001 0).2.msix (fnOf x) 0)

/-! ## Registers written from outside, the region table, the carve-out, quotas, semaphores and the command queues (R7, R8, R38 to R48, R58, R59, R326 to R332, R353, R356) -/
/-- A queue whose head entry has been read and taken, its class’s turn remembered. -/
def Sys2Proof.Machine.State.took (s : State) (q : Nat) : State :=
  let u := (s.cpReach (s.queue q).ctx (s.queue q).headVa 64 .read).modQueue q fun k => { k with head := k.head + 1 }
  { u with dev := { u.dev with cpTurn := vset u.dev.cpTurn (u.queue q).cls q } }

/-- Register writes, semaphores, the region table, the carve-out, quotas and the queue entries. A host’s write of shared state takes effect only for the function that HSEM0 names; another’s changes only the violation log, which both functions share (DEDUCED, log 21), and counts an error message. An 8-byte write over two 32-bit registers goes to the lower first, and a misaligned one is discarded (the model’s choice, log 21). COPY makes the shadow bank the active one; COMMIT of a good shadow bank makes it active, each changed entry with the next generation, and drains; a bad one sets ERR. SRF_CARVE and SURF_QUOTA change or set their error bit. PT_GEN only rises; PT_ROOT drops the context’s TLB entries. CT_OFF sets its die’s offset. A context’s or queue’s register answers its own function only. A free semaphore goes to its writer and only the owner frees it. Each queue entry, when it is the queue’s next and may begin, leaves the queue and has its effect by its type; one whose accesses the region table holds does not begin; a TLB invalidate’s queue is not idle while an access to a page that it removed is unperformed; a ring fault stops the queue; a replay releases its batches. -/
def Obligations.RegisterWritesAndQueueEntries : Prop :=
  (∀ (s : State) (fn stack : Nat) (v : BitVec 32),
    (s.hsemHeld fn = true → exec (.rtCtlCopy fn) s = .next s.rtCopy ∧ exec (.rtCtlCommit fn) s = .next s.rtCommit ∧
      exec (.srfCarveWrite fn stack v) s = .next (s.carveWrite stack (v.setWidth 64))) ∧
    (s.hsemHeld fn = false → exec (.rtCtlCopy fn) s = .next (s.violate 0x1004 fn 0) ∧ exec (.rtCtlCommit fn) s = .next (s.violate 0x1004 fn 0) ∧
      exec (.srfCarveWrite fn stack v) s = .next (s.violate (BitVec.ofNat 64 (0x1020 + 4 * stack)) fn 0))) ∧
  (∀ (s : State) (a : DWord) (w k : Nat), w < 4 → k < 4 → ∃ d : Device, s.violate a w k = { s with dev := d } ∧
    d = { s.dev with viol := d.viol, violInfo := d.violInfo, fns := if w < 2 then vmod s.dev.fns w (fun f => { f with aer := f.aer + 1 }) else s.dev.fns } ∧
    d.violInfo.getLsbD 31 = true ∧ fld d.violInfo 0 16 = min 65535 (fld s.dev.violInfo 0 16 + 1) ∧
    (s.dev.violInfo.getLsbD 31 = true → d.viol = s.dev.viol ∧ d.violInfo.getLsbD 30 = true) ∧
    (s.dev.violInfo.getLsbD 31 = false → d.viol = a ∧ fld d.violInfo 28 2 = w ∧ fld d.violInfo 26 2 = k)) ∧
  (∀ s : State, (s.dreg .rtStat).getLsbD 1 = true → (s.rtCopy.dreg .rtStat).getLsbD 2 = true ∧ s.rtCopy.shadowBank = s.shadowBank ∧ s.rtCommit.activeBank = s.activeBank) ∧
  (∀ s : State, (s.dreg .rtStat).getLsbD 1 = false → s.rtCopy.shadowBank = s.activeBank ∧ s.rtCopy.activeBank = s.activeBank ∧
    (bankBad s.shadowBank = true → s.rtCommit.activeBank = s.activeBank ∧ (s.rtCommit.dreg .rtStat).getLsbD 3 = true) ∧
    (bankBad s.shadowBank = false → ∀ i, i < 64 →
      let e := vget s.rtCommit.activeBank i
      let n := vget s.shadowBank i
      let o := vget s.activeBank i
      fld e.w0 0 34 = fld n.w0 0 34 ∧ e.w1 = n.w1 ∧
      fld e.w0 48 16 = if fld n.w0 0 34 = fld o.w0 0 34 ∧ fld n.w1 0 16 = fld o.w1 0 16 ∧ fld n.w1 32 16 = fld o.w1 32 16 then fld o.w0 48 16
        else (fld (s.dreg .rtStat) 16 16 + 1) % 2 ^ 16)) ∧
  (∀ s : State, exec .regionTableDrained s = .next (s.setRtStat 1 1 0)) ∧
  (∀ (s : State) (k : Nat) (v : DWord), k < 2 →
    let r := (s.carveWrite k v).dreg (carveReg k)
    let o := s.dreg (carveReg k)
    (fld v 0 5 = 0 ∨ 16 < fld v 0 5 → fld r 0 5 = fld o 0 5 ∧ r.getLsbD 30 = true) ∧
    (fld v 0 5 ≠ 0 → fld v 0 5 ≤ 16 → o.getLsbD 31 = false → vget s.dev.frameTab k = [] → fld r 0 5 = fld v 0 5 ∧
      (fld v 0 5 < s.carve k → r.getLsbD 31 = true ∧ .carveShrinkDone k ∈ (s.carveWrite k v).agenda)) ∧
    ∃ t : State, exec (.carveShrinkDone k) s = .next t ∧ (t.dreg (carveReg k)).getLsbD 31 = false ∧ fld (t.dreg (carveReg k)) 0 5 = fld o 0 5) ∧
  (∀ (s : State) (x : Nat) (v : DWord), x < 64 → ∃ t : State, exec (.surfQuotaWrite x v) s = .next t ∧
    let q (n : Nat) := fld v (32 * n) 18
    let room (n : Nat) := 131072 - 4096 * s.carve n
    let others (n : Nat) := (((List.range 64).filter (· != x)).map fun c => s.quota c n).sum
    ((∃ n, n < 2 ∧ (room n < q n + others n ∨ q n < s.keptFrames x n)) → (t.creg x .surfStat).getLsbD 0 = true ∧ t.creg x .surfQuota = s.creg x .surfQuota) ∧
    ((∀ n, n < 2 → q n + others n ≤ room n ∧ s.keptFrames x n ≤ q n) → fld (t.creg x .surfQuota) 0 18 = q 0 ∧ fld (t.creg x .surfQuota) 32 18 = q 1)) ∧
  (∀ (s : State) (x : Nat) (v : DWord), x < 64 →
    (v.toNat ≤ (s.creg x .ptGen).toNat → exec (.ptGenWrite x v) s = .next s) ∧
    ((s.creg x .ptGen).toNat < v.toNat → ∃ t : State, exec (.ptGenWrite x v) s = .next t ∧ t.creg x .ptGen = v ∧ ((s.ctx x).replays ≠ [] → .replayRelease x ∈ t.agenda)) ∧
    exec (.ptRootWrite x v) s = .next ((s.setCreg x .ptRoot (v &&& CReg.rw .ptRoot)).tlbDrop x none)) ∧
  (∀ (s : State) (d : Nat) (v : DWord), (d = 4 ∨ 6 ≤ d → exec (.ctOffWrite d v) s = .next s) ∧
    (d < 6 → d ≠ 4 → ∃ t : State, exec (.ctOffWrite d v) s = .next t ∧ vget t.dies d = { vget s.dies d with off := v } ∧ ∀ e, e < 6 → e ≠ d → vget t.dies e = vget s.dies e)) ∧
  (∀ (s : State) (fn off : Nat) (wide : Bool) (v : DWord), (off % 4 ≠ 0 → exec (.registerWrite fn off wide v) s = .next s) ∧
    (off % 4 = 0 → wideAt off = false → exec (.registerWrite fn off true v) s =
      .next ((s.barWrite fn off false (fld v 0 32)).barWrite fn (off + 4) false (fld v 32 32)))) ∧
  (∀ (s : State) (fn x : Nat) (v : DWord), x < 64 → ∀ e ∈ ctxRegs,
    exec (.registerWrite fn (0x100000 + 0x10000 * x + e.1) e.2.1 v) s =
      .next (if fnOf x = fn then s.writeCreg x e.2.2 (if e.2.1 then v else (fld v 0 32 : Nat)) else s.violate (BitVec.ofNat 64 (0x100000 + 0x10000 * x + e.1)) fn 1)) ∧
  (∀ (s : State) (fn : Nat) (v : DWord), ∀ e ∈ sharedMap,
    exec (.registerWrite fn e.1 e.2.1 v) s =
      .next (if s.hsemHeld fn then s.sharedWrite e.2.2 (if e.2.1 then v else (fld v 0 32 : Nat)) else s.violate (BitVec.ofNat 64 e.1) fn 0)) ∧
  (∀ (s : State) (fn n : Nat), n < 16 →
    (vget s.dev.hsem n = 0 → exec (.hsemTake fn n) s = .next { s with dev := { s.dev with hsem := vset s.dev.hsem n (fn + 1) } }) ∧
    (vget s.dev.hsem n ≠ 0 → exec (.hsemTake fn n) s = .next s) ∧
    (vget s.dev.hsem n = fn + 1 → exec (.hsemGive fn n) s = .next { s with dev := { s.dev with hsem := vset s.dev.hsem n 0 } }) ∧
    (vget s.dev.hsem n ≠ fn + 1 → exec (.hsemGive fn n) s = .next s)) ∧
  (∀ (s : State) (fn q : Nat) (v : BitVec 32), q < 64 →
    (fnOf q ≠ fn → exec (.cqTailDoorbell fn q v) s = .next (s.violate (BitVec.ofNat 64 (0x10000 + 0x40 * q + 0xC)) fn 1)) ∧
    (fnOf q = fn → ∃ t : State, exec (.cqTailDoorbell fn q v) s = .next t ∧ (t.queue q).tail = v ∧ (t.queue q).head = (s.queue q).head)) ∧
  (∀ (s : State) (q : Nat), (s.queue q).en = false ∨ (s.queue q).stopped = true ∨ (s.queue q).head = (s.queue q).tail ∨ s.ctxRuns (s.queue q).ctx = false → s.cpEntry q = none) ∧
  (∀ (s : State) (q : Nat), (s.queue q).en = true → (s.queue q).stopped = false → (s.queue q).head ≠ (s.queue q).tail → s.ctxRuns (s.queue q).ctx = true →
    (∀ va f, s.headEntry q = .error (va, f) → s.cpEntry q = if f.held then none else some (.queueRingFault q)) ∧
    (∀ e, s.headEntry q = .ok e → (((vget e 0).getLsbD 56 = true ∧ s.queueIdle q = false) ∨ s.cpEntryHeld (s.queue q).ctx e = true) → s.cpEntry q = none) ∧
    (s.translatedLeft (s.queue q).ctx (s.queue q).inval = true → s.queueIdle q = false) ∧
    ∀ e, s.headEntry q = .ok e → ((vget e 0).getLsbD 56 = false ∨ s.queueIdle q = true) → s.cpEntryHeld (s.queue q).ctx e = false →
      let k := s.queue q
      let ty := fld (vget e 0) 60 4
      let u := s.took q
      (ty = 0 → exec (.queueEntryNop q) s = .next u.cpKick) ∧
      (ty = 1 →
        let w := u.launchReach k.ctx e none
        (w.launchCheck k.ctx e none (Pkt.gen e) = none → exec (.queueEntryLaunch q) s = .next (w.reportAt k.ctx (Pkt.done e) (Pkt.gen e) 1).cpKick) ∧
        ∀ g d kr, w.launchCheck k.ctx e none (Pkt.gen e) = some (g, d, kr) → exec (.queueEntryLaunch q) s =
          .next (w.accept k.ctx { gen := g, pkt := e, desc := d, queue := some q, cls := k.cls, priv := k.priv, k := kr }).cpKick) ∧
      (ty = 2 →
        let page := if (vget e 1).getLsbD 0 then none else some (fld (vget e 1) 16 48 * 2 ^ 16)
        exec (.queueEntryTlbInvalidate q) s =
          .next ((u.tlbDrop k.ctx page).modQueue q fun c => { c with inval := (c.inval ++ u.tlbFrames k.ctx page).eraseDups }).cpKick) ∧
      (ty = 3 → exec (.queueEntryFaultReplay q) s = .next ((u.modCtx k.ctx fun c => { c with replays := c.replays ++
        [{ batch := fld (vget e 1) 32 32, all := (vget e 1).getLsbD 1, kill := (vget e 1).getLsbD 0, need := vget e 2, queue := q }] }).dueOnce (.replayRelease k.ctx)).cpKick) ∧
      (ty = 4 → ∀ a as, u.engLocs none k.ctx (vget e 1).toNat 8 .engine = .ok (a :: as) →
        exec (.queueEntrySignal q) s = .next ((u.reachRun k.ctx (a :: as)).homeAtomic .add .b64 a (vget e 2) 0).2.cpKick) ∧
      (ty = 5 → ∀ v, s.waitWord k.ctx (vget e 1).toNat = some v →
        ((vget e 2).toNat ≤ v → exec (.queueEntryWait q) s = .next (u.cpReach k.ctx (vget e 1).toNat 8 .read).cpKick) ∧ (v < (vget e 2).toNat → exec (.queueEntryWait q) s = .next s)) ∧
      (6 ≤ ty → exec (.queueEntryReserved q) s = .next (u.reportAt k.ctx (Pkt.done e) (Pkt.gen e) 1).cpKick)) ∧
  (∀ (s : State) (q : Nat), s.cpEntry q = none → exec (.queueEntryNop q) s = .next s ∧ exec (.queueEntryLaunch q) s = .next s ∧ exec (.queueEntryTlbInvalidate q) s = .next s ∧
    exec (.queueEntryFaultReplay q) s = .next s ∧ exec (.queueEntrySignal q) s = .next s ∧ exec (.queueEntryWait q) s = .next s ∧ exec (.queueEntryReserved q) s = .next s ∧
    exec (.queueRingFault q) s = .next s) ∧
  (∀ (s : State) (q va : Nat) (f : XFail), s.cpEntry q = some (.queueRingFault q) → s.headEntry q = .error (va, f) →
    (s.writeBatch (s.queue q).ctx (missPages [] [va] f.sub 0 3) {} none {} = none → exec (.queueRingFault q) s = .next s) ∧
    ∀ n u, s.writeBatch (s.queue q).ctx (missPages [] [va] f.sub 0 3) {} none {} = some (n, u) →
      exec (.queueRingFault q) s = .next (u.modQueue q fun k => { k with stopped := true, batch := some n })) ∧
  ∀ (s : State) (x : Nat), x < 64 → ∃ t : State, exec (.replayRelease x) s = .next t ∧
    (t.ctx x).replays = ((s.ctx x).replays.filter fun r => decide ((s.creg x .ptGen).toNat < r.need.toNat)) ∧
    ∀ b ∈ (t.ctx x).batches, b ∈ (s.ctx x).batches ∧ ∀ r ∈ (s.ctx x).replays, r.need.toNat ≤ (s.creg x .ptGen).toNat → r.all = false ∧ b.no % 2 ^ 32 ≠ r.batch

/-! ## Halts, the cut and the restore (R359 to R366) -/

/-- DBG_CTL and PRE_CTL: parking, saving and restoring a context. A write to another function’s context changes only the violation log. HALT makes every team of the context park, and PARKED reads 1, with MSI-X vector 2, once every party has parked; RESUME lets all of them go on. STOP stops the context’s sources, unless it is being stopped, saved or restored; once its traffic has drained its teams leave their cores as an image and SAVED reads 1; the image is a directory (the count, CTX_GEN, a 256-aligned offset for each team) and the team blocks in its order, as long as SAVE_LEN says; a record that cannot complete sets ERR instead. RESUME of a saved context restores: each team that is no rectangle’s goes to the first core where it fits, running, and RESTORING clears after the last. Which core comes first, and that STOP in another state is ignored, are the model’s, and so is what a block holds (log entry 16). -/
def Obligations.HaltsCutsAndRestores : Prop :=
  (∀ (s : State) (fn x : Nat), fnOf x ≠ fn →
    exec (.dbgHalt fn x) s = .next (s.violate (ctxOffset x 0x438) fn 1) ∧ exec (.dbgResume fn x) s = .next (s.violate (ctxOffset x 0x438) fn 1) ∧
    exec (.preStop fn x) s = .next (s.violate (ctxOffset x 0x420) fn 1) ∧ exec (.preResume fn x) s = .next (s.violate (ctxOffset x 0x420) fn 1)) ∧
  (∀ (s : State) (fn x : Nat), fnOf x = fn → x < 64 →
    (∃ t : State, exec (.dbgHalt fn x) s = .next t ∧ t.mem = s.mem ∧ (∀ tm ∈ t.teams, tm.id.ctx = x → tm.parking = true) ∧ .teamParked x ∈ t.agenda ∧
      (t.teams.filter fun tm => tm.id.ctx != x) = (s.teams.filter fun tm => tm.id.ctx != x) ∧
      ((∃ tm ∈ s.teamsOf x, tm.parking = false) → (t.creg x .dbgStat).getLsbD 0 = false)) ∧
    (∃ t : State, exec (.dbgResume fn x) s = .next t ∧ t.mem = s.mem ∧ t.creg x .dbgStat = 0 ∧
      (∀ tm ∈ t.teams, tm.id.ctx = x → tm.parking = false ∧ ∀ g ∈ tm.groups ++ tm.engines, ∀ l, l < 32 → (vget g.threads l).parked = false) ∧
      (t.teams.filter fun tm => tm.id.ctx != x) = (s.teams.filter fun tm => tm.id.ctx != x)) ∧
    ((s.preBit x 0 = true ∨ s.preBit x 1 = true ∨ s.preBit x 2 = true) → exec (.preStop fn x) s = .next s) ∧
    (s.preBit x 0 = false → s.preBit x 1 = false → s.preBit x 2 = false → ∃ t : State, exec (.preStop fn x) s = .next t ∧
      t.preBit x 0 = true ∧ (t.ctx x).stopping = true ∧ .cutDrainDone x ∈ t.agenda ∧ t.mem = s.mem) ∧
    ((s.preBit x 1 = false ∨ s.preBit x 2 = true) → exec (.preResume fn x) s = .next s) ∧
    (s.preBit x 1 = true → s.preBit x 2 = false → ∃ t : State, exec (.preResume fn x) s = .next t ∧
      t.preBit x 1 = false ∧ t.preBit x 2 = true ∧ .restorePlace x ∈ t.agenda ∧ t.mem = s.mem ∧ t.teams = s.teams)) ∧
  (∀ (s : State) (x : Nat),
    ((s.creg x .dbgStat).getLsbD 0 = true → exec (.teamParked x) s = .next s) ∧
    ((∃ tm ∈ s.teamsOf x, tm.parking = true ∧ tm.isParked = false) → exec (.teamParked x) s = .next s) ∧
    ((s.creg x .dbgStat).getLsbD 0 = false → (∀ tm ∈ s.teamsOf x, tm.parking = true → tm.isParked = true) →
      exec (.teamParked x) s = .next ((s.setCreg x .dbgStat (setBit (s.creg x .dbgStat) 0 true)).msix (fnOf x) 2))) ∧
  (∀ (s : State) (x : Nat), x < 64 →
    let u := (s.teamsOf x).foldl (fun v t => v.holdTiles t.id.uid) s
    (s.preBit x 0 = false → exec (.cutDrainDone x) s = .next s) ∧
    (s.preBit x 0 = true → (∃ tm ∈ u.teamsOf x, u.undrained tm = true) → exec (.cutDrainDone x) s = .next u) ∧
    (s.preBit x 0 = true → (∀ tm ∈ u.teamsOf x, u.undrained tm = false) → (∃ tm ∈ u.teamsOf x, u.openRecs tm true = true) →
      ∃ t : State, exec (.cutDrainDone x) s = .next t ∧ t.preBit x 3 = true ∧ t.preBit x 0 = false ∧ t.preBit x 1 = u.preBit x 1 ∧
        t.teams.map (·.id) = u.teams.map (·.id)) ∧
    (s.preBit x 0 = true → (∀ tm ∈ u.teamsOf x, u.undrained tm = false ∧ u.openRecs tm true = false) →
      ∃ t : State, exec (.cutDrainDone x) s = .next t ∧ t.preBit x 0 = false ∧ t.preBit x 1 = true ∧ t.teamsOf x = [] ∧ (t.ctx x).stopping = false ∧
        (t.ctx x).saved.length = (u.teamsOf x).length ∧ ∀ tm ∈ (t.ctx x).saved, tm.phase = .saved)) ∧
  (∀ (gen : Nat) (l : List Team),
    let w (i : Nat) : Nat := (imageWords gen l).getD i 0
    8 * (imageWords gen l).length = imageLen l ∧ w 0 = l.length ∧ w 1 = gen ∧
    (∀ i, i < l.length → w (2 + i) % 256 = 0 ∧ 16 + 8 * l.length ≤ w (2 + i) ∧ (i + 1 < l.length → w (3 + i) = w (2 + i) + (l.getD i default).blockLen) ∧
      ∀ k, k < (l.getD i default).blockLen / 8 → w (w (2 + i) / 8 + k) = (Config.blockWord (l.getD i default) k).toNat) ∧
    ∀ k, 2 + l.length ≤ k → 8 * k < dirLen l.length → w k = 0) ∧
  (∀ (s : State) (x : Nat), x < 64 →
    (s.preBit x 2 = false → exec (.restorePlace x) s = .next s) ∧
    (s.preBit x 2 = true → (s.ctx x).saved = [] → ∃ t : State, exec (.restorePlace x) s = .next t ∧ t.preBit x 2 = false ∧ t.teams = s.teams ∧ t.mem = s.mem)) ∧
  ∀ (s : State) (x o : Nat) (a : Team) (rest : List Team), x < 64 → s.preBit x 2 = true → (s.ctx x).saved = a :: rest → (a.id.rect = false ∨ a.id.task = true) →
    ((∀ c, c < 1152 → s.fitsBack c a = false) → exec (.restorePlace x) s = .next s) ∧
    (o < 1152 → s.fitsBack o a = true → (∀ c, c < o → s.fitsBack c a = false) →
      ∃ (t : State) (tm : Team), exec (.restorePlace x) s = .next t ∧ t.teams.getLast? = some tm ∧ tm.id = { a.id with cluster := o / 192, core := o % 192 } ∧ tm.phase = .running ∧
        (∀ g l, l < 32 → g < a.groups.length → (vget (tm.groups.getD g default).threads l).g = (vget (a.groups.getD g default).threads l).g) ∧
        (t.ctx x).saved = (a :: rest).filter fun b => b.id.uid != a.id.uid)

/-! ## Reliability: storage errors, rollback, tests, lost dies, evacuation and checkpoints (R367 to R382, R387) -/

/-- Storage errors, rollback, self-tests, in-field tests, lost dies, evacuation, checkpoints. One wrong symbol is corrected and counted; two or three of a block (two bits of another word, of a register or an accumulator too) poison it and make a test due. A rollback of a launch that may be replayed stops its set, and once the teams have left rolls it back and begins its members again; another ends with error 7, 8 after a lost die, or 6 where a replay read a page lost with its stack (DEDUCED, log 17). A core under test with a resident team waits; a failed test retires it and its cluster goes offline; a link’s lane is replaced, or left degraded and reported. An in-field test starts for an enabled cluster and runs once the cluster is empty. The loss of the I/O or trust die stops the machine; another die’s is recorded in DIE_STAT, and a compute die’s stack begins to be evacuated. DIE_CTL and CKPT_CTL start their engines or refuse; each ends with its status, a checkpoint with FAIL when its pool cannot hold what was written since START. Whether a test passes is chance (log entry 6); evacuation in one step, and a checkpoint’s stream at its end, are the model’s (log entry 18). -/
def Obligations.ErrorsRollbacksTestsAndEvacuation : Prop :=
  (∀ (s : State) (a n : Nat),
    let w := ErrWord.of (if a < Config.gddrBytes then s.storage a else a)
    let u := s.unitAt w
    let seen := match w with | .key k => if isGddrKey k then 3 else 2 | _ => 2
    exec (.memoryError a 0) s = .next s ∧ exec (.memoryError a 1) s = .next (s.correctableError u) ∧
    (2 ≤ n → n ≤ seen → exec (.memoryError a n) s = .next ((s.poisonWord w).dueOnce (.selfTest u))) ∧
    (seen < n → ∃ b v, (s.freeWord w).flip = (b, v) ∧ exec (.memoryError a n) s = .next (if b then (v.poisonWord w).dueOnce (.selfTest u) else v)) ∧
    (((s.dev.errs.find? (·.1 == u)).map (·.2)).getD 0 ≠ 15 → (s.correctableError u).mem = s.mem ∧ (s.correctableError u).dev.poison = s.dev.poison ∧
      (s.correctableError u).dev.errs.find? (·.1 == u) = some (u, ((s.dev.errs.find? (·.1 == u)).map (·.2)).getD 0 + 1))) ∧
  (∀ (s : State) (p : Party) (l n c i e k : Nat),
    (n < 256 → s.poisonWord (.reg p l n) = s.modThread p l fun h => { h with gPoison := setBit h.gPoison n true }) ∧
    (n < 32 → s.poisonWord (.reg p l (256 + n)) = s.modThread p l fun h => { h with hPoison := setBit h.hPoison (n / 2) true }) ∧
    (c < 1152 → i < 16 → e ∈ (vget (vget (s.poisonWord (.acc c i e)).cores c).slots i).poison) ∧ s.poisonWord (.key k) = s.poisonKey k) ∧
  (∀ (s : State) (x gen : Nat),
    let r := s.rootGen x 10 gen
    (s.launch? x r = none → exec (.rollback x gen) s = .next s) ∧
    ∀ l, s.launch? x r = some l →
      let may := (s.creg x .rasCfg).getLsbD 0 && !l.noReplay && decide (l.replays < fld (s.creg x .rasCfg) 1 3)
      let lost := decide (l.replays ≠ 0) && l.lostRead
      (l.failed = true → exec (.rollback x gen) s = .next s) ∧
      (l.failed = false → l.rolling = false → lost = true → exec (.rollback x gen) s = .next (s.due (.errorReport x r 6))) ∧
      (l.failed = false → l.rolling = false → lost = false → may = false → exec (.rollback x gen) s = .next (s.due (.errorReport x r (if l.dieLost then 8 else 7)))) ∧
      (l.failed = false → l.rolling = false → lost = false → may = true → s.rollbackSet x r = [r] → exec (.rollback x gen) s = .next (s.rollStop x [r])) ∧
      (l.failed = false → l.rolling = true → s.rollbackSet x r = [r] →
        ((∃ t ∈ s.teams, t.id.ctx = x ∧ t.discard = true ∧ t.id.gen ∈ s.familyOf x [r]) → exec (.rollback x gen) s = .next s) ∧
        ((∀ t ∈ s.teams, t.id.ctx = x → t.discard = true → t.id.gen ∉ s.familyOf x [r]) → exec (.rollback x gen) s = .next (s.rollBack x [r])))) ∧
  (∀ (s : State) (x gen : Nat) (l : Launch), x < 64 → s.launch? x gen = some l → ∃ m, (s.replay x gen).launch? x gen = some m ∧
    m.replays = l.replays + 1 ∧ m.snaps = [] ∧ m.started = true ∧ m.held = (s.dreg .dieStat).getLsbD 0 ∧ m.rolling = false ∧ m.dieLost = false ∧ m.lostRead = false ∧ m.pkt = l.pkt ∧ m.desc = l.desc ∧ m.k = l.k) ∧
  (∀ (s : State) (cl n : Nat), coreNo cl n < 1152 → cl < 6 →
    let k := coreNo cl n
    (s.onCore k ≠ [] → ∃ t : State, exec (.selfTest (.core cl n)) s = .next t ∧ (vget t.cores k).tainted = true ∧ (vget t.cores k).retired = (vget s.cores k).retired ∧ t.mem = s.mem) ∧
    (s.onCore k = [] → ∃ t : State, exec (.selfTest (.core cl n)) s = .next t ∧ (vget t.cores k).tainted = false ∧
      (t.dev.errs.any (·.1 == .core cl n)) = false ∧
      ((vget t.cores k).retired = (vget s.cores k).retired ∧ (vget t.clusters cl).offline = (vget s.clusters cl).offline ∨
       (vget t.cores k).retired = true ∧ (vget t.clusters cl).offline = true))) ∧
  (∀ (s : State) (n : Nat), ∃ t : State, exec (.selfTest (.link n)) s = .next t ∧ (t.dev.errs.any (·.1 == .link n)) = false ∧
    (t.dev.linkRepaired = s.dev.linkRepaired ∧ t.dev.linkDegraded = s.dev.linkDegraded ∨
     t.dev.linkRepaired = n :: s.dev.linkRepaired ∧ t.dev.linkDegraded = s.dev.linkDegraded ∨
     t.dev.linkRepaired = s.dev.linkRepaired ∧ t.dev.linkDegraded = n :: s.dev.linkDegraded)) ∧
  (∀ (s : State) (fn : Nat) (v : BitVec 32), s.hsemHeld fn = false →
    exec (.iftStart fn v) s = .next (s.violate 0x1300 fn 0) ∧ exec (.dieCtlOff fn v) s = .next (s.violate 0x12C0 fn 0) ∧
    exec (.ckptStart fn) s = .next (s.violate 0x1248 fn 0) ∧ exec (.ckptRestore fn) s = .next (s.violate 0x1248 fn 0)) ∧
  (∀ (s : State) (fn : Nat) (v : BitVec 32), s.hsemHeld fn = true →
    let w : DWord := v.setWidth 64
    let cl := fld w 1 3
    (w.getLsbD 0 = false → exec (.iftStart fn v) s = .next s) ∧
    (w.getLsbD 0 = true → ((s.dreg .iftStat).getLsbD 0 = true ∨ 6 ≤ cl ∨ (vget s.clusters cl).enabled = false ∨ s.clusterOff cl = true) →
      exec (.iftStart fn v) s = .next (s.setIft 4 1 1)) ∧
    (w.getLsbD 0 = true → (s.dreg .iftStat).getLsbD 0 = false → cl < 6 → (vget s.clusters cl).enabled = true → s.clusterOff cl = false →
      ∃ t : State, exec (.iftStart fn v) s = .next t ∧ (vget t.clusters cl).testDue = true ∧ (t.dreg .iftStat).getLsbD 0 = true ∧ fld (t.dreg .iftStat) 5 3 = cl ∧
        .inFieldTest ∈ t.agenda)) ∧
  (∀ s : State, ((∀ c, c < 6 → (vget s.clusters c).testDue = false) → exec .inFieldTest s = .next s) ∧
    ∀ cl, cl < 6 → (∀ c, c < cl → (vget s.clusters c).testDue = false) → (vget s.clusters cl).testDue = true →
      ((∃ t ∈ s.teams, t.id.cluster = cl ∧ t.phase ≠ .saved) → exec .inFieldTest s = .next s) ∧
      ((∀ t ∈ s.teams, t.id.cluster = cl → t.phase = .saved) → ∃ t : State, exec .inFieldTest s = .next t ∧ (vget t.clusters cl).testDue = false ∧
        (t.dreg .iftStat).getLsbD 0 = false ∧
        ((t.dreg .iftStat).getLsbD 2 = true ∧ (vget t.clusters cl).placed = [] ∨ (t.dreg .iftStat).getLsbD 3 = true ∧ (vget t.clusters cl).offline = true))) ∧
  (∀ (s : State) (d : Nat), (6 ≤ d → exec (.dieLost d) s = .next s) ∧ (d = 4 ∨ d = 5 → exec (.dieLost d) s = .fault (.packageLost d)) ∧
    (d < 4 → ∃ t : State, exec (.dieLost d) s = .next t ∧ (vget t.dies d).lost = true ∧ (t.dreg .dieStat).getLsbD (8 + d) = true ∧
      (d < 2 → (vget t.dies (2 + d)).lost = true ∧ (t.dreg .dieStat).getLsbD (10 + d) = true ∧ (t.dreg .dieStat).getLsbD (6 + d) = true ∧
        (∀ i, i < 3 → (vget t.clusters (3 * d + i)).offline = true) ∧
        (s.dieBit (6 + d) = false → t.dieBit 0 = true ∧ .evacuateStack ∈ t.agenda)))) ∧
  (∀ (s : State) (fn n : Nat) (v : BitVec 32), s.hsemHeld fn = true → n < 2 → v = BitVec.ofNat 32 (2 ^ n) →
    let other := 1 - n
    let no := s.dieBit (6 + n) || s.dieBit (6 + other) || (vget s.dies other).lost || s.dieBit 0 || fld (s.dreg (evacPool other)) 0 16 == 0
    (no = true → exec (.dieCtlOff fn v) s = .next (s.setDie 2 true)) ∧
    (no = false → exec (.dieCtlOff fn v) s = .next (((s.setDie (6 + n) true).setDie 0 true).dueOnce .evacuateStack))) ∧
  (∀ s : State, (s.dieBit 0 = false → exec .evacuateStack s = .next s) ∧
    (s.dieBit 0 = true → ∃ t : State, exec .evacuateStack s = .next t ∧ t.dieBit 0 = false ∧ t.dieBit 1 = true ∧ ∀ x, x < 64 → ∀ l ∈ (t.ctx x).launches, l.held = false)) ∧
  (∀ (s : State) (fn : Nat), s.hsemHeld fn = true →
    ((s.dreg .ckptStat).getLsbD 0 = true → exec (.ckptStart fn) s = .next s ∧ exec (.ckptRestore fn) s = .next s) ∧
    ((∃ t ∈ s.teams, t.phase ≠ .saved) → exec (.ckptRestore fn) s = .next s) ∧
    ((s.dreg .ckptStat).getLsbD 0 = false → ∃ t : State, exec (.ckptStart fn) s = .next t ∧ (t.dreg .ckptStat).getLsbD 0 = true ∧ t.dev.ckpt = 1 ∧
      (s.ckptDesc = none → .ckptFinish false ∈ t.agenda) ∧ ∀ d, s.ckptDesc = some d → t.dev.ckptDesc = d ∧ t.dev.ckptImg = s.imageNow) ∧
    ((s.dreg .ckptStat).getLsbD 0 = false → (∀ t ∈ s.teams, t.phase = .saved) → ∃ t : State, exec (.ckptRestore fn) s = .next t ∧
      (t.dreg .ckptStat).getLsbD 0 = true ∧ t.dev.ckpt = 2 ∧ (.ckptFinish true ∈ t.agenda ∨ .ckptFinish false ∈ t.agenda))) ∧
  ∀ (s : State) (ok : Bool), (s.dev.ckpt = 0 → exec (.ckptFinish ok) s = .next s) ∧
    (s.dev.ckpt ≠ 0 →
      let fits := decide (s.dev.ckpt ≠ 1) || decide (s.ckptDirty.length ≤ s.ckptPool.2)
      ∃ t : State, exec (.ckptFinish ok) s = .next t ∧ t.dev.ckpt = 0 ∧ (t.dreg .ckptStat).getLsbD 0 = false ∧
        (t.dreg .ckptStat).getLsbD (if ok && fits then 1 else 2) = true ∧
        t.mem = if s.dev.ckpt = 1 ∧ ok = true ∧ fits = true then (s.fillCkptPool.writeImage s.dev.ckptDesc s.dev.ckptImg s.dev.ckptBad).mem else s.mem)

/-! ## Links, peers, common time, frames, scan-out and the trust die (R20 to R22, R266, R383 to R397) -/

/-- Host links, the fabric, collectives, common time, frames, scan-out, keys, boot and the mailbox. A link goes down, and a function’s hold on HSEM0 is released 1 ms later; a link trains within its limits. A peer’s read, write or atomic performs at the home; an undeliverable request traps the issue group’s guarded lanes with 0x0B, sub-cause 8, or the copy context. COLL_ABORT sends the next attempt; a token raises ATTEMPT and drops older elements; an element of an older attempt is dropped, another joins its group’s. A follower takes a Sync’s offset, and steps the I/O die’s counter while no team is resident. A frame’s number goes to FL_WORD; each stream sends the presented surface or its last good one, counted in SO_MISS. The trust die releases the dies that measure good, writes region table entry 0 and grants or revokes key slots; each mailbox request is answered; throttling lowers the clock. MODEL’S CHOICES: log 25 (a follower is ROLE 1 and steps by the whole offset, the other dies by OFFSET; boot aligns by OFFSET; an unrouted peer request does nothing; link-down record at once where HSEM0 is not held; an unowned slot is anyone’s; steps of 50 MHz with a floor) and log 30 (the own package takes the abort token). -/
def Obligations.LinksPeersFramesAndTrust : Prop :=
  (∀ (s : State) (fn rate width : Nat), fn < 2 → s.dev.split = true →
    ((vget s.dev.fns fn).linkUp = false → exec (.hostLinkDown fn) s = .next s) ∧
    ((vget s.dev.fns fn).linkUp = true → s.hsemHeld fn = true →
      exec (.hostLinkDown fn) s = .next (s.modFn fn fun k => { k with linkUp := false, downAt := some s.packTime })) ∧
    ((vget s.dev.fns fn).linkUp = true → s.hsemHeld fn = false →
      exec (.hostLinkDown fn) s = .next ((s.modFn fn fun k => { k with linkUp := false }).rasNow 11 4 fn 0 0)) ∧
    ((vget s.dies 4).released = true → 0 < rate → rate ≤ 128 → 0 < width → width ≤ 8 →
      exec (.hostLinkTrained fn rate width) s = .next (s.modFn fn fun k => { k with linkUp := true, rate, width })) ∧
    (128 < rate ∨ 8 < width → exec (.hostLinkTrained fn rate width) s = .next s)) ∧
  (∀ (s : State) (fn : Nat), fn < 2 → ((vget s.dev.fns fn).downAt = none → exec (.hsemLinkRelease fn) s = .next s) ∧
    ∀ t0, (vget s.dev.fns fn).downAt = some t0 →
      (s.packTime < t0 + 1000000 → exec (.hsemLinkRelease fn) s = .next s) ∧
      (t0 + 1000000 ≤ s.packTime → s.hsemHeld fn = true → ∃ t : State, exec (.hsemLinkRelease fn) s = .next t ∧
        vget t.dev.hsem 0 = 0 ∧ (vget t.dev.fns fn).downAt = none)) ∧
  (∀ (s : State) (src a : Nat) (wr : Bool) (ty : Ty) (v c : DWord),
    (src = Config.packageNumber ∨ Config.gddrBytes < a + ty.width / 8 ∨ s.route a = none → ∀ o, exec (.peerRequest src a wr o ty v c) s = .next s) ∧
    (src ≠ Config.packageNumber → a + ty.width / 8 ≤ Config.gddrBytes → (s.route a).isSome = true →
      let h := if s.rtHeld a then s.drained else s
      exec (.peerRequest src a false none ty v c) s = .next h ∧ exec (.peerRequest src a true none ty v c) s = .next (h.homeWriteN a (ty.width / 8) v.toNat) ∧
      ∀ o, exec (.peerRequest src a wr (some o) ty v c) s = .next (h.homeAtomic o ty a v c).2)) ∧
  (∀ (s : State) (n : Nat), exec (.burzilPortDown n) s = .next { s with dev := { s.dev with portsUp := vset s.dev.portsUp n false } }) ∧
  (∀ (s : State) (p : Party) (g l : Nat) (a : DWord) (loc : Nat) (pg : Page), p.mem = .group g →
    s.xlate (some (s.team p.team).coreNo) (s.team p.team).id.ctx a.toNat .read = .ok (loc, pg) →
    ((isPeer (loc % keyUnit) && isRemote loc) = false → exec (.requestUndeliverable p l a) s = .next s) ∧
    (∀ r, (isPeer (loc % keyUnit) && isRemote loc) = true → r.words ≠ [] → (Mn.ofOp (r.word.extractLsb' 55 9)).bind Mn.cls = some .mem →
      (s.blockedRun? p l = some r → exec (.requestUndeliverable p l a) s = .next (s.trapLanes p r (bitsOf r.lanes) [l] 0x0B a 8)) ∧
      (s.blockedRun? p l = none → (s.group p).run = some r → l ∈ s.guarded p r (bitsOf r.lanes) →
        exec (.requestUndeliverable p l a) s = .next ((s.wake p (bitsOf r.lanes)).trapAt p (s.guarded p r (bitsOf r.lanes))
          { cause := 0x0B, addr := a, aux := 8, lanes := ofBits 32 [l], pc := r.slotPc, mid := r.here.2 })))) ∧
  (∀ (s : State) (p : Party) (c l : Nat) (a : DWord) (loc : Nat) (pg : Page), p.mem = .engine (64 + c) →
    s.xlate (some (s.team p.team).coreNo) (s.team p.team).id.ctx a.toNat .read = .ok (loc, pg) → (isPeer (loc % keyUnit) && isRemote loc) = true →
    (vget (s.team p.team).copy c).batch = none → (vget (s.team p.team).copy c).aborting = false →
    (∃ q ∈ (vget (s.team p.team).copy c).recs, q.accepted = true ∧ q.status = 0) →
    exec (.requestUndeliverable p l a) s = .next (s.copyFault p.team c a.toNat { sub := 8 } .engine)) ∧
  (∀ (s : State) (fn x g : Nat), (fnOf x ≠ fn → exec (.collAbort fn x g) s = .next (s.violate (ctxOffset x 0x468) fn 1)) ∧
    (fnOf x = fn → exec (.collAbort fn x g) s = .next (s.due (.abortToken x g ((s.collGroup x g).2.2 + 1))))) ∧
  (∀ (s : State) (x g n : Nat), (∀ t ∈ s.teams, t.id.ctx = x → ∀ c, c < 4 → ∀ r ∈ (vget t.copy c).recs, Rec.kind r.w ≠ 5) →
    let most := max (s.collGroup x g).2.2 n
    exec (.abortToken x g n) s = .next ((s.writePa (fld (s.creg x .cgBase) 4 48 * 16 + 16 * g + 4) 4 most).modCtx x fun c =>
      { c with packets := c.packets.filter fun k => k.grp != g || decide (most ≤ k.attempt) })) ∧
  (∀ (s : State) (x g n : Nat) (a : PacketPlace) (v : BitVec 32),
    (n < (s.collGroup x g).2.2 ∨ a.off % 4 ≠ 0 → exec (.collectivePacket x g n a v) s = .next s) ∧
    ((s.collGroup x g).2.2 ≤ n → a.off % 4 = 0 → ∃ l : List CollPacket,
      exec (.collectivePacket x g n a v) s = .next (s.modCtx x fun c => { c with packets := l }) ∧
      { grp := g, attempt := n, seq := a.seq, rank := a.rank, addr := a.off, v : CollPacket } ∈ l ∧
      ∀ k : CollPacket, k ∈ l ↔ k = { grp := g, attempt := n, seq := a.seq, rank := a.rank, addr := a.off, v } ∨
        (k ∈ (s.ctx x).packets ∧ ¬ (k.grp = g ∧ k.attempt = n ∧ k.seq = a.seq ∧ k.rank = a.rank ∧ k.addr = a.off)))) ∧
  (∀ (s : State) (o : BitVec 32),
    (fld (s.dreg .tsCfg) 30 2 ≠ 1 → exec (.syncMessage o) s = .next s) ∧
    (fld (s.dreg .tsCfg) 30 2 = 1 → ∃ t : State, exec (.syncMessage o) s = .next t ∧ t.mem = s.mem ∧ fld (t.dreg .tsStat) 32 32 = o.toNat ∧
      ((t.dreg .tsStat).getLsbD 0 = true ↔
        ((s.dreg .tsStat).getLsbD 0 = true ∧ (o.toInt.natAbs ≤ 15 ∨ s.dev.syncRuns < 3)) ∨ ((s.dreg .tsStat).getLsbD 0 = false ∧ o.toInt.natAbs ≤ 15 ∧ 15 ≤ s.dev.syncRuns)) ∧
      ((∀ tm ∈ s.teams, tm.phase = .saved) → (vget t.dies 4).cnt = (vget s.dies 4).cnt - o.signExtend 64 ∧
        (∀ d, d < 6 → d ≠ 4 → vget t.dies d = { vget s.dies d with off := (vget s.dies d).off - o.signExtend 64 }) ∧
        t.dev.frame = if (s.dreg .flCtl).getLsbD 0 then max s.dev.frame t.nextFrame else s.dev.frame) ∧
      ((∃ tm ∈ s.teams, tm.phase ≠ .saved) → t.dies = s.dies ∧ t.dev.slew.natAbs ≤ slewMax))) ∧
  (∀ (s : State) (fn : Nat) (v : BitVec 32), (s.hsemHeld fn = false → exec (.flCtlEnable fn v) s = .next (s.violate 0x1210 fn 0)) ∧
    (s.hsemHeld fn = true → v.getLsbD 0 = true → (s.dreg .flCtl).getLsbD 0 = false → fld (s.dreg .flPer) 0 40 ≠ 0 →
      ∃ t : State, exec (.flCtlEnable fn v) s = .next t ∧ t.dreg .flCtl = 1 ∧ s.packTime ≤ s.frameStartAt t.dev.frame ∧
        ∀ k, k < t.dev.frame → s.frameStartAt k < s.packTime) ∧
    (s.hsemHeld fn = true → v.getLsbD 0 = false → ∃ t : State, exec (.flCtlEnable fn v) s = .next t ∧ t.dreg .flCtl = 0 ∧ ∀ n, n < 4 → vget t.dev.soDue n = [])) ∧
  (∀ s : State, ((s.dreg .flCtl).getLsbD 0 = false ∨ s.packTime < s.frameStartAt s.dev.frame → exec .frameStart s = .next s) ∧
    ((s.dreg .flCtl).getLsbD 0 = true → s.frameStartAt s.dev.frame ≤ s.packTime → ∃ u : State, exec .frameStart s = .next (u.homeWriteN (fld (s.dreg .flWord) 3 49 * 8) 8 s.dev.frame) ∧
      u.dev.frame = max (s.dev.frame + 1) s.nextFrame ∧ u.mem = s.mem ∧ u.teams = s.teams ∧
      vget u.dev.soDue 0 = vget s.dev.soDue 0 ++ (if s.dreg .soDesc0 ≠ 0 ∧ vget s.dev.soAway 0 = false then [s.dev.frame] else []))) ∧
  (∀ (s : State) (n : Nat), n < 4 → (vget s.dev.soDue n = [] → exec (.scanOutFrame n) s = .next s) ∧
    ∀ k rest, vget s.dev.soDue n = k :: rest →
      (s.soDesc n = none → ∃ t : State, exec (.scanOutFrame n) s = .next t ∧ vget t.dev.soDue n = rest ∧ t.mem = s.mem) ∧
      ∀ d, s.soDesc n = some d →
        let x := fld (vget d 0) 18 6
        (s.packTime < s.frameStartAt k + 1000 * fld (vget d 0) 0 18 → exec (.scanOutFrame n) s = .next s) ∧
        (∀ bs, s.frameStartAt k + 1000 * fld (vget d 0) 0 18 ≤ s.packTime → s.devRead x (vget d 1).toNat 24 = .ok bs →
          let r := dwordsOf 3 bs
          let h := fld (vget r 1) 52 12
          let good := k ≤ (vget r 0).toNat ∧ s.presentable x h (fld (vget d 0) 42 14 + 1) (fld (vget d 0) 28 14 + 1) = true ∧ s.genFailed x (vget r 2).toNat = false
          ∃ t : State, exec (.scanOutFrame n) s = .next t ∧ vget t.dev.soDue n = rest ∧ t.mem = s.mem ∧
            (good → vget t.dev.soSent n = some (k, h, false) ∧ vget t.dev.soGood n = (x, h)) ∧
            (¬ good → vget t.dev.soGood n = vget s.dev.soGood n ∧
              vget t.dev.soSent n = some (k, if (vget s.dev.soGood n).1 = x ∧ (s.surf? x (vget s.dev.soGood n).2).isSome then (vget s.dev.soGood n).2 else 0, true) ∧
              fld (t.dreg (soMiss n)) 0 32 = (fld (s.dreg (soMiss n)) 0 32 + 1) % 2 ^ 32))) ∧
  (∀ s : State, ∃ t : State, exec .trustDieBoot s = .next t ∧ (vget t.dies 5).released = true ∧ t.mem = s.mem ∧
    (∀ d, d < 5 → (vget t.dies d).released = true ∨ ((vget t.dies d).lost = true ∧ (t.dreg .bootStat).getLsbD d = true)) ∧
    (∀ d, d < 6 → (vget t.dies d).cnt + (vget t.dies d).off = (vget t.dies 4).cnt) ∧
    (∀ c, c < 6 → (vget t.clusters c).enabled = !(vget t.dies (c / 3)).lost) ∧
    (vget t.dev.bankA 0).base = 0 ∧ (vget t.dev.bankA 0).len = 0xF000 ∧ (vget t.dev.bankA 0).mode = 1 ∧
    (vget t.dev.bankA 0).off 0 = 0 ∧ (vget t.dev.bankA 0).off 1 = 0 ∧
    vget t.dev.slotGen 0 = 0 ∧ ∀ n, 0 < n → n < 64 → vget t.dev.slotGen n = vget s.dev.slotGen n + 1) ∧
  (∀ (s : State) (fn : Nat), fn < 2 →
    let tells (i : Instr) (a : Answer) : Prop := ∃ t : State, exec i s = .next t ∧ (vget t.dev.fns fn).mailbox = some a ∧ t.mem = s.mem ∧ t.teams = s.teams
    tells (.getVersion fn) (.version 1 3) ∧ tells (.getCapabilities fn) (.capabilities false) ∧ tells (.negotiateAlgorithms fn) (.algorithms true true) ∧
    tells (.getDigests fn) (.digests (Config.digest 8)) ∧ tells (.getCertificate fn) (.certificate (Config.digest 9)) ∧
    (∃ sig, tells (.challenge fn) (.challengeAuth (Config.digest 10) sig)) ∧ ∃ sa sb, tells (.getMeasurements fn) (.measurements measurements sa sb)) ∧
  (∀ (s : State) (fn x slot : Nat), x < 64 → fn < 2 →
    let bad := slot % 64 == 0 || (match vget s.dev.slotOwner (slot % 64) with | some y => fnOf y != fn | none => false)
    ((bad = true ∨ fnOf x ≠ fn) → exec (.tmCmdGrant fn x slot) s = .next (s.setTm fn true)) ∧
    (bad = false → fnOf x = fn → ∃ t : State, exec (.tmCmdGrant fn x slot) s = .next t ∧ vget t.dev.slotOwner (slot % 64) = some x ∧ (t.creg x .keyAllow).getLsbD (slot % 64) = true) ∧
    (bad = true → exec (.tmCmdRevoke fn slot) s = .next (s.setTm fn true)) ∧
    (bad = false → ∃ t : State, exec (.tmCmdRevoke fn slot) s = .next t ∧ vget t.dev.slotOwner (slot % 64) = none ∧
      (∀ y, y < 64 → (t.creg y .keyAllow).getLsbD (slot % 64) = false) ∧ vget t.dev.slotGen (slot % 64) = vget s.dev.slotGen (slot % 64) + 1)) ∧
  ∀ s : State, ∃ t : State, exec .thermalThrottle s = .next t ∧
    fld (t.dreg .pwrStat) 0 16 = (if 50 < fld (s.dreg .pwrStat) 0 16 then fld (s.dreg .pwrStat) 0 16 - 50 else fld (s.dreg .pwrStat) 0 16)
end

