-- ==== Sys2Proof/Laws/Decode.lean ====
section
/-!
SUPPORT. Decoding the word of a well-formed instruction gives its fields back (R161 to R172): the one lemma to cite is
`decode_word`; the lemmas before it read each field out of the word, those after it read each instruction's parts out of MOD.
-/
namespace Sys2Proof.Laws
open Sys2Proof

theorem extract_append_low {n m : Nat} (x : BitVec n) (y : BitVec m) (i k : Nat) (h : i + k ≤ m) :
    (x ++ y).extractLsb' i k = y.extractLsb' i k := by
  ext j hj
  simp [BitVec.getLsbD_append]
  intro hh; omega
theorem extract_append_high {n m : Nat} (x : BitVec n) (y : BitVec m) (i k : Nat) (h : m ≤ i) :
    (x ++ y).extractLsb' i k = x.extractLsb' (i - m) k := by
  ext j hj
  have : ¬ (i + j < m) := by omega
  simp [BitVec.getLsbD_append, this]
  congr 1; omega
theorem getLsbD_append_high {n m : Nat} (x : BitVec n) (y : BitVec m) (i : Nat) (h : m ≤ i) :
    (x ++ y).getLsbD i = x.getLsbD (i - m) := by
  have : ¬ i < m := by omega
  simp [BitVec.getLsbD_append, this]
theorem getLsbD_append_low {n m : Nat} (x : BitVec n) (y : BitVec m) (i : Nat) (h : i < m) :
    (x ++ y).getLsbD i = y.getLsbD i := by
  simp [BitVec.getLsbD_append, h]

/-- The upper half of a word (R161). -/
def top (op : BitVec 9) (l : Bool) (g : Guard) (dst a : BitVec 9) : BitVec 32 :=
  op ++ BitVec.ofBool l ++ BitVec.ofBool g.neg ++ g.p ++ dst ++ a

theorem raw_top (op : BitVec 9) (l : Bool) (g : Guard) (dst a : BitVec 9) (low : BitVec 32) :
    rawOf (top op l g dst a ++ low : BitVec (32 + 32)) =
      { op, l, guard := g, dst, a, b := low.extractLsb' 23 9, c := low.extractLsb' 14 9, mod := low.extractLsb' 0 14, lit := low } := by
  have e1 (i k : Nat) (h : 32 ≤ i) : @BitVec.extractLsb' 64 i k (top op l g dst a ++ low) = (top op l g dst a).extractLsb' (i - 32) k :=
    extract_append_high _ _ _ _ h
  have e2 (i k : Nat) (h : i + k ≤ 32) : @BitVec.extractLsb' 64 i k (top op l g dst a ++ low) = low.extractLsb' i k :=
    extract_append_low _ _ _ _ h
  have e3 (i : Nat) (h : 32 ≤ i) : @BitVec.getLsbD 64 (top op l g dst a ++ low) i = (top op l g dst a).getLsbD (i - 32) :=
    getLsbD_append_high _ _ _ h
  have f1 : (top op l g dst a).extractLsb' 23 9 = op := by
    refine Eq.trans (extract_append_high (n := 23) (m := 9) _ _ 23 9 (by omega)) ?_
    refine Eq.trans (extract_append_high (n := 14) (m := 9) _ _ 14 9 (by omega)) ?_
    refine Eq.trans (extract_append_high (n := 11) (m := 3) _ _ 5 9 (by omega)) ?_
    refine Eq.trans (extract_append_high (n := 10) (m := 1) _ _ 2 9 (by omega)) ?_
    refine Eq.trans (extract_append_high (n := 9) (m := 1) _ _ 1 9 (by omega)) ?_
    simp
  have f2 : (top op l g dst a).getLsbD 22 = l := by
    refine Eq.trans (getLsbD_append_high (n := 23) (m := 9) _ _ 22 (by omega)) ?_
    refine Eq.trans (getLsbD_append_high (n := 14) (m := 9) _ _ 13 (by omega)) ?_
    refine Eq.trans (getLsbD_append_high (n := 11) (m := 3) _ _ 4 (by omega)) ?_
    refine Eq.trans (getLsbD_append_high (n := 10) (m := 1) _ _ 1 (by omega)) ?_
    refine Eq.trans (getLsbD_append_low (n := 9) (m := 1) _ _ 0 (by omega)) ?_
    simp
  have f3 : (top op l g dst a).getLsbD 21 = g.neg := by
    refine Eq.trans (getLsbD_append_high (n := 23) (m := 9) _ _ 21 (by omega)) ?_
    refine Eq.trans (getLsbD_append_high (n := 14) (m := 9) _ _ 12 (by omega)) ?_
    refine Eq.trans (getLsbD_append_high (n := 11) (m := 3) _ _ 3 (by omega)) ?_
    refine Eq.trans (getLsbD_append_low (n := 10) (m := 1) _ _ 0 (by omega)) ?_
    simp
  have f4 : (top op l g dst a).extractLsb' 18 3 = g.p := by
    refine Eq.trans (extract_append_high (n := 23) (m := 9) _ _ 18 3 (by omega)) ?_
    refine Eq.trans (extract_append_high (n := 14) (m := 9) _ _ 9 3 (by omega)) ?_
    refine Eq.trans (extract_append_low (n := 11) (m := 3) _ _ 0 3 (by omega)) ?_
    simp
  have f5 : (top op l g dst a).extractLsb' 9 9 = dst := by
    refine Eq.trans (extract_append_high (n := 23) (m := 9) _ _ 9 9 (by omega)) ?_
    refine Eq.trans (extract_append_low (n := 14) (m := 9) _ _ 0 9 (by omega)) ?_
    simp
  have f6 : (top op l g dst a).extractLsb' 0 9 = a := by
    refine Eq.trans (extract_append_low (n := 23) (m := 9) _ _ 0 9 (by omega)) ?_
    simp
  simp only [rawOf, e1 _ _ (show 32 ≤ 55 by omega), e1 _ _ (show 32 ≤ 50 by omega), e1 _ _ (show 32 ≤ 41 by omega),
    e1 _ _ (show 32 ≤ 32 by omega), e3 _ (show 32 ≤ 54 by omega), e3 _ (show 32 ≤ 53 by omega),
    e2 _ _ (show 23 + 9 ≤ 32 by omega), e2 _ _ (show 14 + 9 ≤ 32 by omega), e2 _ _ (show 0 + 14 ≤ 32 by omega),
    e2 _ _ (show 0 + 32 ≤ 32 by omega), f1, f2, f3, f4, f5, f6, BitVec.extractLsb'_eq_self, Nat.reduceSub]

theorem word_lit (v : View) (w : BitVec 32) (h : v.b = .lit w) :
    v.word = top v.mn.op true v.guard v.dst.code v.a.code ++ w := by
  simp only [View.word, h, Operand.isLit]; rfl
theorem append_three (x : BitVec 32) (b c : BitVec 9) (m : BitVec 14) :
    (x ++ b ++ c ++ m : BitVec (32 + 9 + 9 + 14)) = (x ++ (b ++ c ++ m : BitVec (9 + 9 + 14)) : BitVec (32 + (9 + 9 + 14))) := by
  apply BitVec.eq_of_toNat_eq
  simp only [BitVec.toNat_append, Nat.shiftLeft_or_distrib, ← Nat.shiftLeft_add, Nat.or_assoc]
theorem word_flat (v : View) (h : v.b.isLit = false) :
    v.word = top v.mn.op false v.guard v.dst.code v.a.code ++ v.b.code ++ v.c.code ++ v.mod := by
  rcases v with ⟨mn, g, dst, a, b, c, mod⟩
  cases b <;> simp only [Operand.isLit, Bool.true_eq_false] at h <;> simp only [View.word, Operand.isLit, top]
theorem word_reg (v : View) (h : v.b.isLit = false) :
    v.word = top v.mn.op false v.guard v.dst.code v.a.code ++ (v.b.code ++ v.c.code ++ v.mod : BitVec (9 + 9 + 14)) := by
  rw [word_flat v h]
  exact append_three (top v.mn.op false v.guard v.dst.code v.a.code) v.b.code v.c.code v.mod
theorem raw_lit (v : View) (w : BitVec 32) (h : v.b = .lit w) :
    rawOf v.word = { op := v.mn.op, l := true, guard := v.guard, dst := v.dst.code, a := v.a.code, b := w.extractLsb' 23 9,
                     c := w.extractLsb' 14 9, mod := w.extractLsb' 0 14, lit := w } := by
  rw [word_lit v w h]; exact raw_top _ _ _ _ _ _
theorem raw_reg (v : View) (h : v.b.isLit = false) :
    rawOf v.word = { op := v.mn.op, l := false, guard := v.guard, dst := v.dst.code, a := v.a.code, b := v.b.code, c := v.c.code,
                     mod := v.mod, lit := (v.b.code ++ v.c.code ++ v.mod : BitVec (9 + 9 + 14)) } := by
  rw [word_reg v h]
  refine (raw_top _ _ _ _ _ _).trans ?_
  have f1 : @BitVec.extractLsb' 32 23 9 (v.b.code ++ v.c.code ++ v.mod) = v.b.code := by
    refine Eq.trans (extract_append_high (n := 18) (m := 14) _ _ 23 9 (by omega)) ?_
    refine Eq.trans (extract_append_high (n := 9) (m := 9) _ _ 9 9 (by omega)) ?_
    simp
  have f2 : @BitVec.extractLsb' 32 14 9 (v.b.code ++ v.c.code ++ v.mod) = v.c.code := by
    refine Eq.trans (extract_append_high (n := 18) (m := 14) _ _ 14 9 (by omega)) ?_
    refine Eq.trans (extract_append_low (n := 9) (m := 9) _ _ 0 9 (by omega)) ?_
    simp
  have f3 : @BitVec.extractLsb' 32 0 14 (v.b.code ++ v.c.code ++ v.mod) = v.mod := by
    refine Eq.trans (extract_append_low (n := 18) (m := 14) _ _ 0 14 (by omega)) ?_
    simp
  simp only [f1, f2, f3]
theorem tyOfCode_code (t : Ty) : Ty.ofCode t.code = some t := by
  cases t <;> first | rfl | (rename_i k; revert k; decide)
/-- Operands of the register code space (R163). -/
def coded : Operand → Bool | .p _ | .lit _ | .num _ | .tyc _ => false | _ => true
/-- A register operand, or none, is read back from its code (R163). -/
theorem ofCode_code (o : Operand) (h : coded o = true) :
    Operand.ofCode o.code = some o := by
  cases o with
  | g n => revert n; decide
  | k n => revert n; decide
  | q n => revert n; decide
  | h n => revert n; decide
  | sp s => cases s <;> decide
  | none => decide
  | p n => cases h
  | lit v => cases h
  | num n => cases h
  | tyc t => cases h
theorem tyc_code (t : Ty) : (Operand.tyc t).code.toNat < 24 ∧ (Operand.tyc t).code.setWidth 5 = t.code := by
  cases t <;> first | decide | (rename_i k; revert k; decide)
theorem pred_code (n : BitVec 3) : (Operand.p n).code.toNat < 8 ∧ (Operand.p n).code.setWidth 3 = n := by revert n; decide

/-- A field that fits its place is read back from its code (R163, R164, R212). -/
theorem parse_code (k : Kind) (o : Operand) (h : o.fits k = true) : k.parse o.code = some o := by
  have reg (hk : k.parse o.code = (Operand.ofCode o.code).filter (Operand.fits k))
      (ho : coded o = true) : k.parse o.code = some o := by
    rw [hk, ofCode_code o ho]; simp [h]
  cases k with
  | unused | src w | dstr w | kreg w | greg w | gOpt w | href | ctag | trio | quad =>
    refine reg rfl ?_
    cases o <;> first | rfl | (simp [Operand.fits, Operand.isNone, Operand.isH] at h)
  | pred =>
    cases o with
    | p n => simp [Kind.parse, pred_code n, Operand.fits]
    | none => rfl
    | _ => simp [Operand.fits] at h
  | num m =>
    cases o with
    | num n => simp only [Operand.fits] at h; simp only [Kind.parse, Operand.code, Operand.fits, h, Option.filter_some, if_true]
    | _ => simp [Operand.fits] at h
  | off =>
    cases o with
    | num n => rfl
    | _ => simp [Operand.fits] at h
  | zero =>
    have : o = .num 0 := by simpa [Operand.fits] using h
    subst this; rfl
  | tyc l =>
    cases o with
    | tyc t =>
      have := tyc_code t
      simp only [Kind.parse, this, if_true, tyOfCode_code, Option.map_some]
      simp only [Operand.fits] at h
      simp only [Operand.fits, h, Option.filter_some, if_true]
    | _ => simp [Operand.fits] at h
/-- The parts of a well-formed view's check. -/
theorem View.parts {v : View} (h : v.wf = true) :
    (match v.mn.litForm with | .no => !v.b.isLit | .opt => true | .must => v.b.isLit) = true ∧
    (v.b.isLit = true → v.c.isNone = true ∧ v.mod = (if v.shape.types.isEmpty then 0 else v.shape.deft.code ++ (0 : BitVec 9))) ∧
    typeOk v.mn v.shape v.mod = true ∧ subOk v.mn v.shape v.mod = true ∧ v.mod &&& ~~~ modMask v.mn v.shape = 0 ∧
    negTypeOk v.mn v.mod = true ∧ v.dst.fits v.shape.dst = true ∧ v.a.fits v.shape.a = true ∧
    (v.b.isLit = false → v.b.fits v.shape.b = true ∧ v.c.fits v.shape.c = true) ∧ v.qOnce = true ∧ v.extra = true ∧ useOk v.mn v.mod = true := by
  simp only [View.wf, Bool.and_eq_true, Bool.or_eq_true, Bool.not_eq_true', beq_iff_eq] at h
  obtain ⟨⟨⟨⟨⟨⟨⟨⟨⟨⟨⟨h1, h2⟩, h3⟩, h4⟩, h5⟩, h6⟩, h7⟩, h8⟩, h9⟩, h10⟩, h11⟩, h12⟩ := h
  refine ⟨h1, fun l => ?_, h3, h4, h5, h6, h7, h8, fun l => ?_, h10, h11, h12⟩
  · rcases h2 with h2 | h2
    · rw [l] at h2; cases h2
    · exact h2
  · rcases h9 with h9 | h9
    · rw [l] at h9; cases h9
    · exact h9

/-- Whether an entry depends on SA naming an h register. -/
theorem shape_hb (mn : Mn) (mod : BitVec 14) (x y lit : Bool) (h : mn ≠ .ldref) (h' : mn ≠ .stref) :
    shape mn mod x lit = shape mn mod y lit := by
  cases mn <;> first | rfl | contradiction
theorem convSrc_other (mn : Mn) (c : Option Ty) (s : Shape) (h : mn ≠ .fcvt) (h' : mn ≠ .i2f) (h'' : mn ≠ .f2i) : convSrc mn c s = s := by
  cases mn <;> first | rfl | contradiction
theorem hcode (o : Operand) (k : Bool) (h : o.fits (if o.isH then .href else .greg k) = true) :
    (0x150 ≤ o.code.toNat && o.code.toNat < 0x160) = o.isH := by
  cases o with
  | g n => clear h; simp only [Operand.isH]; revert n; decide
  | h n => clear h; simp only [Operand.isH]; revert n; decide
  | _ => simp [Operand.isH, Operand.fits] at h
/-- The type code that an operand holds. -/
def tyOf : Operand → Option Ty | .tyc t => some t | _ => none
theorem tycCode (o : Operand) (l : List Ty) (h : o.fits (.tyc l) = true) :
    (if o.code.toNat < 24 then Ty.ofCode (o.code.setWidth 5) else none) = tyOf o := by
  cases o with
  | tyc t => simp [tyc_code t, tyOfCode_code, tyOf]
  | _ => simp [Operand.fits] at h

theorem shapeOf_reg (v : View) (h : v.wf = true) (hl : v.b.isLit = false) : (rawOf v.word).shapeOf v.mn = v.shape := by
  have P := View.parts h
  rw [raw_reg v hl]
  simp only [Raw.shapeOf, Raw.modOf, Bool.false_eq_true, if_false, View.shape, hl]
  by_cases h1 : v.mn = .ldref
  · have ha := P.2.2.2.2.2.2.2.1
    have := hcode v.a (!false && ((Ty.ofCode (v.mod.extractLsb' 9 5)).getD .b32).wide) (by
      simpa [View.shape, h1, convSrc, shape, hl] using ha)
    rw [this, h1]; rfl
  by_cases h2 : v.mn = .stref
  · have ha := P.2.2.2.2.2.2.2.1
    have := hcode v.a (!false && ((Ty.ofCode (v.mod.extractLsb' 9 5)).getD .b32).wide) (by
      simpa [View.shape, h2, convSrc, shape, hl] using ha)
    rw [this, h2]; rfl
  rw [shape_hb v.mn v.mod _ v.a.isH false h1 h2]
  have hc := (P.2.2.2.2.2.2.2.2.1 hl).2
  by_cases h3 : v.mn = .fcvt
  · rw [tycCode v.c Shape.fltN (by simpa [View.shape, h3, convSrc, shape] using hc)]; rfl
  by_cases h4 : v.mn = .i2f
  · rw [tycCode v.c Shape.allInts (by simpa [View.shape, h4, convSrc, shape] using hc)]; rfl
  by_cases h5 : v.mn = .f2i
  · rw [tycCode v.c Shape.fltN (by simpa [View.shape, h5, convSrc, shape] using hc)]; rfl
  rw [convSrc_other _ _ _ h3 h4 h5, convSrc_other _ _ _ h3 h4 h5]

theorem modOf_lit (v : View) (w : BitVec 32) (h : v.wf = true) (hb : v.b = .lit w) : (rawOf v.word).modOf v.mn = v.mod := by
  have P := View.parts h
  have hl : v.b.isLit = true := by rw [hb]; rfl
  have hf := P.1
  rw [raw_lit v w hb, (P.2.1 hl).2]
  rcases v with ⟨mn, g, dst, a, b, c, mod⟩
  simp only at hb hf hl ⊢
  subst hb
  cases mn <;> first | rfl | (simp [Mn.litForm, Operand.isLit] at hf)
theorem shapeOf_lit (v : View) (w : BitVec 32) (h : v.wf = true) (hb : v.b = .lit w) : (rawOf v.word).shapeOf v.mn = v.shape := by
  have P := View.parts h
  have hf := P.1
  have hl : v.b.isLit = true := by rw [hb]; rfl
  rw [Raw.shapeOf, modOf_lit v w h hb, raw_lit v w hb]
  rcases v with ⟨mn, g, dst, a, b, c, mod⟩
  simp only at hb hf hl ⊢
  subst hb
  cases mn <;> first | rfl | (simp [Mn.litForm, Operand.isLit] at hf)
theorem shapeOf_word (v : View) (h : v.wf = true) : (rawOf v.word).shapeOf v.mn = v.shape := by
  cases hb : v.b with
  | lit w => exact shapeOf_lit v w h hb
  | _ => exact shapeOf_reg v h (by rw [hb]; rfl)
theorem modOf_word (v : View) (h : v.wf = true) : (rawOf v.word).modOf v.mn = v.mod := by
  cases hb : v.b with
  | lit w => exact modOf_lit v w h hb
  | _ => rw [raw_reg v (by rw [hb]; rfl)]; rfl
theorem raw_common (v : View) : (rawOf v.word).op = v.mn.op ∧ (rawOf v.word).l = v.b.isLit ∧ (rawOf v.word).guard = v.guard ∧
    (rawOf v.word).dst = v.dst.code ∧ (rawOf v.word).a = v.a.code := by
  cases hb : v.b with
  | lit w => rw [raw_lit v w hb]; exact ⟨rfl, rfl, rfl, rfl, rfl⟩
  | _ => rw [raw_reg v (by rw [hb]; rfl)]; exact ⟨rfl, rfl, rfl, rfl, rfl⟩
/-- Every field of a well-formed view's word is the code of an operand that fits it. -/
theorem fields_word (v : View) (h : v.wf = true) :
    ∀ x ∈ (rawOf v.word).fields v.shape, ∃ o : Operand, o.fits x.2.1 = true ∧ x.2.2 = o.code := by
  have P := View.parts h
  have R := raw_common v
  intro x hx
  simp only [Raw.fields, R.2.1, R.2.2.2.1, R.2.2.2.2, List.mem_append, List.mem_cons, List.not_mem_nil, or_false] at hx
  rcases hx with (rfl | rfl) | hx
  · exact ⟨v.dst, P.2.2.2.2.2.2.1, rfl⟩
  · exact ⟨v.a, P.2.2.2.2.2.2.2.1, rfl⟩
  · cases hl : v.b.isLit with
    | true => simp [hl] at hx
    | false =>
      have Q := P.2.2.2.2.2.2.2.2.1 hl
      rw [raw_reg v hl] at hx
      simp only [hl, Bool.false_eq_true, if_false, List.mem_cons, List.not_mem_nil, or_false] at hx
      rcases hx with rfl | rfl
      · exact ⟨v.b, Q.1, rfl⟩
      · exact ⟨v.c, Q.2, rfl⟩
theorem firstField_none (l : List (Nat × Kind × BitVec 9)) (p : Kind → BitVec 9 → Bool) (h : ∀ x ∈ l, p x.2.1 x.2.2 = false) :
    firstField l p = none := by
  simp only [firstField, Option.map_eq_none_iff, List.find?_eq_none]
  intro x hx; simp [h x hx]
theorem notReserved (k : Kind) (o : Operand) (h : o.fits k = true) (hk : k.isOperand = true) : reservedCode o.code = false := by
  cases o with
  | g n => clear h; revert n; decide
  | k n => clear h; revert n; decide
  | q n => clear h; revert n; decide
  | h n => clear h; revert n; decide
  | p n => clear h; revert n; decide
  | sp s => clear h; cases s <;> decide
  | none => decide
  | lit v => cases k <;> simp [Operand.fits, Operand.isNone, Operand.isH] at h
  | num n => cases k <;> simp [Operand.fits, Operand.isNone, Operand.isH, Kind.isOperand] at h hk
  | tyc t => cases k <;> simp [Operand.fits, Operand.isNone, Operand.isH, Kind.isOperand] at h hk
theorem none_code (o : Operand) (w : Bool) (h : o.fits (.gOpt w) = true) : (o.code == 0x1FF) = o.isNone := by
  cases o with
  | g n => clear h; revert n; decide
  | none => decide
  | _ => simp [Operand.fits] at h
theorem atomic_dst (v : View) (h : v.wf = true) (ha : v.mn.isAtomic = true) : (v.dst.code == 0x1FF) = v.dst.isNone := by
  have P := (View.parts h).2.2.2.2.2.2.1
  rcases v with ⟨mn, g, dst, a, b, c, mod⟩
  cases mn <;> simp only [Mn.isAtomic, Bool.false_eq_true] at ha <;> exact none_code _ _ P
theorem view_word (v : View) (h : v.wf = true) : (rawOf v.word).view v.mn = some v := by
  have P := View.parts h
  have R := raw_common v
  simp only [Raw.view, shapeOf_word v h, modOf_word v h, R.2.1, R.2.2.1, R.2.2.2.1, R.2.2.2.2,
    parse_code _ _ P.2.2.2.2.2.2.1, parse_code _ _ P.2.2.2.2.2.2.2.1]
  cases hb : v.b with
  | lit w =>
    have hn := (P.2.1 (by rw [hb]; rfl)).1
    have hc : v.c = .none := by
      cases hv : v.c <;> rw [hv] at hn <;> first | rfl | cases hn
    clear hn P R
    rw [raw_lit v w hb]
    rcases v with ⟨mn, g, dst, a, b, c, mod⟩
    simp only at hb hc
    subst hb hc
    rfl
  | _ =>
    have hl : v.b.isLit = false := by rw [hb]; rfl
    have Q := P.2.2.2.2.2.2.2.2.1 hl
    have f1 := parse_code _ _ Q.1
    have f2 := parse_code _ _ Q.2
    rw [raw_reg v hl]
    rw [hb] at f1
    simp only [hb, f1, f2, Operand.isLit, Bool.false_eq_true, if_false]
    rcases v with ⟨mn, g, dst, a, b, c, mod⟩
    simp only at hb
    subst hb
    rfl
theorem bad_word (v : View) (h : v.wf = true) : (rawOf v.word).bad v.mn = none := by
  have P := View.parts h
  have R := raw_common v
  have F := fields_word v h
  obtain ⟨p1, p2, p3, p4, p5, p6, p7, p8, p9, p10, p11, p12⟩ := P
  have c1 : (match v.mn.litForm with | .no => v.b.isLit | .opt => false | .must => !v.b.isLit) = false := by
    revert p1; cases v.mn.litForm <;> simp
  have c2 : firstField ((rawOf v.word).fields v.shape) (fun k c => k.isOperand && reservedCode c && !(v.mn.isCtrl && k == .unused)) = none := by
    apply firstField_none
    intro x hx
    obtain ⟨o, ho, hc⟩ := F x hx
    rw [hc]
    cases hk : x.2.1.isOperand with
    | false => rfl
    | true => rw [Bool.true_and, notReserved _ _ ho hk, Bool.false_and]
  have parses : ∀ x ∈ (rawOf v.word).fields v.shape, (x.2.1.parse x.2.2).isNone = false := by
    intro x hx
    obtain ⟨o, ho, hc⟩ := F x hx
    rw [hc, parse_code _ _ ho]; rfl
  have c3 : firstField ((rawOf v.word).fields v.shape) (fun k c => match k with | .tyc _ => (k.parse c).isNone | _ => false) = none := by
    apply firstField_none
    intro x hx
    have := parses x hx
    revert this
    rcases x with ⟨n, k, c⟩
    cases k <;> simp
  have c4 : firstField ((rawOf v.word).fields v.shape) (fun k c => match k with | .unused | .num _ => (k.parse c).isNone | _ => false) = none := by
    apply firstField_none
    intro x hx
    have := parses x hx
    revert this
    rcases x with ⟨n, k, c⟩
    cases k <;> simp
  have c5 : firstField ((rawOf v.word).fields v.shape) (fun k c => (k.parse c).isNone) = none :=
    firstField_none _ _ parses
  have c6 : (v.mn.isAtomic && v.mod.extractLsb' 0 3 == 2#3 && v.dst.code != 0x1FF) = false := by
    cases ha : v.mn.isAtomic with
    | false => rfl
    | true =>
      have e := atomic_dst v h ha
      have : (v.dst.code != 0x1FF) = !v.dst.isNone := by rw [bne, e]
      rw [this]
      revert ha p11
      rcases v with ⟨mn, g, dst, a, b, c, mod⟩
      cases mn <;> simp [View.extra, Mn.isAtomic] <;> intros <;> simp_all
  have c7 : (v.mn.isAtomic && v.mod.extractLsb' 5 4 == 8#4 && v.dst.code == 0x1FF) = false := by
    cases ha : v.mn.isAtomic with
    | false => rfl
    | true =>
      rw [atomic_dst v h ha]
      revert ha p11
      rcases v with ⟨mn, g, dst, a, b, c, mod⟩
      cases mn <;> simp [View.extra, Mn.isAtomic] <;> intros <;> simp_all
  have c8 : (v.mn == .xfer && v.mod.extractLsb' 8 3 == v.mod.extractLsb' 5 3) = false := by
    revert p11
    rcases v with ⟨mn, g, dst, a, b, c, mod⟩
    cases mn <;> simp [View.extra]
  have c9 : (v.mn == .roleq && v.guard != {}) = false := by
    revert p11
    rcases v with ⟨mn, g, dst, a, b, c, mod⟩
    cases mn <;> simp [View.extra]
  simp only [Raw.bad, shapeOf_word v h, modOf_word v h, R.2.1, R.2.2.1, R.2.2.2.1, c2, c5, c6, c7, c8, c9, p3, p4, p5, p6, p10, p12,
    view_word v h, Bool.false_eq_true, if_false, Bool.not_true, Bool.or_false, bne_self_eq_false]
  have s3 := congrArg Option.isSome c3
  have s4 := congrArg Option.isSome c4
  refine (if_neg (Bool.eq_false_iff.mp c1)).trans ((if_neg ?_).trans ((if_neg ?_).trans rfl))
  · rw [Bool.false_or]; exact Bool.eq_false_iff.mp s3
  · rw [Bool.false_or]; exact Bool.eq_false_iff.mp s4
/-- Decoding the word of a well-formed view. -/
theorem decode_word (v : View) (h : v.wf = true) : decodeWord v.word = .ok v.instr := by
  have hz : v.word ≠ 0 := by
    intro e
    have := (raw_common v).1
    rw [e] at this
    revert this
    cases v.mn <;> decide
  have ho : Mn.ofOp (rawOf v.word).op = some v.mn := by
    rw [(raw_common v).1]
    cases v.mn <;> rfl
  simp only [decodeWord, hz, if_false, ho, bad_word v h, view_word v h]
/-- The parts of MOD in format V (R166). -/
theorem mod_v (t : BitVec 5) (s : BitVec 4) (r : BitVec 2) (x y z : Bool) :
    let m : BitVec 14 := t ++ s ++ r ++ BitVec.ofBool x ++ BitVec.ofBool y ++ BitVec.ofBool z
    m.extractLsb' 9 5 = t ∧ m.extractLsb' 5 4 = s ∧ m.extractLsb' 3 2 = r ∧ m.getLsbD 2 = x ∧ m.getLsbD 1 = y ∧ m.getLsbD 0 = z := by
  refine ⟨?_, ?_, ?_, ?_, ?_, ?_⟩
  · refine (extract_append_high (n := 13) (m := 1) _ _ 9 5 (by omega)).trans ?_
    refine (extract_append_high (n := 12) (m := 1) _ _ 8 5 (by omega)).trans ?_
    refine (extract_append_high (n := 11) (m := 1) _ _ 7 5 (by omega)).trans ?_
    refine (extract_append_high (n := 9) (m := 2) _ _ 6 5 (by omega)).trans ?_
    refine (extract_append_high (n := 5) (m := 4) _ _ 4 5 (by omega)).trans ?_
    simp
  · refine (extract_append_high (n := 13) (m := 1) _ _ 5 4 (by omega)).trans ?_
    refine (extract_append_high (n := 12) (m := 1) _ _ 4 4 (by omega)).trans ?_
    refine (extract_append_high (n := 11) (m := 1) _ _ 3 4 (by omega)).trans ?_
    refine (extract_append_high (n := 9) (m := 2) _ _ 2 4 (by omega)).trans ?_
    refine (extract_append_low (n := 5) (m := 4) _ _ 0 4 (by omega)).trans ?_
    simp
  · refine (extract_append_high (n := 13) (m := 1) _ _ 3 2 (by omega)).trans ?_
    refine (extract_append_high (n := 12) (m := 1) _ _ 2 2 (by omega)).trans ?_
    refine (extract_append_high (n := 11) (m := 1) _ _ 1 2 (by omega)).trans ?_
    refine (extract_append_low (n := 9) (m := 2) _ _ 0 2 (by omega)).trans ?_
    simp
  · refine (getLsbD_append_high (n := 13) (m := 1) _ _ 2 (by omega)).trans ?_
    refine (getLsbD_append_high (n := 12) (m := 1) _ _ 1 (by omega)).trans ?_
    refine (getLsbD_append_low (n := 11) (m := 1) _ _ 0 (by omega)).trans ?_
    simp
  · refine (getLsbD_append_high (n := 13) (m := 1) _ _ 1 (by omega)).trans ?_
    refine (getLsbD_append_low (n := 12) (m := 1) _ _ 0 (by omega)).trans ?_
    simp
  · refine (getLsbD_append_low (n := 13) (m := 1) _ _ 0 (by omega)).trans ?_
    simp
/-- The parts of MOD in format M (R169), and of the engine entries that divide it the same way. -/
theorem mod_four {a b c d : Nat} (w : BitVec a) (x : BitVec b) (y : BitVec c) (z : BitVec d) :
    (w ++ x ++ y ++ z).extractLsb' (d + c + b) a = w ∧ (w ++ x ++ y ++ z).extractLsb' (d + c) b = x ∧
    (w ++ x ++ y ++ z).extractLsb' d c = y ∧ (w ++ x ++ y ++ z).extractLsb' 0 d = z := by
  refine ⟨?_, ?_, ?_, ?_⟩
  · rw [extract_append_high _ _ _ _ (by omega), extract_append_high _ _ _ _ (by omega), extract_append_high _ _ _ _ (by omega)]
    rw [show d + c + b - d - c - b = 0 by omega]; simp
  · rw [extract_append_high _ _ _ _ (by omega), extract_append_high _ _ _ _ (by omega), extract_append_low _ _ _ _ (by omega)]
    rw [show d + c - d - c = 0 by omega]; simp
  · rw [extract_append_high _ _ _ _ (by omega), extract_append_low _ _ _ _ (by omega)]
    rw [show d - d = 0 by omega]; simp
  · rw [extract_append_low _ _ _ _ (by omega)]; simp
theorem rnd_code (r : Rnd) : Rnd.ofCode r.code = r := by cases r <;> rfl
theorem scope_code (s : Scope) : Scope.ofCode s.code = s := by cases s <;> rfl
theorem use_code (u : Use) : Use.ofCode u.code = u := by cases u <;> rfl
theorem atomOp_code (o : AtomOp) : AtomOp.ofCode o.code = o := by cases o <;> rfl
/-- A format V instruction from its fields (R161, R166). -/
theorem vf_instr (f : VF) :
    ({ guard := f.guard, dst := f.dst, a := f.a, b := f.b, c := f.c,
       ty := (Ty.ofCode (f.mod.extractLsb' 9 5)).getD .b32, sub := f.mod.extractLsb' 5 4, rnd := Rnd.ofCode (f.mod.extractLsb' 3 2),
       sat := f.mod.getLsbD 2, na := f.mod.getLsbD 1, nb := f.mod.getLsbD 0 } : VF) = f := by
  have h := mod_v f.ty.code f.sub f.rnd.code f.sat f.na f.nb
  simp only at h
  simp only [VF.mod, h, tyOfCode_code, Option.getD_some, rnd_code]
/-- A format M instruction from its fields (R169). -/
theorem mf_instr (f : MF) :
    ({ guard := f.guard, dst := f.dst, base := f.base, data := f.data, c := f.c,
       ty := (Ty.ofCode (f.mod.extractLsb' 9 5)).getD .b32, op := AtomOp.ofCode (f.mod.extractLsb' 5 4),
       scope := Scope.ofCode (f.mod.extractLsb' 3 2), use := Use.ofCode (f.mod.extractLsb' 0 3) } : MF) = f := by
  have h := mod_four f.ty.code f.op.code f.scope.code f.use.code
  simp only [Nat.reduceAdd] at h
  simp only [MF.mod, h, tyOfCode_code, Option.getD_some, scope_code, use_code, atomOp_code]
/-- An instruction whose entry gives MOD a division of its own, from its operands. -/
theorem vp_instr (f : VF) (h : f.plain = true) : ({ guard := f.guard, dst := f.dst, a := f.a, b := f.b, c := f.c } : VF) = f := by
  rcases f with ⟨g, d, a, b, c, ty, sub, rnd, sat, na, nb⟩
  simp only [VF.plain, Bool.and_eq_true, beq_iff_eq, Bool.not_eq_true'] at h
  obtain ⟨⟨⟨⟨⟨rfl, rfl⟩, rfl⟩, rfl⟩, rfl⟩, rfl⟩ := h
  rfl
theorem ctx_mod (c : BitVec 2) : BitVec.extractLsb' 0 2 ((0 : BitVec 12) ++ c) = c := by revert c; decide
theorem tag_mod (t : BitVec 3) : BitVec.extractLsb' 0 3 ((0 : BitVec 11) ++ t) = t := by revert t; decide
theorem three_mod (a b c : BitVec 3) :
    let m : BitVec 14 := a ++ b ++ c ++ (0 : BitVec 5)
    m.extractLsb' 11 3 = a ∧ m.extractLsb' 8 3 = b ∧ m.extractLsb' 5 3 = c := by
  have h := mod_four a b c (0 : BitVec 5)
  exact ⟨h.1, h.2.1, h.2.2.1⟩
theorem two_mod (a b : BitVec 3) :
    let m : BitVec 14 := a ++ b ++ (0 : BitVec 8)
    m.extractLsb' 11 3 = a ∧ m.extractLsb' 8 3 = b := by revert a b; decide
theorem table_mod (t : BitVec 8) : BitVec.extractLsb' 5 8 ((0 : BitVec 1) ++ t ++ (0 : BitVec 5)) = t := by revert t; decide
theorem push_mod (s : BitVec 2) (t : BitVec 3) :
    BitVec.extractLsb' 3 2 ((0 : BitVec 9) ++ s ++ t) = s ∧ BitVec.extractLsb' 0 3 ((0 : BitVec 9) ++ s ++ t) = t := by revert s t; decide

theorem xfer_instr (f : VF) (ch snd rcv : BitVec 3) (h : f.plain = true) :
    (f.viewAs .xfer (ch ++ snd ++ rcv ++ (0 : BitVec 5))).instr = .xfer f ch snd rcv := by
  have m := three_mod ch snd rcv
  simp only at m
  simp only [View.instr, VF.viewAs, m, vp_instr f h]
theorem roleq_instr (f : VF) (src dst : BitVec 3) (h : f.plain = true) :
    (f.viewAs .roleq (src ++ dst ++ (0 : BitVec 8))).instr = .roleq f src dst := by
  have m := two_mod src dst
  simp only at m
  simp only [View.instr, VF.viewAs, m, vp_instr f h]
theorem plog_instr (f : VF) (t : BitVec 8) (h : f.plain = true) :
    (f.viewAs .plog ((0 : BitVec 1) ++ t ++ (0 : BitVec 5))).instr = .plog f t := by
  simp only [View.instr, VF.viewAs, table_mod, vp_instr f h]
theorem cdpush_instr (f : EF) (s : BitVec 2) (t : BitVec 3) : (f.view .cdpush ((0 : BitVec 9) ++ s ++ t)).instr = .cdpush f s t := by
  simp only [View.instr, EF.view, push_mod]
theorem movs_instr (f : VF) : (f.view .movs).instr = if f.sub = 1 then .movsSet f else .movsGet f := by
  have h := mod_v f.ty.code f.sub f.rnd.code f.sat f.na f.nb
  simp only at h
  have e : f.mod.extractLsb' 5 4 = f.sub := h.2.1
  show (if f.mod.extractLsb' 5 4 = 1 then Instr.movsSet _ else .movsGet _) = _
  rw [e]; simp only [VF.view, VF.viewAs]
  rw [vf_instr f]
theorem tlbinv_instr (f : VF) : (f.view .tlbinv).instr = if f.sub = 1 then .tlbinvPage f else .tlbinvAll f := by
  have h := mod_v f.ty.code f.sub f.rnd.code f.sat f.na f.nb
  simp only at h
  have e : f.mod.extractLsb' 5 4 = f.sub := h.2.1
  show (if f.mod.extractLsb' 5 4 = 1 then Instr.tlbinvPage _ else .tlbinvAll _) = _
  rw [e]; simp only [VF.view, VF.viewAs]
  rw [vf_instr f]
theorem movsGet_instr (f : VF) (h : (f.sub == 0) = true) : (f.view .movs).instr = .movsGet f := by
  rw [movs_instr, if_neg]; simp only [beq_iff_eq] at h; rw [h]; decide
theorem movsSet_instr (f : VF) (h : (f.sub == 1) = true) : (f.view .movs).instr = .movsSet f := by
  rw [movs_instr, if_pos]; simpa using h
theorem tlbinvAll_instr (f : VF) (h : (f.sub == 0) = true) : (f.view .tlbinv).instr = .tlbinvAll f := by
  rw [tlbinv_instr, if_neg]; simp only [beq_iff_eq] at h; rw [h]; decide
theorem tlbinvPage_instr (f : VF) (h : (f.sub == 1) = true) : (f.view .tlbinv).instr = .tlbinvPage f := by
  rw [tlbinv_instr, if_pos]; simpa using h
theorem mma_mod (acc a b : BitVec 4) :
    let m : BitVec 14 := acc ++ a ++ b ++ (0 : BitVec 2)
    m.extractLsb' 10 4 = acc ∧ m.extractLsb' 6 4 = a ∧ m.extractLsb' 2 4 = b := by
  have h := mod_four acc a b (0 : BitVec 2)
  exact ⟨h.1, h.2.1, h.2.2.1⟩
theorem mma_instr (f : EF) (acc : BitVec 4) (a b : Option Ty) (h : (elemOfCode (elemCode a) == a && elemOfCode (elemCode b) == b) = true) :
    (f.view .mma (acc ++ elemCode a ++ elemCode b ++ (0 : BitVec 2))).instr = .mma f acc a b := by
  have m := mma_mod acc (elemCode a) (elemCode b)
  simp only at m
  simp only [Bool.and_eq_true, beq_iff_eq] at h
  simp only [View.instr, EF.view, m, h]
theorem mmag_instr (f : EF) (acc : BitVec 4) (a b : Option Ty) (h : (elemOfCode (elemCode a) == a && elemOfCode (elemCode b) == b) = true) :
    (f.view .mmag (acc ++ elemCode a ++ elemCode b ++ (0 : BitVec 2))).instr = .mmag f acc a b := by
  have m := mma_mod acc (elemCode a) (elemCode b)
  simp only at m
  simp only [Bool.and_eq_true, beq_iff_eq] at h
  simp only [View.instr, EF.view, m, h]
theorem accrd_instr (f : EF) (acc : BitVec 4) (ty : Ty) (r : Rnd) :
    (f.view .accrd (acc ++ ty.code ++ r.code ++ (0 : BitVec 3))).instr = .accrd f acc ty r := by
  have h := mod_four acc ty.code r.code (0 : BitVec 3)
  simp only [Nat.reduceAdd] at h
  simp only [View.instr, EF.view, h, tyOfCode_code, Option.getD_some, rnd_code]
theorem accwr_mod (a : BitVec 4) (t : BitVec 5) :
    let m : BitVec 14 := a ++ t ++ (0 : BitVec 5)
    m.extractLsb' 10 4 = a ∧ m.extractLsb' 5 5 = t := by
  refine ⟨?_, ?_⟩
  · refine (extract_append_high (n := 9) (m := 5) _ _ 10 4 (by omega)).trans ?_
    refine (extract_append_high (n := 4) (m := 5) _ _ 5 4 (by omega)).trans ?_
    simp
  · refine (extract_append_high (n := 9) (m := 5) _ _ 5 5 (by omega)).trans ?_
    refine (extract_append_low (n := 4) (m := 5) _ _ 0 5 (by omega)).trans ?_
    simp
theorem accwr_instr (f : EF) (acc : BitVec 4) (ty : Ty) : (f.view .accwr (acc ++ ty.code ++ (0 : BitVec 5))).instr = .accwr f acc ty := by
  have h := accwr_mod acc ty.code
  simp only at h
  simp only [View.instr, EF.view, h, tyOfCode_code, Option.getD_some]
theorem accst_mod (a : BitVec 4) (t : BitVec 5) (s : Bool) :
    let m : BitVec 14 := a ++ t ++ BitVec.ofBool s ++ (0 : BitVec 4)
    m.extractLsb' 10 4 = a ∧ m.extractLsb' 5 5 = t ∧ m.getLsbD 4 = s := by
  have h := mod_four a t (BitVec.ofBool s) (0 : BitVec 4)
  refine ⟨h.1, h.2.1, ?_⟩
  refine (getLsbD_append_high (n := 10) (m := 4) _ _ 4 (by omega)).trans ?_
  refine (getLsbD_append_low (n := 9) (m := 1) _ _ 0 (by omega)).trans ?_
  simp
theorem accst_instr (f : EF) (acc : BitVec 4) (ty : Ty) (s : Bool) :
    (f.view .accst (acc ++ ty.code ++ BitVec.ofBool s ++ (0 : BitVec 4))).instr = .accst f acc ty s := by
  have h := accst_mod acc ty.code s
  simp only at h
  simp only [View.instr, EF.view, h, tyOfCode_code, Option.getD_some]
theorem accrel_mod (a : BitVec 4) : BitVec.extractLsb' 10 4 (a ++ (0 : BitVec 10)) = a := by revert a; decide
theorem accrel_instr (f : EF) (acc : BitVec 4) : (f.view .accrel (acc ++ (0 : BitVec 10))).instr = .accrel f acc := by
  simp only [View.instr, EF.view, accrel_mod]
theorem exprt_mod (k : Bool) : BitVec.getLsbD ((0 : BitVec 13) ++ BitVec.ofBool k) 0 = k := by revert k; decide
theorem exprt_instr (f : EF) (k : Bool) : (f.view .exprt ((0 : BitVec 13) ++ BitVec.ofBool k)).instr = .exprt f k := by
  simp only [View.instr, EF.view, exprt_mod]

end Sys2Proof.Laws
end

