-- ==== Sys2Proof/Laws/Ops.lean ====
section
/-!
SUPPORT. The shared operation of issue, said once: an instruction that acts ends as its own effect says (`issue_acts`), and a per-lane
operation stores what each acting lane makes of its sources (`perLane_acts`, `lanewise_acts`).
-/
namespace Sys2Proof.Machine

theorem acts_parts {s : State} {i : Instr} (h : s.acts i = true) :
    (s.group s.cur).run.isSome = true ∧ i.view.isSome = true ∧ s.dynBad s.cur i.fv = none ∧ s.interlocked s.cur (bitsOf s.path.lanes) i.fv = false ∧
    s.counterFull s.cur i.fv = false ∧ s.storeHeld s.cur (bitsOf s.path.lanes) i.fv = false ∧ s.inSteep s.cur = false ∧ s.consumes s.cur (s.readers s.cur i.fv (s.acting i)) i.fv = false ∧
    (queueForm i.fv = false ∨ ((s.noteTime s.cur i.fv (s.acting i)).pull s.cur i.fv (s.acting i)).isSome = true) := by
  simpa only [State.acts, Bool.and_eq_true, Bool.or_eq_true, Bool.not_eq_true', Option.isNone_iff_eq_none, and_assoc] using h
theorem acts_run {s : State} {i : Instr} (h : s.acts i = true) : (s.group s.cur).run = some s.path := by
  obtain ⟨r, hr⟩ := Option.isSome_iff_exists.mp (acts_parts h).1
  simp [State.path, hr]
theorem acts_view {s : State} {i : Instr} (h : s.acts i = true) : i.view = some i.fv := by
  obtain ⟨v, hv⟩ := Option.isSome_iff_exists.mp (acts_parts h).2.1
  simp [Instr.fv, hv]
theorem acts_legal {s : State} {i : Instr} (h : s.acts i = true) : s.dynBad s.cur i.fv = none := (acts_parts h).2.2.1
theorem acts_free {s : State} {i : Instr} (h : s.acts i = true) : s.interlocked s.cur (bitsOf s.path.lanes) i.fv = false := (acts_parts h).2.2.2.1
theorem acts_room {s : State} {i : Instr} (h : s.acts i = true) : s.counterFull s.cur i.fv = false := (acts_parts h).2.2.2.2.1
theorem acts_stored {s : State} {i : Instr} (h : s.acts i = true) : s.storeHeld s.cur (bitsOf s.path.lanes) i.fv = false := (acts_parts h).2.2.2.2.2.1
theorem acts_exact {s : State} {i : Instr} (h : s.acts i = true) : s.inSteep s.cur = false := (acts_parts h).2.2.2.2.2.2.1
theorem acts_clean {s : State} {i : Instr} (h : s.acts i = true) : s.consumes s.cur (s.readers s.cur i.fv (s.acting i)) i.fv = false := (acts_parts h).2.2.2.2.2.2.2.1
theorem acts_queues {s : State} {i : Instr} (h : s.acts i = true) :
    queueForm i.fv = false ∨ ((s.noteTime s.cur i.fv (s.acting i)).pull s.cur i.fv (s.acting i)).isSome = true := (acts_parts h).2.2.2.2.2.2.2.2

/-- How the effect of an instruction ends: one that is to be issued again has popped no queue entry and returned no `$time`. -/
def State.ended (s : State) (i : Instr) (x : Res) : Res :=
  s.untimed (if queueForm i.fv then (s.noteTime s.cur i.fv (s.acting i)).fed s.cur x else x)
@[simp] theorem ended_done (s : State) (i : Instr) (t : State) : s.ended i (.done t) = .done t := by unfold State.ended; split <;> rfl
@[simp] theorem ended_jump (s : State) (i : Instr) (t : State) (d : List (Nat × Spot)) : s.ended i (.jump t d) = .jump t d := by
  unfold State.ended; split <;> rfl
@[simp] theorem ended_trap (s : State) (i : Instr) (t : State) (c : Nat) (ls : List Nat) (ad ax : DWord) (af : Bool) :
    s.ended i (.trap t c ls ad ax af) = .trap t c ls ad ax af := by unfold State.ended; split <;> rfl
@[simp] theorem ended_stall (s : State) (i : Instr) (t : State) : s.ended i (.stall t) = .stall (s.unread i t) := by
  unfold State.ended State.unread; split <;> rfl
theorem ended_waits (s : State) (i : Instr) (t : State) (ws : List (Nat × Wait)) (h : ws.any (fun w => w.2 == .retry) = false) :
    s.ended i (.block t ws) = .block (if ws.any fun w => w.2 == .operand then { t with dies := s.dies } else t) ws := by
  have e : (ws.any fun w => w.2 == .retry || w.2 == .operand) = ws.any fun w => w.2 == .operand := by
    induction ws with
    | nil => rfl
    | cons a l ih =>
      simp only [List.any_cons, Bool.or_eq_false_iff] at h
      simp only [List.any_cons, h.1, Bool.false_or, ih h.2]
  unfold State.ended; split
  · simp only [State.fed, h, Bool.false_eq_true, if_false, State.untimed, e]
  · simp only [State.untimed, e]

/-- An instruction that acts ends as its own effect on the acting lanes says. -/
theorem issue_acts {s : State} {i : Instr} (h : s.acts i = true) (body : List Nat → State → Res) :
    s.issue i body = .next (finish s.cur s.path i.fv (s.acting i) (s.ended i (body (s.acting i) (s.begun i)))) := by
  have e := acts_clean h
  simp only [State.acting] at e
  simp only [State.issue, acts_run h, acts_view h, acts_legal h, acts_free h, acts_room h, acts_stored h, acts_exact h, e, Bool.or_false,
    Bool.false_eq_true, if_false, State.feed, State.ended]
  rcases acts_queues h with q | q
  · simp only [State.begun, q, Bool.false_eq_true, if_false, State.acting]
  · obtain ⟨t, ht⟩ := Option.isSome_iff_exists.mp q
    simp only [State.begun, ht, Option.getD_some]
    simp only [State.acting] at ht
    simp only [ht, State.acting]
    split <;> rfl
/-- An instruction that names no queue register, or is of another class than SYNC and SYS, pops none before its effect. -/
theorem begun_plain (s : State) (i : Instr) (h : queueForm i.fv = false) : s.begun i = s.noteTime s.cur i.fv (s.acting i) := by
  simp only [State.begun, h, Bool.false_eq_true, if_false]
theorem fetchField_cur {s t : State} {p : Party} {lanes : List Nat} {w : Bool} {o : Operand} {vs : List (Nat × DWord)}
    (h : s.fetchField p lanes w o = some (vs, t)) : t.cur = s.cur := by
  simp only [State.fetchField] at h
  repeat' split at h
  all_goals (cases h; try rfl)
theorem foldl_bind_none {α β : Type} (f : α → β → Option α) (l : List β) : l.foldl (fun acc b => acc.bind fun a => f a b) none = none := by
  induction l with
  | nil => rfl
  | cons b l ih => exact ih
/-- A fold of partial steps keeps what each step keeps. -/
theorem foldl_bind {α β : Type} {P : α → Prop} (f : α → β → Option α) (hf : ∀ a b c, f a b = some c → P a → P c) (l : List β) (a c : α) (ha : P a)
    (h : l.foldl (fun acc b => acc.bind fun a => f a b) (some a) = some c) : P c := by
  induction l generalizing a with
  | nil => cases h; exact ha
  | cons b l ih =>
    rw [List.foldl_cons, Option.bind_some] at h
    cases hb : f a b with
    | none => rw [hb, foldl_bind_none] at h; cases h
    | some d => rw [hb] at h; exact ih d (hf a b d hb ha) h
theorem popField_cur {s t : State} {p : Party} {ls : List Nat} {f : Field} (h : s.popField p ls f = some t) : t.cur = s.cur := by
  simp only [State.popField] at h
  split at h
  · obtain ⟨r, hr, rfl⟩ := Option.map_eq_some_iff.mp h
    exact (fetchField_cur (show s.fetchField p ls f.wide f.o = some (r.1, r.2) from hr) :)
  · cases h; rfl
theorem pull_cur {s t : State} {p : Party} {v : View} {lanes : List Nat} (h : s.pull p v lanes = some t) : t.cur = s.cur := by
  simp only [State.pull] at h
  split at h
  · cases h
  · split at h
    · cases h; rfl
    · exact foldl_bind (P := fun t => t.cur = s.cur) _ (fun _ _ _ e k => (popField_cur e).trans k) _ s t rfl h
theorem begun_cur (s : State) (i : Instr) : (s.begun i).cur = s.cur := by
  have n : (s.noteTime s.cur i.fv (s.acting i)).cur = s.cur := by simp only [State.noteTime]; split <;> rfl
  simp only [State.begun]
  split
  · cases hp : (s.noteTime s.cur i.fv (s.acting i)).pull s.cur i.fv (s.acting i) with
    | none => exact n
    | some t => exact (pull_cur hp).trans n
  · exact n
theorem finish_done (s : State) (p : Party) (r : Run) (v : View) (lanes : List Nat) :
    finish p r v lanes (.done s) = (s.tally p lanes.length).leave p v := rfl

/-- A per-lane operation whose operands flow stores its results. -/
theorem lanewise_acts {s : State} {i : Instr} (h : s.acts i = true)
    (pre : State → Party → List Nat → Src → Option (Nat × List Nat × DWord × DWord))
    (f : State → Party → List Nat → Src → Nat → DWord × BitVec 5)
    (hp : ∀ src, pre (s.begun i) s.cur (s.acting i) src = none)
    (hf : (s.computed i (f (s.begun i) s.cur (s.acting i))).2 = true) :
    s.lanewise i pre f = .next (s.performed i (s.computed i (f (s.begun i) s.cur (s.acting i))).1) := by
  rw [State.lanewise, issue_acts h]
  simp only [begun_cur, acts_view h]
  revert hf
  simp only [State.computed]
  cases hs : (s.begun i).sources s.cur i.fv (s.acting i) with
  | none => intro hf; cases hf
  | some x =>
    obtain ⟨src, s1⟩ := x
    simp only [hp, State.raised, List.foldl_map, List.map_map, Function.comp_def, State.results, State.unstored]
    intro hf
    split
    · rename_i e
      rw [e] at hf ⊢
      rw [ended_done]
      rfl
    · rename_i e
      rw [e] at hf
      cases hf
theorem perLane_acts {s : State} {i : Instr} (h : s.acts i = true) (f : DWord → DWord → DWord → DWord × BitVec 5)
    (hf : (s.computed i fun src l => f (src l).1 (src l).2.1 (src l).2.2).2 = true) :
    s.perLane i f = .next (s.performed i (s.computed i fun src l => f (src l).1 (src l).2.1 (src l).2.2).1) :=
  lanewise_acts h _ _ (fun _ => rfl) hf

end Sys2Proof.Machine
end

