-- ==== Sys2Proof/Laws/State.lean ====
section
/-!
SUPPORT. Reading the state after an update of it: each named update leaves every other field as it was, and reading back what was updated
gives the new value.
-/
namespace Sys2Proof.Machine

/-! ## Vectors -/

theorem vget_vset {α : Type} [Inhabited α] {n : Nat} (v : Vector α n) (i j : Nat) (a : α) (h : i < n) :
    vget (vset v i a) j = if i = j then a else vget v j := by
  simp only [vget, vset]
  by_cases e : i = j
  · subst e; simp [h]
  · simp [e]
theorem vget_vset_same {α : Type} [Inhabited α] {n : Nat} (v : Vector α n) (i : Nat) (a : α) (h : i < n) : vget (vset v i a) i = a := by
  rw [vget_vset v i i a h, if_pos rfl]
theorem vget_vset_ne {α : Type} [Inhabited α] {n : Nat} (v : Vector α n) (i j : Nat) (a : α) (h : i ≠ j) : vget (vset v i a) j = vget v j := by
  simp [vget, vset, h]
theorem vget_vmod_same {α : Type} [Inhabited α] {n : Nat} (v : Vector α n) (i : Nat) (f : α → α) (h : i < n) :
    vget (vmod v i f) i = f (vget v i) := vget_vset_same v i _ h
theorem vget_vmod_ne {α : Type} [Inhabited α] {n : Nat} (v : Vector α n) (i j : Nat) (f : α → α) (h : i ≠ j) :
    vget (vmod v i f) j = vget v j := vget_vset_ne v i j _ h
theorem vget_vmod {α : Type} [Inhabited α] {n : Nat} (v : Vector α n) (i j : Nat) (f : α → α) (h : i < n) :
    vget (vmod v i f) j = if i = j then f (vget v i) else vget v j := vget_vset v i j _ h
theorem vset_out {α : Type} {n : Nat} (v : Vector α n) (i : Nat) (a : α) (h : n ≤ i) : vset v i a = v := by
  simp only [vset]
  apply Vector.ext
  intro j hj
  simp [show i ≠ j by omega]

/-! ## Fields that an update leaves -/

/-! ### modTeam -/

@[simp] theorem State.modTeam_mem (s : State) (u : Nat) (f : Team → Team) : (s.modTeam u f).mem = s.mem := rfl
@[simp] theorem State.modTeam_nextUid (s : State) (u : Nat) (f : Team → Team) : (s.modTeam u f).nextUid = s.nextUid := rfl
@[simp] theorem State.modTeam_cores (s : State) (u : Nat) (f : Team → Team) : (s.modTeam u f).cores = s.cores := rfl
@[simp] theorem State.modTeam_clusters (s : State) (u : Nat) (f : Team → Team) : (s.modTeam u f).clusters = s.clusters := rfl
@[simp] theorem State.modTeam_dies (s : State) (u : Nat) (f : Team → Team) : (s.modTeam u f).dies = s.dies := rfl
@[simp] theorem State.modTeam_ctxs (s : State) (u : Nat) (f : Team → Team) : (s.modTeam u f).ctxs = s.ctxs := rfl
@[simp] theorem State.modTeam_queues (s : State) (u : Nat) (f : Team → Team) : (s.modTeam u f).queues = s.queues := rfl
@[simp] theorem State.modTeam_dev (s : State) (u : Nat) (f : Team → Team) : (s.modTeam u f).dev = s.dev := rfl
@[simp] theorem State.modTeam_agenda (s : State) (u : Nat) (f : Team → Team) : (s.modTeam u f).agenda = s.agenda := rfl
@[simp] theorem State.modTeam_slots (s : State) (u : Nat) (f : Team → Team) : (s.modTeam u f).slots = s.slots := rfl
@[simp] theorem State.modTeam_cur (s : State) (u : Nat) (f : Team → Team) : (s.modTeam u f).cur = s.cur := rfl
@[simp] theorem State.modTeam_freeCtr (s : State) (u : Nat) (f : Team → Team) : (s.modTeam u f).freeCtr = s.freeCtr := rfl
@[simp] theorem State.modTeam_clock (s : State) (u : Nat) (f : Team → Team) : (s.modTeam u f).clock = s.clock := rfl

/-! ### modGroup -/

@[simp] theorem State.modGroup_mem (s : State) (p : Party) (f : Group → Group) : (s.modGroup p f).mem = s.mem := rfl
@[simp] theorem State.modGroup_nextUid (s : State) (p : Party) (f : Group → Group) : (s.modGroup p f).nextUid = s.nextUid := rfl
@[simp] theorem State.modGroup_cores (s : State) (p : Party) (f : Group → Group) : (s.modGroup p f).cores = s.cores := rfl
@[simp] theorem State.modGroup_clusters (s : State) (p : Party) (f : Group → Group) : (s.modGroup p f).clusters = s.clusters := rfl
@[simp] theorem State.modGroup_dies (s : State) (p : Party) (f : Group → Group) : (s.modGroup p f).dies = s.dies := rfl
@[simp] theorem State.modGroup_ctxs (s : State) (p : Party) (f : Group → Group) : (s.modGroup p f).ctxs = s.ctxs := rfl
@[simp] theorem State.modGroup_queues (s : State) (p : Party) (f : Group → Group) : (s.modGroup p f).queues = s.queues := rfl
@[simp] theorem State.modGroup_dev (s : State) (p : Party) (f : Group → Group) : (s.modGroup p f).dev = s.dev := rfl
@[simp] theorem State.modGroup_agenda (s : State) (p : Party) (f : Group → Group) : (s.modGroup p f).agenda = s.agenda := rfl
@[simp] theorem State.modGroup_slots (s : State) (p : Party) (f : Group → Group) : (s.modGroup p f).slots = s.slots := rfl
@[simp] theorem State.modGroup_cur (s : State) (p : Party) (f : Group → Group) : (s.modGroup p f).cur = s.cur := rfl
@[simp] theorem State.modGroup_freeCtr (s : State) (p : Party) (f : Group → Group) : (s.modGroup p f).freeCtr = s.freeCtr := rfl
@[simp] theorem State.modGroup_clock (s : State) (p : Party) (f : Group → Group) : (s.modGroup p f).clock = s.clock := rfl

/-! ### modThread -/

@[simp] theorem State.modThread_mem (s : State) (p : Party) (l : Nat) (f : Thread → Thread) : (s.modThread p l f).mem = s.mem := rfl
@[simp] theorem State.modThread_nextUid (s : State) (p : Party) (l : Nat) (f : Thread → Thread) : (s.modThread p l f).nextUid = s.nextUid := rfl
@[simp] theorem State.modThread_cores (s : State) (p : Party) (l : Nat) (f : Thread → Thread) : (s.modThread p l f).cores = s.cores := rfl
@[simp] theorem State.modThread_clusters (s : State) (p : Party) (l : Nat) (f : Thread → Thread) : (s.modThread p l f).clusters = s.clusters := rfl
@[simp] theorem State.modThread_dies (s : State) (p : Party) (l : Nat) (f : Thread → Thread) : (s.modThread p l f).dies = s.dies := rfl
@[simp] theorem State.modThread_ctxs (s : State) (p : Party) (l : Nat) (f : Thread → Thread) : (s.modThread p l f).ctxs = s.ctxs := rfl
@[simp] theorem State.modThread_queues (s : State) (p : Party) (l : Nat) (f : Thread → Thread) : (s.modThread p l f).queues = s.queues := rfl
@[simp] theorem State.modThread_dev (s : State) (p : Party) (l : Nat) (f : Thread → Thread) : (s.modThread p l f).dev = s.dev := rfl
@[simp] theorem State.modThread_agenda (s : State) (p : Party) (l : Nat) (f : Thread → Thread) : (s.modThread p l f).agenda = s.agenda := rfl
@[simp] theorem State.modThread_slots (s : State) (p : Party) (l : Nat) (f : Thread → Thread) : (s.modThread p l f).slots = s.slots := rfl
@[simp] theorem State.modThread_cur (s : State) (p : Party) (l : Nat) (f : Thread → Thread) : (s.modThread p l f).cur = s.cur := rfl
@[simp] theorem State.modThread_freeCtr (s : State) (p : Party) (l : Nat) (f : Thread → Thread) : (s.modThread p l f).freeCtr = s.freeCtr := rfl
@[simp] theorem State.modThread_clock (s : State) (p : Party) (l : Nat) (f : Thread → Thread) : (s.modThread p l f).clock = s.clock := rfl

/-! ### modCore -/

@[simp] theorem State.modCore_mem (s : State) (c : Nat) (f : Core → Core) : (s.modCore c f).mem = s.mem := rfl
@[simp] theorem State.modCore_teams (s : State) (c : Nat) (f : Core → Core) : (s.modCore c f).teams = s.teams := rfl
@[simp] theorem State.modCore_nextUid (s : State) (c : Nat) (f : Core → Core) : (s.modCore c f).nextUid = s.nextUid := rfl
@[simp] theorem State.modCore_clusters (s : State) (c : Nat) (f : Core → Core) : (s.modCore c f).clusters = s.clusters := rfl
@[simp] theorem State.modCore_dies (s : State) (c : Nat) (f : Core → Core) : (s.modCore c f).dies = s.dies := rfl
@[simp] theorem State.modCore_ctxs (s : State) (c : Nat) (f : Core → Core) : (s.modCore c f).ctxs = s.ctxs := rfl
@[simp] theorem State.modCore_queues (s : State) (c : Nat) (f : Core → Core) : (s.modCore c f).queues = s.queues := rfl
@[simp] theorem State.modCore_dev (s : State) (c : Nat) (f : Core → Core) : (s.modCore c f).dev = s.dev := rfl
@[simp] theorem State.modCore_agenda (s : State) (c : Nat) (f : Core → Core) : (s.modCore c f).agenda = s.agenda := rfl
@[simp] theorem State.modCore_slots (s : State) (c : Nat) (f : Core → Core) : (s.modCore c f).slots = s.slots := rfl
@[simp] theorem State.modCore_cur (s : State) (c : Nat) (f : Core → Core) : (s.modCore c f).cur = s.cur := rfl
@[simp] theorem State.modCore_freeCtr (s : State) (c : Nat) (f : Core → Core) : (s.modCore c f).freeCtr = s.freeCtr := rfl
@[simp] theorem State.modCore_clock (s : State) (c : Nat) (f : Core → Core) : (s.modCore c f).clock = s.clock := rfl

/-! ### modCluster -/

@[simp] theorem State.modCluster_mem (s : State) (c : Nat) (f : Cluster → Cluster) : (s.modCluster c f).mem = s.mem := rfl
@[simp] theorem State.modCluster_teams (s : State) (c : Nat) (f : Cluster → Cluster) : (s.modCluster c f).teams = s.teams := rfl
@[simp] theorem State.modCluster_nextUid (s : State) (c : Nat) (f : Cluster → Cluster) : (s.modCluster c f).nextUid = s.nextUid := rfl
@[simp] theorem State.modCluster_cores (s : State) (c : Nat) (f : Cluster → Cluster) : (s.modCluster c f).cores = s.cores := rfl
@[simp] theorem State.modCluster_dies (s : State) (c : Nat) (f : Cluster → Cluster) : (s.modCluster c f).dies = s.dies := rfl
@[simp] theorem State.modCluster_ctxs (s : State) (c : Nat) (f : Cluster → Cluster) : (s.modCluster c f).ctxs = s.ctxs := rfl
@[simp] theorem State.modCluster_queues (s : State) (c : Nat) (f : Cluster → Cluster) : (s.modCluster c f).queues = s.queues := rfl
@[simp] theorem State.modCluster_dev (s : State) (c : Nat) (f : Cluster → Cluster) : (s.modCluster c f).dev = s.dev := rfl
@[simp] theorem State.modCluster_agenda (s : State) (c : Nat) (f : Cluster → Cluster) : (s.modCluster c f).agenda = s.agenda := rfl
@[simp] theorem State.modCluster_slots (s : State) (c : Nat) (f : Cluster → Cluster) : (s.modCluster c f).slots = s.slots := rfl
@[simp] theorem State.modCluster_cur (s : State) (c : Nat) (f : Cluster → Cluster) : (s.modCluster c f).cur = s.cur := rfl
@[simp] theorem State.modCluster_freeCtr (s : State) (c : Nat) (f : Cluster → Cluster) : (s.modCluster c f).freeCtr = s.freeCtr := rfl
@[simp] theorem State.modCluster_clock (s : State) (c : Nat) (f : Cluster → Cluster) : (s.modCluster c f).clock = s.clock := rfl

/-! ### setCtx -/

@[simp] theorem State.setCtx_mem (s : State) (x : Nat) (c : Context) : (s.setCtx x c).mem = s.mem := rfl
@[simp] theorem State.setCtx_teams (s : State) (x : Nat) (c : Context) : (s.setCtx x c).teams = s.teams := rfl
@[simp] theorem State.setCtx_nextUid (s : State) (x : Nat) (c : Context) : (s.setCtx x c).nextUid = s.nextUid := rfl
@[simp] theorem State.setCtx_cores (s : State) (x : Nat) (c : Context) : (s.setCtx x c).cores = s.cores := rfl
@[simp] theorem State.setCtx_clusters (s : State) (x : Nat) (c : Context) : (s.setCtx x c).clusters = s.clusters := rfl
@[simp] theorem State.setCtx_dies (s : State) (x : Nat) (c : Context) : (s.setCtx x c).dies = s.dies := rfl
@[simp] theorem State.setCtx_queues (s : State) (x : Nat) (c : Context) : (s.setCtx x c).queues = s.queues := rfl
@[simp] theorem State.setCtx_dev (s : State) (x : Nat) (c : Context) : (s.setCtx x c).dev = s.dev := rfl
@[simp] theorem State.setCtx_agenda (s : State) (x : Nat) (c : Context) : (s.setCtx x c).agenda = s.agenda := rfl
@[simp] theorem State.setCtx_slots (s : State) (x : Nat) (c : Context) : (s.setCtx x c).slots = s.slots := rfl
@[simp] theorem State.setCtx_cur (s : State) (x : Nat) (c : Context) : (s.setCtx x c).cur = s.cur := rfl
@[simp] theorem State.setCtx_freeCtr (s : State) (x : Nat) (c : Context) : (s.setCtx x c).freeCtr = s.freeCtr := rfl
@[simp] theorem State.setCtx_clock (s : State) (x : Nat) (c : Context) : (s.setCtx x c).clock = s.clock := rfl

/-! ### modCtx -/

@[simp] theorem State.modCtx_mem (s : State) (x : Nat) (f : Context → Context) : (s.modCtx x f).mem = s.mem := rfl
@[simp] theorem State.modCtx_teams (s : State) (x : Nat) (f : Context → Context) : (s.modCtx x f).teams = s.teams := rfl
@[simp] theorem State.modCtx_nextUid (s : State) (x : Nat) (f : Context → Context) : (s.modCtx x f).nextUid = s.nextUid := rfl
@[simp] theorem State.modCtx_cores (s : State) (x : Nat) (f : Context → Context) : (s.modCtx x f).cores = s.cores := rfl
@[simp] theorem State.modCtx_clusters (s : State) (x : Nat) (f : Context → Context) : (s.modCtx x f).clusters = s.clusters := rfl
@[simp] theorem State.modCtx_dies (s : State) (x : Nat) (f : Context → Context) : (s.modCtx x f).dies = s.dies := rfl
@[simp] theorem State.modCtx_queues (s : State) (x : Nat) (f : Context → Context) : (s.modCtx x f).queues = s.queues := rfl
@[simp] theorem State.modCtx_dev (s : State) (x : Nat) (f : Context → Context) : (s.modCtx x f).dev = s.dev := rfl
@[simp] theorem State.modCtx_agenda (s : State) (x : Nat) (f : Context → Context) : (s.modCtx x f).agenda = s.agenda := rfl
@[simp] theorem State.modCtx_slots (s : State) (x : Nat) (f : Context → Context) : (s.modCtx x f).slots = s.slots := rfl
@[simp] theorem State.modCtx_cur (s : State) (x : Nat) (f : Context → Context) : (s.modCtx x f).cur = s.cur := rfl
@[simp] theorem State.modCtx_freeCtr (s : State) (x : Nat) (f : Context → Context) : (s.modCtx x f).freeCtr = s.freeCtr := rfl
@[simp] theorem State.modCtx_clock (s : State) (x : Nat) (f : Context → Context) : (s.modCtx x f).clock = s.clock := rfl

/-! ### setCreg -/

@[simp] theorem State.setCreg_mem (s : State) (x : Nat) (r : CReg) (v : DWord) : (s.setCreg x r v).mem = s.mem := rfl
@[simp] theorem State.setCreg_teams (s : State) (x : Nat) (r : CReg) (v : DWord) : (s.setCreg x r v).teams = s.teams := rfl
@[simp] theorem State.setCreg_nextUid (s : State) (x : Nat) (r : CReg) (v : DWord) : (s.setCreg x r v).nextUid = s.nextUid := rfl
@[simp] theorem State.setCreg_cores (s : State) (x : Nat) (r : CReg) (v : DWord) : (s.setCreg x r v).cores = s.cores := rfl
@[simp] theorem State.setCreg_clusters (s : State) (x : Nat) (r : CReg) (v : DWord) : (s.setCreg x r v).clusters = s.clusters := rfl
@[simp] theorem State.setCreg_dies (s : State) (x : Nat) (r : CReg) (v : DWord) : (s.setCreg x r v).dies = s.dies := rfl
@[simp] theorem State.setCreg_queues (s : State) (x : Nat) (r : CReg) (v : DWord) : (s.setCreg x r v).queues = s.queues := rfl
@[simp] theorem State.setCreg_dev (s : State) (x : Nat) (r : CReg) (v : DWord) : (s.setCreg x r v).dev = s.dev := rfl
@[simp] theorem State.setCreg_agenda (s : State) (x : Nat) (r : CReg) (v : DWord) : (s.setCreg x r v).agenda = s.agenda := rfl
@[simp] theorem State.setCreg_slots (s : State) (x : Nat) (r : CReg) (v : DWord) : (s.setCreg x r v).slots = s.slots := rfl
@[simp] theorem State.setCreg_cur (s : State) (x : Nat) (r : CReg) (v : DWord) : (s.setCreg x r v).cur = s.cur := rfl
@[simp] theorem State.setCreg_freeCtr (s : State) (x : Nat) (r : CReg) (v : DWord) : (s.setCreg x r v).freeCtr = s.freeCtr := rfl
@[simp] theorem State.setCreg_clock (s : State) (x : Nat) (r : CReg) (v : DWord) : (s.setCreg x r v).clock = s.clock := rfl

/-! ### modLaunch -/

@[simp] theorem State.modLaunch_mem (s : State) (x gen : Nat) (f : Launch → Launch) : (s.modLaunch x gen f).mem = s.mem := rfl
@[simp] theorem State.modLaunch_teams (s : State) (x gen : Nat) (f : Launch → Launch) : (s.modLaunch x gen f).teams = s.teams := rfl
@[simp] theorem State.modLaunch_nextUid (s : State) (x gen : Nat) (f : Launch → Launch) : (s.modLaunch x gen f).nextUid = s.nextUid := rfl
@[simp] theorem State.modLaunch_cores (s : State) (x gen : Nat) (f : Launch → Launch) : (s.modLaunch x gen f).cores = s.cores := rfl
@[simp] theorem State.modLaunch_clusters (s : State) (x gen : Nat) (f : Launch → Launch) : (s.modLaunch x gen f).clusters = s.clusters := rfl
@[simp] theorem State.modLaunch_dies (s : State) (x gen : Nat) (f : Launch → Launch) : (s.modLaunch x gen f).dies = s.dies := rfl
@[simp] theorem State.modLaunch_queues (s : State) (x gen : Nat) (f : Launch → Launch) : (s.modLaunch x gen f).queues = s.queues := rfl
@[simp] theorem State.modLaunch_dev (s : State) (x gen : Nat) (f : Launch → Launch) : (s.modLaunch x gen f).dev = s.dev := rfl
@[simp] theorem State.modLaunch_agenda (s : State) (x gen : Nat) (f : Launch → Launch) : (s.modLaunch x gen f).agenda = s.agenda := rfl
@[simp] theorem State.modLaunch_slots (s : State) (x gen : Nat) (f : Launch → Launch) : (s.modLaunch x gen f).slots = s.slots := rfl
@[simp] theorem State.modLaunch_cur (s : State) (x gen : Nat) (f : Launch → Launch) : (s.modLaunch x gen f).cur = s.cur := rfl
@[simp] theorem State.modLaunch_freeCtr (s : State) (x gen : Nat) (f : Launch → Launch) : (s.modLaunch x gen f).freeCtr = s.freeCtr := rfl
@[simp] theorem State.modLaunch_clock (s : State) (x gen : Nat) (f : Launch → Launch) : (s.modLaunch x gen f).clock = s.clock := rfl

/-! ### modDie -/

@[simp] theorem State.modDie_mem (s : State) (d : Nat) (f : Die → Die) : (s.modDie d f).mem = s.mem := rfl
@[simp] theorem State.modDie_teams (s : State) (d : Nat) (f : Die → Die) : (s.modDie d f).teams = s.teams := rfl
@[simp] theorem State.modDie_nextUid (s : State) (d : Nat) (f : Die → Die) : (s.modDie d f).nextUid = s.nextUid := rfl
@[simp] theorem State.modDie_cores (s : State) (d : Nat) (f : Die → Die) : (s.modDie d f).cores = s.cores := rfl
@[simp] theorem State.modDie_clusters (s : State) (d : Nat) (f : Die → Die) : (s.modDie d f).clusters = s.clusters := rfl
@[simp] theorem State.modDie_ctxs (s : State) (d : Nat) (f : Die → Die) : (s.modDie d f).ctxs = s.ctxs := rfl
@[simp] theorem State.modDie_queues (s : State) (d : Nat) (f : Die → Die) : (s.modDie d f).queues = s.queues := rfl
@[simp] theorem State.modDie_dev (s : State) (d : Nat) (f : Die → Die) : (s.modDie d f).dev = s.dev := rfl
@[simp] theorem State.modDie_agenda (s : State) (d : Nat) (f : Die → Die) : (s.modDie d f).agenda = s.agenda := rfl
@[simp] theorem State.modDie_slots (s : State) (d : Nat) (f : Die → Die) : (s.modDie d f).slots = s.slots := rfl
@[simp] theorem State.modDie_cur (s : State) (d : Nat) (f : Die → Die) : (s.modDie d f).cur = s.cur := rfl
@[simp] theorem State.modDie_freeCtr (s : State) (d : Nat) (f : Die → Die) : (s.modDie d f).freeCtr = s.freeCtr := rfl
@[simp] theorem State.modDie_clock (s : State) (d : Nat) (f : Die → Die) : (s.modDie d f).clock = s.clock := rfl

/-! ### modQueue -/

@[simp] theorem State.modQueue_mem (s : State) (q : Nat) (f : Queue → Queue) : (s.modQueue q f).mem = s.mem := rfl
@[simp] theorem State.modQueue_teams (s : State) (q : Nat) (f : Queue → Queue) : (s.modQueue q f).teams = s.teams := rfl
@[simp] theorem State.modQueue_nextUid (s : State) (q : Nat) (f : Queue → Queue) : (s.modQueue q f).nextUid = s.nextUid := rfl
@[simp] theorem State.modQueue_cores (s : State) (q : Nat) (f : Queue → Queue) : (s.modQueue q f).cores = s.cores := rfl
@[simp] theorem State.modQueue_clusters (s : State) (q : Nat) (f : Queue → Queue) : (s.modQueue q f).clusters = s.clusters := rfl
@[simp] theorem State.modQueue_dies (s : State) (q : Nat) (f : Queue → Queue) : (s.modQueue q f).dies = s.dies := rfl
@[simp] theorem State.modQueue_ctxs (s : State) (q : Nat) (f : Queue → Queue) : (s.modQueue q f).ctxs = s.ctxs := rfl
@[simp] theorem State.modQueue_dev (s : State) (q : Nat) (f : Queue → Queue) : (s.modQueue q f).dev = s.dev := rfl
@[simp] theorem State.modQueue_agenda (s : State) (q : Nat) (f : Queue → Queue) : (s.modQueue q f).agenda = s.agenda := rfl
@[simp] theorem State.modQueue_slots (s : State) (q : Nat) (f : Queue → Queue) : (s.modQueue q f).slots = s.slots := rfl
@[simp] theorem State.modQueue_cur (s : State) (q : Nat) (f : Queue → Queue) : (s.modQueue q f).cur = s.cur := rfl
@[simp] theorem State.modQueue_freeCtr (s : State) (q : Nat) (f : Queue → Queue) : (s.modQueue q f).freeCtr = s.freeCtr := rfl
@[simp] theorem State.modQueue_clock (s : State) (q : Nat) (f : Queue → Queue) : (s.modQueue q f).clock = s.clock := rfl

/-! ### modFn -/

@[simp] theorem State.modFn_mem (s : State) (n : Nat) (f : Function → Function) : (s.modFn n f).mem = s.mem := rfl
@[simp] theorem State.modFn_teams (s : State) (n : Nat) (f : Function → Function) : (s.modFn n f).teams = s.teams := rfl
@[simp] theorem State.modFn_nextUid (s : State) (n : Nat) (f : Function → Function) : (s.modFn n f).nextUid = s.nextUid := rfl
@[simp] theorem State.modFn_cores (s : State) (n : Nat) (f : Function → Function) : (s.modFn n f).cores = s.cores := rfl
@[simp] theorem State.modFn_clusters (s : State) (n : Nat) (f : Function → Function) : (s.modFn n f).clusters = s.clusters := rfl
@[simp] theorem State.modFn_dies (s : State) (n : Nat) (f : Function → Function) : (s.modFn n f).dies = s.dies := rfl
@[simp] theorem State.modFn_ctxs (s : State) (n : Nat) (f : Function → Function) : (s.modFn n f).ctxs = s.ctxs := rfl
@[simp] theorem State.modFn_queues (s : State) (n : Nat) (f : Function → Function) : (s.modFn n f).queues = s.queues := rfl
@[simp] theorem State.modFn_agenda (s : State) (n : Nat) (f : Function → Function) : (s.modFn n f).agenda = s.agenda := rfl
@[simp] theorem State.modFn_slots (s : State) (n : Nat) (f : Function → Function) : (s.modFn n f).slots = s.slots := rfl
@[simp] theorem State.modFn_cur (s : State) (n : Nat) (f : Function → Function) : (s.modFn n f).cur = s.cur := rfl
@[simp] theorem State.modFn_freeCtr (s : State) (n : Nat) (f : Function → Function) : (s.modFn n f).freeCtr = s.freeCtr := rfl
@[simp] theorem State.modFn_clock (s : State) (n : Nat) (f : Function → Function) : (s.modFn n f).clock = s.clock := rfl

/-! ### setDreg -/

@[simp] theorem State.setDreg_mem (s : State) (r : DReg) (v : DWord) : (s.setDreg r v).mem = s.mem := rfl
@[simp] theorem State.setDreg_teams (s : State) (r : DReg) (v : DWord) : (s.setDreg r v).teams = s.teams := rfl
@[simp] theorem State.setDreg_nextUid (s : State) (r : DReg) (v : DWord) : (s.setDreg r v).nextUid = s.nextUid := rfl
@[simp] theorem State.setDreg_cores (s : State) (r : DReg) (v : DWord) : (s.setDreg r v).cores = s.cores := rfl
@[simp] theorem State.setDreg_clusters (s : State) (r : DReg) (v : DWord) : (s.setDreg r v).clusters = s.clusters := rfl
@[simp] theorem State.setDreg_dies (s : State) (r : DReg) (v : DWord) : (s.setDreg r v).dies = s.dies := rfl
@[simp] theorem State.setDreg_ctxs (s : State) (r : DReg) (v : DWord) : (s.setDreg r v).ctxs = s.ctxs := rfl
@[simp] theorem State.setDreg_queues (s : State) (r : DReg) (v : DWord) : (s.setDreg r v).queues = s.queues := rfl
@[simp] theorem State.setDreg_agenda (s : State) (r : DReg) (v : DWord) : (s.setDreg r v).agenda = s.agenda := rfl
@[simp] theorem State.setDreg_slots (s : State) (r : DReg) (v : DWord) : (s.setDreg r v).slots = s.slots := rfl
@[simp] theorem State.setDreg_cur (s : State) (r : DReg) (v : DWord) : (s.setDreg r v).cur = s.cur := rfl
@[simp] theorem State.setDreg_freeCtr (s : State) (r : DReg) (v : DWord) : (s.setDreg r v).freeCtr = s.freeCtr := rfl
@[simp] theorem State.setDreg_clock (s : State) (r : DReg) (v : DWord) : (s.setDreg r v).clock = s.clock := rfl

/-! ### msix -/

@[simp] theorem State.msix_mem (s : State) (fn v : Nat) : (s.msix fn v).mem = s.mem := rfl
@[simp] theorem State.msix_teams (s : State) (fn v : Nat) : (s.msix fn v).teams = s.teams := rfl
@[simp] theorem State.msix_nextUid (s : State) (fn v : Nat) : (s.msix fn v).nextUid = s.nextUid := rfl
@[simp] theorem State.msix_cores (s : State) (fn v : Nat) : (s.msix fn v).cores = s.cores := rfl
@[simp] theorem State.msix_clusters (s : State) (fn v : Nat) : (s.msix fn v).clusters = s.clusters := rfl
@[simp] theorem State.msix_dies (s : State) (fn v : Nat) : (s.msix fn v).dies = s.dies := rfl
@[simp] theorem State.msix_ctxs (s : State) (fn v : Nat) : (s.msix fn v).ctxs = s.ctxs := rfl
@[simp] theorem State.msix_queues (s : State) (fn v : Nat) : (s.msix fn v).queues = s.queues := rfl
@[simp] theorem State.msix_agenda (s : State) (fn v : Nat) : (s.msix fn v).agenda = s.agenda := rfl
@[simp] theorem State.msix_slots (s : State) (fn v : Nat) : (s.msix fn v).slots = s.slots := rfl
@[simp] theorem State.msix_cur (s : State) (fn v : Nat) : (s.msix fn v).cur = s.cur := rfl
@[simp] theorem State.msix_freeCtr (s : State) (fn v : Nat) : (s.msix fn v).freeCtr = s.freeCtr := rfl
@[simp] theorem State.msix_clock (s : State) (fn v : Nat) : (s.msix fn v).clock = s.clock := rfl

/-! ### due -/

@[simp] theorem State.due_mem (s : State) (i : Instr) : (s.due i).mem = s.mem := rfl
@[simp] theorem State.due_teams (s : State) (i : Instr) : (s.due i).teams = s.teams := rfl
@[simp] theorem State.due_nextUid (s : State) (i : Instr) : (s.due i).nextUid = s.nextUid := rfl
@[simp] theorem State.due_cores (s : State) (i : Instr) : (s.due i).cores = s.cores := rfl
@[simp] theorem State.due_clusters (s : State) (i : Instr) : (s.due i).clusters = s.clusters := rfl
@[simp] theorem State.due_dies (s : State) (i : Instr) : (s.due i).dies = s.dies := rfl
@[simp] theorem State.due_ctxs (s : State) (i : Instr) : (s.due i).ctxs = s.ctxs := rfl
@[simp] theorem State.due_queues (s : State) (i : Instr) : (s.due i).queues = s.queues := rfl
@[simp] theorem State.due_dev (s : State) (i : Instr) : (s.due i).dev = s.dev := rfl
@[simp] theorem State.due_slots (s : State) (i : Instr) : (s.due i).slots = s.slots := rfl
@[simp] theorem State.due_cur (s : State) (i : Instr) : (s.due i).cur = s.cur := rfl
@[simp] theorem State.due_freeCtr (s : State) (i : Instr) : (s.due i).freeCtr = s.freeCtr := rfl
@[simp] theorem State.due_clock (s : State) (i : Instr) : (s.due i).clock = s.clock := rfl

/-! ## Teams, parties and threads -/

theorem State.team_modTeam_ne (s : State) (u v : Nat) (f : Team → Team) (hf : ∀ t, (f t).id.uid = t.id.uid) (h : v ≠ u) :
    (s.modTeam u f).team v = s.team v := by
  simp only [State.team, State.team?, State.modTeam, List.find?_map]
  have e : ((fun t : Team => t.id.uid == v) ∘ fun t => if t.id.uid = u then f t else t) = fun t => t.id.uid == v := by
    funext t
    simp only [Function.comp_apply]
    split <;> simp [hf]
  rw [e]
  cases hs : s.teams.find? fun t => t.id.uid == v with
  | none => rfl
  | some t =>
    have : t.id.uid = v := by simpa using List.find?_some hs
    simp [this, h]
theorem State.team_modTeam_same (s : State) (u : Nat) (f : Team → Team) (hf : ∀ t, (f t).id.uid = t.id.uid) (h : (s.team? u).isSome = true) :
    (s.modTeam u f).team u = f (s.team u) := by
  simp only [State.team, State.team?, State.modTeam, List.find?_map] at h ⊢
  have e : ((fun t : Team => t.id.uid == u) ∘ fun t => if t.id.uid = u then f t else t) = fun t => t.id.uid == u := by
    funext t
    simp only [Function.comp_apply]
    split <;> simp [hf]
  rw [e]
  obtain ⟨t, ht⟩ := Option.isSome_iff_exists.mp h
  have : t.id.uid = u := by simpa using List.find?_some ht
  simp [ht, this]
theorem State.team?_modTeam (s : State) (u v : Nat) (f : Team → Team) (hf : ∀ t, (f t).id.uid = t.id.uid) :
    ((s.modTeam u f).team? v).isSome = (s.team? v).isSome := by
  simp only [State.team?, State.modTeam, List.find?_map, Option.isSome_map]
  congr 1
  congr 1
  funext t
  simp only [Function.comp_apply]
  split <;> simp [hf]

/-- A party that runs a path belongs to a team of the machine. -/
theorem State.team_of_run {s : State} {p : Party} {r : Run} (h : (s.group p).run = some r) : (s.team? p.team).isSome = true := by
  cases e : s.team? p.team with
  | some t => rfl
  | none =>
    exfalso
    simp only [State.group, State.team, e, Option.getD_none] at h
    cases hp : p.mem <;> rw [hp] at h <;> simp [Team.member, show (default : Team) = {} from rfl, show (default : Group) = {} from rfl] at h

theorem Team.modMember_id (t : Team) (m : Member) (f : Group → Group) : (t.modMember m f).id = t.id := by cases m <;> rfl

theorem find_role (l : List Group) (f : Group → Group) (hf : ∀ g, (f g).role = g.role) (r q : Nat) :
    (l.map fun g => if g.role = r then f g else g).find? (fun g => g.role == q) =
      (l.find? fun g => g.role == q).map fun g => if g.role = r then f g else g := by
  rw [List.find?_map]
  congr 1
  congr 1
  funext g
  simp only [Function.comp_apply]
  split <;> simp [hf]
/-- The member that a change of a member gives, when the member exists. -/
theorem Team.member_modMember_same (t : Team) (m : Member) (f : Group → Group) (hf : ∀ g, (f g).role = g.role) (h : t.has m = true) :
    (t.modMember m f).member m = f (t.member m) := by
  cases m with
  | group i =>
    have hi : i < t.groups.length := by simpa [Team.has] using h
    simp [Team.member, Team.modMember, List.getD_eq_getElem?_getD, hi]
  | engine r =>
    simp only [Team.member, Team.modMember, Team.has, find_role _ _ hf] at h ⊢
    obtain ⟨g, hg⟩ := Option.isSome_iff_exists.mp h
    have : g.role = r := by simpa using List.find?_some hg
    simp [hg, this]
theorem Team.member_modMember_ne (t : Team) (m n : Member) (f : Group → Group) (hf : ∀ g, (f g).role = g.role) (h : n ≠ m) :
    (t.modMember m f).member n = t.member n := by
  cases m with
  | group i =>
    cases n with
    | group j =>
      have : i ≠ j := fun e => h (by rw [e])
      simp [Team.member, Team.modMember, List.getD_eq_getElem?_getD, this]
    | engine r => rfl
  | engine r =>
    cases n with
    | group j => rfl
    | engine q =>
      have hq : q ≠ r := fun e => h (by rw [e])
      simp only [Team.member, Team.modMember, find_role _ _ hf]
      cases hs : t.engines.find? fun g => g.role == q with
      | none => rfl
      | some g =>
        have : g.role = q := by simpa using List.find?_some hs
        simp [this, hq]
theorem Team.has_modMember (t : Team) (m n : Member) (f : Group → Group) (hf : ∀ g, (f g).role = g.role) :
    (t.modMember m f).has n = t.has n := by
  cases m with
  | group i => cases n <;> simp [Team.has, Team.modMember]
  | engine r =>
    cases n with
    | group j => rfl
    | engine q => simp only [Team.has, Team.modMember, find_role _ _ hf, Option.isSome_map]

/-- A party that runs a path belongs to the machine. -/
theorem State.has_of_run {s : State} {p : Party} (h : (s.group p).run.isSome = true) : s.has p = true := by
  obtain ⟨r, hr⟩ := Option.isSome_iff_exists.mp h
  simp only [State.has, State.team_of_run hr, Bool.true_and]
  simp only [State.group] at h
  cases hm : p.mem with
  | group i =>
    rw [hm] at h
    simp only [Team.member, Team.has, decide_eq_true_eq] at h ⊢
    by_cases hi : i < (s.team p.team).groups.length
    · exact hi
    · rw [List.getD_eq_getElem?_getD, List.getElem?_eq_none (by omega)] at h
      cases h
  | engine r =>
    rw [hm] at h
    simp only [Team.member, Team.has] at h ⊢
    cases hs : (s.team p.team).engines.find? fun g => g.role == r with
    | none => rw [hs] at h; cases h
    | some g => rfl
theorem State.has_modGroup (s : State) (p q : Party) (f : Group → Group) (hf : ∀ g, (f g).role = g.role) :
    (s.modGroup p f).has q = s.has q := by
  have hu : ∀ t : Team, (t.modMember p.mem f).id.uid = t.id.uid := fun t => by rw [Team.modMember_id]
  simp only [State.has, State.modGroup, State.team?_modTeam _ _ _ _ hu]
  by_cases e : q.team = p.team
  · cases h : (s.team? q.team).isSome with
    | false => rfl
    | true => rw [e, State.team_modTeam_same _ _ _ hu (by rw [← e]; exact h), Team.has_modMember _ _ _ _ hf]
  · rw [State.team_modTeam_ne _ _ _ _ hu e]
/-- A change of a party, read at that party. -/
theorem State.group_modGroup_same (s : State) (p : Party) (f : Group → Group) (hf : ∀ g, (f g).role = g.role) (h : s.has p = true) :
    (s.modGroup p f).group p = f (s.group p) := by
  simp only [State.has, Bool.and_eq_true] at h
  simp only [State.group, State.modGroup]
  rw [State.team_modTeam_same _ _ _ (fun t => by rw [Team.modMember_id]) h.1]
  exact Team.member_modMember_same _ _ _ hf h.2
/-- A change of a party, read at another. -/
theorem State.group_modGroup_ne (s : State) (p q : Party) (f : Group → Group) (hf : ∀ g, (f g).role = g.role) (h : q ≠ p) :
    (s.modGroup p f).group q = s.group q := by
  simp only [State.group, State.modGroup]
  by_cases e : q.team = p.team
  · cases ht : s.team? q.team with
    | none =>
      have : ((s.modTeam p.team fun t => t.modMember p.mem f).team? q.team).isSome = false := by
        rw [State.team?_modTeam _ _ _ _ (fun t => by rw [Team.modMember_id]), ht]; rfl
      simp only [State.team, ht]
      rw [Option.isNone_iff_eq_none.mp (Option.isSome_eq_false_iff.mp this)]
    | some t =>
      rw [e, State.team_modTeam_same _ _ _ (fun t => by rw [Team.modMember_id]) (by rw [← e, ht]; rfl)]
      refine Team.member_modMember_ne _ _ _ _ hf ?_
      intro hm
      exact h (by cases p; cases q; simp_all)
  · rw [State.team_modTeam_ne _ _ _ _ (fun t => by rw [Team.modMember_id]) e]

/-- A change of one thread, read at a thread of the same party. -/
theorem State.thread_modThread (s : State) (p : Party) (l k : Nat) (f : Thread → Thread) (h : s.has p = true) (hl : l < 32) :
    (s.modThread p l f).thread p k = if l = k then f (s.thread p l) else s.thread p k := by
  have e := State.group_modGroup_same s p (fun g => { g with threads := vmod g.threads l f }) (fun _ => rfl) h
  simp only [State.thread, State.modThread, e]
  exact vget_vmod _ _ _ _ hl
theorem State.has_modThread (s : State) (p q : Party) (l : Nat) (f : Thread → Thread) : (s.modThread p l f).has q = s.has q :=
  State.has_modGroup s p q (fun g => { g with threads := vmod g.threads l f }) (fun _ => rfl)
/-- A change of one thread leaves the rest of its party. -/
theorem State.group_modThread (s : State) (p : Party) (l : Nat) (f : Thread → Thread) (h : s.has p = true) :
    (s.modThread p l f).group p = { s.group p with threads := vmod (s.group p).threads l f } :=
  State.group_modGroup_same s p (fun g => { g with threads := vmod g.threads l f }) (fun _ => rfl) h

end Sys2Proof.Machine
end

