-- ==== Sys2Proof/Laws/Lanes.lean ====
section
/-!
SUPPORT. What instructions that compute in each lane leave alone, said once: `Local` composes, the parts of such an instruction are each local,
and what they do to a thread.
-/
namespace Sys2Proof.Machine

theorem Local.refl (s : State) : Local s s := ⟨rfl, fun _ => rfl, fun _ _ => rfl, rfl, fun _ _ => rfl, rfl⟩
theorem Local.cur {s t : State} (h : Local s t) : t.cur = s.cur := by rw [h.machine]
theorem Local.trans {a b c : State} (h : Local a b) (k : Local b c) : Local a c := by
  have e := h.cur
  refine ⟨?_, fun d => ?_, fun u hu => ?_, ?_, fun m hm => ?_, ?_⟩
  · rw [k.machine, h.machine]
  · rw [k.times d, h.times d]
  · rw [k.teams u (by rwa [e]), h.teams u hu]
  · have := k.team
    rw [e] at this
    rw [this, h.team]
  · have := k.parties m (by rwa [e])
    rw [e] at this
    rw [this, h.parties m hm]
  · have := k.party
    rw [e] at this
    rw [this, h.party]

/-- A change of the running party's group that keeps what `Local` says it keeps. -/
theorem Local.modGroup (s : State) (h : s.has s.cur = true) (f : Group → Group)
    (hf : ∀ g, f g = { g with threads := (f g).threads, run := (f g).run, blocked := (f g).blocked, yield := (f g).yield, age := (f g).age }) :
    Local s (s.modGroup s.cur f) := by
  have hr : ∀ g, (f g).role = g.role := fun g => by rw [hf g]
  have hu : ∀ t : Team, (t.modMember s.cur.mem f).id.uid = t.id.uid := fun t => by rw [Team.modMember_id]
  have hs : (s.team? s.cur.team).isSome = true := by simp only [State.has, Bool.and_eq_true] at h; exact h.1
  refine ⟨rfl, fun _ => rfl, fun u hn => State.team_modTeam_ne _ _ _ _ hu hn, ?_, fun m hm => ?_, ?_⟩
  · show (s.modTeam s.cur.team _).team s.cur.team = _
    rw [State.modGroup, State.team_modTeam_same _ _ _ hu hs]
    cases s.cur.mem <;> rfl
  · rw [State.modGroup, State.team_modTeam_same _ _ _ hu hs]
    exact Team.member_modMember_ne _ _ _ _ hr hm
  · rw [State.group_modGroup_same _ _ _ hr h]
    exact hf _
theorem Local.modThread (s : State) (h : s.has s.cur = true) (l : Nat) (f : Thread → Thread) : Local s (s.modThread s.cur l f) :=
  Local.modGroup s h (fun g => { g with threads := vmod g.threads l f }) fun _ => rfl
/-- Event counts are no part of the frame. -/
theorem Local.perfAdd (s : State) (h : s.has s.cur = true) (k n : Nat) : Local s (s.perfAdd s.cur.team k n) := by
  have hs : (s.team? s.cur.team).isSome = true := by simp only [State.has, Bool.and_eq_true] at h; exact h.1
  have e := State.team_modTeam_same s s.cur.team (fun t => { t with regs := { t.regs with perf := vmod t.regs.perf k (· + n) } }) (fun _ => rfl) hs
  have m : ∀ m, ((s.perfAdd s.cur.team k n).team s.cur.team).member m = (s.team s.cur.team).member m := fun m => by
    rw [State.perfAdd, e]; cases m <;> rfl
  refine ⟨rfl, fun _ => rfl, fun u hn => State.team_modTeam_ne _ _ _ _ (fun _ => rfl) hn, ?_, fun k' _ => m k', ?_⟩
  · rw [State.perfAdd, e]
  · rw [show (s.perfAdd s.cur.team k n).group s.cur = s.group s.cur from m s.cur.mem]
theorem State.perfAdd_group (s : State) (p : Party) (k n : Nat) (h : (s.team? p.team).isSome = true) : (s.perfAdd p.team k n).group p = s.group p := by
  have e := State.team_modTeam_same s p.team (fun t => { t with regs := { t.regs with perf := vmod t.regs.perf k (· + n) } }) (fun _ => rfl) h
  simp only [State.group, State.perfAdd, e]
  cases p.mem <;> rfl
theorem State.has_perfAdd (s : State) (p q : Party) (k n : Nat) (h : (s.team? p.team).isSome = true) : (s.perfAdd p.team k n).has q = s.has q := by
  have e := State.team_modTeam_same s p.team (fun t => { t with regs := { t.regs with perf := vmod t.regs.perf k (· + n) } }) (fun _ => rfl) h
  simp only [State.has, State.perfAdd, State.team?_modTeam _ _ _ _ (fun t => (rfl : ({ t with regs := { t.regs with perf := vmod t.regs.perf k (· + n) } } : Team).id.uid = t.id.uid))]
  by_cases hq : q.team = p.team
  · rw [hq, e]; cases q.mem <;> rfl
  · have ne := State.team_modTeam_ne s p.team q.team (fun t => { t with regs := { t.regs with perf := vmod t.regs.perf k (· + n) } }) (fun _ => rfl) hq
    simp only [ne]
/-- Remembering `$time` changes one field of one die. -/
theorem Local.noteTime (s : State) (v : View) (lanes : List Nat) : Local s (s.noteTime s.cur v lanes) := by
  rw [State.noteTime]
  split
  · refine ⟨rfl, fun d => ?_, fun _ _ => rfl, rfl, fun _ _ => rfl, rfl⟩
    by_cases hd : (s.team s.cur.team).id.cluster / 3 = d
    · subst hd
      by_cases h6 : (s.team s.cur.team).id.cluster / 3 < 6
      · rw [vget_vmod_same _ _ _ h6]
      · simp only [vget, vmod, vset]
        rw [Vector.getElem?_eq_none (by omega), Vector.getElem?_eq_none (by omega)]
    · rw [vget_vmod_ne _ _ _ _ hd]
  · exact Local.refl s
/-- With sources that are read without waiting and a destination that a thread holds, no field names a queue register. -/
theorem still_fields {v : View} (ha : Operand.still v.a = true) (hb : Operand.still v.b = true) (hc : Operand.still v.c = true)
    (hd : Operand.own v.dst = true) : v.fields.any (·.o.isQ) = false := by
  rw [List.any_eq_false]
  intro f hf
  have h : f.o = v.dst ∨ f.o = v.a ∨ f.o = v.b ∨ f.o = v.c := by
    have mk : ∀ {no : Nat} {k : Kind} {o : Operand} {d : Bool}, f ∈ (match k with
        | .num _ | .off | .zero | .tyc _ | .unused => ([] : List Field)
        | k => if o.isNone || o.isLit then [] else [{ no, o, wide := Kind.wide k, dst := d, regs := Kind.regs k, tag := k == Kind.ctag }]) → f.o = o := by
      intro no k o d h
      split at h
      all_goals first | (cases h; done) | skip
      split at h
      · cases h
      · rw [List.mem_singleton] at h; rw [h]
    simp only [View.fields, List.mem_append] at hf
    rcases hf with (((h | h) | h) | h) | h
    · exact .inl (mk h)
    · split at h
      · exact .inl (mk h)
      · cases h
    · exact .inr (.inl (mk h))
    · exact .inr (.inr (.inl (mk h)))
    · exact .inr (.inr (.inr (mk h)))
  have q : ∀ o : Operand, Operand.still o = true → o.isQ = false := fun o h => by cases o <;> first | rfl | (simp [Operand.still] at h)
  have d : Operand.still v.dst = true := by cases e : v.dst <;> first | rfl | (rw [e] at hd; simp [Operand.own] at hd)
  rcases h with h | h | h | h <;> rw [h, q _ (by assumption)] <;> simp
/-- An instruction whose operands are no queue registers pops none. -/
theorem still_plain {v : View} (ha : Operand.still v.a = true) (hb : Operand.still v.b = true) (hc : Operand.still v.c = true)
    (hd : Operand.own v.dst = true) : queueForm v = false := by
  simp only [queueForm, still_fields ha hb hc hd, Bool.and_false]
/-- And its path goes on at once. -/
theorem still_leave {v : View} (ha : Operand.still v.a = true) (hb : Operand.still v.b = true) (hc : Operand.still v.c = true)
    (hd : Operand.own v.dst = true) (s : State) (p : Party) : s.leave p v = s.advance p [] [] := by
  have k := still_fields ha hb hc hd
  have q : queueDst v = false := by
    simp only [queueDst, List.any_eq_false, Bool.and_eq_true, not_and, List.any_eq_false] at k ⊢
    exact fun f hf _ => k f hf
  simp only [State.leave, q, Bool.false_and, Bool.false_eq_true, if_false]
theorem begun_local (s : State) (i : Instr) (h : queueForm i.fv = false) : Local s (s.begun i) := by
  rw [begun_plain s i h]; exact Local.noteTime s _ _
theorem begun_teams (s : State) (i : Instr) (h : queueForm i.fv = false) : (s.begun i).teams = s.teams := by
  rw [begun_plain s i h]
  simp only [State.noteTime]; split <;> rfl
theorem begun_has (s : State) (i : Instr) (h : queueForm i.fv = false) (p : Party) : (s.begun i).has p = s.has p := by
  simp only [State.has, State.team?, State.team, begun_teams s i h]
theorem begun_thread (s : State) (i : Instr) (h : queueForm i.fv = false) (p : Party) (l : Nat) : (s.begun i).thread p l = s.thread p l := by
  simp only [State.thread, State.group, State.team, State.team?, begun_teams s i h]
theorem acts_has {s : State} {i : Instr} (h : s.acts i = true) : s.has s.cur = true :=
  State.has_of_run (by rw [acts_run h]; rfl)

/-! ## Folds over lanes -/

theorem run_modThread (s : State) (p : Party) (l : Nat) (f : Thread → Thread) (h : s.has p = true) :
    ((s.modThread p l f).group p).run = (s.group p).run := by rw [State.group_modThread s p l f h]
/-- Changes of threads, one lane after another. -/
theorem Local.foldThreads {β : Type} (l : List (Nat × β)) (f : β → Thread → Thread) (s : State) (p : Party) (hp : s.cur = p) (h : s.has p = true) :
    Local s (l.foldl (fun s r => s.modThread p r.1 (f r.2)) s) ∧ (l.foldl (fun s r => s.modThread p r.1 (f r.2)) s).has p = true ∧
      ((l.foldl (fun s r => s.modThread p r.1 (f r.2)) s).group p).run = (s.group p).run := by
  subst hp
  induction l generalizing s with
  | nil => exact ⟨Local.refl s, h, rfl⟩
  | cons a l ih =>
    have k := ih (s.modThread s.cur a.1 (f a.2)) (by rw [show (s.modThread s.cur a.1 (f a.2)).cur = s.cur from rfl, State.has_modThread]; exact h)
    exact ⟨(Local.modThread s h a.1 (f a.2)).trans k.1, k.2.1, k.2.2.trans (run_modThread s _ a.1 (f a.2) h)⟩
/-- With each lane at most once, the thread of a listed lane takes its change and the others stay. -/
theorem thread_foldThreads {β : Type} (l : List (Nat × β)) (f : β → Thread → Thread) (s : State) (p : Party) (h : s.has p = true)
    (hl : ∀ a ∈ l, a.1 < 32) (hn : (l.map (·.1)).Nodup) (k : Nat) :
    (l.foldl (fun s r => s.modThread p r.1 (f r.2)) s).thread p k =
      match l.find? (fun a => a.1 == k) with | some a => f a.2 (s.thread p k) | none => s.thread p k := by
  induction l generalizing s with
  | nil => rfl
  | cons a l ih =>
    rw [List.map_cons, List.nodup_cons] at hn
    rw [List.foldl_cons, ih (s.modThread p a.1 (f a.2)) (by rw [State.has_modThread]; exact h) (fun b hb => hl b (List.mem_cons_of_mem _ hb)) hn.2]
    rw [State.thread_modThread s p a.1 k (f a.2) h (hl a List.mem_cons_self)]
    by_cases e : a.1 = k
    · have : l.find? (fun b => b.1 == k) = none := by
        rw [List.find?_eq_none]
        intro b hb hk
        exact hn.1 (List.mem_map.mpr ⟨b, hb, by rw [e]; simpa using hk⟩)
      simp [this, e]
    · simp [e]

/-! ## The lanes of an issue group -/

theorem bitsOf_lt {w : Nat} (x : BitVec w) (l : Nat) (h : l ∈ bitsOf x) : l < w := by
  simp only [bitsOf, List.mem_filter, List.mem_range] at h; exact h.1
theorem bitsOf_nodup {w : Nat} (x : BitVec w) : (bitsOf x).Nodup := List.Pairwise.filter _ List.nodup_range
theorem acting_lt {s : State} {i : Instr} {l : Nat} (h : l ∈ s.acting i) : l < 32 := by
  simp only [State.acting, List.mem_filter] at h; exact bitsOf_lt _ _ h.1
theorem acting_nodup (s : State) (i : Instr) : (s.acting i).Nodup := List.Pairwise.filter _ (bitsOf_nodup _)

/-! ## Results in general registers -/

/-- Flags raised in lanes. -/
theorem raised_local (s : State) (h : s.has s.cur = true) (fl : List (Nat × BitVec 5)) :
    Local s (s.raised s.cur fl) ∧ (s.raised s.cur fl).has s.cur = true ∧ ((s.raised s.cur fl).group s.cur).run = (s.group s.cur).run := by
  induction fl generalizing s with
  | nil => exact ⟨Local.refl s, h, rfl⟩
  | cons a l ih =>
    simp only [State.raised, List.foldl_cons]
    by_cases e : (a.2 == 0#5) = true
    · rw [if_pos e]; exact ih s h
    · rw [if_neg e]
      have k := ih (s.modThread s.cur a.1 (·.raise a.2)) (by rw [show (s.modThread s.cur a.1 (·.raise a.2)).cur = s.cur from rfl, State.has_modThread]; exact h)
      exact ⟨(Local.modThread s h a.1 (·.raise a.2)).trans k.1, k.2.1, k.2.2.trans (run_modThread s _ a.1 (·.raise a.2) h)⟩
theorem raise_zero (t : Thread) : t.raise 0#5 = t := by
  simp only [Thread.raise]; split <;> simp
theorem raised_thread (fl : List (Nat × BitVec 5)) (s : State) (p : Party) (h : s.has p = true) (hl : ∀ a ∈ fl, a.1 < 32)
    (hn : (fl.map (·.1)).Nodup) (k : Nat) :
    (s.raised p fl).thread p k = match fl.find? (fun a => a.1 == k) with | some a => (s.thread p k).raise a.2 | none => s.thread p k := by
  induction fl generalizing s with
  | nil => rfl
  | cons a l ih =>
    rw [List.map_cons, List.nodup_cons] at hn
    have miss : a.1 = k → l.find? (fun b => b.1 == k) = none := fun e => by
      rw [List.find?_eq_none]
      intro b hb hk
      exact hn.1 (List.mem_map.mpr ⟨b, hb, by rw [e]; simpa using hk⟩)
    simp only [State.raised, List.foldl_cons]
    by_cases z : (a.2 == 0#5) = true
    · rw [if_pos z]
      refine (ih s h (fun b hb => hl b (List.mem_cons_of_mem _ hb)) hn.2).trans ?_
      by_cases e : a.1 = k
      · have hz : a.2 = 0#5 := by simpa using z
        simp [miss e, e, hz, raise_zero]
      · simp [e]
    · rw [if_neg z]
      refine (ih (s.modThread p a.1 (·.raise a.2)) (by rw [State.has_modThread]; exact h) (fun b hb => hl b (List.mem_cons_of_mem _ hb)) hn.2).trans ?_
      rw [State.thread_modThread s p a.1 k _ h (hl a List.mem_cons_self)]
      by_cases e : a.1 = k
      · simp [miss e, e]
      · simp [e]

theorem writeOp_own (s : State) (p : Party) (l : Nat) (wide : Bool) (o : Operand) (v : DWord) (h : Operand.own o = true) (hn : o ≠ .none) :
    s.writeOp p l wide o v = s.modThread p l (·.put o wide v) := by
  cases o <;> first | (exact absurd rfl hn) | rfl | (simp [Operand.own] at h; done)
theorem put_none (t : Thread) (wide : Bool) (v : DWord) : t.put .none wide v = t := rfl
theorem storeField_own (s : State) (p : Party) (wide : Bool) (o : Operand) (vals : List (Nat × DWord)) (h : Operand.own o = true) :
    s.storeField p wide o vals = (if o = .none then s else vals.foldl (fun s v => s.modThread p v.1 (·.put o wide v.2)) s, true) := by
  have e : s.storeField p wide o vals = (vals.foldl (fun s v => s.writeOp p v.1 wide o v.2) s, true) := by
    cases o <;> first | rfl | (simp [Operand.own] at h)
  rw [e]
  by_cases hn : o = .none
  · subst hn
    rw [if_pos rfl]
    congr 1
    clear e
    induction vals with
    | nil => rfl
    | cons a l ih => exact ih
  · rw [if_neg hn]
    congr 1
    clear e
    induction vals generalizing s with
    | nil => rfl
    | cons a l ih => rw [List.foldl_cons, List.foldl_cons, writeOp_own _ _ _ _ _ _ h hn, ih]

/-! ## Leaving the instruction -/

theorem tally_local (s : State) (h : s.has s.cur = true) (n : Nat) : Local s (s.tally s.cur n) ∧ (s.tally s.cur n).has s.cur = true ∧
    (s.tally s.cur n).group s.cur = s.group s.cur := by
  have hs : (s.team? s.cur.team).isSome = true := by simp only [State.has, Bool.and_eq_true] at h; exact h.1
  have h1 := State.has_perfAdd s s.cur s.cur 1 1 hs
  have hs1 : ((s.perfAdd s.cur.team 1 1).team? s.cur.team).isSome = true := by
    rw [h] at h1; simp only [State.has, Bool.and_eq_true] at h1; exact h1.1
  refine ⟨(Local.perfAdd s h 1 1).trans (Local.perfAdd _ (h1.trans h) 2 n), ?_, ?_⟩
  · exact (State.has_perfAdd _ s.cur s.cur 2 n hs1).trans (h1.trans h)
  · exact (State.perfAdd_group _ s.cur 2 n hs1).trans (State.perfAdd_group s s.cur 1 1 hs)
/-- Moving on changes places only, unless the clause asks for the trap fence. -/
theorem advance_local (s : State) (h : s.has s.cur = true) (r : Run) (hr : (s.group s.cur).run = some r)
    (hf : (r.last && (headerOf r.hword).f) = false) (dest : List (Nat × Spot)) :
    Local s (s.advance s.cur [] dest) ∧ ∀ l, Thread.Moved (s.thread s.cur l) ((s.advance s.cur [] dest).thread s.cur l) := by
  simp only [State.advance, hr, hf, Bool.false_eq_true, if_false]
  refine ⟨Local.modGroup s h _ fun _ => rfl, fun l => ?_⟩
  simp only [State.thread]
  rw [State.group_modGroup_same s s.cur _ ?_ h]
  · generalize (bitsOf r.lanes).filter _ = move
    generalize (s.group s.cur).threads = ts
    induction move generalizing ts with
    | nil => rfl
    | cons a m ih =>
      rw [List.foldl_cons]
      refine Eq.trans (ih _) ?_
      by_cases e : a = l
      · subst e
        by_cases ha : a < 32
        · rw [vget_vmod_same _ _ _ ha]
        · rw [vmod, vset_out _ _ _ (by omega)]
      · rw [vget_vmod_ne _ _ _ _ e]
  · intro _; rfl

/-! ## The whole of an instruction that computes in each lane -/

theorem fetch_still (s : State) (p : Party) (lanes : List Nat) (wide : Bool) (o : Operand) (h : Operand.still o = true) :
    s.fetchField p lanes wide o = some (lanes.map fun l => (l, s.readOp p l wide o), s) := by
  cases o <;> first | rfl | (simp [Operand.still] at h; done)
theorem laneVal_map (lanes : List Nat) (f : Nat → DWord) (l : Nat) (h : l ∈ lanes) : laneVal (lanes.map fun l => (l, f l)) l = f l := by
  induction lanes with
  | nil => cases h
  | cons a m ih =>
    simp only [laneVal, List.map_cons, List.find?_cons]
    by_cases e : a = l
    · subst e; simp
    · rw [show (a == l) = false by simpa using e]
      have hm : l ∈ m := by
        rcases List.mem_cons.mp h with h | h
        · exact absurd h.symm e
        · exact h
      exact ih hm
/-- With no queue register among its sources, the lanes read what `srcs` says and the state stays. -/
theorem sources_still (s : State) (i : Instr) (ha : Operand.still i.fv.a = true) (hb : Operand.still i.fv.b = true) (hc : Operand.still i.fv.c = true) :
    ∃ src : Src, (s.begun i).sources s.cur i.fv (s.acting i) = some (src, s.begun i) ∧ ∀ l ∈ s.acting i, src l = s.srcs i l := by
  refine ⟨_, by simp only [State.sources, fetch_still _ _ _ _ _ ha, fetch_still _ _ _ _ _ hb, fetch_still _ _ _ _ _ hc]; rfl, fun l hl => ?_⟩
  simp only [laneVal_map _ _ _ hl, State.srcs]

theorem find_lane {β : Type} (lanes : List Nat) (f : Nat → β) (k : Nat) :
    (lanes.map fun l => (l, f l)).find? (fun a => a.1 == k) = if k ∈ lanes then some (k, f k) else none := by
  induction lanes with
  | nil => rfl
  | cons a m ih =>
    simp only [List.map_cons, List.find?_cons]
    by_cases e : a = k
    · subst e; simp
    · rw [show (a == k) = false by simpa using e]
      simp only [ih, List.mem_cons]
      by_cases hk : k ∈ m
      · simp [hk]
      · simp [hk, show ¬ k = a from fun h => e h.symm]
/-- Every acting lane gets its result and its flags and nothing else; the other lanes, the other parties and the rest of the machine are as
before. -/
theorem computed_frame {s : State} {i : Instr} (h : s.acts i = true) (f : Src → Nat → DWord × BitVec 5)
    (ha : Operand.still i.fv.a = true) (hb : Operand.still i.fv.b = true) (hc : Operand.still i.fv.c = true) (hd : Operand.own i.fv.dst = true)
    (hf : s.fenced = false) :
    ∃ src : Src, (∀ l ∈ s.acting i, src l = s.srcs i l) ∧ (s.computed i f).2 = true ∧
      Local s (s.performed i (s.computed i f).1) ∧
      (∀ l ∈ s.acting i, Thread.Moved (((s.thread s.cur l).raise (f src l).2).put i.fv.dst (Kind.wide i.fv.shape.dst) (f src l).1)
        ((s.performed i (s.computed i f).1).thread s.cur l)) ∧
      ∀ l, l ∉ s.acting i → Thread.Moved (s.thread s.cur l) ((s.performed i (s.computed i f).1).thread s.cur l) := by
  obtain ⟨src, hs, hv⟩ := sources_still s i ha hb hc
  have hq := still_plain ha hb hc hd
  have e : s.computed i f = (if i.fv.dst = .none then (s.begun i).raised s.cur ((s.acting i).map fun l => (l, (f src l).2))
      else ((s.acting i).map fun l => (l, (f src l).1)).foldl (fun t v => t.modThread s.cur v.1 (·.put i.fv.dst (Kind.wide i.fv.shape.dst) v.2))
        ((s.begun i).raised s.cur ((s.acting i).map fun l => (l, (f src l).2))), true) := by
    simp only [State.computed, hs, List.map_map, Function.comp_def, storeField_own _ _ _ _ _ hd]
  have h0 : (s.begun i).has (s.begun i).cur = true := by rw [begun_cur, begun_has s i hq]; exact acts_has h
  have fl : (((s.acting i).map fun l => (l, (f src l).2)).map (·.1)) = s.acting i := by simp [List.map_map, Function.comp_def]
  have fv : (((s.acting i).map fun l => (l, (f src l).1)).map (·.1)) = s.acting i := by simp [List.map_map, Function.comp_def]
  have R := raised_local (s.begun i) h0 ((s.acting i).map fun l => (l, (f src l).2))
  have RT := raised_thread ((s.acting i).map fun l => (l, (f src l).2)) (s.begun i) s.cur (by rw [← begun_cur s i]; exact h0)
    (fun a ha => by obtain ⟨l, hl, rfl⟩ := List.mem_map.mp ha; exact acting_lt hl) (by rw [fl]; exact acting_nodup s i)
  rw [begun_cur] at R
  generalize hu : (s.begun i).raised s.cur ((s.acting i).map fun l => (l, (f src l).2)) = u at e R RT
  have uc : u.cur = s.cur := R.1.cur.trans (begun_cur s i)
  have ur : (u.group s.cur).run = some s.path := by
    rw [R.2.2, ← acts_run h]; simp only [State.group, State.team, State.team?, begun_teams s i hq]
  -- the state after the results
  have W : ∃ w : State, s.computed i f = (w, true) ∧ Local u w ∧ w.has s.cur = true ∧ (w.group s.cur).run = some s.path ∧
      ∀ k, w.thread s.cur k = if k ∈ s.acting i then ((s.thread s.cur k).raise (f src k).2).put i.fv.dst (Kind.wide i.fv.shape.dst) (f src k).1
        else s.thread s.cur k := by
    by_cases hn : i.fv.dst = .none
    · refine ⟨u, by rw [e, if_pos hn], Local.refl u, R.2.1, ur, fun k => ?_⟩
      rw [RT k, find_lane, begun_thread s i hq]
      by_cases hk : k ∈ s.acting i
      · rw [if_pos hk, if_pos hk, hn, put_none]
      · rw [if_neg hk, if_neg hk]
    · have F := Local.foldThreads ((s.acting i).map fun l => (l, (f src l).1)) (fun v t => t.put i.fv.dst (Kind.wide i.fv.shape.dst) v) u s.cur uc R.2.1
      refine ⟨_, by rw [e, if_neg hn], F.1, F.2.1, F.2.2.trans ur, fun k => ?_⟩
      rw [thread_foldThreads _ (fun v t => t.put i.fv.dst (Kind.wide i.fv.shape.dst) v) u s.cur R.2.1
        (fun a ha => by obtain ⟨l, hl, rfl⟩ := List.mem_map.mp ha; exact acting_lt hl) (by rw [fv]; exact acting_nodup s i) k,
        RT k, find_lane, find_lane, begun_thread s i hq]
      by_cases hk : k ∈ s.acting i
      · simp only [if_pos hk]
      · simp only [if_neg hk]
  obtain ⟨w, we, wl, wh, wr, wt⟩ := W
  have wc : w.cur = s.cur := wl.cur.trans uc
  have sw : Local s w := ((begun_local s i hq).trans R.1).trans wl
  have T := tally_local w (by rw [wc]; exact wh) (s.acting i).length
  rw [wc] at T
  have tc : (w.tally s.cur (s.acting i).length).cur = s.cur := T.1.cur.trans wc
  have tr : ((w.tally s.cur (s.acting i).length).group s.cur).run = some s.path := by
    rw [T.2.2]; exact wr
  have A := advance_local (w.tally s.cur (s.acting i).length) (by rw [tc]; exact T.2.1) s.path (by rw [tc]; exact tr) hf []
  rw [tc] at A
  rw [← still_leave ha hb hc hd] at A
  have tt : ∀ k, (w.tally s.cur (s.acting i).length).thread s.cur k = w.thread s.cur k := fun k => by rw [State.thread, T.2.2]; rfl
  refine ⟨src, hv, by rw [we], ?_, fun l hl => ?_, fun l hl => ?_⟩
  · rw [we]; exact (sw.trans T.1).trans A.1
  · have := A.2 l
    rw [tt, wt, if_pos hl] at this
    rw [we]; exact this
  · have := A.2 l
    rw [tt, wt, if_neg hl] at this
    rw [we]; exact this

theorem plain_parts {s : State} {i : Instr} (h : s.plain i = true) : s.acts i = true ∧ Operand.still i.fv.a = true ∧ Operand.still i.fv.b = true ∧
    Operand.still i.fv.c = true ∧ Operand.own i.fv.dst = true ∧ s.fenced = false := by
  simp only [State.plain, Bool.and_eq_true, Bool.not_eq_true'] at h
  exact ⟨h.1.1.1.1.1, h.1.1.1.1.2, h.1.1.1.2, h.1.1.2, h.1.2, h.2⟩
theorem gives_of {s : State} {i : Instr} {f : Src → Nat → DWord × BitVec 5} (h : s.plain i = true)
    (he : (s.computed i f).2 = true → exec i s = .next (s.performed i (s.computed i f).1)) : Gives s i f := by
  obtain ⟨h, ha, hb, hc, hd, hf⟩ := plain_parts h
  obtain ⟨src, hv, h2, hl, hr, hn⟩ := computed_frame h f ha hb hc hd hf
  exact ⟨_, src, hv, he h2, hl, hr, hn⟩
/-! ## Waiting at a queue register (R165) -/

/-- A change that leaves the threads of a party, its running path and its blocked runs. -/
structure Kept (p : Party) (s t : State) : Prop where
  cur : t.cur = s.cur
  has : t.has p = s.has p
  threads : (t.group p).threads = (s.group p).threads
  run : (t.group p).run = (s.group p).run
  blocked : (t.group p).blocked = (s.group p).blocked

theorem Kept.refl (p : Party) (s : State) : Kept p s s := ⟨rfl, rfl, rfl, rfl, rfl⟩
theorem Kept.trans {p : Party} {a b c : State} (h : Kept p a b) (k : Kept p b c) : Kept p a c :=
  ⟨k.cur.trans h.cur, k.has.trans h.has, k.threads.trans h.threads, k.run.trans h.run, k.blocked.trans h.blocked⟩
theorem Kept.of_teams {p : Party} {s t : State} (h : t.teams = s.teams) (hc : t.cur = s.cur) : Kept p s t := by
  refine ⟨hc, ?_, ?_, ?_, ?_⟩ <;> simp only [State.has, State.group, State.team, State.team?, h]
theorem Kept.foldl {β : Type} {p : Party} (f : State → β → State) (hf : ∀ s b, Kept p s (f s b)) (l : List β) (s : State) :
    Kept p s (l.foldl f s) := by
  induction l generalizing s with
  | nil => exact Kept.refl p s
  | cons b l ih => exact (hf s b).trans (ih _)
/-- A change of a team that is no change of its members. -/
theorem Kept.modTeam (p : Party) (s : State) (u : Nat) (f : Team → Team) (hi : ∀ t, (f t).id = t.id) (hg : ∀ t, (f t).groups = t.groups)
    (he : ∀ t, (f t).engines = t.engines) : Kept p s (s.modTeam u f) := by
  have hu : ∀ t : Team, (f t).id.uid = t.id.uid := fun t => by rw [hi]
  have m : ∀ t : Team, (f t).member p.mem = t.member p.mem := fun t => by
    cases p.mem <;> simp only [Team.member, hg, he]
  have n : ∀ t : Team, (f t).has p.mem = t.has p.mem := fun t => by
    cases p.mem <;> simp only [Team.has, hg, he]
  have k := State.team?_modTeam s u p.team f hu
  have g : (s.modTeam u f).group p = s.group p ∧ (s.modTeam u f).has p = s.has p := by
    simp only [State.has, State.group, k]
    by_cases e : p.team = u
    · cases ht : s.team? p.team with
      | none =>
        rw [ht] at k
        have : (s.modTeam u f).team? p.team = none := Option.isNone_iff_eq_none.mp (Option.isSome_eq_false_iff.mp k)
        simp only [State.team, ht, this, and_self]
      | some t =>
        have := State.team_modTeam_same s u f hu (by rw [← e, ht]; rfl)
        rw [e, this, m, n]; exact ⟨rfl, rfl⟩
    · rw [State.team_modTeam_ne s u p.team f hu e]; exact ⟨rfl, rfl⟩
  exact ⟨rfl, g.2, by rw [g.1], by rw [g.1], by rw [g.1]⟩
/-- A change of the party that keeps its threads and paths. -/
theorem Kept.modGroup (p : Party) (s : State) (f : Group → Group) (h : s.has p = true) (hr : ∀ g, (f g).role = g.role)
    (ht : ∀ g, (f g).threads = g.threads) (hu : ∀ g, (f g).run = g.run) (hb : ∀ g, (f g).blocked = g.blocked) : Kept p s (s.modGroup p f) := by
  have e := State.group_modGroup_same s p f hr h
  exact ⟨rfl, State.has_modGroup s p p f hr, by rw [e, ht], by rw [e, hu], by rw [e, hb]⟩
theorem Kept.streamUnit (p : Party) (s : State) (t : Team) (tag : Nat) (u : List Byte) : Kept p s (s.streamUnit t tag u) := by
  simp only [State.streamUnit]
  refine Kept.trans ?_ (Kept.modTeam p _ _ _ (fun _ => rfl) (fun _ => rfl) fun _ => rfl)
  split
  · refine Kept.foldl _ ?_ _ _; exact fun _ _ => Kept.of_teams rfl rfl
  · refine Kept.trans (b := List.foldl _ s (List.range u.dropLast.length)) ?_ (Kept.of_teams rfl rfl)
    refine Kept.foldl _ ?_ _ _; exact fun _ _ => Kept.of_teams rfl rfl
theorem Kept.streamEnter (p : Party) (uid tag : Nat) (pois : Bool) (bs : List Byte) (s : State) : Kept p s (s.streamEnter uid tag pois bs).1 := by
  induction bs generalizing s with
  | nil => exact Kept.refl p s
  | cons b l ih =>
    simp only [State.streamEnter]
    split
    · exact Kept.refl p s
    · refine Kept.trans ?_ (ih _)
      split
      · refine Kept.trans ?_ (Kept.streamUnit _ _ _ _ _)
        refine Kept.modTeam p s uid _ ?_ ?_ ?_ <;> exact fun _ => rfl
      · refine Kept.modTeam p s uid _ ?_ ?_ ?_ <;> exact fun _ => rfl
theorem Kept.streamPush (p : Party) (s : State) (h : s.has p = true) (lane tag : Nat) (bs : List Byte) : Kept p s (s.streamPush p lane tag bs).1 := by
  have st : ∀ (s : State) (l : List (Option (Party × Nat) × List Byte)),
      Kept p s (s.modTeam p.team fun t => { t with streams := vmod t.streams tag fun st => { st with pend := l } }) :=
    fun s l => Kept.modTeam p s _ _ (fun _ => rfl) (fun _ => rfl) fun _ => rfl
  simp only [State.streamPush]
  split
  · exact (st _ _).trans (Kept.modGroup p _ _ (by rw [(st s _).has]; exact h) (fun _ => rfl) (fun _ => rfl) (fun _ => rfl) fun _ => rfl)
  · exact Kept.refl p s
  · split
    · have e := Kept.streamEnter p p.team tag false bs s
      split
      · exact e
      · exact (e.trans (st _ _)).trans
          (Kept.modGroup p _ _ (by rw [(st _ _).has, e.has]; exact h) (fun _ => rfl) (fun _ => rfl) (fun _ => rfl) fun _ => rfl)
    · exact st _ _
/-- Reading a source changes the copy context's completion queue at most. -/
theorem Kept.fetchField {p : Party} {s t : State} {lanes : List Nat} {w : Bool} {o : Operand} {vs : List (Nat × DWord)}
    (h : s.fetchField p lanes w o = some (vs, t)) : Kept p s t := by
  simp only [State.fetchField] at h
  repeat' split at h
  all_goals first
    | (cases h; done)
    | (cases h; exact Kept.refl p s)
    | (cases h; exact Kept.modTeam p s _ _ (fun _ => rfl) (fun _ => rfl) fun _ => rfl)
theorem Kept.sources {p : Party} {s t : State} {v : View} {lanes : List Nat} {src : Src} (h : s.sources p v lanes = some (src, t)) : Kept p s t := by
  simp only [State.sources] at h
  cases ha : s.fetchField p lanes (Kind.wide v.shape.a) v.a with
  | none => rw [ha] at h; cases h
  | some a =>
    simp only [ha] at h
    cases hb : a.2.fetchField p lanes (Kind.wide v.shape.b) v.b with
    | none => rw [hb] at h; cases h
    | some b =>
      simp only [hb] at h
      cases hc : b.2.fetchField p lanes (Kind.wide v.shape.c) v.c with
      | none => rw [hc] at h; cases h
      | some c =>
        rw [hc] at h
        cases h
        exact ((Kept.fetchField ha).trans (Kept.fetchField hb)).trans (Kept.fetchField hc)
theorem Kept.begun {s : State} {i : Instr} (h : s.has s.cur = true) : Kept s.cur s (s.begun i) := by
  have n : Kept s.cur s (s.noteTime s.cur i.fv (s.acting i)) := by
    simp only [State.noteTime]; split
    · exact Kept.of_teams rfl rfl
    · exact Kept.refl _ _
  simp only [State.begun]
  split
  · cases e : (s.noteTime s.cur i.fv (s.acting i)).pull s.cur i.fv (s.acting i) with
    | none => exact n
    | some t =>
      refine n.trans ?_
      have nh : (s.noteTime s.cur i.fv (s.acting i)).has s.cur = true := by rw [n.has]; exact h
      simp only [State.pull] at e
      split at e
      · cases e
      · split at e
        · cases e; exact Kept.refl _ _
        · refine foldl_bind (P := fun t => Kept s.cur (s.noteTime s.cur i.fv (s.acting i)) t) _ (fun a b c e k => ?_) _ _ t (Kept.refl _ _) e
          refine k.trans ?_
          simp only [State.popField] at e
          split at e
          · obtain ⟨r, hr, rfl⟩ := Option.map_eq_some_iff.mp e
            have f := Kept.fetchField (show a.fetchField s.cur _ b.wide b.o = some (r.1, r.2) from hr)
            exact f.trans (Kept.modGroup _ _ _ (by rw [f.has, k.has]; exact nh) (fun _ => rfl) (fun _ => rfl) (fun _ => rfl) fun _ => rfl)
          · cases e; exact Kept.refl _ _
  · exact n
/-- A destination that cannot take its results leaves every thread as it was. -/
theorem Kept.storeField {p : Party} {s : State} (h : s.has p = true) {w : Bool} {o : Operand} {vals : List (Nat × DWord)}
    (hf : (s.storeField p w o vals).2 = false) : Kept p s (s.storeField p w o vals).1 := by
  revert hf
  have no : ∀ (t : State), (t, true).2 = false → Kept p s t := fun t h => absurd h (by simp)
  have cp : ∀ (b : Bool) (t : State), (if b = true then (t, true) else (s, false)).2 = false →
      Kept p s (if b = true then (t, true) else (s, false)).1 := fun b t h => by
    cases b
    · exact Kept.refl p s
    · exact no t h
  cases w <;> simp only [State.storeField, Bool.false_eq_true, if_false, if_true] <;> split
  all_goals first | exact no _ | skip
  all_goals split
  all_goals first | exact no _ | skip
  all_goals split
  all_goals first | exact no _ | exact cp _ _ | exact fun _ => Kept.streamPush p s h _ _ _

theorem getLsbD_ofBits (l : List Nat) (k : Nat) (hk : k < 32) (m : BitVec 32) :
    (l.foldl (fun m i => m ||| BitVec.ofNat 32 (1 <<< i)) m).getLsbD k = (m.getLsbD k || l.contains k) := by
  induction l generalizing m with
  | nil => simp
  | cons a l ih =>
    rw [List.foldl_cons, ih, BitVec.getLsbD_or, BitVec.getLsbD_ofNat, List.contains_cons]
    have : (1 <<< a).testBit k = (k == a) := by
      rw [Nat.one_shiftLeft, Nat.testBit_two_pow]
      simp [Bool.beq_eq_decide_eq, eq_comm]
    simp only [hk, decide_true, Bool.true_and, this, Bool.or_assoc]
theorem ofBits_bitsOf (x : BitVec 32) : ofBits 32 (bitsOf x) = x := by
  apply BitVec.eq_of_getLsbD_eq
  intro k hk
  rw [ofBits, getLsbD_ofBits _ _ hk]
  cases h : x.getLsbD k with
  | true => simp [bitsOf, hk, h]
  | false => simp [bitsOf, h]
theorem mem_bitsOf (x : BitVec 32) (k : Nat) : k ∈ bitsOf x ↔ x.getLsbD k = true := by
  simp only [bitsOf, List.mem_filter, List.mem_range]
  refine ⟨fun h => h.2, fun h => ⟨?_, h⟩⟩
  by_cases c : k < 32
  · exact c
  · rw [BitVec.getLsbD_of_ge x k (by omega)] at h
    cases h
/-- A fence test of no lanes. -/
theorem clauseFence_nil (s : State) (p : Party) : s.clauseFence p [] = s := by
  simp only [State.clauseFence, State.fence]
  split <;> rfl
/-- Every lane of the issue group waits at its instruction, the run is kept, and no thread changes in anything else. -/
theorem holdGroup_all (s : State) (h : s.has s.cur = true) (r : Run) (hr : (s.group s.cur).run = some r) (hl : bitsOf r.lanes ≠ []) :
    { r with stall := none } ∈ ((s.holdGroup s.cur r).group s.cur).blocked ∧
      ∀ l, (s.holdGroup s.cur r).thread s.cur l =
        if r.lanes.getLsbD l then { s.thread s.cur l with wait := some .operand } else s.thread s.cur l := by
  have F := Local.foldThreads ((bitsOf r.lanes).map (·, Wait.operand)) (fun w t => { t with wait := some w }) s s.cur rfl h
  have T := thread_foldThreads ((bitsOf r.lanes).map (·, Wait.operand)) (fun w t => { t with wait := some w }) s s.cur h
    (fun a ha => by obtain ⟨l, hl, rfl⟩ := List.mem_map.mp ha; exact bitsOf_lt _ _ hl)
    (by simp only [List.map_map, Function.comp_def, List.map_id']; exact bitsOf_nodup _)
  have e : s.setWaits s.cur ((bitsOf r.lanes).map (·, Wait.operand)) =
      ((bitsOf r.lanes).map (·, Wait.operand)).foldl (fun s a => s.modThread s.cur a.1 ((fun w t => { t with wait := some w }) a.2)) s := by
    have g : ∀ (l : List (Nat × Wait)) (t : State), t.cur = s.cur → l.foldl (fun t w => t.modThread s.cur w.1 fun h => { h with wait := some w.2 }) t =
        l.foldl (fun t a => t.modThread t.cur a.1 ((fun w h => { h with wait := some w }) a.2)) t := by
      intro l
      induction l with
      | nil => exact fun _ _ => rfl
      | cons a l ih => exact fun t ht => by simp only [List.foldl_cons, ht]; exact ih _ ht
    exact g _ s rfl
  have F' : ∀ t : State, t = s.setWaits s.cur ((bitsOf r.lanes).map (·, Wait.operand)) → t.has s.cur = true ∧ (t.group s.cur).run = some r ∧
      ∀ k, t.thread s.cur k = if r.lanes.getLsbD k then { s.thread s.cur k with wait := some .operand } else s.thread s.cur k := by
    rintro _ rfl
    refine ⟨F.2.1, F.2.2.trans hr, fun k => ?_⟩
    refine (T k).trans ?_
    rw [find_lane]
    by_cases hk : k ∈ bitsOf r.lanes
    · simp only [if_pos hk, (mem_bitsOf _ _).mp hk, if_true]
    · have : r.lanes.getLsbD k = false := by
        cases c : r.lanes.getLsbD k with
        | false => rfl
        | true => exact absurd ((mem_bitsOf _ _).mpr c) hk
      simp only [if_neg hk, this, Bool.false_eq_true, if_false]
  obtain ⟨uh, ur, ut⟩ := F' _ rfl
  simp only [State.holdGroup]
  generalize s.setWaits s.cur ((bitsOf r.lanes).map (·, Wait.operand)) = u at uh ur ut
  have mv : ((bitsOf r.lanes).filter fun l => !(bitsOf r.lanes).contains l && (vget (u.group s.cur).threads l).life == .live) = [] := by
    rw [List.filter_eq_nil_iff]
    intro a ha
    simp [ha]
  have ne : (bitsOf r.lanes).isEmpty = false := by cases c : bitsOf r.lanes with | nil => exact absurd c hl | cons _ _ => rfl
  simp only [State.advance, ur, mv, List.foldl_nil, clauseFence_nil, ite_self, ofBits_bitsOf, ne, List.isEmpty_nil, Bool.or_true, Bool.not_false, if_true,
    Bool.false_eq_true, if_false]
  refine ⟨?_, fun l => ?_⟩
  · rw [State.group_modGroup_same u s.cur _ ?_ uh]
    · simp
    · exact fun _ => rfl
  · simp only [State.thread]
    rw [State.group_modGroup_same u s.cur _ ?_ uh]
    · exact ut l
    · exact fun _ => rfl
/-- With no acting lane nothing waits for a queue register. -/
theorem computed_nobody (s : State) (i : Instr) (f : Src → Nat → DWord × BitVec 5) (h : s.acting i = []) : (s.computed i f).2 = true := by
  have r : ∀ (t : State) (w : Bool) (o : Operand), t.fetchField s.cur [] w o = some ([], t) := fun t w o => by
    cases o <;> rfl
  have e : (s.begun i).sources s.cur i.fv [] = some (fun _ => (laneVal [] 0, laneVal [] 0, laneVal [] 0), s.begun i) := by
    simp only [State.sources, r]; rfl
  simp only [State.computed, h, e, List.map_nil]
  simp only [State.raised, List.foldl_nil, State.storeField]
  split <;> rfl
/-- A per-lane operation whose queue operands cannot go on keeps its issue group (R165). -/
theorem lanewise_waits {s : State} {i : Instr} (h : s.acts i = true)
    (pre : State → Party → List Nat → Src → Option (Nat × List Nat × DWord × DWord))
    (f : State → Party → List Nat → Src → Nat → DWord × BitVec 5)
    (hp : ∀ src, pre (s.begun i) s.cur (s.acting i) src = none)
    (hf : (s.computed i (f (s.begun i) s.cur (s.acting i))).2 = false) :
    ∃ t, s.lanewise i pre f = .next (t.holdGroup s.cur s.path) ∧ Kept s.cur s t := by
  have ha : s.acting i ≠ [] := fun e => by rw [computed_nobody s i _ e] at hf; cases hf
  have fin : ∀ t, finish s.cur s.path i.fv (s.acting i) (s.ended i (blockOperand t (s.acting i))) =
      ({ t with dies := s.dies } : State).holdGroup s.cur s.path := fun t => by
    obtain ⟨a, l, e⟩ := List.exists_cons_of_ne_nil ha
    rw [e, blockOperand, ended_waits _ _ _ _ (by simp)]
    simp [finish]
  have B := Kept.begun (s := s) (i := i) (acts_has h)
  have bh : (s.begun i).has s.cur = true := by rw [B.has]; exact acts_has h
  have done : ∀ t, Kept s.cur s t → Kept s.cur s { t with dies := s.dies } := fun t k => k.trans (Kept.of_teams rfl rfl)
  rw [State.lanewise, issue_acts h]
  simp only [begun_cur, acts_view h]
  revert hf
  simp only [State.computed]
  cases hs : (s.begun i).sources s.cur i.fv (s.acting i) with
  | none => exact fun _ => ⟨_, by rw [fin], done _ B⟩
  | some x =>
    obtain ⟨src, s1⟩ := x
    simp only [hp, State.raised, List.foldl_map, List.map_map, Function.comp_def, State.results, State.unstored, List.map_id']
    intro hf
    split
    · rename_i e
      rw [e] at hf
      cases hf
    · split
      · rename_i t e
        have k := Kept.storeField bh (o := i.fv.dst) (w := Kind.wide i.fv.shape.dst) (vals := _) (by rw [e])
        rw [e] at k
        exact ⟨_, by rw [fin], done _ (B.trans k)⟩
      · exact ⟨_, by rw [fin], done _ B⟩
theorem waits_of {s : State} {i : Instr} (h : s.acts i = true)
    (k : ∃ t, exec i s = .next (t.holdGroup s.cur s.path) ∧ Kept s.cur s t) (ha : bitsOf s.path.lanes ≠ []) :
    ∃ t, exec i s = .next t ∧ s.AllWait t := by
  obtain ⟨t, e, k⟩ := k
  have c := k.cur
  have H := holdGroup_all t (by rw [c, k.has]; exact acts_has h) s.path (by rw [c, k.run]; exact acts_run h) ha
  rw [c] at H
  refine ⟨_, e, H.1, fun l => ?_⟩
  rw [H.2 l]
  simp only [State.thread, k.threads]

/-- A lane-wise operation whose check passes does what its function says, or waits. -/
theorem lanewise_all {s : State} {i : Instr} (pre : State → Party → List Nat → Src → Option (Nat × List Nat × DWord × DWord))
    (g : State → Party → List Nat → Src → Nat → DWord × BitVec 5) (he : exec i s = s.lanewise i pre g)
    (hp : s.acts i = true → ∀ src, pre (s.begun i) s.cur (s.acting i) src = none) :
    (s.plain i = true → Gives s i (g (s.begun i) s.cur (s.acting i))) ∧ Runs s i (g (s.begun i) s.cur (s.acting i)) ∧
      Waits s i (g (s.begun i) s.cur (s.acting i)) := by
  refine ⟨fun h => gives_of h fun h2 => ?_, fun h h2 => ?_, fun h h2 => ?_⟩
  · have k := (plain_parts h).1
    rw [he, lanewise_acts k pre g (hp k) h2]
  · rw [he, lanewise_acts h pre g (hp h) h2]
  · refine waits_of h (by rw [he]; exact lanewise_waits h pre g (hp h) h2) fun e => ?_
    rw [computed_nobody s i _ (by rw [State.acting, e]; rfl)] at h2
    cases h2
theorem perLane_of (i : Instr) (f : DWord → DWord → DWord → DWord × BitVec 5) (he : ∀ s, exec i s = s.perLane i f) : PerLane i f :=
  fun s => lanewise_all _ _ (he s) fun _ _ => rfl
theorem begun_fmt (s : State) (i : Instr) (hq : queueForm i.fv = false) (p : Party) : (s.begun i).fmtOf p = s.fmtOf p := by
  simp only [State.fmtOf, State.team, State.team?, begun_teams s i hq]
theorem steady_upset {s : State} {i : Instr} (hq : queueForm i.fv = false) (h : s.steady i = true) :
    (vget (s.begun i).cores ((s.begun i).team s.cur.team).coreNo).upset = [] := by
  simp only [State.steady, Bool.and_eq_true, List.isEmpty_iff] at h
  have e : (s.begun i).cores = s.cores := by rw [begun_plain s i hq]; simp only [State.noteTime]; split <;> rfl
  rw [e]
  simp only [State.team, State.team?, begun_teams s i hq]
  exact h.2
theorem steady_shadow {s : State} {i : Instr} (hq : queueForm i.fv = false) (h : s.steady i = true) (k : Shadow)
    (f : DWord → DWord → DWord → DWord × BitVec 5) (lanes : List Nat) (src : Src) : (s.begun i).shadow s.cur i k f lanes src = none := by
  simp only [State.shadow, steady_upset hq h, List.isEmpty_nil, Bool.true_or, if_true]
theorem steady_flips {s : State} {i : Instr} (hq : queueForm i.fv = false) (h : s.steady i = true) (l : Nat) : (s.begun i).flips s.cur l = 0#64 := by
  simp only [State.flips, steady_upset hq h]; rfl
theorem perLaneFp_of (i : Instr) (hq : queueForm i.fv = false) (sh : Shadow) (f : Vector Word 8 → DWord → DWord → DWord → DWord × BitVec 5)
    (he : ∀ s, exec i s = s.fpLane i sh f) : PerLaneFp i f := by
  intro s hs
  have k := lanewise_all (s := s) (i := i) _ _ (he s) fun _ src => steady_shadow hq hs sh _ _ src
  simp only [begun_fmt s i hq, steady_flips hq hs, BitVec.xor_zero] at k
  exact k

end Sys2Proof.Machine
end

