-- ==== Sys2Proof/Laws/Memory.lean ====
section
/-!
SUPPORT. Memory: a read after a write, the canonical form, and that whatever the shared operations do to memory keeps that form.
-/
namespace Sys2Proof.Machine

/-! ## Cells -/

theorem Memory.read_write_ne (m : Memory) (a c : Nat) (b : Byte) (h : a ≠ c) : (m.write a b).read c = m.read c := by
  induction m with
  | nil => simp only [Memory.write]; split <;> simp [Memory.read, h]
  | cons x m ih =>
    obtain ⟨k, v⟩ := x
    simp only [Memory.write]
    split
    · split <;> simp [Memory.read, h]
    · split
      · rename_i e; subst e; split <;> simp [Memory.read, h]
      · simp only [Memory.read, ih]
theorem Memory.read_below (m : Memory) (lo a : Nat) (h : Memory.wfFrom lo m = true) (ha : a < lo) : m.read a = Config.unwrittenByte := by
  induction m generalizing lo with
  | nil => rfl
  | cons x m ih =>
    obtain ⟨k, v⟩ := x
    simp only [Memory.wfFrom, Bool.and_eq_true, decide_eq_true_eq] at h
    simp only [Memory.read, show k ≠ a by omega, if_false]
    exact ih (k + 1) h.2 (by omega)
theorem Memory.wfFrom_mono (m : Memory) (lo lo' : Nat) (h : Memory.wfFrom lo m = true) (hl : lo' ≤ lo) : Memory.wfFrom lo' m = true := by
  cases m with
  | nil => rfl
  | cons x m =>
    simp only [Memory.wfFrom, Bool.and_eq_true, decide_eq_true_eq] at h ⊢
    exact ⟨⟨by omega, h.1.2⟩, h.2⟩
theorem Memory.wfFrom_write (m : Memory) (lo a : Nat) (b : Byte) (h : Memory.wfFrom lo m = true) (ha : lo ≤ a) : Memory.wfFrom lo (m.write a b) = true := by
  induction m generalizing lo with
  | nil => simp only [Memory.write]; split <;> simp_all [Memory.wfFrom]
  | cons x m ih =>
    obtain ⟨k, v⟩ := x
    have h0 := h
    simp only [Memory.wfFrom, Bool.and_eq_true, decide_eq_true_eq] at h
    simp only [Memory.write]
    split
    · split
      · exact h0
      · rename_i h1 h2
        simp only [Memory.wfFrom, Bool.and_eq_true, decide_eq_true_eq]
        exact ⟨⟨ha, h2⟩, ⟨by omega, h.1.2⟩, h.2⟩
    · split
      · rename_i h1 h2
        subst h2
        split
        · exact Memory.wfFrom_mono m _ _ h.2 (by omega)
        · rename_i h3
          simp only [Memory.wfFrom, Bool.and_eq_true, decide_eq_true_eq]
          exact ⟨⟨ha, h3⟩, h.2⟩
      · rename_i h1 h2
        simp only [Memory.wfFrom, Bool.and_eq_true, decide_eq_true_eq]
        exact ⟨h.1, ih (k + 1) h.2 (by omega)⟩
/-- A write keeps the canonical form. -/
theorem Memory.wf_write (m : Memory) (a : Nat) (b : Byte) (h : m.wf = true) : Memory.wf (m.write a b) = true := Memory.wfFrom_write m 0 a b h (Nat.zero_le _)
/-- A read after a write to the same place gives the byte written. -/
theorem Memory.read_write_same (m : Memory) (a : Nat) (b : Byte) (h : m.wf = true) : (m.write a b).read a = b := by
  suffices ∀ lo, Memory.wfFrom lo m = true → (m.write a b).read a = b from this 0 h
  induction m with
  | nil => intro _ _; simp only [Memory.write]; split <;> simp_all [Memory.read]
  | cons x m ih =>
    obtain ⟨k, v⟩ := x
    intro lo h
    have h0 := h
    simp only [Memory.wfFrom, Bool.and_eq_true, decide_eq_true_eq] at h
    simp only [Memory.write]
    split
    · rename_i h1
      split
      · rename_i h2
        rw [h2]; exact Memory.read_below _ k a (by simp [Memory.wfFrom, h.1.2, h.2]) h1
      · simp [Memory.read]
    · split
      · rename_i h1 h2
        subst h2
        split
        · rename_i h3; rw [h3]; exact Memory.read_below _ (k + 1) k h.2 (by omega)
        · simp [Memory.read]
      · rename_i h1 h2
        simp only [Memory.read, h2, if_false]
        exact ih (Memory.wfFrom_mono m _ _ h.2 (Nat.zero_le _)) (k + 1) h.2
theorem Memory.wfFrom_filter (m : Memory) (lo : Nat) (p : Host.Cell → Bool) (h : Memory.wfFrom lo m = true) : Memory.wfFrom lo (m.filter p) = true := by
  induction m generalizing lo with
  | nil => rfl
  | cons x m ih =>
    obtain ⟨k, v⟩ := x
    simp only [Memory.wfFrom, Bool.and_eq_true, decide_eq_true_eq] at h
    simp only [List.filter_cons]
    split
    · simp only [Memory.wfFrom, Bool.and_eq_true, decide_eq_true_eq]
      exact ⟨h.1, ih _ h.2⟩
    · exact Memory.wfFrom_mono _ _ _ (ih _ h.2) (by omega)
/-- Taking entries away keeps the canonical form. -/
theorem Memory.wf_filter (m : Memory) (p : Host.Cell → Bool) (h : m.wf = true) : Memory.wf (m.filter p) = true := Memory.wfFrom_filter m 0 p h
theorem Memory.wf_writes {α : Type} (l : List α) (k : α → Nat) (v : α → Byte) (m : Memory) (h : m.wf = true) :
    Memory.wf (l.foldl (fun m c => m.write (k c) (v c)) m) = true := by
  induction l generalizing m with
  | nil => exact h
  | cons x l ih => exact ih _ (Memory.wf_write m _ _ h)
theorem Memory.wf_swap (m : Memory) (gone : Nat → Bool) (put : List Host.Cell) (h : m.wf = true) : (m.swap gone put).wf = true :=
  Memory.wf_writes put (·.1) (·.2) _ (Memory.wf_filter m _ h)
/-- Two memories in canonical form that read alike are equal. -/
theorem Memory.ext (m n : Memory) (hm : m.wf = true) (hn : n.wf = true) (h : ∀ a, m.read a = n.read a) : m = n := by
  suffices ∀ lo, Memory.wfFrom lo m = true → Memory.wfFrom lo n = true → m = n from this 0 hm hn
  clear hm hn
  induction m generalizing n with
  | nil =>
    intro lo _ hn
    cases n with
    | nil => rfl
    | cons y n =>
      obtain ⟨k, v⟩ := y
      simp only [Memory.wfFrom, Bool.and_eq_true, decide_eq_true_eq] at hn
      have := h k
      simp only [Memory.read, if_true] at this
      exact absurd this.symm hn.1.2
  | cons x m ih =>
    obtain ⟨k, v⟩ := x
    intro lo hm hn
    have hm0 := hm
    have hn0 := hn
    simp only [Memory.wfFrom, Bool.and_eq_true, decide_eq_true_eq] at hm
    cases n with
    | nil =>
      have := h k
      simp only [Memory.read, if_true] at this
      exact absurd this hm.1.2
    | cons y n =>
      obtain ⟨j, w⟩ := y
      simp only [Memory.wfFrom, Bool.and_eq_true, decide_eq_true_eq] at hn
      have hkj : k = j := by
        rcases Nat.lt_trichotomy k j with hlt | heq | hgt
        · have e := h k
          rw [Memory.read_below ((j, w) :: n) j k (by simp [Memory.wfFrom, hn.1.2, hn.2]) hlt] at e
          simp only [Memory.read, if_true] at e
          exact absurd e hm.1.2
        · exact heq
        · have e := h j
          rw [Memory.read_below ((k, v) :: m) k j (by simp [Memory.wfFrom, hm.1.2, hm.2]) hgt] at e
          simp only [Memory.read, if_true] at e
          exact absurd e.symm hn.1.2
      subst hkj
      have hv : v = w := by simpa [Memory.read] using h k
      subst hv
      congr 1
      refine ih n (fun a => ?_) (k + 1) hm.2 hn.2
      by_cases e : k = a
      · subst e; rw [Memory.read_below m _ _ hm.2 (by omega), Memory.read_below n _ _ hn.2 (by omega)]
      · simpa [Memory.read, e] using h a

/-! ## States -/

theorem State.Canonical.of_mem {s t : State} (h : s.Canonical) (e : t.mem = s.mem) : t.Canonical := by rw [State.Canonical, e]; exact h
theorem State.Canonical.write {s : State} (h : s.Canonical) (k : Nat) (b : Byte) : ({ s with mem := s.mem.write k b } : State).Canonical :=
  Memory.wf_write _ _ _ h
theorem State.Canonical.fold {α : Type} (l : List α) (f : State → α → State) (hf : ∀ s a, s.Canonical → (f s a).Canonical) {s : State} (h : s.Canonical) :
    (l.foldl f s).Canonical := by
  induction l generalizing s with
  | nil => exact h
  | cons x l ih => exact ih (hf s x h)
@[simp] theorem State.markMap_mem (s : State) (a : Nat) : (s.markMap a).mem = s.mem := by simp only [State.markMap]; split <;> rfl
theorem State.ite_modCluster_mem (s : State) (c : Bool) (cl : Nat) (f : Cluster → Cluster) : (if c = true then s.modCluster cl f else s).mem = s.mem := by
  cases c <;> rfl
@[simp] theorem State.breakBar_mem (s : State) (a : Nat) : (s.breakBar a).mem = s.mem := s.ite_modCluster_mem _ _ _
@[simp] theorem State.cleanKeys_mem (s : State) (ks : List Nat) : (s.cleanKeys ks).mem = s.mem := by simp only [State.cleanKeys]; split <;> rfl
@[simp] theorem State.keepSnaps_mem (s t : State) (l : List Nat) : (s.keepSnaps t l).mem = t.mem := rfl
@[simp] theorem State.poisonKey_mem (s : State) (k : Nat) : (s.poisonKey k).mem = s.mem := rfl
@[simp] theorem State.setFrame_mem (s : State) (st x h ix : Nat) (f : Option Nat) : (s.setFrame st x h ix f).mem = s.mem := rfl
@[simp] theorem State.setSurf_mem (s : State) (x : Nat) (u : Surface) : (s.setSurf x u).mem = s.mem := rfl
@[simp] theorem State.spillFault_mem (s : State) (x h : Nat) : (s.spillFault x h).mem = s.mem := rfl
@[simp] theorem State.dueOnce_mem (s : State) (i : Instr) : (s.dueOnce i).mem = s.mem := by simp only [State.dueOnce]; split <;> rfl
@[simp] theorem State.reachStack_mem (s : State) (x n : Nat) (g : Bool) : (s.reachStack x n g).mem = s.mem := rfl
@[simp] theorem State.reachLoc_mem (s : State) (x a : Nat) : (s.reachLoc x a).mem = s.mem := by
  simp only [State.reachLoc]; split
  · split <;> rfl
  · rfl
@[simp] theorem State.reachRun_mem (s : State) (x : Nat) (l : List Nat) : (s.reachRun x l).mem = s.mem := by
  simp only [State.reachRun]; split
  · rw [State.reachLoc_mem, State.reachLoc_mem]
  · rfl
@[simp] theorem State.refillReach_mem (s : State) (x : Nat) (u : Surface) (t : Nat) : (s.refillReach x u t).mem = s.mem := by
  simp only [State.refillReach]; split
  · rfl
  · split <;> (try rw [State.reachRun_mem]) <;> split <;> first | rfl | exact State.reachRun_mem _ _ _
@[simp] theorem State.fresh_mem (s : State) : s.fresh.2.mem = s.mem := rfl
@[simp] theorem State.setUsed_mem (s : State) (x : Nat) : (s.setUsed x).mem = s.mem := rfl
theorem State.foldl_mem {α : Type} (l : List α) (f : State → α → State) (hf : ∀ s a, (f s a).mem = s.mem) (s : State) : (l.foldl f s).mem = s.mem := by
  induction l generalizing s with
  | nil => rfl
  | cons a l ih => rw [List.foldl_cons, ih, hf]
theorem State.Canonical.filled {s : State} (bad : Bool) (keys : List Nat) (cells : List Host.Cell) (h : s.Canonical) :
    (if bad then keys.foldl (fun s k => s.poisonKey k) (cells.foldl (fun s c => { s with mem := s.mem.write c.1 c.2 }) s)
     else (cells.foldl (fun (s : State) (c : Host.Cell) => ({ s with mem := s.mem.write c.1 c.2 } : State)) s).cleanKeys keys).Canonical := by
  have h1 := State.Canonical.fold cells (fun s c => { s with mem := s.mem.write c.1 c.2 }) (fun s c h => State.Canonical.write h _ _) h
  split
  · exact h1.of_mem (State.foldl_mem _ _ (fun s k => State.poisonKey_mem s k) _)
  · exact h1.of_mem (State.cleanKeys_mem _ _)
theorem Memory.wf_putBlock (m : Memory) (blk : Nat) (d : BitVec 512) (h : m.wf = true) : (m.putBlock blk d).wf = true :=
  Memory.wf_writes (List.range 64) (64 * blk + ·) (fun i => d.extractLsb' (8 * i) 8) m h
theorem State.rekey_canonical (s : State) (key a : Nat) (h : s.Canonical) : (s.rekey key a).Canonical := by
  have put (d : BitVec 512) : (s.mem.putBlock (s.storage a / 64) d).wf = true := Memory.wf_putBlock _ _ _ h
  simp only [State.rekey, State.Canonical]
  generalize s.seenBlock (keyTag key a) (s.storage a / 64) = d
  have hp := put d
  generalize s.mem.putBlock (s.storage a / 64) d = m at hp ⊢
  split
  · exact h
  · exact hp
theorem State.physWrite_canonical (s : State) (key a : Nat) (b : Byte) (h : s.Canonical) : (s.physWrite key a b).Canonical := by
  unfold State.physWrite
  extract_lets q
  have hq : q.Canonical := by
    by_cases e : isGddrKey (s.storage a) = true
    · simp only [q, if_pos e]; exact s.rekey_canonical _ _ h
    · simp only [q, if_neg e]; exact h
  exact State.Canonical.write hq _ _
theorem State.putByte_canonical (s : State) (loc : Nat) (b : Byte) (h : s.Canonical) : (s.putByte loc b).Canonical := by
  have h1 := s.physWrite_canonical (loc / keyUnit) (loc % keyUnit) b h
  simp only [State.putByte]
  split
  · exact h1.of_mem (by rw [State.breakBar_mem, State.markMap_mem])
  · exact h1
theorem State.putPlain_canonical (s : State) (l : List Host.Cell) (h : s.Canonical) : (s.putPlain l).Canonical := by
  have h1 : (l.foldl (fun s c => s.putByte c.1 c.2) s).Canonical := State.Canonical.fold l _ (fun s c h => s.putByte_canonical _ _ h) h
  simp only [State.putPlain]
  exact h1.of_mem (by rw [State.keepSnaps_mem, State.cleanKeys_mem])
theorem State.writePa_canonical (s : State) (pa n v : Nat) (h : s.Canonical) : (s.writePa pa n v).Canonical := s.putPlain_canonical _ h
theorem State.engWrite_canonical (s t : State) (x va : Nat) (bs : List Byte) (h : s.Canonical) (e : s.engWrite x va bs = .ok t) : t.Canonical := by
  revert e
  simp only [State.engWrite]
  split
  · split <;> intro e <;> cases e
  · split
    · intro e; cases e
    · intro e; cases e; exact (s.putPlain_canonical _ h).of_mem (State.reachRun_mem _ _ _)
theorem State.engStop_ok (s t : State) (x va n : Nat) : s.engStop x va n ≠ some (.ok t) := by
  simp only [State.engStop]
  split
  · split <;> intro e <;> cases e
  · split <;> intro e <;> cases e
theorem State.setTileState_canonical (s : State) (x h' t st : Nat) (h : s.Canonical) : (s.setTileState x h' t st).Canonical := by
  simp only [State.setTileState]
  split
  · exact h
  · split
    · rename_i e; exact State.engWrite_canonical _ _ _ _ _ (by exact h) e
    · exact h
theorem State.spillTile_canonical (s t : State) (x h' n : Nat) (h : s.Canonical) (e : s.spillTile x h' n = .ok t) : t.Canonical := by
  revert e
  simp only [State.spillTile]
  split
  · intro e; cases e; exact h
  · split
    · intro e; cases e; exact h
    · split
      · rename_i r hr
        intro e; subst e; exact absurd hr (s.engStop_ok _ _ _ _)
      · split
        · intro e; cases e; exact s.setTileState_canonical _ _ _ _ h
        · split
          · rename_i r hr
            intro e; subst e; exact absurd hr (s.engStop_ok _ _ _ _)
          · split
            · rename_i e1
              split
              · rename_i e2
                intro e; cases e
                exact State.setTileState_canonical _ _ _ _ _ (State.engWrite_canonical _ _ _ _ _ (State.engWrite_canonical _ _ _ _ _ h e1) e2)
              · rename_i hn
                intro e; exact absurd e (hn t)
            · rename_i hn
              intro e; exact absurd e (hn t)
theorem State.spillFrame_canonical (s : State) (x h' n k : Nat) (h : s.Canonical) : (s.spillFrame x h' n k).1.Canonical := by
  simp only [State.spillFrame]
  split
  · exact h
  · rename_i u _
    have key : ∀ (l : List Nat) (r : State × SpillEnd), r.1.Canonical → (l.foldl (fun (r : State × SpillEnd) loc =>
        match r.2, r.1.spillTile x h' (spillIx u n loc) with
        | .done, .ok s => (s, .done) | .done, .fail _ _ => (r.1, .fail) | .done, .hold => (r.1, .hold) | _, _ => r) r).1.Canonical := by
      intro l
      induction l with
      | nil => intro r hr; exact hr
      | cons a l ih =>
        intro r hr
        refine ih _ ?_
        dsimp only
        split
        · rename_i e; exact State.spillTile_canonical _ _ _ _ _ hr e
        all_goals exact hr
    split
    · exact State.Canonical.of_mem (key _ (s, .done) h) (State.setFrame_mem _ _ _ _ _ _)
    · exact key _ (s, .done) h
theorem State.evict_canonical (s : State) (x n room : Nat) (keep : Option (Nat × Nat)) (h : s.Canonical) : (s.evict x n room keep).1.Canonical := by
  simp only [State.evict]
  have out : ∀ (l : List Surface) (acc : State × Bool × Bool), acc.1.Canonical →
      (l.foldl (fun (acc : State × Bool × Bool) u =>
        if acc.2.1 || acc.2.2 then acc
        else
          let r := (acc.1.presentFrames x n u).foldl (fun (a : State × Bool × Bool × Bool) k =>
            let (s, fits, held, skip) := a
            if fits || held || skip || keep == some (u.handle, k) then a
            else match s.spillFrame x u.handle n k with
              | (s, .done) => (s, s.used x (s.stackOf n) ≤ room, false, false)
              | (s, .hold) => (s, false, true, false)
              | (s, .fail) => (s.spillFault x u.handle, false, false, true)) (acc.1, acc.2.1, acc.2.2, false)
          (r.1, r.2.1, r.2.2.1)) acc).1.Canonical := by
    intro l
    induction l with
    | nil => intro acc h; exact h
    | cons u l ih =>
      intro acc h
      refine ih _ ?_
      dsimp only
      split
      · exact h
      · have inn : ∀ (ks : List Nat) (a : State × Bool × Bool × Bool), a.1.Canonical →
            (ks.foldl (fun (a : State × Bool × Bool × Bool) k =>
              let (s, fits, held, skip) := a
              if fits || held || skip || keep == some (u.handle, k) then a
              else match s.spillFrame x u.handle n k with
                | (s, .done) => (s, s.used x (s.stackOf n) ≤ room, false, false)
                | (s, .hold) => (s, false, true, false)
                | (s, .fail) => (s.spillFault x u.handle, false, false, true)) a).1.Canonical := by
          intro ks
          induction ks with
          | nil => intro a h; exact h
          | cons k ks ih2 =>
            intro a h
            refine ih2 _ ?_
            obtain ⟨q, fits, held, skip⟩ := a
            dsimp only
            split
            · exact h
            · have hq := q.spillFrame_canonical x u.handle n k h
              split
              · rename_i e; rw [e] at hq; exact hq
              · rename_i e; rw [e] at hq; exact hq
              · rename_i e; rw [e] at hq; exact State.Canonical.of_mem hq (by simp)
        exact inn _ _ h
  exact out _ _ h
/-- The state that an access to a tile leaves, when it leaves one. -/
def TileRes.Keeps (P : State → Prop) : TileRes → Prop | .ok s | .noFrame s | .fault s _ _ | .hold s => P s
theorem State.takeFrame_canonical (s : State) (x h' n k : Nat) (h : s.Canonical) : (s.takeFrame x h' n k).Keeps State.Canonical := by
  simp only [State.takeFrame]
  split
  · exact h
  · split
    · exact h
    · have hq : (if (decide (s.used x (s.stackOf n) < s.quota x (s.stackOf n)) && (s.freeFrame? (s.stackOf n)).isSome) = true then (s, true, false)
          else s.evict x n (min (s.quota x (s.stackOf n) - 1) (s.used x (s.stackOf n) - 1)) (some (h', k))).1.Canonical := by
        split
        · exact h
        · exact s.evict_canonical _ _ _ _ h
      revert hq
      generalize (if (decide (s.used x (s.stackOf n) < s.quota x (s.stackOf n)) && (s.freeFrame? (s.stackOf n)).isSome) = true then (s, true, false)
          else s.evict x n (min (s.quota x (s.stackOf n) - 1) (s.used x (s.stackOf n) - 1)) (some (h', k))) = r
      intro hq
      split
      · exact hq
      · split
        · exact hq
        · split
          · exact hq
          · exact hq.of_mem (State.setFrame_mem _ _ _ _ _ _)
theorem State.fillTile_canonical (s : State) (x h' t : Nat) (d : List Byte) (b : Bool) (h : s.Canonical) : (s.fillTile x h' t d b).Canonical := by
  simp only [State.fillTile]
  split
  · exact h
  · refine State.setTileState_canonical _ _ _ _ _ ?_
    split
    · exact State.Canonical.filled _ _ _ h
    · exact (State.Canonical.filled _ _ _ h).of_mem (State.setSurf_mem _ _ _)
theorem State.makeResident_canonical (s : State) (x h' n : Nat) (h : s.Canonical) : (s.makeResident x h' n).Keeps State.Canonical := by
  simp only [State.makeResident]
  split
  · exact h
  · rename_i u _
    split
    · exact h
    · have hq := s.takeFrame_canonical x h' (Surf.side u n).1 ((Surf.side u n).2 * (16 * Surf.bytes u) / 4096) h
      revert hq
      generalize s.takeFrame x h' (Surf.side u n).1 ((Surf.side u n).2 * (16 * Surf.bytes u) / 4096) = r
      intro hq
      split
      · split
        · split <;> exact hq
        · split
          · exact hq
          · exact State.fillTile_canonical _ _ _ _ _ _ (State.Canonical.of_mem hq (State.refillReach_mem _ _ _ _))
      · exact hq
theorem State.keepAt_mem (s : State) (c : TexelAt) (w : Nat → TileWait) : (s.keepAt c w).mem = s.mem := by
  simp only [State.keepAt]; split <;> rfl
theorem State.texelPut_canonical (s : State) (b : Byte) (c : TexelAt) (v : Bool) (h : s.Canonical) : (s.texelPut b c v).Canonical := by
  simp only [State.texelPut]
  split
  · exact h
  · rename_i u _
    split
    · exact h
    · have hq := s.makeResident_canonical c.x c.h (Surf.place u c.px c.py c.layer).2.2.1 h
      revert hq
      generalize s.makeResident c.x c.h (Surf.place u c.px c.py c.layer).2.2.1 = r
      intro hq
      split
      · rename_i q
        have hq : q.Canonical := hq
        generalize q.texelKeyAt c = o
        cases o with
        | none => exact hq
        | some k => exact (State.Canonical.write hq k b).of_mem (State.cleanKeys_mem _ _)
      all_goals exact State.Canonical.of_mem hq (State.keepAt_mem _ _ _)
theorem State.texelWrite_canonical (s : State) (a : Nat) (b : Byte) (h : s.Canonical) : (s.texelWrite a b).Canonical := s.texelPut_canonical _ _ _ h
/-- Bytes arriving at any homes keep memory canonical. -/
theorem State.homeWrite_canonical (s : State) (l : List Host.Cell) (h : s.Canonical) : (s.homeWrite l).Canonical := by
  simp only [State.homeWrite]
  have h1 : (if (l.filter fun c => !isTexel (c.1 % keyUnit)).isEmpty then s else s.putPlain (l.filter fun c => !isTexel (c.1 % keyUnit))).Canonical := by
    split
    · exact h
    · exact s.putPlain_canonical _ h
  split
  · exact h1
  · have h2 := State.Canonical.fold (l.filter fun c => isTexel (c.1 % keyUnit)) (fun s' c => s'.texelWrite (c.1 % keyUnit) c.2)
      (fun s c h => s.texelWrite_canonical _ _ h) h1
    exact h2.of_mem (State.keepSnaps_mem _ _ _)
theorem State.homeWriteN_canonical (s : State) (loc n v : Nat) (h : s.Canonical) : (s.homeWriteN loc n v).Canonical := s.homeWrite_canonical _ h
theorem State.homeAtomic_canonical (s : State) (op : AtomOp) (ty : Ty) (loc : Nat) (v c : DWord) (h : s.Canonical) : (s.homeAtomic op ty loc v c).2.Canonical :=
  s.homeWriteN_canonical _ _ _ h
@[simp] theorem State.homePoison_mem (s : State) (l : List Nat) : (s.homePoison l).mem = s.mem := by
  simp only [State.homePoison]
  induction l generalizing s with
  | nil => rfl
  | cons a l ih =>
    rw [List.foldl_cons, ih]
    split
    · split <;> simp
    · simp

end Sys2Proof.Machine
end

