-- ==== Sys2Proof/Laws/PerInstr.lean ====
section
/-!
SUPPORT. The family RoundTrip of LAWS.json: one lemma per constructor of Instr.
-/
namespace Sys2Proof.Laws.RoundTrip

/-- The word of a well-formed instruction decodes to that instruction (R161 to R172, R179). -/
def Statement (i : Instr) : Prop := i.wf = true → decodeWord (encode i) = .ok i
/-- From the fields of an instruction. -/
theorem of_view (i : Instr) (v : View) (hv : i.view = some v) (hi : v.wf = true → i.own = true → v.instr = i) : Statement i := by
  intro h
  simp only [Instr.wf, hv, Bool.and_eq_true] at h
  rw [encode, hv, decode_word v h.1, hi h.1 h.2]
/-- A device step has no word. -/
theorem device (i : Instr) (h : i.view = none) : Statement i := by
  intro hw
  simp [Instr.wf, h] at hw
theorem nop (f : VF) : Statement (.nop f) := of_view _ _ rfl fun _ _ => congrArg _ (vf_instr f)
theorem bra (g : Guard) (off : BitVec 32) : Statement (.bra g off) := of_view _ _ rfl fun _ _ => rfl
theorem brx (f : VF) : Statement (.brx f) := of_view _ _ rfl fun _ _ => congrArg _ (vf_instr f)
theorem call (g : Guard) (dst : Operand) (off : BitVec 32) : Statement (.call g dst off) := of_view _ _ rfl fun _ _ => rfl
theorem callx (f : VF) : Statement (.callx f) := of_view _ _ rfl fun _ _ => congrArg _ (vf_instr f)
theorem ret (f : VF) : Statement (.ret f) := of_view _ _ rfl fun _ _ => congrArg _ (vf_instr f)
theorem exit (f : VF) : Statement (.exit f) := of_view _ _ rfl fun _ _ => congrArg _ (vf_instr f)
theorem trap (f : VF) : Statement (.trap f) := of_view _ _ rfl fun _ _ => congrArg _ (vf_instr f)
theorem tret (f : VF) : Statement (.tret f) := of_view _ _ rfl fun _ _ => congrArg _ (vf_instr f)
theorem trapf (f : VF) : Statement (.trapf f) := of_view _ _ rfl fun _ _ => congrArg _ (vf_instr f)
theorem brk (f : VF) : Statement (.brk f) := of_view _ _ rfl fun _ _ => congrArg _ (vf_instr f)
theorem sleep (f : VF) : Statement (.sleep f) := of_view _ _ rfl fun _ _ => congrArg _ (vf_instr f)
theorem sleepExpiry (p : Party) (lane : Nat) : Statement (.sleepExpiry p lane) := device _ rfl
theorem wait (f : VF) : Statement (.wait f) := of_view _ _ rfl fun _ _ => congrArg _ (vf_instr f)
theorem waittl (f : VF) : Statement (.waittl f) := of_view _ _ rfl fun _ _ => congrArg _ (vf_instr f)
theorem waitct (f : VF) : Statement (.waitct f) := of_view _ _ rfl fun _ _ => congrArg _ (vf_instr f)
theorem waitEnd (p : Party) (lane : Nat) : Statement (.waitEnd p lane) := device _ rfl
theorem phase (f : VF) : Statement (.phase f) := of_view _ _ rfl fun _ _ => congrArg _ (vf_instr f)
theorem bar (f : VF) : Statement (.bar f) := of_view _ _ rfl fun _ _ => congrArg _ (vf_instr f)
theorem tbinit (f : VF) : Statement (.tbinit f) := of_view _ _ rfl fun _ _ => congrArg _ (vf_instr f)
theorem tbexp (f : VF) : Statement (.tbexp f) := of_view _ _ rfl fun _ _ => congrArg _ (vf_instr f)
theorem tbarv (f : VF) : Statement (.tbarv f) := of_view _ _ rfl fun _ _ => congrArg _ (vf_instr f)
theorem tbwait (f : VF) : Statement (.tbwait f) := of_view _ _ rfl fun _ _ => congrArg _ (vf_instr f)
theorem barrierNetworkClock : Statement .barrierNetworkClock := device _ rfl
theorem xfer (f : VF) (ch snd rcv : BitVec 3) : Statement (.xfer f ch snd rcv) := of_view _ _ rfl fun _ o => xfer_instr _ _ _ _  o
theorem roleq (f : VF) (src dst : BitVec 3) : Statement (.roleq f src dst) := of_view _ _ rfl fun _ o => roleq_instr _ _ _  o
theorem gangset (f : VF) : Statement (.gangset f) := of_view _ _ rfl fun _ _ => congrArg _ (vf_instr f)
theorem driftset (f : VF) : Statement (.driftset f) := of_view _ _ rfl fun _ _ => congrArg _ (vf_instr f)
theorem kset (f : VF) : Statement (.kset f) := of_view _ _ rfl fun _ _ => congrArg _ (vf_instr f)
theorem spawn (f : VF) : Statement (.spawn f) := of_view _ _ rfl fun _ _ => congrArg _ (vf_instr f)
theorem launch (f : VF) : Statement (.launch f) := of_view _ _ rfl fun _ _ => congrArg _ (vf_instr f)
theorem mov (f : VF) : Statement (.mov f) := of_view _ _ rfl fun _ _ => congrArg _ (vf_instr f)
theorem movsGet (f : VF) : Statement (.movsGet f) := of_view _ _ rfl fun _ o => movsGet_instr _ o
theorem movsSet (f : VF) : Statement (.movsSet f) := of_view _ _ rfl fun _ o => movsSet_instr _ o
theorem iadd (f : VF) : Statement (.iadd f) := of_view _ _ rfl fun _ _ => congrArg _ (vf_instr f)
theorem isub (f : VF) : Statement (.isub f) := of_view _ _ rfl fun _ _ => congrArg _ (vf_instr f)
theorem imul (f : VF) : Statement (.imul f) := of_view _ _ rfl fun _ _ => congrArg _ (vf_instr f)
theorem imulh (f : VF) : Statement (.imulh f) := of_view _ _ rfl fun _ _ => congrArg _ (vf_instr f)
theorem imad (f : VF) : Statement (.imad f) := of_view _ _ rfl fun _ _ => congrArg _ (vf_instr f)
theorem imadw (f : VF) : Statement (.imadw f) := of_view _ _ rfl fun _ _ => congrArg _ (vf_instr f)
theorem imin (f : VF) : Statement (.imin f) := of_view _ _ rfl fun _ _ => congrArg _ (vf_instr f)
theorem imax (f : VF) : Statement (.imax f) := of_view _ _ rfl fun _ _ => congrArg _ (vf_instr f)
theorem iclamp (f : VF) : Statement (.iclamp f) := of_view _ _ rfl fun _ _ => congrArg _ (vf_instr f)
theorem iabs (f : VF) : Statement (.iabs f) := of_view _ _ rfl fun _ _ => congrArg _ (vf_instr f)
theorem and (f : VF) : Statement (.and f) := of_view _ _ rfl fun _ _ => congrArg _ (vf_instr f)
theorem or (f : VF) : Statement (.or f) := of_view _ _ rfl fun _ _ => congrArg _ (vf_instr f)
theorem xor (f : VF) : Statement (.xor f) := of_view _ _ rfl fun _ _ => congrArg _ (vf_instr f)
theorem andn (f : VF) : Statement (.andn f) := of_view _ _ rfl fun _ _ => congrArg _ (vf_instr f)
theorem shl (f : VF) : Statement (.shl f) := of_view _ _ rfl fun _ _ => congrArg _ (vf_instr f)
theorem shr (f : VF) : Statement (.shr f) := of_view _ _ rfl fun _ _ => congrArg _ (vf_instr f)
theorem sar (f : VF) : Statement (.sar f) := of_view _ _ rfl fun _ _ => congrArg _ (vf_instr f)
theorem shf (f : VF) : Statement (.shf f) := of_view _ _ rfl fun _ _ => congrArg _ (vf_instr f)
theorem bfe (f : VF) : Statement (.bfe f) := of_view _ _ rfl fun _ _ => congrArg _ (vf_instr f)
theorem bfi (f : VF) : Statement (.bfi f) := of_view _ _ rfl fun _ _ => congrArg _ (vf_instr f)
theorem popc (f : VF) : Statement (.popc f) := of_view _ _ rfl fun _ _ => congrArg _ (vf_instr f)
theorem clz (f : VF) : Statement (.clz f) := of_view _ _ rfl fun _ _ => congrArg _ (vf_instr f)
theorem brev (f : VF) : Statement (.brev f) := of_view _ _ rfl fun _ _ => congrArg _ (vf_instr f)
theorem prmt (f : VF) : Statement (.prmt f) := of_view _ _ rfl fun _ _ => congrArg _ (vf_instr f)
theorem iset (f : VF) : Statement (.iset f) := of_view _ _ rfl fun _ _ => congrArg _ (vf_instr f)
theorem isel (f : VF) : Statement (.isel f) := of_view _ _ rfl fun _ _ => congrArg _ (vf_instr f)
theorem plog (f : VF) (table : BitVec 8) : Statement (.plog f table) := of_view _ _ rfl fun _ o => plog_instr _ _  o
theorem lea (f : VF) : Statement (.lea f) := of_view _ _ rfl fun _ _ => congrArg _ (vf_instr f)
theorem place (f : VF) : Statement (.place f) := of_view _ _ rfl fun _ _ => congrArg _ (vf_instr f)
theorem shfl (f : VF) : Statement (.shfl f) := of_view _ _ rfl fun _ _ => congrArg _ (vf_instr f)
theorem vote (f : VF) : Statement (.vote f) := of_view _ _ rfl fun _ _ => congrArg _ (vf_instr f)
theorem redux (f : VF) : Statement (.redux f) := of_view _ _ rfl fun _ _ => congrArg _ (vf_instr f)
theorem idp4 (f : VF) : Statement (.idp4 f) := of_view _ _ rfl fun _ _ => congrArg _ (vf_instr f)
theorem fadd (f : VF) : Statement (.fadd f) := of_view _ _ rfl fun _ _ => congrArg _ (vf_instr f)
theorem fsub (f : VF) : Statement (.fsub f) := of_view _ _ rfl fun _ _ => congrArg _ (vf_instr f)
theorem fmul (f : VF) : Statement (.fmul f) := of_view _ _ rfl fun _ _ => congrArg _ (vf_instr f)
theorem ffma (f : VF) : Statement (.ffma f) := of_view _ _ rfl fun _ _ => congrArg _ (vf_instr f)
theorem fmin (f : VF) : Statement (.fmin f) := of_view _ _ rfl fun _ _ => congrArg _ (vf_instr f)
theorem fmax (f : VF) : Statement (.fmax f) := of_view _ _ rfl fun _ _ => congrArg _ (vf_instr f)
theorem fset (f : VF) : Statement (.fset f) := of_view _ _ rfl fun _ _ => congrArg _ (vf_instr f)
theorem fclass (f : VF) : Statement (.fclass f) := of_view _ _ rfl fun _ _ => congrArg _ (vf_instr f)
theorem frcp (f : VF) : Statement (.frcp f) := of_view _ _ rfl fun _ _ => congrArg _ (vf_instr f)
theorem frsq (f : VF) : Statement (.frsq f) := of_view _ _ rfl fun _ _ => congrArg _ (vf_instr f)
theorem fsqrt (f : VF) : Statement (.fsqrt f) := of_view _ _ rfl fun _ _ => congrArg _ (vf_instr f)
theorem fdiv (f : VF) : Statement (.fdiv f) := of_view _ _ rfl fun _ _ => congrArg _ (vf_instr f)
theorem fexp2 (f : VF) : Statement (.fexp2 f) := of_view _ _ rfl fun _ _ => congrArg _ (vf_instr f)
theorem flog2 (f : VF) : Statement (.flog2 f) := of_view _ _ rfl fun _ _ => congrArg _ (vf_instr f)
theorem fsin (f : VF) : Statement (.fsin f) := of_view _ _ rfl fun _ _ => congrArg _ (vf_instr f)
theorem fcos (f : VF) : Statement (.fcos f) := of_view _ _ rfl fun _ _ => congrArg _ (vf_instr f)
theorem ftanh (f : VF) : Statement (.ftanh f) := of_view _ _ rfl fun _ _ => congrArg _ (vf_instr f)
theorem frnd (f : VF) : Statement (.frnd f) := of_view _ _ rfl fun _ _ => congrArg _ (vf_instr f)
theorem fscale (f : VF) : Statement (.fscale f) := of_view _ _ rfl fun _ _ => congrArg _ (vf_instr f)
theorem fcvt (f : VF) : Statement (.fcvt f) := of_view _ _ rfl fun _ _ => congrArg _ (vf_instr f)
theorem i2f (f : VF) : Statement (.i2f f) := of_view _ _ rfl fun _ _ => congrArg _ (vf_instr f)
theorem f2i (f : VF) : Statement (.f2i f) := of_view _ _ rfl fun _ _ => congrArg _ (vf_instr f)
theorem hfma2 (f : VF) : Statement (.hfma2 f) := of_view _ _ rfl fun _ _ => congrArg _ (vf_instr f)
theorem fdot2 (f : VF) : Statement (.fdot2 f) := of_view _ _ rfl fun _ _ => congrArg _ (vf_instr f)
theorem fpack (f : VF) : Statement (.fpack f) := of_view _ _ rfl fun _ _ => congrArg _ (vf_instr f)
theorem funpk (f : VF) : Statement (.funpk f) := of_view _ _ rfl fun _ _ => congrArg _ (vf_instr f)
theorem lds (f : MF) : Statement (.lds f) := of_view _ _ rfl fun _ _ => congrArg _ (mf_instr f)
theorem sts (f : MF) : Statement (.sts f) := of_view _ _ rfl fun _ _ => congrArg _ (mf_instr f)
theorem atoms (f : MF) : Statement (.atoms f) := of_view _ _ rfl fun _ _ => congrArg _ (mf_instr f)
theorem ldsr (f : MF) : Statement (.ldsr f) := of_view _ _ rfl fun _ _ => congrArg _ (mf_instr f)
theorem stsr (f : MF) : Statement (.stsr f) := of_view _ _ rfl fun _ _ => congrArg _ (mf_instr f)
theorem atomsr (f : MF) : Statement (.atomsr f) := of_view _ _ rfl fun _ _ => congrArg _ (mf_instr f)
theorem mapr (f : MF) : Statement (.mapr f) := of_view _ _ rfl fun _ _ => congrArg _ (mf_instr f)
theorem unmapr (f : MF) : Statement (.unmapr f) := of_view _ _ rfl fun _ _ => congrArg _ (mf_instr f)
theorem flushr (f : MF) : Statement (.flushr f) := of_view _ _ rfl fun _ _ => congrArg _ (mf_instr f)
theorem mapLineFill (team map line : Nat) : Statement (.mapLineFill team map line) := device _ rfl
theorem atomg (f : MF) : Statement (.atomg f) := of_view _ _ rfl fun _ _ => congrArg _ (mf_instr f)
theorem sld (f : MF) : Statement (.sld f) := of_view _ _ rfl fun _ _ => congrArg _ (mf_instr f)
theorem sst (f : MF) : Statement (.sst f) := of_view _ _ rfl fun _ _ => congrArg _ (mf_instr f)
theorem atomf (f : MF) : Statement (.atomf f) := of_view _ _ rfl fun _ _ => congrArg _ (mf_instr f)
theorem ldref (f : MF) : Statement (.ldref f) := of_view _ _ rfl fun _ _ => congrArg _ (mf_instr f)
theorem stref (f : MF) : Statement (.stref f) := of_view _ _ rfl fun _ _ => congrArg _ (mf_instr f)
theorem ldh (f : MF) : Statement (.ldh f) := of_view _ _ rfl fun _ _ => congrArg _ (mf_instr f)
theorem sth (f : MF) : Statement (.sth f) := of_view _ _ rfl fun _ _ => congrArg _ (mf_instr f)
theorem atomh (f : MF) : Statement (.atomh f) := of_view _ _ rfl fun _ _ => congrArg _ (mf_instr f)
theorem newobj (f : MF) : Statement (.newobj f) := of_view _ _ rfl fun _ _ => congrArg _ (mf_instr f)
theorem pin (f : MF) : Statement (.pin f) := of_view _ _ rfl fun _ _ => congrArg _ (mf_instr f)
theorem unpin (f : MF) : Statement (.unpin f) := of_view _ _ rfl fun _ _ => congrArg _ (mf_instr f)
theorem refeq (f : MF) : Statement (.refeq f) := of_view _ _ rfl fun _ _ => congrArg _ (mf_instr f)
theorem cpy (f : EF) (ctx : BitVec 2) : Statement (.cpy f ctx) := of_view _ _ rfl fun _ _ => congrArg (Instr.cpy f) (ctx_mod ctx)
theorem cpyg (f : EF) (ctx : BitVec 2) : Statement (.cpyg f ctx) := of_view _ _ rfl fun _ _ => congrArg (Instr.cpyg f) (ctx_mod ctx)
theorem cpys (f : EF) (ctx : BitVec 2) : Statement (.cpys f ctx) := of_view _ _ rfl fun _ _ => congrArg (Instr.cpys f) (ctx_mod ctx)
theorem cpyw (f : EF) (ctx : BitVec 2) : Statement (.cpyw f ctx) := of_view _ _ rfl fun _ _ => congrArg (Instr.cpyw f) (ctx_mod ctx)
theorem chain (f : EF) (ctx : BitVec 2) : Statement (.chain f ctx) := of_view _ _ rfl fun _ _ => congrArg (Instr.chain f) (ctx_mod ctx)
theorem cpyx (f : EF) (ctx : BitVec 2) : Statement (.cpyx f ctx) := of_view _ _ rfl fun _ _ => congrArg (Instr.cpyx f) (ctx_mod ctx)
theorem coll (f : EF) (ctx : BitVec 2) : Statement (.coll f ctx) := of_view _ _ rfl fun _ _ => congrArg (Instr.coll f) (ctx_mod ctx)
theorem recordAccept (team ctx : Nat) : Statement (.recordAccept team ctx) := device _ rfl
theorem recordChunkDelivered (team ctx recno : Nat) : Statement (.recordChunkDelivered team ctx recno) := device _ rfl
theorem recordComplete (team ctx recno : Nat) : Statement (.recordComplete team ctx recno) := device _ rfl
theorem chainRecordPoll (team ctx : Nat) : Statement (.chainRecordPoll team ctx) := device _ rfl
theorem skip (team ctx : Nat) : Statement (.skip team ctx) := device _ rfl
theorem abort (team ctx : Nat) : Statement (.abort team ctx) := device _ rfl
theorem cdres (f : EF) (tag : BitVec 3) : Statement (.cdres f tag) := of_view _ _ rfl fun _ _ => congrArg (Instr.cdres f) (tag_mod tag)
theorem cdrel (f : EF) (tag : BitVec 3) : Statement (.cdrel f tag) := of_view _ _ rfl fun _ _ => congrArg (Instr.cdrel f) (tag_mod tag)
theorem cdpush (f : EF) (sz : BitVec 2) (tag : BitVec 3) : Statement (.cdpush f sz tag) := of_view _ _ rfl fun _ _ => cdpush_instr _ _ _
theorem streamAppend (team tag : Nat) : Statement (.streamAppend team tag) := device _ rfl
theorem mma (f : EF) (acc : BitVec 4) (aty bty : Option Ty) : Statement (.mma f acc aty bty) := of_view _ _ rfl fun _ o => mma_instr _ _ _ _ o
theorem mmag (f : EF) (acc : BitVec 4) (aty bty : Option Ty) : Statement (.mmag f acc aty bty) := of_view _ _ rfl fun _ o => mmag_instr _ _ _ _ o
theorem mmaSlice (cluster core : Nat) : Statement (.mmaSlice cluster core) := device _ rfl
theorem tileOpComplete (cluster core : Nat) : Statement (.tileOpComplete cluster core) := device _ rfl
theorem accrd (f : EF) (acc : BitVec 4) (ty : Ty) (rnd : Rnd) : Statement (.accrd f acc ty rnd) := of_view _ _ rfl fun _ _ => accrd_instr _ _ _ _
theorem accwr (f : EF) (acc : BitVec 4) (ty : Ty) : Statement (.accwr f acc ty) := of_view _ _ rfl fun _ _ => accwr_instr _ _ _
theorem accst (f : EF) (acc : BitVec 4) (ty : Ty) (sf : Bool) : Statement (.accst f acc ty sf) := of_view _ _ rfl fun _ _ => accst_instr _ _ _ _
theorem accrel (f : EF) (acc : BitVec 4) : Statement (.accrel f acc) := of_view _ _ rfl fun _ _ => accrel_instr _ _
theorem accSlotCleared (cluster core slot : Nat) : Statement (.accSlotCleared cluster core slot) := device _ rfl
theorem vxm (f : EF) : Statement (.vxm f) := of_view _ _ rfl fun _ _ => rfl
theorem vxmPass (team : Nat) : Statement (.vxmPass team) := device _ rfl
theorem vxmcfg (f : EF) (wfmt : BitVec 3) : Statement (.vxmcfg f wfmt) := of_view _ _ rfl fun _ _ => congrArg (Instr.vxmcfg f) (tag_mod wfmt)
theorem salloc (f : EF) : Statement (.salloc f) := of_view _ _ rfl fun _ _ => rfl
theorem sfree (f : EF) : Statement (.sfree f) := of_view _ _ rfl fun _ _ => rfl
theorem sprio (f : EF) : Statement (.sprio f) := of_view _ _ rfl fun _ _ => rfl
theorem prim (f : EF) : Statement (.prim f) := of_view _ _ rfl fun _ _ => rfl
theorem exprt (f : EF) (kill : Bool) : Statement (.exprt f kill) := of_view _ _ rfl fun _ _ => exprt_instr _ _
theorem hevac (f : EF) : Statement (.hevac f) := of_view _ _ rfl fun _ _ => rfl
theorem movsr (f : VF) : Statement (.movsr f) := of_view _ _ rfl fun _ _ => congrArg _ (vf_instr f)
theorem movsw (f : VF) : Statement (.movsw f) := of_view _ _ rfl fun _ _ => congrArg _ (vf_instr f)
theorem tlbinvAll (f : VF) : Statement (.tlbinvAll f) := of_view _ _ rfl fun _ o => tlbinvAll_instr _ o
theorem tlbinvPage (f : VF) : Statement (.tlbinvPage f) := of_view _ _ rfl fun _ o => tlbinvPage_instr _ o
theorem rng (f : VF) : Statement (.rng f) := of_view _ _ rfl fun _ _ => congrArg _ (vf_instr f)
theorem perfc (f : VF) : Statement (.perfc f) := of_view _ _ rfl fun _ _ => congrArg _ (vf_instr f)
theorem clauseFetch (p : Party) : Statement (.clauseFetch p) := device _ rfl
theorem issueClock (cluster core : Nat) : Statement (.issueClock cluster core) := device _ rfl
theorem registerWriteback (team ix : Nat) : Statement (.registerWriteback team ix) := device _ rfl
theorem pooledAtomic (team ix : Nat) : Statement (.pooledAtomic team ix) := device _ rfl
theorem drain (cluster ix : Nat) (out : Bool) : Statement (.drain cluster ix out) := device _ rfl
theorem combine (cluster ix : Nat) (out : Bool) : Statement (.combine cluster ix out) := device _ rfl
theorem spillTile (x handle stack : Nat) : Statement (.spillTile x handle stack) := device _ rfl
theorem tileRefill (x handle t : Nat) : Statement (.tileRefill x handle t) := device _ rfl
theorem surfaceFramesFreed (x handle : Nat) : Statement (.surfaceFramesFreed x handle) := device _ rfl
theorem rasterise (x stack : Nat) : Statement (.rasterise x stack) := device _ rfl
theorem fragmentTeamLaunch (x stack cluster : Nat) : Statement (.fragmentTeamLaunch x stack cluster) := device _ rfl
theorem exportApply (x handle px py : Nat) : Statement (.exportApply x handle px py) := device _ rfl
theorem relCtlStart (x : Nat) (ctl : BitVec 32) : Statement (.relCtlStart x ctl) := device _ rfl
theorem flipAck (x cluster core : Nat) : Statement (.flipAck x cluster core) := device _ rfl
theorem relocateObject (x die : Nat) : Statement (.relocateObject x die) := device _ rfl
theorem rtCtlCopy (fn : Nat) : Statement (.rtCtlCopy fn) := device _ rfl
theorem rtCtlCommit (fn : Nat) : Statement (.rtCtlCommit fn) := device _ rfl
theorem regionTableDrained : Statement .regionTableDrained := device _ rfl
theorem ptRootWrite (x : Nat) (v : BitVec 64) : Statement (.ptRootWrite x v) := device _ rfl
theorem ptGenWrite (x : Nat) (v : BitVec 64) : Statement (.ptGenWrite x v) := device _ rfl
theorem srfCarveWrite (fn stack : Nat) (v : BitVec 32) : Statement (.srfCarveWrite fn stack v) := device _ rfl
theorem carveShrinkDone (stack : Nat) : Statement (.carveShrinkDone stack) := device _ rfl
theorem surfQuotaWrite (x : Nat) (v : BitVec 64) : Statement (.surfQuotaWrite x v) := device _ rfl
theorem ctOffWrite (die : Nat) (v : BitVec 64) : Statement (.ctOffWrite die v) := device _ rfl
theorem registerWrite (fn off : Nat) (wide : Bool) (v : BitVec 64) : Statement (.registerWrite fn off wide v) := device _ rfl
theorem hsemTake (fn n : Nat) : Statement (.hsemTake fn n) := device _ rfl
theorem hsemGive (fn n : Nat) : Statement (.hsemGive fn n) := device _ rfl
theorem cqTailDoorbell (fn q : Nat) (v : BitVec 32) : Statement (.cqTailDoorbell fn q v) := device _ rfl
theorem queueEntryNop (q : Nat) : Statement (.queueEntryNop q) := device _ rfl
theorem queueEntryLaunch (q : Nat) : Statement (.queueEntryLaunch q) := device _ rfl
theorem queueEntryTlbInvalidate (q : Nat) : Statement (.queueEntryTlbInvalidate q) := device _ rfl
theorem queueEntryFaultReplay (q : Nat) : Statement (.queueEntryFaultReplay q) := device _ rfl
theorem queueEntrySignal (q : Nat) : Statement (.queueEntrySignal q) := device _ rfl
theorem queueEntryWait (q : Nat) : Statement (.queueEntryWait q) := device _ rfl
theorem queueEntryReserved (q : Nat) : Statement (.queueEntryReserved q) := device _ rfl
theorem queueRingFault (q : Nat) : Statement (.queueRingFault q) := device _ rfl
theorem replayRelease (x : Nat) : Statement (.replayRelease x) := device _ rfl
theorem ready (x gen mem : Nat) : Statement (.ready x gen mem) := device _ rfl
theorem refuse (x gen mem : Nat) : Statement (.refuse x gen mem) := device _ rfl
theorem go (x gen : Nat) (tstart : BitVec 64) : Statement (.go x gen tstart) := device _ rfl
theorem tstartReached (x gen : Nat) : Statement (.tstartReached x gen) := device _ rfl
theorem startBarrierTimeout (x gen : Nat) : Statement (.startBarrierTimeout x gen) := device _ rfl
theorem startAbort (x gen : Nat) : Statement (.startAbort x gen) := device _ rfl
theorem unitPlace (cluster : Nat) : Statement (.unitPlace cluster) := device _ rfl
theorem unitSteal (cluster : Nat) : Statement (.unitSteal cluster) := device _ rfl
theorem thermalSample (cluster core temp droops : Nat) : Statement (.thermalSample cluster core temp droops) := device _ rfl
theorem teamEnd (team : Nat) : Statement (.teamEnd team) := device _ rfl
theorem gridRetire (x gen : Nat) : Statement (.gridRetire x gen) := device _ rfl
theorem errorReport (x gen cause : Nat) : Statement (.errorReport x gen cause) := device _ rfl
theorem taskEvaluate (x cluster ix : Nat) : Statement (.taskEvaluate x cluster ix) := device _ rfl
theorem taskRun (x cluster : Nat) : Statement (.taskRun x cluster) := device _ rfl
theorem steepEnd (team group : Nat) : Statement (.steepEnd team group) := device _ rfl
theorem dbgHalt (fn x : Nat) : Statement (.dbgHalt fn x) := device _ rfl
theorem dbgResume (fn x : Nat) : Statement (.dbgResume fn x) := device _ rfl
theorem teamParked (x : Nat) : Statement (.teamParked x) := device _ rfl
theorem preStop (fn x : Nat) : Statement (.preStop fn x) := device _ rfl
theorem cutDrainDone (x : Nat) : Statement (.cutDrainDone x) := device _ rfl
theorem preResume (fn x : Nat) : Statement (.preResume fn x) := device _ rfl
theorem restorePlace (x : Nat) : Statement (.restorePlace x) := device _ rfl
theorem memoryError (addr symbols : Nat) : Statement (.memoryError addr symbols) := device _ rfl
theorem rollback (x gen : Nat) : Statement (.rollback x gen) := device _ rfl
theorem selfTest (u : TestUnit) : Statement (.selfTest u) := device _ rfl
theorem iftStart (fn : Nat) (v : BitVec 32) : Statement (.iftStart fn v) := device _ rfl
theorem inFieldTest : Statement .inFieldTest := device _ rfl
theorem dieLost (d : Nat) : Statement (.dieLost d) := device _ rfl
theorem dieCtlOff (fn : Nat) (v : BitVec 32) : Statement (.dieCtlOff fn v) := device _ rfl
theorem evacuateStack : Statement .evacuateStack := device _ rfl
theorem ckptStart (fn : Nat) : Statement (.ckptStart fn) := device _ rfl
theorem ckptRestore (fn : Nat) : Statement (.ckptRestore fn) := device _ rfl
theorem ckptFinish (ok : Bool) : Statement (.ckptFinish ok) := device _ rfl
theorem hostLinkDown (fn : Nat) : Statement (.hostLinkDown fn) := device _ rfl
theorem hsemLinkRelease (fn : Nat) : Statement (.hsemLinkRelease fn) := device _ rfl
theorem peerRequest (src addr : Nat) (wr : Bool) (at_ : Option AtomOp) (ty : Ty) (v cmp : BitVec 64) : Statement (.peerRequest src addr wr at_ ty v cmp) := device _ rfl
theorem burzilPortDown (port : Nat) : Statement (.burzilPortDown port) := device _ rfl
theorem requestUndeliverable (p : Party) (lane : Nat) (addr : BitVec 64) : Statement (.requestUndeliverable p lane addr) := device _ rfl
theorem collAbort (fn x grp : Nat) : Statement (.collAbort fn x grp) := device _ rfl
theorem abortToken (x grp attempt : Nat) : Statement (.abortToken x grp attempt) := device _ rfl
theorem collectivePacket (x grp attempt : Nat) (addr : PacketPlace) (v : BitVec 32) : Statement (.collectivePacket x grp attempt addr v) := device _ rfl
theorem syncMessage (offs : BitVec 32) : Statement (.syncMessage offs) := device _ rfl
theorem flCtlEnable (fn : Nat) (v : BitVec 32) : Statement (.flCtlEnable fn v) := device _ rfl
theorem frameStart : Statement .frameStart := device _ rfl
theorem scanOutFrame (n : Nat) : Statement (.scanOutFrame n) := device _ rfl
theorem trustDieBoot : Statement .trustDieBoot := device _ rfl
theorem getVersion (fn : Nat) : Statement (.getVersion fn) := device _ rfl
theorem getCapabilities (fn : Nat) : Statement (.getCapabilities fn) := device _ rfl
theorem negotiateAlgorithms (fn : Nat) : Statement (.negotiateAlgorithms fn) := device _ rfl
theorem getDigests (fn : Nat) : Statement (.getDigests fn) := device _ rfl
theorem getCertificate (fn : Nat) : Statement (.getCertificate fn) := device _ rfl
theorem challenge (fn : Nat) : Statement (.challenge fn) := device _ rfl
theorem getMeasurements (fn : Nat) : Statement (.getMeasurements fn) := device _ rfl
theorem tmCmdGrant (fn x slot : Nat) : Statement (.tmCmdGrant fn x slot) := device _ rfl
theorem tmCmdRevoke (fn slot : Nat) : Statement (.tmCmdRevoke fn slot) := device _ rfl
theorem thermalThrottle : Statement .thermalThrottle := device _ rfl
theorem forwardedLaunchPacket (x gen : Nat) (pkt : List (BitVec 64)) : Statement (.forwardedLaunchPacket x gen pkt) := device _ rfl
theorem hostLinkTrained (fn rate width : Nat) : Statement (.hostLinkTrained fn rate width) := device _ rfl
theorem hostAtomicopCompletion (p : Party) (lane : Nat) (ok : Bool) : Statement (.hostAtomicopCompletion p lane ok) := device _ rfl

end Sys2Proof.Laws.RoundTrip
end

