-- ==== Sys2Proof/Laws/Phases.lean ====
section
/-!
SUPPORT. The steps of the phase machine keep memory in its canonical form.
-/
namespace Sys2Proof.Machine

/-! ## The steps of the phase machine -/

@[simp] theorem State.bufWrite_mem (s : State) (p : Party) (l : Nat) (c : List Host.Cell) : (s.bufWrite p l c).mem = s.mem := rfl
@[simp] theorem State.bufWriteN_mem (s : State) (p : Party) (l loc n v : Nat) : (s.bufWriteN p l loc n v).mem = s.mem := by
  simp only [State.bufWriteN]; split <;> rfl
@[simp] theorem State.toMerge_mem (s : State) (cl : Nat) (es : List MEntry) : (s.toMerge cl es).mem = s.mem := by simp only [State.toMerge]; split <;> rfl
@[simp] theorem State.bufToMerge_mem (s : State) (p : Party) (l : Nat) : (s.bufToMerge p l).mem = s.mem := by simp [State.bufToMerge]
@[simp] theorem State.clearSnap_mem (s : State) (u : Nat) : (s.clearSnap u).mem = s.mem := rfl
@[simp] theorem State.pool_mem (s : State) (a : Pooled) : (s.pool a).mem = s.mem := rfl
theorem State.rasRecord_canonical (s : State) (a b c d e f : Nat) (h : s.Canonical) : (s.rasRecord a b c d e f).Canonical := by
  unfold State.rasRecord
  dsimp only
  generalize hq : (List.range 4).foldl _ s = q
  have h1 : q.Canonical := by
    rw [← hq]
    exact State.Canonical.fold _ _ (fun s i h => s.writePa_canonical _ _ _ h) h
  exact h1.of_mem (by rw [State.msix_mem, State.msix_mem, State.setDreg_mem])
theorem State.rasPlace_canonical (s : State) (a b c d : Nat) (h : s.Canonical) : (s.rasPlace a b c d).Canonical :=
  State.rasRecord_canonical _ _ _ _ _ _ _ (State.Canonical.of_mem h rfl)
@[simp] theorem State.noteLost_mem (s : State) (x gen : Nat) (l : List Nat) : (s.noteLost x gen l).mem = s.mem := by
  simp only [State.noteLost]; split <;> simp
theorem State.poisonHit_canonical (s : State) (x gen : Nat) (l : List Nat) (h : s.Canonical) : (s.poisonHit x gen l).Canonical :=
  ((s.noteLost x gen l).rasPlace_canonical 2 2 gen 0 (h.of_mem (State.noteLost_mem _ _ _ _))).of_mem (State.dueOnce_mem _ _)
theorem State.homeUpdate_canonical (s : State) (op : AtomOp) (ty : Ty) (loc : Nat) (v : DWord) (h : s.Canonical) : (s.homeUpdate op ty loc v).Canonical := by
  simp only [State.homeUpdate]
  split
  · exact h.of_mem (State.keepAt_mem _ _ _)
  · exact s.homeAtomic_canonical _ _ _ _ _ h
theorem State.applyEntry_canonical (s : State) (e : MEntry) (h : s.Canonical) : (s.applyEntry e).Canonical := by
  cases e with
  | plain c => exact s.homeWrite_canonical _ h
  | update loc op ty v by_ =>
    simp only [State.applyEntry]
    split
    · exact State.Canonical.fold by_ _ (fun s l h => s.poisonHit_canonical _ _ _ h) h
    · exact s.homeUpdate_canonical _ _ _ _ h
theorem State.mergeHead_canonical (s : State) (cl : Nat) (h : s.Canonical) : (s.mergeHead cl).Canonical := by
  simp only [State.mergeHead]
  split
  · exact h
  · split
    · exact h
    · exact State.Canonical.of_mem (s.applyEntry_canonical _ h) rfl
theorem State.outHead_canonical (s : State) (cl : Nat) (h : s.Canonical) : (s.outHead cl).Canonical := by
  simp only [State.outHead]
  split
  · exact h
  · exact State.Canonical.of_mem (s.applyEntry_canonical _ h) rfl
theorem times_canonical (f : State → State) (hf : ∀ s, s.Canonical → (f s).Canonical) (n : Nat) (s : State) (h : s.Canonical) : (times f n s).Canonical := by
  induction n generalizing s with
  | zero => exact h
  | succ n ih => exact ih _ (hf s h)
theorem State.flushMerge_canonical (s : State) (cl : Nat) (h : s.Canonical) : (s.flushMerge cl).Canonical := times_canonical _ (fun s h => s.mergeHead_canonical cl h) _ _ h
theorem State.flushOut_canonical (s : State) (cl : Nat) (h : s.Canonical) : (s.flushOut cl).Canonical := times_canonical _ (fun s h => s.outHead_canonical cl h) _ _ h
theorem State.release_canonical (s : State) (p : Party) (l : Nat) (sc : Scope) (h : s.Canonical) : (s.release p l sc).Canonical := by
  have h1 : (s.bufToMerge p l).Canonical := State.Canonical.of_mem h (by simp)
  cases sc with
  | team => exact h
  | cluster => exact h1
  | device => exact State.flushMerge_canonical _ _ h1
  | system => exact State.flushOut_canonical _ _ (State.flushMerge_canonical _ _ h1)
theorem State.acquire_canonical (s : State) (u : Nat) (sc : Scope) (h : s.Canonical) : (s.acquire u sc).Canonical := by
  cases sc with
  | team => exact h
  | cluster => exact h
  | device => exact State.Canonical.of_mem (State.flushMerge_canonical _ _ h) rfl
  | system => exact State.Canonical.of_mem (State.flushOut_canonical _ _ (State.flushMerge_canonical _ _ h)) rfl
theorem State.releaseLanes_canonical (s : State) (p : Party) (ls : List Nat) (sc : Scope) (h : s.Canonical) : (s.releaseLanes p ls sc).Canonical :=
  State.Canonical.fold ls _ (fun s _ h => s.release_canonical _ _ _ h) h
theorem State.ownHome_canonical (s : State) (p : Party) (l loc n : Nat) (h : s.Canonical) : (s.ownHome p l loc n).Canonical := by
  simp only [State.ownHome]
  split
  · exact State.Canonical.of_mem (State.Canonical.fold _ _ (fun s _ h => s.homeWrite_canonical _ h) h) rfl
  · exact h
theorem State.atomicStep_canonical (s : State) (p : Party) (l : Nat) (op : AtomOp) (ty : Ty) (loc : Nat) (v c : DWord) (h : s.Canonical) :
    (s.atomicStep p l op ty loc v c).2.Canonical := State.homeAtomic_canonical _ _ _ _ _ _ (s.ownHome_canonical _ _ _ _ h)
theorem State.commute_mem (s : State) (p : Party) (loc : Nat) (op : AtomOp) (ty : Ty) (v : DWord) : (s.commute p loc op ty v).mem = s.mem := by
  simp only [State.commute]
  split
  · rfl
  · simp
theorem State.snapPage_canonical (s : State) (x gen pg : Nat) (h : s.Canonical) : (s.snapPage x gen pg).Canonical := by
  simp only [State.snapPage]
  split
  · exact h
  · split
    · exact h
    · split
      · exact h
      · split
        · exact h
        · rename_i fr _
          generalize (List.range (2 ^ 16)).map _ = cells
          exact (State.homeWrite_canonical s cells h).of_mem (by rw [State.setUsed_mem, State.modLaunch_mem])
theorem State.snapFirst_canonical (s : State) (x gen loc : Nat) (p : Page) (h : s.Canonical) : (s.snapFirst x gen loc p).Canonical := by
  simp only [State.snapFirst]
  split
  · exact s.snapPage_canonical _ _ _ h
  · exact h

end Sys2Proof.Machine
end

