-- ==== Sys2Proof/Laws/Traps.lean ====
section
/-!
SUPPORT. Rings, traps and the end of an instruction keep memory in its canonical form.
-/
namespace Sys2Proof.Machine

/-! ## Rings, traps and the end of an instruction -/

theorem State.writeBatch_canonical (s t : State) (x n : Nat) (pages : List MissPage) (w : Where) (who : Option Party) (f : Trap) (h : s.Canonical)
    (e : s.writeBatch x pages w who f = some (n, t)) : t.Canonical := by
  simp only [State.writeBatch] at e
  split at e
  · cases e
  · simp only [Option.some.injEq, Prod.mk.injEq] at e
    rw [← e.2]
    exact State.Canonical.fold _ _ (fun s i h => State.Canonical.fold _ _ (fun s k h => s.writePa_canonical _ _ _ h) h) h
@[simp] theorem State.stopTeam_mem (s : State) (u : Nat) : (s.stopTeam u).mem = s.mem := by
  unfold State.stopTeam
  dsimp only
  rw [State.dueOnce_mem, State.foldl_mem _ _ (fun s c => State.due_mem s _), State.modCore_mem, State.modTeam_mem]
@[simp] theorem State.killTeam_mem (s : State) (u c : Nat) : (s.killTeam u c).mem = s.mem := by
  unfold State.killTeam
  dsimp only
  rw [State.due_mem, State.stopTeam_mem]
@[simp] theorem State.enterGroup_mem (s : State) (p : Party) (ls : List Nat) (x : Trap) : (s.enterGroup p ls x).mem = s.mem := by
  simp only [State.enterGroup]; split <;> simp
@[simp] theorem State.memberStop_mem (s : State) (p : Party) (x : Trap) (d : Bool) : (s.memberStop p x d).mem = s.mem := by
  simp only [State.memberStop]
  split
  · simp
  · split <;> simp
@[simp] theorem State.takeTrap_mem (s : State) (p : Party) (ls : List Nat) (x : Trap) : (s.takeTrap p ls x).mem = s.mem := by
  simp only [State.takeTrap]; split <;> simp
@[simp] theorem State.fence_mem (s : State) (p : Party) (ls : List Nat) : (s.fence p ls).mem = s.mem := by
  unfold State.fence
  dsimp only
  exact State.foldl_mem _ _ (fun s k => State.takeTrap_mem _ _ _ _) _
@[simp] theorem State.clauseFence_mem (s : State) (p : Party) (ls : List Nat) : (s.clauseFence p ls).mem = s.mem := by
  unfold State.clauseFence
  split
  · split <;> simp
  · simp
@[simp] theorem State.advance_mem (s : State) (p : Party) (stay : List Nat) (dest : List (Nat × Spot)) : (s.advance p stay dest).mem = s.mem := by
  simp only [State.advance]
  split
  · rfl
  · split <;> simp
@[simp] theorem State.setWaits_mem (s : State) (p : Party) (ws : List (Nat × Wait)) : (s.setWaits p ws).mem = s.mem := by
  simp only [State.setWaits]
  induction ws generalizing s with
  | nil => rfl
  | cons w ws ih => rw [List.foldl_cons, ih]; rfl
@[simp] theorem State.tally_mem (s : State) (p : Party) (n : Nat) : (s.tally p n).mem = s.mem := rfl
theorem State.stopMember_canonical (s : State) (p : Party) (x : Trap) (h : s.Canonical) : (s.stopMember p x).Canonical := by
  unfold State.stopMember
  split
  · exact h.of_mem (State.memberStop_mem _ _ _ _)
  · exact h
theorem State.rollbackDue_canonical (s : State) (p : Party) (x : Trap) (h : s.Canonical) : (s.rollbackDue p x).Canonical := by
  unfold State.rollbackDue
  dsimp only
  have h1 := s.stopMember_canonical p x h
  generalize s.stopMember p x = q at h1
  by_cases e : x.cause = 0x22
  · simp only [e, if_true]
    refine State.Canonical.of_mem (State.rasPlace_canonical _ _ _ _ _ ?_) (State.dueOnce_mem _ _)
    exact h1.of_mem (by rw [State.dueOnce_mem, State.modCore_mem])
  · simp only [e, if_false]
    exact State.poisonHit_canonical _ _ _ _ h1
theorem State.trapAt_canonical (s : State) (p : Party) (ls : List Nat) (x : Trap) (h : s.Canonical) : (s.trapAt p ls x).Canonical := by
  unfold State.trapAt
  by_cases e : x.cause = 0x21 ∨ x.cause = 0x22
  · rw [if_pos e]; exact State.rollbackDue_canonical _ _ _ (h.of_mem (State.modGroup_mem _ _ _))
  · rw [if_neg e]
    cases p.mem with
    | engine r => exact h.of_mem (State.memberStop_mem _ _ _ _)
    | group g =>
      have h1 : (s.enterGroup p ls x).Canonical := h.of_mem (State.enterGroup_mem _ _ _ _)
      generalize s.enterGroup p ls x = q at h1
      dsimp only
      generalize (q.team p.team).killed = k
      cases k with
      | true => exact h1
      | false => exact h1.of_mem (State.advance_mem _ _ _ _)
theorem State.orLate_canonical (s : State) (b : LateBatch) (o : Option (Nat × State)) (h : s.Canonical) (ho : ∀ w, o = some w → w.2.Canonical) :
    (s.orLate b o).1.Canonical := by
  cases o with
  | none => exact h.of_mem (State.modCtx_mem _ _ _)
  | some w => exact ho w rfl
theorem State.giveBatch_canonical (s : State) (p : Party) (ls : Word) (pages : List MissPage) (f : Trap) (h : s.Canonical) :
    (s.giveBatch p ls pages f).1.Canonical :=
  s.orLate_canonical _ _ h fun b e => State.writeBatch_canonical s b.2 _ b.1 _ _ _ _ h e
theorem State.pathBatch_canonical (s : State) (p : Party) (ls : List Nat) (pages : List MissPage) (f : Trap) (h : s.Canonical) :
    (s.pathBatch p ls pages f).Canonical :=
  (s.giveBatch_canonical p _ pages f h).of_mem (by unfold State.pathBatch; rw [State.advance_mem, State.setWaits_mem])
theorem State.demandFault_canonical (s : State) (p : Party) (v : View) (pages : List MissPage) (f : Trap) (h : s.Canonical) :
    (s.demandFault p v pages f).Canonical := by
  unfold State.demandFault
  dsimp only
  generalize (s.group p).run = o
  cases o with
  | none => exact h
  | some r =>
    dsimp only
    generalize ((s.creg (s.ctxOf p) .fltCfg).getLsbD 1 && decide ((vget s.cores (s.team p.team).coreNo).steepUsed < 4)) = b
    cases b with
    | true => exact h.of_mem (by simp only [if_true, State.advance_mem, State.modGroup_mem, State.modTeam_mem, State.modCore_mem])
    | false =>
      simp only [Bool.false_eq_true, if_false]
      exact s.pathBatch_canonical _ _ _ _ h
theorem State.leaveSteep_mem (s : State) (p : Party) (st : Steep) (w : Wait) : (s.leaveSteep p st w).mem = s.mem := by
  simp only [State.leaveSteep, State.modCore_mem, State.modGroup_mem]
theorem State.endSteep_canonical (s : State) (p : Party) (h : s.Canonical) : (s.endSteep p).Canonical := by
  unfold State.endSteep
  split
  · exact h
  · exact (s.giveBatch_canonical _ _ _ _ h).of_mem (State.leaveSteep_mem _ _ _ _)
@[simp] theorem State.leave_mem (s : State) (p : Party) (v : View) : (s.leave p v).mem = s.mem := by
  simp only [State.leave]; split
  · simp
  · split <;> simp [State.streamDone]
@[simp] theorem State.setAside_mem (s : State) (p : Party) : (s.setAside p).mem = s.mem := by simp [State.setAside, State.dropPlace]
@[simp] theorem State.stopHere_mem (s : State) (p : Party) : (s.stopHere p).mem = s.mem := by simp [State.stopHere]
@[simp] theorem State.heldOn_mem (s : State) (p : Party) (v : View) : (s.heldOn p v).mem = s.mem := by
  simp only [State.heldOn]; split <;> simp
@[simp] theorem State.tlbRefresh_mem (s : State) (c x va : Nat) (a : Acc) : (s.tlbRefresh c x va a).mem = s.mem := by
  unfold State.tlbRefresh; repeat' split
  all_goals rfl
/-- The state that an effect ends in. -/
def Res.state : Res → State
  | .done s | .jump s _ | .trap s _ _ _ _ _ | .xfault s _ _ _ _ _ _ | .stall s | .block s _ => s
/-- An instruction whose effect keeps memory canonical keeps it to its end. -/
theorem finish_canonical (p : Party) (r : Run) (v : View) (ls : List Nat) (res : Res) (h : res.state.Canonical) : (finish p r v ls res).Canonical := by
  cases res with
  | done s => exact State.Canonical.of_mem h (by simp [finish, Res.state])
  | jump s dest => exact State.Canonical.of_mem h (by simp [finish, Res.state])
  | trap s c b a u after => exact State.trapAt_canonical _ _ _ _ h
  | xfault s a f b va d m =>
    have h1 : (s.tlbRefresh (s.team p.team).coreNo (s.ctxOf p) va a).Canonical := State.Canonical.of_mem h (by simp [Res.state])
    simp only [finish]
    generalize s.tlbRefresh (s.team p.team).coreNo (s.ctxOf p) va a = q at h1
    split
    · split
      · exact State.demandFault_canonical _ _ _ _ _ h1
      · exact State.trapAt_canonical _ _ _ _ h1
    · exact State.trapAt_canonical _ _ _ _ h1
  | stall s => exact State.Canonical.of_mem h (by simp [finish, Res.state])
  | block s ws =>
    simp only [finish]
    split
    · exact State.Canonical.of_mem h (by simp [Res.state])
    · split
      · exact State.Canonical.of_mem h (by simp [Res.state])
      · split
        · exact State.Canonical.of_mem h (by simp [State.holdGroup, Res.state])
        · refine State.Canonical.of_mem h ?_
          rw [State.advance_mem, State.setWaits_mem]
          split <;> simp [Res.state]

@[simp] theorem State.noteTime_mem (s : State) (p : Party) (v : View) (ls : List Nat) : (s.noteTime p v ls).mem = s.mem := by
  unfold State.noteTime; split <;> rfl
@[simp] theorem State.setUnknown_mem (s : State) (p : Party) (l : Nat) (a b : Bool) (o : Operand) : (s.setUnknown p l a b o).mem = s.mem := by
  unfold State.setUnknown; split <;> (try split) <;> simp
@[simp] theorem State.skipAhead_mem (s : State) (p : Party) (v : View) (ls : List Nat) :
    ((s.modGroup p fun g => g.unknownDst ls v).advance p [] []).mem = s.mem := by simp
@[simp] theorem State.stopAhead_mem (s : State) (p : Party) : (s.stopAhead p).mem = s.mem := State.dueOnce_mem _ _
theorem issueAhead_canonical (s : State) (p : Party) (r : Run) (v : View) (body : List Nat → State → Res) (h : s.Canonical)
    (hb : ∀ ls q, q.mem = s.mem → (body ls q).state.Canonical) : (s.issueAhead p r v body).Canonical := by
  unfold State.issueAhead
  dsimp only
  split
  · exact h
  · rename_i st _
    generalize hs1 : s.modGroup p (fun g => { g with steep := some { st with count := st.count + 1 } }) = s1
    have h1 : s1.mem = s.mem := by rw [← hs1, State.modGroup_mem]
    have hc1 : s1.Canonical := h.of_mem h1
    split
    · exact h.of_mem (by simp)
    · split
      · exact hc1.of_mem (by simp)
      · split
        · split <;> exact h.of_mem (by simp [h1])
        · have hb' := hb ((bitsOf r.lanes).filter fun l => (s.thread p l).guardOk v.guard) s1 h1
          split
          · rename_i s2 e
            rw [e] at hb'
            refine State.Canonical.of_mem hb' ?_
            rw [State.advance_mem, State.tally_mem]
            exact State.foldl_mem _ _ (fun s l => State.foldl_mem _ _ (fun s f => by split; exact State.foldl_mem _ _ (fun s o => by simp) _; rfl) _) _
          · rename_i s2 dest e
            rw [e] at hb'
            refine State.Canonical.of_mem hb' ?_
            rw [State.advance_mem, State.tally_mem]
            exact State.foldl_mem _ _ (fun s l => State.foldl_mem _ _ (fun s f => by split; exact State.foldl_mem _ _ (fun s o => by simp) _; rfl) _) _
          · rename_i e
            rw [e] at hb'
            exact State.Canonical.of_mem hb' (State.modGroup_mem _ _ _)
          · exact h
          · split
            · split <;> exact hc1.of_mem (by simp)
            · exact hc1.of_mem (by simp)
          · exact hc1.of_mem (by simp)
theorem State.fetchField_mem {s t : State} {p : Party} {lanes : List Nat} {w : Bool} {o : Operand} {vs : List (Nat × DWord)}
    (h : s.fetchField p lanes w o = some (vs, t)) : t.mem = s.mem := by
  simp only [State.fetchField] at h
  repeat' split at h
  all_goals (cases h; try rfl)
theorem State.popField_mem {s t : State} {p : Party} {ls : List Nat} {f : Field} (h : s.popField p ls f = some t) : t.mem = s.mem := by
  simp only [State.popField] at h
  split at h
  · obtain ⟨r, hr, rfl⟩ := Option.map_eq_some_iff.mp h
    rw [State.modGroup_mem]
    exact State.fetchField_mem (show s.fetchField p ls f.wide f.o = some (r.1, r.2) from hr)
  · cases h; rfl
/-- Pops leave memory as it is. -/
theorem State.pull_mem {s t : State} {p : Party} {v : View} {lanes : List Nat} (h : s.pull p v lanes = some t) : t.mem = s.mem := by
  simp only [State.pull] at h
  split at h
  · cases h
  · split at h
    · cases h; rfl
    · exact foldl_bind (P := fun t => t.mem = s.mem) _ (fun _ _ _ e k => (State.popField_mem e).trans k) _ s t rfl h
theorem State.unpop_mem (s t : State) (p : Party) : (s.unpop t p).mem = t.mem := State.modTeam_mem _ _ _
/-- An effect that keeps memory canonical keeps it so with its pops. -/
theorem feed_canonical (s : State) (p : Party) (r : Run) (v : View) (lanes : List Nat) (body : List Nat → State → Res) (h : s.Canonical)
    (hb : ∀ ls q, q.mem = s.mem → (body ls q).state.Canonical) : (s.feed p r v lanes body).state.Canonical := by
  unfold State.feed
  split
  · split
    · exact h
    · rename_i s1 e
      have hb' := hb lanes s1 (State.pull_mem e)
      cases hx : body lanes s1
      all_goals rw [hx] at hb'
      case xfault t a f bad va d more =>
        cases d with
        | none => exact hb'
        | some k =>
          simp only [State.fed, Res.state]
          split
          · exact State.Canonical.of_mem hb' (State.unpop_mem _ _ _)
          · exact hb'
      case stall t => exact State.Canonical.of_mem hb' (State.unpop_mem _ _ _)
      case block t ws =>
        simp only [State.fed, Res.state]
        split
        · exact State.Canonical.of_mem hb' (State.unpop_mem _ _ _)
        · exact hb'
      all_goals exact hb'
  · exact hb lanes s rfl
theorem untimed_canonical (s : State) (x : Res) (h : x.state.Canonical) : (s.untimed x).state.Canonical := by
  cases x
  case block t ws =>
    simp only [State.untimed, Res.state]
    split
    · exact State.Canonical.of_mem h rfl
    · exact h
  all_goals exact h
/-- Whatever issue ends in, memory is canonical if it was and the instruction's own effect keeps it so. -/
theorem issue_canonical (s t : State) (i : Instr) (body : List Nat → State → Res) (h : s.Canonical)
    (hb : ∀ ls q, q.mem = s.mem → (body ls q).state.Canonical) (e : s.issue i body = .next t) : t.Canonical := by
  revert e
  unfold State.issue
  dsimp only
  split
  · split
    · split
      · intro e; cases e
        split
        · exact issueAhead_canonical _ _ _ _ _ h fun _ _ hq => h.of_mem hq
        · exact h.of_mem (by simp)
      · intro e; cases e; exact h.of_mem (by simp)
    · split
      · intro e; cases e; exact h
      · split
        · intro e; cases e; exact h.of_mem (by simp)
        · split
          · intro e; cases e; exact issueAhead_canonical _ _ _ _ _ h hb
          · split
            · intro e; cases e; exact finish_canonical _ _ _ _ _ h
            · intro e; cases e
              exact finish_canonical _ _ _ _ _ (untimed_canonical _ _
                (feed_canonical _ _ _ _ _ _ (h.of_mem (by simp)) fun ls q hq => hb ls q (hq.trans (by simp))))
  · intro e; cases e; exact h
end Sys2Proof.Machine
end

