-- ==== Sys2Proof/Laws/Reliability.lean ====
section
/-!
SUPPORT. Saved images, checkpoints and the words that errors strike keep memory in its canonical form.
-/
namespace Sys2Proof.Machine

theorem State.swapRaw_canonical (s : State) (gone : Nat → Bool) (cells : List Host.Cell) (marks : List Nat) (h : s.Canonical) :
    (s.swapRaw gone cells marks).Canonical := Memory.wf_swap _ _ _ h
theorem State.freeBytes_canonical (s : State) (base n : Nat) (h : s.Canonical) : (s.freeBytes base n).Canonical :=
  Memory.wf_writes (List.range n) (base + ·) (fun i => (Config.freeValue (s.freeCtr + i)).setWidth 8) _ h
theorem State.putImage_canonical (s : State) (x : Nat) (l : List Team) (h : s.Canonical) : (s.putImage x l).Canonical :=
  State.Canonical.of_mem (State.Canonical.fold _ _ (fun s _ h => s.writePa_canonical _ _ _ h) h) rfl
@[simp] theorem State.poisonWord_mem (s : State) (w : ErrWord) : (s.poisonWord w).mem = s.mem := by
  cases w <;> simp only [State.poisonWord] <;> (try split) <;> (try split) <;> simp [State.poisonCaddy]
theorem State.freeWord_canonical (s : State) (w : ErrWord) (h : s.Canonical) : (s.freeWord w).Canonical := by
  cases w with
  | reg p l n => simp only [State.freeWord]; split
                 · exact h.of_mem (by simp)
                 · split <;> exact h.of_mem (by simp)
  | acc c i e => exact h.of_mem (by simp [State.freeWord])
  | link n => exact h
  | caddy k => exact s.freeBytes_canonical _ _ h
  | key k => simp only [State.freeWord]; split <;> exact s.freeBytes_canonical _ _ h

end Sys2Proof.Machine
end

