-- ==== Sys2Proof/Tests/Slice0.lean ====
section
/-!
SUPPORT. Tests: what the spec writes out, an ill-formed term for each check, and for the hypotheses of every statement a state that meets them.
-/
namespace Sys2Proof.Tests
set_option Elab.async false
open Sys2Proof Sys2Proof.Machine

/-! ## Words written out bit by bit from the encodings of R161, R163, R166, R169, R170, R190, R202, R221, R237, R262 and R283 -/

/-- A word of formats V, M and E: OP, L = 0, N and PG, DST, SA, SB, SC and MOD (R161). -/
def word (op : BitVec 9) (g : BitVec 4) (dst a b c : BitVec 9) (mod : BitVec 14) : BitVec 64 := op ++ (0 : BitVec 1) ++ g ++ dst ++ a ++ b ++ c ++ mod
/-- A word of the literal form: OP, L = 1, N and PG, DST, SA and the literal (R172). -/
def lword (op : BitVec 9) (g : BitVec 4) (dst a : BitVec 9) (lit : BitVec 32) : BitVec 64 := op ++ (1 : BitVec 1) ++ g ++ dst ++ a ++ lit
/-- Each word decodes to its instruction, and the instruction is well formed and has that word. -/
def reads (l : List (BitVec 64 × Instr)) : Bool := l.all fun x => decodeTableWord 64 x.1.toNat == some x.2 && x.2.wf && encode x.2 == x.1
theorem test_decode_control_1 : reads [
    (word 0x001 7 0x1FF 0x1FF 0x1FF 0x1FF 0x0000, .nop {}),
    (lword 0x002 7 0x1FF 0x1FF 0xFFFFFFFE, .bra {} 0xFFFFFFFE),
    (word 0x003 7 0x1FF 0x004 0x1FF 0x1FF 0x0800, .brx { a := .g 4, ty := .b64 }),
    (lword 0x004 7 0x006 0x1FF 0x00000005, .call {} (.g 6) 5),
    (word 0x005 7 0x006 0x004 0x1FF 0x1FF 0x0800, .callx { dst := .g 6, a := .g 4, ty := .b64 }),
    (word 0x006 7 0x1FF 0x006 0x1FF 0x1FF 0x0800, .ret { a := .g 6, ty := .b64 }),
    (word 0x007 10 0x1FF 0x1FF 0x1FF 0x1FF 0x0000, .exit { guard := { neg := true, p := 2 } }),
    (lword 0x008 7 0x1FF 0x1FF 0x00000077, .trap { b := .lit 0x77 }),
    (word 0x009 7 0x1FF 0x1FF 0x1FF 0x1FF 0x0000, .tret {}),
    (word 0x00A 7 0x1FF 0x1FF 0x1FF 0x1FF 0x0000, .trapf {}),
    (word 0x00B 7 0x1FF 0x1FF 0x003 0x1FF 0x0000, .brk { b := .g 3 }),
    (lword 0x00C 7 0x1FF 0x1FF 0x00000064, .sleep { b := .lit 100 })] = true := by decide +kernel
theorem test_decode_sync_1 : reads [
    (word 0x040 7 0x001 0x002 0x003 0x004 0x0000, .wait { dst := .num 1, a := .num 2, b := .num 3, c := .num 4 }),
    (word 0x041 7 0x006 0x1FF 0x004 0x1FF 0x0800, .waittl { dst := .num 6, b := .g 4, ty := .b64 }),
    (word 0x042 7 0x1FF 0x005 0x006 0x1FF 0x0820, .waitct { a := .g 5, b := .g 6, ty := .b64, sub := 1 }),
    (word 0x043 7 0x1FF 0x1FF 0x1FF 0x1FF 0x01C0, .phase { sub := 14 }),
    (word 0x044 7 0x1FF 0x009 0x1FF 0x1FF 0x01E0, .bar { a := .g 9, sub := 15 }),
    (lword 0x045 7 0x1FF 0x003 0x00000010, .tbinit { a := .g 3, b := .lit 16 }),
    (word 0x046 7 0x1FF 0x003 0x004 0x1FF 0x0000, .tbexp { a := .g 3, b := .g 4 }),
    (word 0x047 7 0x005 0x003 0x1FF 0x1FF 0x0000, .tbarv { dst := .g 5, a := .g 3 }),
    (word 0x048 7 0x1FF 0x003 0x005 0x1FF 0x0000, .tbwait { a := .g 3, b := .g 5 }),
    (word 0x049 7 0x004 0x006 0x1FF 0x1FF 0x1940, .xfer { dst := .g 4, a := .g 6 } 3 1 2),
    (word 0x04A 7 0x004 0x006 0x1FF 0x1FF 0x0F00, .roleq { dst := .g 4, a := .g 6 } 1 7),
    (lword 0x04B 7 0x1FF 0x1FF 0x00000003, .gangset { b := .lit 3 }),
    (word 0x04C 7 0x1FF 0x1FF 0x008 0x1FF 0x0000, .driftset { b := .g 8 }),
    (word 0x04D 7 0x102 0x1FF 0x004 0x1FF 0x0800, .kset { dst := .k 2, b := .g 4, ty := .b64 }),
    (word 0x04E 7 0x004 0x003 0x1FF 0x1FF 0x0000, .spawn { dst := .g 4, a := .g 3 }),
    (word 0x04F 7 0x004 0x006 0x1FF 0x1FF 0x0800, .launch { dst := .g 4, a := .g 6, ty := .b64 })] = true := by decide +kernel
theorem test_decode_integer_1 : reads [
    (lword 0x080 7 0x004 0x1FF 0x3F800000, .mov { dst := .g 4, b := .lit 0x3F800000 }),
    (word 0x081 7 0x005 0x1FF 0x1FF 0x1FF 0x0000, .movsGet { dst := .g 5 }),
    (word 0x081 7 0x1FF 0x003 0x004 0x1FF 0x0020, .movsSet { a := .g 3, b := .g 4, sub := 1 }),
    (word 0x082 7 0x008 0x002 0x004 0x1FF 0x0206, .iadd { dst := .g 8, a := .g 2, b := .g 4, ty := .s32, sat := true, na := true }),
    (word 0x083 7 0x008 0x002 0x004 0x1FF 0x0A06, .isub { dst := .g 8, a := .g 2, b := .g 4, ty := .s64, sat := true, na := true }),
    (word 0x084 7 0x008 0x002 0x004 0x1FF 0x0404, .imul { dst := .g 8, a := .g 2, b := .g 4, ty := .n32, sat := true }),
    (word 0x085 7 0x008 0x002 0x004 0x1FF 0x0C00, .imulh { dst := .g 8, a := .g 2, b := .g 4, ty := .n64 }),
    (word 0x088 7 0x008 0x002 0x004 0x1FF 0x0202, .imin { dst := .g 8, a := .g 2, b := .g 4, ty := .s32, na := true }),
    (word 0x089 7 0x008 0x002 0x004 0x1FF 0x0A02, .imax { dst := .g 8, a := .g 2, b := .g 4, ty := .s64, na := true }),
    (word 0x086 7 0x008 0x002 0x004 0x006 0x0A01, .imad { dst := .g 8, a := .g 2, b := .g 4, c := .g 6, ty := .s64, nb := true }),
    (word 0x087 7 0x008 0x003 0x005 0x006 0x0200, .imadw { dst := .g 8, a := .g 3, b := .g 5, c := .g 6, ty := .s32 }),
    (word 0x08A 7 0x008 0x002 0x004 0x006 0x0400, .iclamp { dst := .g 8, a := .g 2, b := .g 4, c := .g 6, ty := .n32 }),
    (word 0x08B 7 0x008 0x002 0x1FF 0x1FF 0x0A04, .iabs { dst := .g 8, a := .g 2, ty := .s64, sat := true }),
    (word 0x08C 7 0x008 0x002 0x005 0x1FF 0x0000, .and { dst := .g 8, a := .g 2, b := .g 5 }),
    (word 0x08D 7 0x008 0x002 0x005 0x1FF 0x0000, .or { dst := .g 8, a := .g 2, b := .g 5 }),
    (word 0x08E 7 0x008 0x002 0x005 0x1FF 0x0000, .xor { dst := .g 8, a := .g 2, b := .g 5 }),
    (word 0x08F 7 0x008 0x002 0x005 0x1FF 0x0000, .andn { dst := .g 8, a := .g 2, b := .g 5 }),
    (word 0x090 7 0x008 0x002 0x005 0x1FF 0x0000, .shl { dst := .g 8, a := .g 2, b := .g 5 }),
    (word 0x091 7 0x008 0x002 0x005 0x1FF 0x0000, .shr { dst := .g 8, a := .g 2, b := .g 5 }),
    (lword 0x092 7 0x008 0x002 0x0000001F, .sar { dst := .g 8, a := .g 2, b := .lit 31, ty := .s32 }),
    (word 0x093 7 0x008 0x002 0x005 0x006 0x0060, .shf { dst := .g 8, a := .g 2, b := .g 5, c := .g 6, sub := 3 }),
    (word 0x094 7 0x008 0x002 0x005 0x006 0x0200, .bfe { dst := .g 8, a := .g 2, b := .g 5, c := .g 6, ty := .s32 }),
    (word 0x095 7 0x008 0x002 0x005 0x006 0x0000, .bfi { dst := .g 8, a := .g 2, b := .g 5, c := .g 6 }),
    (word 0x096 7 0x008 0x002 0x1FF 0x1FF 0x0800, .popc { dst := .g 8, a := .g 2, ty := .b64 }),
    (word 0x097 7 0x008 0x002 0x1FF 0x1FF 0x0800, .clz { dst := .g 8, a := .g 2, ty := .b64 }),
    (word 0x098 7 0x008 0x002 0x1FF 0x1FF 0x0800, .brev { dst := .g 8, a := .g 2, ty := .b64 }),
    (word 0x099 7 0x008 0x002 0x005 0x006 0x0000, .prmt { dst := .g 8, a := .g 2, b := .g 5, c := .g 6 }),
    (word 0x09A 7 0x001 0x004 0x005 0x1FF 0x0240, .iset { dst := .p 1, a := .g 4, b := .g 5, ty := .s32, sub := 2 }),
    (word 0x09B 7 0x008 0x004 0x005 0x003 0x0000, .isel { dst := .g 8, a := .g 4, b := .g 5, c := .p 3 }),
    (word 0x09C 7 0x001 0x002 0x003 0x007 0x12C0, .plog { dst := .p 1, a := .p 2, b := .p 3, c := .p 7 } 0x96)] = true := by decide +kernel
theorem test_decode_integer_2 : reads [
    (word 0x09D 7 0x008 0x002 0x005 0x006 0x0400, .lea { dst := .g 8, a := .g 2, b := .g 5, c := .g 6, ty := .n32 }),
    (word 0x09E 7 0x008 0x002 0x005 0x006 0x0000, .place { dst := .g 8, a := .g 2, b := .g 5, c := .g 6 }),
    (word 0x09F 7 0x008 0x002 0x005 0x006 0x0820, .shfl { dst := .g 8, a := .g 2, b := .g 5, c := .g 6, ty := .b64, sub := 1 }),
    (word 0x0A0 7 0x001 0x002 0x1FF 0x1FF 0x0020, .vote { dst := .p 1, a := .p 2, sub := 1 }),
    (word 0x0A1 7 0x008 0x002 0x1FF 0x1FF 0x02E4, .redux { dst := .g 8, a := .g 2, ty := .s32, sub := 7, sat := true }),
    (word 0x0A2 7 0x008 0x002 0x005 0x006 0x02E0, .idp4 { dst := .g 8, a := .g 2, b := .g 5, c := .g 6, ty := .s32, sub := 7 })] = true := by decide +kernel
theorem test_decode_float_1 : reads [
    (word 0x100 7 0x008 0x002 0x004 0x1FF 0x0E1F, .fadd { dst := .g 8, a := .g 2, b := .g 4, ty := .f64, rnd := .rd, sat := true, na := true, nb := true }),
    (word 0x101 7 0x008 0x002 0x004 0x1FF 0x0E1F, .fsub { dst := .g 8, a := .g 2, b := .g 4, ty := .f64, rnd := .rd, sat := true, na := true, nb := true }),
    (word 0x102 7 0x008 0x002 0x004 0x1FF 0x0E1F, .fmul { dst := .g 8, a := .g 2, b := .g 4, ty := .f64, rnd := .rd, sat := true, na := true, nb := true }),
    (word 0x10B 7 0x008 0x002 0x004 0x1FF 0x0E1F, .fdiv { dst := .g 8, a := .g 2, b := .g 4, ty := .f64, rnd := .rd, sat := true, na := true, nb := true }),
    (word 0x103 7 0x004 0x005 0x006 0x004 0x0600, .ffma { dst := .g 4, a := .g 5, b := .g 6, c := .g 4, ty := .f32 }),
    (word 0x104 7 0x008 0x002 0x004 0x1FF 0x1420, .fmin { dst := .g 8, a := .g 2, b := .g 4, ty := .f16x2, sub := 1 }),
    (word 0x105 7 0x008 0x002 0x004 0x1FF 0x1420, .fmax { dst := .g 8, a := .g 2, b := .g 4, ty := .f16x2, sub := 1 }),
    (word 0x106 7 0x003 0x002 0x004 0x1FF 0x1380, .fset { dst := .p 3, a := .g 2, b := .g 4, ty := .bf16, sub := 12 }),
    (word 0x107 7 0x008 0x002 0x1FF 0x1FF 0x1000, .fclass { dst := .g 8, a := .g 2, ty := .f16 }),
    (word 0x108 7 0x008 0x002 0x1FF 0x1FF 0x0E08, .frcp { dst := .g 8, a := .g 2, ty := .f64, rnd := .rz }),
    (word 0x10A 7 0x008 0x002 0x1FF 0x1FF 0x0E10, .fsqrt { dst := .g 8, a := .g 2, ty := .f64, rnd := .ru }),
    (word 0x109 7 0x008 0x002 0x1FF 0x1FF 0x0602, .frsq { dst := .g 8, a := .g 2, ty := .f32, na := true }),
    (word 0x10C 7 0x008 0x002 0x1FF 0x1FF 0x0602, .fexp2 { dst := .g 8, a := .g 2, ty := .f32, na := true }),
    (word 0x10D 7 0x008 0x002 0x1FF 0x1FF 0x0602, .flog2 { dst := .g 8, a := .g 2, ty := .f32, na := true }),
    (word 0x10E 7 0x008 0x002 0x1FF 0x1FF 0x0602, .fsin { dst := .g 8, a := .g 2, ty := .f32, na := true }),
    (word 0x10F 7 0x008 0x002 0x1FF 0x1FF 0x0602, .fcos { dst := .g 8, a := .g 2, ty := .f32, na := true }),
    (word 0x110 7 0x008 0x002 0x1FF 0x1FF 0x0602, .ftanh { dst := .g 8, a := .g 2, ty := .f32, na := true }),
    (word 0x111 7 0x008 0x002 0x1FF 0x1FF 0x0630, .frnd { dst := .g 8, a := .g 2, ty := .f32, sub := 1, rnd := .ru }),
    (word 0x112 7 0x008 0x002 0x005 0x1FF 0x0E00, .fscale { dst := .g 8, a := .g 2, b := .g 5, ty := .f64 }),
    (word 0x113 7 0x006 0x007 0x1FF 0x003 0x2200, .fcvt { dst := .g 6, a := .g 7, c := .tyc .f32, ty := .nf 1 }),
    (word 0x114 7 0x006 0x008 0x1FF 0x006 0x0E00, .i2f { dst := .g 6, a := .g 8, c := .tyc .n64, ty := .f64 }),
    (word 0x115 7 0x006 0x007 0x1FF 0x008 0x1800, .f2i { dst := .g 6, a := .g 7, c := .tyc .f16, ty := .s8 }),
    (word 0x116 7 0x008 0x002 0x005 0x006 0x1660, .hfma2 { dst := .g 8, a := .g 2, b := .g 5, c := .g 6, ty := .bf16x2, sub := 3 }),
    (word 0x117 7 0x008 0x002 0x005 0x006 0x1400, .fdot2 { dst := .g 8, a := .g 2, b := .g 5, c := .g 6, ty := .f16x2 }),
    (word 0x118 7 0x008 0x002 0x005 0x1FF 0x1400, .fpack { dst := .g 8, a := .g 2, b := .g 5, ty := .f16x2 }),
    (word 0x119 7 0x008 0x002 0x1FF 0x1FF 0x1620, .funpk { dst := .g 8, a := .g 2, ty := .bf16x2, sub := 1 })] = true := by decide +kernel
theorem test_decode_memory_1 : reads [
    (word 0x180 7 0x008 0x002 0x1FF 0x1FF 0x0014, .lds { dst := .g 8, base := .g 2, c := .num 0x1FF, scope := .device, use := .quantum }),
    (word 0x181 7 0x1FF 0x002 0x004 0x004 0x0800, .sts { base := .g 2, data := .g 4, c := .num 4, ty := .b64 }),
    (word 0x182 7 0x008 0x002 0x004 0x000 0x0008, .atoms { dst := .g 8, base := .g 2, data := .g 4, c := .num 0, scope := .cluster }),
    (word 0x183 7 0x008 0x002 0x1FF 0x001 0x1800, .ldsr { dst := .g 8, base := .g 2, c := .num 1, ty := .s8 }),
    (word 0x184 7 0x1FF 0x002 0x004 0x001 0x1E00, .stsr { base := .g 2, data := .g 4, c := .num 1, ty := .n16 }),
    (word 0x185 7 0x008 0x002 0x004 0x000 0x02A1, .atomsr { dst := .g 8, base := .g 2, data := .g 4, c := .num 0, ty := .s32, op := .min, use := .unpaired }),
    (word 0x186 7 0x1FF 0x002 0x004 0x006 0x0800, .mapr { base := .g 2, data := .g 4, c := .g 6, ty := .b64 }),
    (word 0x187 7 0x1FF 0x002 0x1FF 0x000 0x0000, .unmapr { base := .g 2, c := .num 0 }),
    (word 0x188 7 0x1FF 0x002 0x1FF 0x000 0x0000, .flushr { base := .g 2, c := .num 0 }),
    (word 0x189 7 0x1FF 0x002 0x004 0x100 0x0AC2, .atomg { base := .g 2, data := .g 4, c := .num 0x100, ty := .s64, op := .max, use := .commute }),
    (word 0x18A 7 0x008 0x002 0x1FF 0x003 0x0000, .sld { dst := .g 8, base := .g 2, c := .num 3 }),
    (word 0x18B 7 0x1FF 0x002 0x004 0x003 0x0000, .sst { base := .g 2, data := .g 4, c := .num 3 }),
    (word 0x18C 7 0x008 0x002 0x004 0x000 0x0CD8, .atomf { dst := .g 8, base := .g 2, data := .g 4, c := .num 0, ty := .n64, op := .max, scope := .system }),
    (word 0x18D 7 0x153 0x002 0x1FF 0x005 0x0800, .ldref { dst := .h 3, base := .g 2, c := .num 5, ty := .b64 }),
    (word 0x18E 7 0x1FF 0x151 0x153 0x005 0x0800, .stref { base := .h 1, data := .h 3, c := .num 5, ty := .b64 }),
    (word 0x18F 7 0x008 0x151 0x1FF 0x005 0x0000, .ldh { dst := .g 8, base := .h 1, c := .num 5 }),
    (word 0x190 7 0x1FF 0x151 0x004 0x005 0x0800, .sth { base := .h 1, data := .g 4, c := .num 5, ty := .b64 }),
    (word 0x191 7 0x008 0x151 0x004 0x000 0x0101, .atomh { dst := .g 8, base := .h 1, data := .g 4, c := .num 0, op := .cas, use := .unpaired }),
    (word 0x192 7 0x152 0x004 0x005 0x001 0x0000, .newobj { dst := .h 2, base := .g 4, data := .g 5, c := .p 1 }),
    (word 0x193 7 0x008 0x151 0x1FF 0x000 0x0800, .pin { dst := .g 8, base := .h 1, c := .num 0, ty := .b64 }),
    (word 0x194 7 0x1FF 0x151 0x1FF 0x000 0x0800, .unpin { base := .h 1, c := .num 0, ty := .b64 }),
    (word 0x195 7 0x003 0x151 0x152 0x000 0x0800, .refeq { dst := .p 3, base := .h 1, data := .h 2, c := .num 0, ty := .b64 })] = true := by decide +kernel
theorem test_decode_engine_1 : reads [
    (word 0x1C0 7 0x008 0x002 0x1FF 0x1FF 0x0003, .cpy { dst := .g 8, a := .g 2 } 3),
    (word 0x1C1 7 0x008 0x002 0x1FF 0x1FF 0x0003, .cpyg { dst := .g 8, a := .g 2 } 3),
    (word 0x1C2 7 0x008 0x002 0x1FF 0x1FF 0x0003, .cpys { dst := .g 8, a := .g 2 } 3),
    (word 0x1C3 7 0x008 0x002 0x1FF 0x1FF 0x0003, .cpyw { dst := .g 8, a := .g 2 } 3),
    (word 0x1C5 7 0x008 0x002 0x1FF 0x1FF 0x0003, .cpyx { dst := .g 8, a := .g 2 } 3),
    (word 0x1C6 7 0x008 0x002 0x1FF 0x1FF 0x0003, .coll { dst := .g 8, a := .g 2 } 3),
    (word 0x1C4 7 0x1FF 0x002 0x1FF 0x1FF 0x0001, .chain { a := .g 2 } 1),
    (word 0x1C7 7 0x1FF 0x002 0x1FF 0x1FF 0x0007, .cdres { a := .g 2 } 7),
    (word 0x1C8 7 0x1FF 0x1FF 0x1FF 0x1FF 0x0005, .cdrel {} 5),
    (word 0x1C9 7 0x1FF 0x002 0x1FF 0x1FF 0x001A, .cdpush { a := .g 2 } 3 2),
    (word 0x1CA 7 0x1FF 0x140 0x141 0x004 0x3C8C, .mma { a := .q 0, b := .q 1, c := .g 4 } 15 (some .f16) (some .bf16)),
    (word 0x1CB 7 0x1FF 0x142 0x143 0x004 0x0400, .mmag { a := .q 2, b := .q 3, c := .g 4 } 1 none none),
    (word 0x1CC 7 0x008 0x002 0x1FF 0x1FF 0x0868, .accrd { dst := .g 8, a := .g 2 } 2 .f32 .rz),
    (word 0x1CD 7 0x1FF 0x002 0x004 0x1FF 0x0900, .accwr { a := .g 2, b := .g 4 } 2 .f16),
    (word 0x1CE 7 0x1FF 0x002 0x004 0x1FF 0x0860, .accst { a := .g 2, b := .g 4 } 2 .f32 false),
    (word 0x1CE 7 0x1FF 0x002 0x1FF 0x1FF 0x0D10, .accst { a := .g 2 } 3 .f16 true),
    (word 0x1CF 7 0x1FF 0x1FF 0x1FF 0x1FF 0x2400, .accrel {} 9),
    (word 0x1D0 7 0x002 0x003 0x004 0x1FF 0x0000, .vxm { dst := .g 2, a := .g 3, b := .g 4 }),
    (word 0x1D1 7 0x1FF 0x002 0x003 0x004 0x0006, .vxmcfg { a := .g 2, b := .g 3, c := .g 4 } 6),
    (word 0x1D2 7 0x008 0x002 0x1FF 0x1FF 0x0000, .salloc { dst := .g 8, a := .g 2 }),
    (word 0x1D3 7 0x1FF 0x002 0x1FF 0x1FF 0x0000, .sfree { a := .g 2 }),
    (word 0x1D4 7 0x1FF 0x002 0x003 0x1FF 0x0000, .sprio { a := .g 2, b := .g 3 }),
    (word 0x1D5 7 0x001 0x002 0x003 0x1FF 0x0000, .prim { dst := .p 1, a := .g 2, b := .g 3 }),
    (word 0x1D6 7 0x1FF 0x004 0x1FF 0x1FF 0x0001, .exprt { a := .g 4 } true),
    (word 0x1D7 7 0x008 0x002 0x003 0x004 0x0000, .hevac { dst := .g 8, a := .g 2, b := .g 3, c := .g 4 })] = true := by decide +kernel
theorem test_decode_system_1 : reads [
    (lword 0x1E0 7 0x008 0x1FF 0x00000022, .movsr { dst := .g 8, b := .lit 0x22 }),
    (word 0x1E1 7 0x1FF 0x006 0x003 0x1FF 0x0800, .movsw { a := .g 6, b := .g 3, ty := .b64 }),
    (word 0x1E2 7 0x1FF 0x1FF 0x1FF 0x1FF 0x0800, .tlbinvAll { ty := .b64 }),
    (word 0x1E2 7 0x1FF 0x006 0x1FF 0x1FF 0x0820, .tlbinvPage { a := .g 6, ty := .b64, sub := 1 }),
    (word 0x1E3 7 0x008 0x1FF 0x1FF 0x1FF 0x0600, .rng { dst := .g 8, ty := .f32 }),
    (word 0x1E4 7 0x008 0x002 0x1FF 0x1FF 0x0800, .perfc { dst := .g 8, a := .g 2, ty := .b64 })] = true := by decide +kernel

/-! ## Helpers: the machine after reset with one team of one group, about to run an instruction in its first lanes -/

/-- The party of the tests. -/
def me : Party := { team := 1 }
/-- The machine about to issue an instruction in lane 0. -/
def at_ (i : Instr) : State := { State.reset.placeWord (encode i) with slots := [], cur := me }
/-- The team of the tests changed. -/
def tm (s : State) (f : Team → Team) : State := s.modTeam 1 f
/-- The group of the tests changed. -/
def gr (s : State) (f : Group → Group) : State := s.modGroup me f
/-- A lane's thread changed. -/
def th (s : State) (l : Nat) (f : Thread → Thread) : State := s.modThread me l f
/-- The first `n` lanes live in the path. -/
def lanes (n : Nat) (s : State) : State :=
  gr s fun g => { g with run := g.run.map fun r => { r with lanes := BitVec.ofNat 32 (2 ^ n - 1) }
                         threads := Vector.ofFn fun i => if i.val < n then vget g.threads 0 else {} }
/-- A register of a lane. -/
def rg (s : State) (l r v : Nat) : State := th s l fun t => { t with g := vset t.g r (BitVec.ofNat 32 v) }
/-- A register pair of a lane. -/
def rp (s : State) (l r v : Nat) : State := rg (rg s l r v) l (r + 1) (v / 2 ^ 32)
/-- A predicate of a lane set. -/
def pr (s : State) (l k : Nat) : State := th s l fun t => { t with p := setBit t.p k true }
/-- A reference register of a lane. -/
def hr (s : State) (l k v : Nat) : State := th s l fun t => { t with h := vset t.h k (BitVec.ofNat 64 v) }
/-- The team's scratchpad window. -/
def win (s : State) (base size : Nat) : State := tm s fun t => { t with regs := { t.regs with spBase := base, spSize := size } }
/-- q0 bound to copy context 0, q1 to caddy tag 0. -/
def qs (s : State) : State := tm s fun t => { t with regs := { t.regs with qmap := 0x51 } }
/-- The answer of an instruction's issue. -/
def run (i : Instr) (s : State) : State := match exec i s with | .next t => t | _ => s
/-- A device register. -/
def dv (s : State) (r : DReg) (v : Nat) : State := s.setDreg r (BitVec.ofNat 64 v)
/-- A register of context 0. -/
def cr (s : State) (r : CReg) (v : Nat) : State := s.setCreg 0 r (BitVec.ofNat 64 v)
/-- The reason and the field of a word that does not decode. -/
def why (w : BitVec 64) : Option (Nat × Nat) := match decodeWord w with | .ok _ => none | .error b => some (b.reason, b.field)
/-- An instruction of one group with every check passed. -/
def add8 : Instr := .iadd { dst := .g 8, a := .g 2, b := .g 4, ty := .s32 }
/-- Three-operand forms of an entry: registers at their greatest, pairs where the type is wide. -/
def rrr (mk : VF → Instr) (t : Ty) : Instr := mk { dst := .g 8, a := .g 254, b := .g 4, c := .g 6, ty := t }
def rr (mk : VF → Instr) (t : Ty) : Instr := mk { dst := .g 254, a := .g 2, b := .g 4, ty := t }
def r1 (mk : VF → Instr) (t : Ty) : Instr := mk { dst := .g 8, a := .g 2, ty := t }
/-- With plain operands. -/
def plainAt (i : Instr) : Bool := (at_ i).plain i && (lanes 32 (at_ i)).plain i
/-- The operands of a per-lane operation flow: plain ones, and a queue register with an entry; without one they wait. -/
def flows (i : Instr) (s : State) : Bool := s.acts i && (s.computed i fun _ _ => (1, 0)).2
def waits (i : Instr) (s : State) : Bool := s.acts i && !(s.computed i fun _ _ => (1, 0)).2
def entry (s : State) : State := tm (qs s) fun t => t.modCopy 0 fun c => { c with compq := [7] }
/-- Memory of context 0: virtual pages 1 to 3 on the same physical pages of GDDR7, page 4 on the host's first (R28 to R31, R40). -/
def mp (s : State) : State :=
  let d := cr s .ptRoot 0x2001
  let at_ (a : Nat) (l : List Byte) : List Host.Cell := ((List.range l.length).map fun i => (gddrBase + a + i, l.getD i 0)).filter (·.2 != 0)
  { d with dev := { d.dev with bankA := vset d.dev.bankA 0 { w0 := 0x200010000 } }
           mem := at_ 0x2000 [1, 0x40] ++ at_ 0x4000 [1, 0x60] ++ at_ 0x6000 [1, 0x80] ++
             at_ 0x8000 [0, 0, 0, 0, 0, 0, 0, 0, 0x0D, 0, 1, 0, 0, 0, 0, 0, 0x0D, 0, 2, 0, 0, 0, 0, 0, 0x0D, 0, 3, 0, 0, 0, 0, 0, 0x0D, 0, 0, 0, 0, 0, 1] }
theorem test_mapped : (mp State.reset).mem.wf = true ∧ ((mp State.reset).xlate none 0 0x1FFFF .write).toOption.map (·.1) = some 0x1FFFF ∧
    ((mp State.reset).xlate none 0 0x40008 .write).toOption.map (·.1) = some (2 ^ 48 + 8) ∧ ((mp State.reset).xlate none 0 0x50000 .read).toOption.map (·.1) = none := by decide +kernel

/-! ## Well-formedness: an ill-formed term for each check -/

theorem test_wf_accepts : [Instr.iadd { dst := .g 8, a := .g 2, b := .g 4, ty := .s32 }, .bra {} 3, .xfer { dst := .g 4, a := .g 6 } 7 1 2, .nop {}].all Instr.wf = true := by
  decide +kernel
/-- A literal where the entry has no literal form (R172, R180). -/
theorem test_wf_literal_form : (Instr.imad { dst := .g 8, a := .g 2, b := .lit 5, ty := .s32 }).wf = false := by decide +kernel
/-- A literal with another type than the default, and with a third source. -/
theorem test_wf_literal_default : [Instr.iadd { dst := .g 8, a := .g 2, b := .lit 5, ty := .n32 }, .prmt { dst := .g 8, a := .g 2, b := .lit 5, c := .g 4 }].any Instr.wf = false := by
  decide +kernel
/-- A type that the entry does not accept (R167). -/
theorem test_wf_type : [Instr.iadd { dst := .g 8, a := .g 2, b := .g 4, ty := .f32 }, .fsin { dst := .g 8, a := .g 2, ty := .f64 }].any Instr.wf = false := by decide +kernel
/-- A SUB that the entry does not accept (R168). -/
theorem test_wf_sub : [Instr.iset { dst := .p 1, a := .g 2, b := .g 4, ty := .s32, sub := 6 }, .shf { dst := .g 8, sub := 4 }].any Instr.wf = false := by decide +kernel
/-- A modifier that the entry does not have: SAT, RND, a negation (R166). -/
theorem test_wf_modifier : [Instr.and { dst := .g 8, sat := true }, .iadd { dst := .g 8, ty := .s32, rnd := .rz }, .iadd { dst := .g 8, ty := .n32, na := true },
    .iabs { dst := .g 8, ty := .s32, nb := true }].any Instr.wf = false := by decide +kernel
/-- A destination that the entry cannot have (R164): a k or special register, an odd pair, a predicate for a register. -/
theorem test_wf_destination : [Instr.mov { dst := .k 0, a := .g 2 }, .mov { dst := .sp .lane, a := .g 2 }, .mov { dst := .g 9, a := .g 2, ty := .b64 }, .mov { dst := .p 1, a := .g 2 },
    .iset { dst := .g 1, a := .g 2, b := .g 4, ty := .s32 }].any Instr.wf = false := by decide +kernel
/-- A source that the entry cannot have: a reference register, an odd pair, a narrow special register as a pair. -/
theorem test_wf_source : [Instr.iadd { dst := .g 8, a := .h 1, ty := .s32 }, .iadd { dst := .g 8, b := .g 3, ty := .s64 }, .mov { dst := .g 8, a := .sp .lane, ty := .b64 },
    .lds { dst := .g 8, base := .q 1, c := .num 0 }].any Instr.wf = false := by decide +kernel
/-- An unused field that holds something, and a field that must be zero (R179 reason 7, R237). -/
theorem test_wf_unused : [Instr.iadd { dst := .g 8, c := .g 1, ty := .s32 }, .exit { a := .g 1 }, .unpin { base := .h 1, c := .num 1, ty := .b64 }].any Instr.wf = false := by decide +kernel
/-- One queue register in two fields (R164). -/
theorem test_wf_queue_twice : (Instr.iadd { dst := .g 8, a := .q 1, b := .q 1, ty := .s32 }).wf = false := by decide +kernel
/-- What single entries add: XFER to itself, a guarded ROLEQ, commute with DST, cas without (R152, R239, R290, R293). -/
theorem test_wf_extra : [Instr.xfer { dst := .g 4, a := .g 6 } 0 2 2, .roleq { guard := { p := 0 }, dst := .g 4, a := .g 6 } 0 1,
    .atoms { dst := .g 4, base := .g 2, data := .g 3, c := .num 0, use := .commute }, .atoms { base := .g 2, data := .g 3, c := .num 0, op := .cas }].any Instr.wf = false := by decide +kernel
/-- USE and SCOPE that the access does not allow (R151). -/
theorem test_wf_use : [Instr.lds { dst := .g 8, base := .g 2, c := .num 0, use := .unpaired }, .lds { dst := .g 8, base := .g 2, c := .num 0, use := .quantum, scope := .cluster },
    .sts { base := .g 2, data := .g 4, c := .num 0, scope := .device }, .atoms { dst := .g 8, base := .g 2, data := .g 4, c := .num 0, use := .unpaired, scope := .device },
    .atoms { dst := .g 8, base := .g 2, data := .g 4, c := .num 0, use := .u6 }].any Instr.wf = false := by decide +kernel
/-- Fields of a constructor that no word holds: an element type without a code, a PLOG with a type, a MOVS under the other SUB; a device step. -/
theorem test_wf_own : [Instr.mma { a := .q 0, b := .q 1, c := .g 4 } 0 (some .f64) none, .plog { dst := .p 1, a := .p 2, b := .p 3, c := .p 4, ty := .s32 } 0,
    .movsGet { dst := .g 5, sub := 1 }, .issueClock 0 0, .trustDieBoot].any Instr.wf = false := by decide +kernel

/-- The reasons of R179 that a word alone shows, each by a word with that one fault. -/
theorem test_reasons : why 0 = some (1, 0) ∧ why (word 0x00D 7 0x1FF 0x1FF 0x1FF 0x1FF 0) = some (2, 0) ∧
    why (lword 0x086 7 8 2 5) = some (3, 0) ∧ why (word 0x002 7 0x1FF 0x1FF 0 0 0) = some (3, 0) ∧
    why (word 0x082 7 8 0x172 4 0x1FF 0x200) = some (4, 2) ∧ why (word 0x082 7 8 2 0x1FE 0x1FF 0x200) = some (4, 3) ∧
    why (word 0x082 7 8 2 4 0x1FF 0x3000) = some (5, 0) ∧ why (word 0x09A 7 1 2 4 0x1FF 0x2C0) = some (6, 0) ∧
    why (word 0x08C 7 8 2 4 0x1FF 0x0004) = some (7, 0) ∧ why (word 0x082 7 8 2 4 3 0x200) = some (7, 0) ∧
    why (word 0x082 7 0x100 2 4 0x1FF 0x200) = some (8, 1) ∧ why (word 0x082 7 8 2 5 0x1FF 0xA00) = some (8, 3) ∧
    why (word 0x180 7 8 2 0x1FF 0 0x0001) = some (10, 0) := by decide +kernel

/-! ## Witnesses: states and operands that meet the hypotheses of the statements, clause by clause -/

/-! ### Encoding and steps -/
theorem witness_encoding : (Instr.iadd { dst := .g 8, a := .g 2, b := .lit 0xFFFFFFFF, ty := .s32 }).wf = true ∧
    encode (.iadd { dst := .g 8, a := .g 2, b := .lit 0xFFFFFFFF, ty := .s32 }) = encode (.iadd { dst := .g 8, a := .g 2, b := .lit 0xFFFFFFFF, ty := .s32 }) ∧
    decodeTableWord 64 0x415C0E0700000010 = some (.iadd { dst := .g 7, a := .g 7, b := .lit 16, ty := .s32 }) := by decide +kernel
theorem witness_unassigned : word 0x00D 7 0x1FF 0x1FF 0x1FF 0x1FF 0 ≠ 0 ∧ Mn.ofOp ((word 0x00D 7 0x1FF 0x1FF 0x1FF 0x1FF 0).extractLsb' 55 9) = none ∧
    word 0x1FF 7 0 0 0 0 0 ≠ 0 ∧ Mn.ofOp ((word 0x1FF 7 0 0 0 0 0).extractLsb' 55 9) = none := by decide +kernel
/-- A path at a word in the issue slots, one at a word that does not decode, one with its clause to fetch, and none. -/
def inSlots (r : Option Run) : State := { gr (at_ (.nop {})) (fun g => { g with run := r }) with slots := [me] }
theorem witness_step :
    (inSlots (some { lanes := 1, words := [encode (.nop {})] })).slots = [me] ∧
    ((inSlots (some { lanes := 1, words := [encode (.nop {})] })).group me).run = some { lanes := 1, words := [encode (.nop {})] } ∧
    why (encode (.nop {})) = none ∧ why 0 = some (1, 0) ∧
    ((inSlots (some { lanes := 1, words := [0] })).group me).run = some { lanes := 1, words := [0] } ∧
    ((inSlots (some { lanes := 1 })).group me).run = some { lanes := 1 } ∧ ((inSlots none).group me).run = none ∧
    State.reset.slots = [] ∧ State.reset.agenda = .trustDieBoot :: [] ∧ ({ State.reset with agenda := [] } : State).agenda = [] := by decide +kernel
/-- The very next step runs a placed word (log entry 9). -/
theorem test_placed_word_runs : (match step (State.reset.withFetchWord 64 0x415C0E0700000010) with | .next t => (vget (t.thread me 0).g 7).toNat | _ => 0) = 16 := by decide +kernel
theorem witness_canonical : State.reset.mem.wf = true ∧ (match step State.reset with | .next _ => true | _ => false) = true := by decide +kernel
/-- The package is lost with the I/O die (R378): the one stop. -/
theorem test_package_lost : (match step { State.reset with agenda := [.dieLost 4] } with | .fault (.packageLost 4) => true | _ => false) = true ∧
    (match step { State.reset with agenda := [.dieLost 3] } with | .next _ => true | _ => false) = true := by decide +kernel

/-! ### Issue -/
theorem witness_illegal_at_issue :
    ∀ x ∈ [(Instr.mov { dst := .g 8, a := .q 0 }, at_ (.mov { dst := .g 8, a := .q 0 }), 9),
           (.fcvt { dst := .g 6, a := .g 7, c := .tyc .f32, ty := .nf 1 }, at_ (.fcvt { dst := .g 6, a := .g 7, c := .tyc .f32, ty := .nf 1 }), 10),
           (add8, gr (at_ add8) (fun g => { g with quota := 8 }), 11)],
      ((x.2.1.group x.2.1.cur).run.isSome && x.1.view.isSome) = true ∧ (x.2.1.dynBad x.2.1.cur x.1.fv).map (·.reason) = some x.2.2 := by decide +kernel
/-- A register that waits for a write, and a full class counter. -/
def pending8 : State := tm (at_ add8) fun t => { t with ord := { t.ord with pend := [{ who := me, lane := 0, dst := .g 8, v := 1 }] } }
def ld8 : Instr := .lds { dst := .g 8, base := .g 2, c := .num 0 }
def full63 : State := gr (at_ ld8) fun g => { g with ldCnt := 63 }
theorem witness_stalls : (pending8.group me).run.isSome = true ∧ pending8.dynBad me add8.fv = none ∧ pending8.interlocked me [0] add8.fv = true ∧
    full63.dynBad me ld8.fv = none ∧ full63.counterFull me ld8.fv = true ∧
    ({ who := me, lane := 0, dst := .g 8, v := 1 } : PendWrite) ∈ (pending8.team 1).ord.pend ∧ Operand.g 8 ∈ add8.fv.fields.flatMap Field.each := by decide +kernel
def poisoned2 : State := th (at_ add8) 0 fun t => { t with gPoison := 4 }
theorem witness_poison : ((poisoned2.group me).run.isSome && add8.view.isSome) = true ∧ poisoned2.dynBad me add8.fv = none ∧
    poisoned2.interlocked me (bitsOf poisoned2.path.lanes) add8.fv = false ∧ poisoned2.counterFull me add8.fv = false ∧ poisoned2.inSteep me = false ∧
    poisoned2.consumes me (poisoned2.acting add8) add8.fv = true ∧ poisoned2.cur.mem = .group 0 := by decide +kernel

/-! ### Lanes -/
theorem witness_integer : ([Instr.iadd, .isub, .imul, .imulh, .imin, .imax].all fun k => [Ty.s32, .n32, .s64, .n64].all fun t => plainAt (rr k t)) = true ∧
    ([Instr.imad, .iclamp].all fun k => [Ty.s32, .n32, .s64, .n64].all fun t => plainAt (rrr k t)) = true ∧ plainAt (rrr .imadw .s32) = true ∧ plainAt (rrr .imadw .n32) = true ∧
    ([Ty.s32, .s64].all fun t => plainAt (r1 .iabs t)) = true := by decide +kernel
theorem witness_bits : ([Instr.and, .or, .xor, .andn, .shl, .shr].all fun k => [Ty.b32, .b64].all fun t => plainAt (rr k t)) = true ∧ plainAt (rr .sar .s32) = true ∧ plainAt (rr .sar .s64) = true ∧
    ([Instr.shf, .bfi, .prmt].all fun k => plainAt (rrr k .b32)) = true ∧ plainAt (rrr .bfe .s32) = true ∧ plainAt (rrr .bfe .n32) = true ∧
    ([Instr.popc, .clz, .brev].all fun k => [Ty.b32, .b64].all fun t => plainAt (r1 k t)) = true ∧ plainAt (rrr .idp4 .s32) = true ∧ Ty.s64 ∈ [Ty.s32, .s64] := by decide +kernel
theorem witness_compares : plainAt (.iset { dst := .p 1, a := .g 2, b := .g 4, ty := .s64, sub := 5 }) = true ∧ plainAt (.isel { dst := .g 8, a := .g 2, b := .g 4, c := .p 7 }) = true ∧
    plainAt (.plog { dst := .p 6, a := .p 2, b := .p 3, c := .p 7 } 0xFF) = true ∧ plainAt (.lea { dst := .g 8, a := .g 2, b := .g 5, c := .g 6, ty := .s32 }) = true ∧ (6 : BitVec 3) ≠ 7 := by decide +kernel
theorem witness_queue : flows (rr .iadd .s32) (at_ (rr .iadd .s32)) = true ∧
    flows (.iadd { dst := .g 8, a := .q 0, ty := .s32 }) (entry (at_ (.iadd { dst := .g 8, a := .q 0, ty := .s32 }))) = true ∧
    waits (.iadd { dst := .g 8, a := .q 0, ty := .s32 }) (qs (at_ (.iadd { dst := .g 8, a := .q 0, ty := .s32 }))) = true := by decide +kernel
theorem witness_deliver : Ty.n64 ∈ Shape.ints ∧ Ty.s32 ∈ Shape.ints := by decide +kernel
theorem witness_moves : plainAt (.mov { dst := .g 254, a := .g 2, ty := .b64 }) = true ∧ plainAt (.mov { dst := .g 8, b := .lit 0xFFFFFFFF }) = true ∧ plainAt (.movsGet { dst := .g 5 }) = true ∧
    plainAt (.movsSet { a := .g 3, b := .g 4, sub := 1 }) = true ∧
    ((at_ (.mov { dst := .g 8, a := .g 2 })).acting (.mov { dst := .g 8, a := .g 2 })).all (fun l => !((at_ (.mov { dst := .g 8, a := .g 2 })).begun (.mov { dst := .g 8, a := .g 2 })).opPoisoned me l false (.g 2)) = true := by
  decide +kernel
/-- PLACE at the core (0, 0): the farthest good place, one column too far left, one off too big. -/
def plc : Instr := .place { dst := .g 8, a := .g 2, b := .g 5, c := .g 6 }
def placed (off dx dy : Nat) : State := rg (rg (rg (at_ plc) 0 2 off) 0 5 dx) 0 6 dy
def offOf' (s : State) : Nat := (s.srcs plc 0).1.toNat % 2 ^ 32
theorem witness_place : (placed 0x2FFFF 15 11).plain plc = true ∧ placeBad 0 15 11 = false ∧ offOf' (placed 0x2FFFF 15 11) = 0x2FFFF ∧
    (placed 0 0xFFFFFFFF 0).plain plc = true ∧ ((((placed 0 0xFFFFFFFF 0).srcs plc 0).2.1.setWidth 32).toInt : Int) = -1 ∧ placeBad 0 (-1) 0 = true ∧ placeBad 0 16 0 = true ∧ placeBad 0 0 12 = true ∧
    (placed 0x30000 0 0).plain plc = true ∧ offOf' (placed 0x30000 0 0) = 0x30000 := by decide +kernel
def shfl1 : Instr := .shfl { dst := .g 8, a := .g 2, b := .g 5, c := .g 6, sub := 1 }
theorem witness_exchange : plainAt shfl1 = true ∧ plainAt (.vote { dst := .p 1, a := .p 2, sub := 5 }) = true ∧ plainAt (.redux { dst := .g 8, a := .g 2, ty := .s32, sub := 7 }) = true ∧
    (bitsOf (lanes 32 (at_ shfl1)).path.lanes).all (fun l => !((lanes 32 (at_ shfl1)).begun shfl1).opPoisoned me l false (.g 2)) = true ∧
    ((lanes 32 (at_ shfl1)).acting shfl1).all (fun l => !((lanes 32 (at_ shfl1)).begun shfl1).opPoisoned me l false (.g 5) && !((lanes 32 (at_ shfl1)).begun shfl1).opPoisoned me l false (.g 6)) = true := by
  decide +kernel

/-! ### Floating point -/
/-- The floating-point entries, each in a form with plain operands. -/
def fps : List Instr :=
  ([Instr.fadd, .fsub, .fmul, .fmin, .fmax, .fdiv].flatMap fun k => [rr k .f64, rr k .bf16]) ++ [rrr .ffma .f32, .fset { dst := .p 3, a := .g 2, b := .g 4, ty := .f16, sub := 12 }, r1 .fclass .f16,
    r1 .frcp .f64, r1 .frsq .f32, r1 .fsqrt .f64, r1 .fexp2 .f32, r1 .flog2 .f16, r1 .fsin .f32, r1 .fcos .bf16, r1 .ftanh .f32, r1 .frnd .f64, rr .fscale .f32,
    .fcvt { dst := .g 6, a := .g 2, c := .tyc .f64, ty := .f32 }, .i2f { dst := .g 6, a := .g 2, c := .tyc .n64, ty := .f64 }, .f2i { dst := .g 6, a := .g 7, c := .tyc .f16, ty := .s8 },
    rrr .hfma2 .f16x2, rrr .fdot2 .bf16x2, rr .fpack .f16x2, r1 .funpk .bf16x2]
theorem witness_float : (fps.all fun i => plainAt i && (at_ i).steady i) = true := by decide +kernel
/-- A core that suffered an upset: bits of lane 0's results come out flipped. -/
def upset (v : Nat) (s : State) : State := s.modCore 0 fun c => { c with upset := [(0, BitVec.ofNat 64 v)] }
/-- Exponents of the four sizes: a flip of all their bits makes a finite result infinite, or an infinite or NaN one finite. -/
def exps : List Nat := [0x7FF0000000000000, 0x7F800000, 0x7C00, 0x7F80]
/-- An upset that the shadow unit finds, in a form that writes its result. -/
def found (i : Instr) (v : Nat) : Bool :=
  let s := upset v (at_ i)
  s.acts i && Instr.writesDst i && !(vget s.cores (s.team 1).coreNo).upset.isEmpty && Operand.still i.fv.a && Operand.still i.fv.b && Operand.still i.fv.c &&
  s.cur.mem == .group 0 && ((run i s).thread me 0).trapCause == 0x22 && ((run i s).thread me 0).trapLanes == 1
theorem witness_upset : (fps.all fun i => exps.any (found i)) = true := by decide +kernel
/-- A result that is discarded. -/
theorem witness_discarded : (upset 0x7F800000 (at_ (.fadd { dst := .none, a := .g 2, b := .g 4, ty := .f32 }))).acts (.fadd { dst := .none, a := .g 2, b := .g 4, ty := .f32 }) = true ∧
    Instr.writesDst (.fadd { dst := .none, a := .g 2, b := .g 4, ty := .f32 }) = false ∧ Instr.writesDst (.fset { dst := .p 7, a := .g 2, b := .g 4, ty := .f32 }) = false := by decide +kernel
theorem witness_approximate : appSpecial .sin f32F (.fin false 1 0) = none ∧ appIsExact .sin f32F (.fin false 1 0) = false ∧
    appSpecial .tanh f32F (.fin false 1 0) = none ∧ appIsExact .tanh f32F (.fin false 1 0) = false ∧ (FVal.fin false 91 0).le ((FVal.abs (.fin false 1 0)).mul (.fin false 10 0)).1 = false ∧
    (appSpecial .log2 f32F (.fin true 0 0)).isSome = true := by decide +kernel
theorem witness_rounding : f64F ∈ [f64F, f32F, f16F, bf16F] ∧ (2 ^ 64 - 1 : Nat) < 2 ^ (1 + f64F.eb + f64F.mb) ∧ (0 : Nat) < 2 ^ (1 + bf16F.eb + bf16F.mb) ∧ (1 : Nat) ≠ 0 ∧
    (FVal.inf true).isNan = false := by decide +kernel

/-! ### Queue registers in SYNC and SYS instructions (R165) -/
def ksetQ : Instr := .kset { dst := .k 3, b := .q 0, ty := .b32 }
def perfQ : Instr := .perfc { dst := .q 0, a := .g 2 }
/-- Lane 1 reads entry 11 of q0 after lane 0 has read entry 7, and PERFC counts each. -/
def perfQs : Instr := .perfc { dst := .g 8, a := .q 0 }
theorem witness_queue_waits : ksetQ.wf = true ∧ queueForm ksetQ.fv = true ∧ ((qs (at_ ksetQ)).noteTime me ksetQ.fv [0]).pull me ksetQ.fv [0] = none ∧
    (qs (at_ ksetQ)).acting ksetQ = [0] ∧ (qs (at_ ksetQ)).consumes me [0] ksetQ.fv = false ∧ (qs (at_ ksetQ)).dynBad me ksetQ.fv = none ∧ (entry (at_ ksetQ)).acts ksetQ = true ∧
    ((run ksetQ (qs (at_ ksetQ))).thread me 0).wait = some .operand ∧ ((run ksetQ (qs (at_ ksetQ))).thread me 0).pc = 0x10008 := by decide +kernel
theorem test_sync_pops : vget ((run ksetQ (entry (at_ ksetQ))).team 1).regs.k 3 = 7 ∧ (vget ((run ksetQ (entry (at_ ksetQ))).team 1).copy 0).compq = [] ∧
    ((run ksetQ (entry (at_ ksetQ))).thread me 0).pc = 0x10010 := by decide +kernel
theorem test_sys_pops : (let s := tm (qs (lanes 2 (at_ perfQs))) fun t => { (t.modCopy 0 fun c => { c with compq := [7, 11, 5] }) with regs := { t.regs with perf := vset (vset t.regs.perf 7 70) 11 110 } }
    (List.range 2).map (fun l => (vget ((run perfQs s).thread me l).g 8).toNat) = [70, 110] ∧ (vget ((run perfQs s).team 1).copy 0).compq = [5]) := by decide +kernel
theorem test_sys_pushes : (vget ((run perfQ (qs (at_ perfQ))).team 1).copy 0).partialRec.length = 2 := by decide +kernel

/-! ### Control transfer, threads and traps -/
/-- The path of the tests in the middle of its clause. -/
def mid (s : State) : State := gr s fun g => { g with run := g.run.map fun r => { r with words := [encode (.nop {}), encode (.nop {})], idx := 0, hword := 1 <<< 56 } }
theorem witness_lanes_move : ((at_ (.nop {})).group me).run.map (fun r => r.last && (headerOf r.hword).f) = some false ∧
    (at_ (.nop {})).path.lanes.getLsbD 0 = true ∧ ((at_ (.nop {})).thread me 0).life = .live ∧ (at_ (.nop {})).path.lanes.getLsbD 31 = false ∧ (at_ (.nop {})).path.last = true ∧
    (mid (at_ (.nop {}))).path.last = false := by decide +kernel
def store8 (i : Instr) (s : State) : Bool := ((s.begun i).storeField s.cur true i.fv.dst ((s.acting i).map fun l => (l, s.path.next.1))).2
def brx2 : Instr := .brx { a := .g 2, ty := .b64 }
def callx2 : Instr := .callx { dst := .g 8, a := .g 2, ty := .b64 }
theorem witness_branches : ([Instr.nop {}, .bra {} 0x80000000, .call {} (.g 254) 0x7FFFFFFF, brx2, callx2, .ret { a := .g 2, ty := .b64 }].all fun i => (lanes 32 (at_ i)).acts i) = true ∧
    store8 (.call {} (.g 254) 0x7FFFFFFF) (at_ (.call {} (.g 254) 0x7FFFFFFF)) = true ∧ ([brx2, callx2, .ret { a := .g 2, ty := .b64 }].all fun i => store8 i (at_ i)) = true ∧
    ((lanes 32 (at_ callx2)).acting callx2).all (fun l => ((lanes 32 (at_ callx2)).srcs callx2 l).1.toNat % 8 == 0) = true ∧
    (((rg (lanes 32 (at_ callx2)) 31 2 4).acting callx2).filter fun l => ((rg (lanes 32 (at_ callx2)) 31 2 4).srcs callx2 l).1.toNat % 8 != 0) = [31] ∧
    ([brx2, callx2].all fun i => Operand.still i.fv.a && Operand.still i.fv.b && Operand.still i.fv.c) = true := by decide +kernel
/-- Target(H, lit) of the greatest backward branch, from R189: 8 · lit added modulo 2^64. -/
theorem test_bra_backward : ((run (.bra {} 0xFFFFFFFF) (at_ (.bra {} 0xFFFFFFFF))).thread me 0).pc = 0xFFF8 := by decide +kernel
theorem test_call_links : (vget ((run (.call {} (.g 8) 4) (at_ (.call {} (.g 8) 4))).thread me 0).g 8) = 0x10010 ∧
    ((run (.call {} (.g 8) 4) (at_ (.call {} (.g 8) 4))).thread me 0).pc = 0x10020 := by decide +kernel
theorem test_ret_misaligned : ((run (.ret { a := .g 2, ty := .b64 }) (cr (rg (at_ (.ret { a := .g 2, ty := .b64 })) 0 2 12) .trapBase 0x800)).thread me 0).trapCause = 0x0C ∧
    ((run (.ret { a := .g 2, ty := .b64 }) (cr (rg (at_ (.ret { a := .g 2, ty := .b64 })) 0 2 12) .trapBase 0x800)).thread me 0).trapAddr = 12 := by decide +kernel
def slp : Instr := .sleep { b := .g 2 }
theorem witness_end_and_sleep : (lanes 32 (at_ (.exit {}))).acts (.exit {}) = true ∧ (lanes 32 (at_ (.exit {}))).acting (.exit {}) ≠ [] ∧
    (((at_ (.exit {})).endThreads me [0]).team 1).allEnded = true ∧ plainAt slp = true ∧ (((at_ slp).srcs slp 0).2.1.setWidth 32).toNat = 0 ∧ (0 : Nat) ∈ (at_ slp).acting slp ∧
    (at_ slp).has me = true := by decide +kernel
theorem test_exit_ends : ((run (.exit {}) (at_ (.exit {}))).thread me 0).life = .ended := by decide +kernel
theorem test_sleep_clamps : ((run slp (rg (at_ slp) 0 2 0xFFFFFFFF)).thread me 0).sleep = 1048575 := by decide +kernel
/-- A handler in place, the lanes inside it or not. -/
def inHandler (s : State) : State := th s 0 fun t => { t with inh := true, trapPc := 0x10010 }
def hnd (i : Instr) : State := cr (at_ i) .trapBase 0x800
theorem witness_software_traps :
    ([Instr.trap { b := .lit 0xFFFFFFFF }, .tret {}, .trapf {}, .brk {}].all fun i => (hnd i).acts i && !((hnd i).acting i).isEmpty && Operand.still i.fv.a && Operand.still i.fv.b && Operand.still i.fv.c) = true ∧
    (((inHandler (hnd (.tret {}))).acting (.tret {})).all fun l => ((inHandler (hnd (.tret {}))).thread me l).inh) = true ∧
    (((hnd (.tret {})).acting (.tret {})).filter fun l => !((hnd (.tret {})).thread me l).inh) = [0] ∧
    (((hnd (.trapf {})).acting (.trapf {})).all fun l => ((hnd (.trapf {})).thread me l).flags &&& ((hnd (.trapf {})).thread me l).en == 0) = true := by decide +kernel
theorem test_trap_code : ((run (.trap { b := .lit 7 }) (hnd (.trap { b := .lit 7 }))).thread me 0).trapAux = 7 ∧ ((run (.trap { b := .lit 7 }) (hnd (.trap { b := .lit 7 }))).thread me 0).pc = 0x800 ∧
    ((run (.trap { b := .lit 7 }) (hnd (.trap { b := .lit 7 }))).thread me 0).trapPc = 0x10010 := by decide +kernel
theorem test_tret_returns : ((run (.tret {}) (inHandler (hnd (.tret {})))).thread me 0).pc = 0x10010 ∧ ((run (.tret {}) (inHandler (hnd (.tret {})))).thread me 0).inh = false := by decide +kernel
theorem test_trapf_fences : ((run (.trapf {}) (th (hnd (.trapf {})) 0 fun t => { t with flags := 9, en := 8 })).thread me 0).trapCause = 0x18 := by decide +kernel
theorem test_brk_parks : ((run (.brk { b := .lit 5 }) (at_ (.brk { b := .lit 5 }))).thread me 0).parked = true ∧ ((run (.brk { b := .lit 5 }) (at_ (.brk { b := .lit 5 }))).thread me 0).trapCause = 0x28 := by decide +kernel
theorem witness_taking_a_trap : (hnd (.nop {})).has me = true ∧ (hnd (.nop {})).creg ((hnd (.nop {})).ctxOf me) .trapBase ≠ 0 ∧ (List.range 32).Nodup ∧
    ((List.range 32).all fun l => !((hnd (.nop {})).thread me l).inh) = true ∧ (at_ (.nop {})).creg 0 .trapBase = 0 ∧ ((inHandler (hnd (.nop {}))).thread me 0).inh = true := by decide +kernel

/-! ### Waits, phases, barriers and hand-overs -/
def wait63 : Instr := .wait { dst := .num 0, a := .num 63, b := .num 63, c := .num 63 }
def wtl (n : Nat) : Instr := .waittl { dst := .num (BitVec.ofNat 9 n), b := .lit 1 }
def wct : Instr := .waitct { a := .g 2, b := .g 4, sub := 1, ty := .b64 }
def one1 (i : Instr) : State := gr (at_ i) fun g => { g with ldCnt := 1 }
/-- A copy context that stopped at a record, with its counter address. -/
def stoppedCopy (k : Nat) (s : State) : State := tm s fun t => t.modCopy 0 fun c => { c with stopped := true, fstat := k, faddr := 0x40, fcnt := some 0x100, next := 1, recs := [{ no := 0 }] }
theorem witness_waits :
    ([wait63, wtl 6, wct].all fun i => (at_ i).acts i && !((at_ i).acting i).isEmpty && (at_ i).poolClear me ((at_ i).acting i)) = true ∧
    (pr (at_ (.wait { guard := { p := 0 }, dst := .num 0 })) 3 0).acting (.wait { guard := { p := 0 }, dst := .num 0 }) = [] ∧
    ((at_ wait63).begun wait63).waitOver me (.counters 0 63 63 63) = true ∧ ((one1 wait63).begun wait63).waitOver me (.counters 0 63 63 63) = false ∧
    ((one1 wait63).begun wait63).waitFault me (.counters 0 63 63 63) = none ∧ ((at_ (wtl 6)).begun (wtl 6)).waitOver me (.tl 6 1) = false := by decide +kernel
theorem test_wait_goes_on : ((run wait63 (at_ wait63)).thread me 0).wait = none ∧ ((run wait63 (one1 wait63)).thread me 0).wait = some (.counters 0 63 63 63) := by decide +kernel
theorem test_waittl_waits : ((run (wtl 6) (at_ (wtl 6))).thread me 0).wait = some (.tl 6 1) := by decide +kernel

/-- A copy context 0 that stopped at its record 1, a surface fault (R89, R92). -/
def copyFault (s : State) : State :=
  tm s fun t => t.modCopy 0 fun c => { c with stopped := true, fstat := 4, fsurf := 0x55, fsub := 0x12, next := 1, recs := [{ no := 1, status := 4 }] }
theorem witness_wait_faults : ((copyFault (at_ (wtl 0))).begun (wtl 0)).waitOver me (.tl 0 1) = false ∧
    ((copyFault (at_ (wtl 0))).begun (wtl 0)).waitFault me (.tl 0 1) = some (0x0F, 0x55, 0x12) ∧ ((at_ (wtl 0)).acting (wtl 0)) = [0] ∧
    (match (mp (rp (at_ (.waitct { a := .g 2, b := .g 4, ty := .b64 })) 0 2 0x10008)).globalCheck me 0x10008 8 .read with | .ok loc _ => loc == 0x10008 | _ => false) = true ∧
    (match (win (at_ wct) 0 0x30000).ldsrRange ((win (at_ wct) 0 0x30000).team 1) 1 0x2FFF8 8 8 with | .ok loc _ => loc == scratchLoc 0 0 0x2FFF8 | _ => false) = true ∧ (5 : Nat) < 6 := by
  decide +kernel
/-- A lane that waits in the middle of its clause. -/
def waiting (w : Wait) (s : State) : State :=
  th (gr (mid s) fun g => { g with run := none, blocked := g.run.toList }) 0 fun t => { t with wait := some w }
theorem witness_wait_ends : ([Wait.counters 0 63 63 63, .tl 6 1, .ct [scratchLoc 0 0 0] 1, .bar 15 0, .operand, .retry].all fun w =>
      ((waiting w (at_ (.nop {}))).thread me 0).wait == some w && ((waiting w (at_ (.nop {}))).blockedRun? me 0).isSome) = true ∧
    (waiting (.counters 0 63 63 63) (at_ (.nop {}))).waitOver me (.counters 0 63 63 63) = true ∧ (waiting (.tl 6 0) (at_ (.nop {}))).waitOver me (.tl 6 0) = true ∧
    (waiting (.tl 6 1) (at_ (.nop {}))).waitOver me (.tl 6 1) = false ∧ (waiting (.tl 6 1) (at_ (.nop {}))).waitFault me (.tl 6 1) = none ∧
    ((waiting .operand (at_ (.nop {}))).blockedRun? me 0).map Run.last = some false ∧ (waiting .operand (at_ (.nop {}))).has me = true ∧
    (waiting (.tl 6 0) (at_ (.nop {}))).poolClear me [0] = true := by decide +kernel
theorem test_wait_end_goes_on : ((run (.waitEnd me 0) (waiting (.tl 6 0) (at_ (.nop {})))).thread me 0).wait = none ∧
    ((run (.waitEnd me 0) (waiting (.tl 6 0) (at_ (.nop {})))).thread me 0).pc = 0x10010 := by decide +kernel
theorem witness_releases : ((at_ (.nop {})).team? me.team).isSome = true ∧ ((at_ (.nop {})).team me.team).id.cluster < 6 ∧ Scope.system ≠ .team := by decide +kernel
def phase (sub : Nat) : Instr := .phase { sub := BitVec.ofNat 4 sub }
/-- An atomic of lane 0 in the pool. -/
def pooled (s : State) : State := tm s fun t => t.modOrd fun o => { o with pool := [{ no := 7, who := me, lane := 0, loc := scratchLoc 0 0 8, dst := .g 30, load := true }] }
/-- A map with a dirty line, of a page that is mapped or not. -/
def dirtyMap (va : Nat) (s : State) : State :=
  mp (tm (win s 0 0x30000) fun t => { t with maps := [{ base := 0, len := 256, va := BitVec.ofNat 64 va, lines := [{ st := 2, mask := 1 }] }] })
def wbOk (s : State) : Bool := match s.writeBack 1 (s.team 1).allMaps with | .ok _ => true | _ => false
def wbFail (s : State) : Bool := match s.writeBack 1 (s.team 1).allMaps with | .fail _ _ _ => true | _ => false
theorem witness_phase : ((List.range 12).all fun k => (at_ (phase (k + 4))).acts (phase (k + 4)) && !((at_ (phase (k + 4))).acting (phase (k + 4))).isEmpty && decide (4 ≤ (BitVec.ofNat 4 (k + 4)).toNat)) = true ∧
    (at_ (phase 4)).poolClear me [0] = true ∧ (pooled (at_ (phase 15))).poolClear me ((pooled (at_ (phase 15))).acting (phase 15)) = false ∧
    wbOk ((dirtyMap 0x10000 (at_ (phase 6))).begun (phase 6)) = true ∧ wbFail ((dirtyMap 0x50000 (at_ (phase 6))).begun (phase 6)) = true := by decide +kernel
def bar15 : Instr := .bar { sub := 15 }
theorem witness_barriers : (lanes 32 (at_ bar15)).acts bar15 = true ∧ (lanes 32 (at_ bar15)).poolClear me ((lanes 32 (at_ bar15)).acting bar15) = true ∧ (15 : Nat) < 16 ∧
    (let t := (lanes 2 (at_ bar15)).team 1; (some 1 : Option Nat).getD 0 ≤ (vget t.bars 15).arrived.length + 1 ∧ (vget t.bars 15).arrived.length + 1 < 2) := by decide +kernel
theorem test_bar_completes : ((run bar15 (lanes 2 (at_ bar15))).team 1).bars = vset (.replicate 16 {}) 15 { phase := 1 } ∧
    ((run (.bar { a := .lit 3, sub := 2 }) (lanes 2 (at_ (.bar { a := .lit 3, sub := 2 })))).thread me 1).wait = some (.bar 2 0) := by decide +kernel

/-! ### Transaction barriers -/
/-- The record’s place in the team’s own scratchpad, and one outside. -/
def tbi (mk : VF → Instr) : Instr := mk { dst := .none, a := .g 2, b := .g 5 }
def tbAt (w : Nat) (i : Instr) : State := rg (win (at_ i) 0 0x30000) 0 2 w
def tbGood (w : Nat) (i : Instr) : Bool :=
  match ((tbAt w i).begun i).tbCheck ((tbAt w i).team 1) ((((tbAt w i).begun i).readOp me 0 false (.g 2)).setWidth 32) with | .ok loc _ => loc == scratchLoc 0 0 w | _ => false
theorem witness_tb_records : ∀ o ∈ [TbOp.exp 3 5, .arv 3 7 me 31 (.g 8), .copy 3 9], (∀ a b, o ≠ .init a b) ∧ o.loc = 3 ∧ (65535 : Nat) ≤ 65535 := by
  intro o ho; simp only [List.mem_cons, List.not_mem_nil, or_false] at ho; rcases ho with rfl | rfl | rfl <;> simp [TbOp.loc]
def tbAlone : State := State.reset.modCluster 5 fun c => { c with tbars := [(3, false)], tbOps := [{ op := .exp 3 5 }] }
theorem witness_tb_network : (vget tbAlone.clusters 5).tbars = [(3, false)] ∧ (((vget tbAlone.clusters 5).tbOps).all fun o => o.op.loc == 3) = true ∧
    ((List.range 6).all fun c => c == 5 || ((vget tbAlone.clusters c).tbars == [] && (vget tbAlone.clusters c).tbOps == [])) = true := by decide +kernel
theorem witness_tb_instructions : ([tbi .tbinit, tbi .tbexp, tbi .tbarv, tbi .tbwait].all fun i => (tbAt 0x2FFF0 i).acts i && (tbAt 0x2FFF0 i).acting i == [0] && tbGood 0x2FFF0 i &&
      (tbAt 0x2FFF0 i).poolClear me [0]) = true ∧
    ((tbAt 0x8000_0000 (tbi .tbwait)).acting (tbi .tbwait)).filter (fun l => Spw.bad ((tbAt 0x8000_0000 (tbi .tbwait)).team 1).id.core
      ((((tbAt 0x8000_0000 (tbi .tbwait)).begun (tbi .tbwait)).readOp me l false (.g 2)).setWidth 32)) = [0] := by decide +kernel
/-- A record with one arrival and 16 bytes expected: the ticket of R158, and the phase that ends. -/
theorem test_tb_clock : (({ expa := 1, penda := 1, pendb := 16 } : TbRec).clock [.arv 0 16 me 0 (.g 8)]) = ({ pnum := 1, expa := 1, penda := 1 }, [(me, 0, .g 8, 0)]) := by decide +kernel
theorem test_tbwait_waits : ((run (tbi .tbwait) (tbAt 0 (tbi .tbwait))).thread me 0).wait = some (.tb (scratchLoc 0 0 0) 0) := by decide +kernel

/-! ### Hand-overs, quotas, gangs and uniform registers -/
/-- A second group of role 1, live in its lane 0. -/
def two (s : State) : State := tm s fun t => { t with groups := t.groups.map (fun g => { g with role := 0 }) ++ [{ role := 1, quota := 64, threads := vset (.replicate 32 {}) 0 { life := .live } }] }
def xf (a b : BitVec 3) : Instr := .xfer { dst := .g 4, a := .g 6 } 7 a b
def chan (f : Channel → Channel) (s : State) : State := tm s fun t => { t with chans := vmod t.chans 7 f }
theorem witness_hand_overs :
    ([xf 0 1, xf 1 0, xf 1 2].all fun i => (two (at_ i)).acts i && (two (at_ i)).acting i == [0]) = true ∧ ((two (at_ (xf 0 1))).group me).role = 0 ∧
    ((two (at_ (xf 0 1))).team 1).liveIn 0 = [.group 0] ∧ ((two (at_ (xf 0 1))).team 1).liveIn 1 = [.group 1] ∧
    (vget ((two (at_ (xf 0 1))).group me).xfers 7 + 1) - (vget ((two (at_ (xf 0 1))).team 1).chans 7).done ≤ min ((two (at_ (xf 0 1))).team 1).regs.drift 16 ∧
    min ((tm (two (at_ (xf 0 1))) fun t => { t with regs := { t.regs with drift := 0 } }).team 1).regs.drift 16 < 1 - (vget ((two (at_ (xf 0 1))).team 1).chans 7).done ∧
    (two (at_ (xf 0 1))).poolClear me (two (at_ (xf 0 1))).crew = true ∧ (vget ((two (at_ (xf 0 1))).team 1).chans 7).arrivals = [] ∧
    (vget ((two (at_ (xf 0 1))).team 1).chans 7).entries = [] ∧
    (vget ((chan (fun c => { c with entries := [(1, 9, false, [])] }) (two (at_ (xf 1 0)))).team 1).chans 7).entries = [(1, 9, false, [])] ∧ Operand.own (.g 4) = true ∧
    ((vget ((two (at_ (xf 1 0))).team 1).chans 7).entries.find? fun e => e.1 == 1) = none ∧ ((two (at_ (xf 1 0))).team 1).liveIn 1 ≠ [] ∧ ((at_ (xf 1 0)).team 1).liveIn 1 = [] := by
  decide +kernel
theorem test_xfer_hands_over : (vget ((run (xf 1 0) (chan (fun c => { c with entries := [(1, 9, false, [])] }) (two (at_ (xf 1 0))))).thread me 0).g 4) = 9 ∧
    (vget ((run (xf 0 1) (rg (two (at_ (xf 0 1))) 0 6 5)).team 1).chans 7).entries = [(1, 5, false, [])] := by decide +kernel
def rq (a b : BitVec 3) : Instr := .roleq { dst := .g 4, a := .g 6 } a b
theorem witness_quota_moves : ([rq 0 1, rq 1 2].all fun i => (two (at_ i)).acts i && (two (at_ i)).acting i == [0]) = true ∧
    (let t := (two (at_ (rq 0 1))).team 1
     t.roleqStatus 1 1 8 = (4, 0) ∧ t.roleqStatus 0 1 0 = (1, 0) ∧ t.roleqStatus 0 1 256 = (2, 0) ∧ t.roleqStatus 0 1 200 = (3, 0) ∧ t.roleqStatus 0 1 192 = (0, 192) ∧
     (t.liveGroups 0).length = 1 ∧ (t.liveGroups 1).length = 1 ∧ vget t.regs.kinds 0 < 2 ∧ vget t.regs.kinds 1 < 2 ∧ (t.groups.getD 0 default).quota = 256 ∧
     (t.groups.getD 1 default).quota = 64) := by decide +kernel
def gset : Instr := .gangset { b := .g 2 }
def dset : Instr := .driftset { b := .g 2 }
def kset (n : BitVec 6) : Instr := .kset { dst := .k n, b := .g 2 }
theorem witness_gangs : ([gset, dset, kset 63].all fun i => (two (at_ i)).acts i && (two (at_ i)).acting i == [0]) = true ∧
    (bitsOf (1 : Word)).length = 1 ∧ 6 < (bitsOf (0x7F : Word)).length ∧ (∃ g ∈ bitsOf (4 : Word), ((two (at_ gset)).team 1).groups.length ≤ g) ∧
    (bitsOf (3 : Word)).length ≠ 1 ∧ (bitsOf (3 : Word)).length ≤ 6 ∧ (∀ g ∈ bitsOf (3 : Word), g < ((two (at_ gset)).team 1).groups.length) ∧ (bitsOf (0 : Word)).length = 0 ∧
    ((two (at_ gset)).team 1).latch = [] ∧ (at_ (kset 63)).cur.mem = .group 0 ∧ (0 : Nat) ∉ (pr (at_ (.kset { guard := { p := 1 }, dst := .k 0, b := .g 2 })) 0 3).acting (.kset { guard := { p := 1 }, dst := .k 0, b := .g 2 }) ∧
    ({ two (at_ (kset 1)) with cur := { me with mem := .group 1 } } : State).cur.mem ≠ .group 0 := by decide +kernel
theorem test_gangset : ((run gset (rg (two (at_ gset)) 0 2 3)).team 1).regs.gang = 3 ∧ ((run gset (rg (two (hnd gset)) 0 2 1)).thread me 0).trapCause = 0x1A := by decide +kernel
theorem test_driftset : ((run dset (rg (at_ dset) 0 2 200)).team 1).regs.drift = 64 ∧ ((run dset (at_ dset)).team 1).regs.drift = 1 := by decide +kernel
theorem test_kset : vget ((run (kset 63) (rg (at_ (kset 63)) 0 2 77)).team 1).regs.k 63 = 77 := by decide +kernel

/-! ### Memory -/
/-- The location of a good check, and what a failed one says. -/
def okAt (c : Chk) : Option Nat := match c with | .ok l _ => some l | _ => none
def badAt (c : Chk) : Option (Nat × Nat × DWord × DWord) := match c with | .bad r k a x => some (r, k, a, x) | _ => none
/-- Two lanes with addresses in g2: a good one in lane 0, another in lane 1. -/
def sp2 (i : Instr) (a b : Nat) : State := rg (rg (win (lanes 2 (at_ i)) 0 0x30000) 0 2 a) 1 2 b
def ldsI (f : MF → Instr) : Instr := f { dst := .g 8, base := .g 2, c := .num 0, data := .none }
def stsI (f : MF → Instr) : Instr := f { base := .g 2, c := .num 0, data := .g 4 }
def atI (f : MF → Instr) (u : Use := .plain) : Instr := f { dst := .g 8, base := .g 2, c := .num 0, data := .g 4, use := u }
def mfOf : Instr → MF | .lds f | .ldsr f | .sts f | .stsr f | .atoms f | .atomsr f | .atomg f | .atomf f | .atomh f | .sld f | .sst f | .ldh f | .sth f | .ldref f | .stref f | .refeq f => f | _ => {}
def remoteOf : Instr → Bool | .ldsr _ | .stsr _ | .atomsr _ => true | _ => false
def spIs : List Instr := [ldsI .lds, stsI .sts, atI .atoms, ldsI .ldsr, stsI .stsr, atI .atomsr]
def chkOf (i : Instr) (s : State) (l : Nat) : Chk := spAt (mfOf i) (remoteOf i) (s.begun i) l
/-- Lane 1 fails the check of rank k, lane 0 none. -/
def failsIn1 (i : Instr) (chk : State → Nat → Chk) (s : State) (k : Nat) : Bool :=
  s.acts i && (s.acting i).filter (fun l => (chk s l).rank == some k) == [1] && (s.acting i).all (fun l => match (chk s l).rank with | some r => decide (k ≤ r) | none => true) &&
  (badAt (chk s 1)).map (·.1) == some k
theorem witness_scratchpad_checks : (spIs.all fun i => failsIn1 i (chkOf i) (sp2 i 0x2FFFC 0x80000000) 1 && failsIn1 i (chkOf i) (sp2 i 0x2FFFC 2) 2 && failsIn1 i (chkOf i) (sp2 i 0x2FFFC 0x30000) 3) = true ∧
    (let s := sp2 (ldsI .lds) 0 0; 2 ^ 18 ≤ (0x40000 : Word).toNat ∧ Spw.bad (s.team 1).id.core 0x80000000 = true ∧ Spw.bad (s.team 1).id.core 0x2FFFC = false ∧
      (s.windowAt 0 0 0 0x2FFFC 4).isSome = true ∧ s.windowAt 0 0 0 0x2FFFD 4 = none ∧ s.invalidLine (scratchLoc 0 0 0x2FFFC) = none) := by decide +kernel
theorem witness_loads_and_stores : (spIs.all fun i => (sp2 i 0x2FFFC 0).acts i && !(sp2 i 0x2FFFC 0).fenced && !((sp2 i 0x2FFFC 0).begun i).anyPoison &&
    okAt (chkOf i (sp2 i 0x2FFFC 0) 0) == some (scratchLoc 0 0 0x2FFFC) && okAt (chkOf i (sp2 i 0x2FFFC 0) 1) == some (scratchLoc 0 0 0)) = true ∧ Operand.own (.g 8) = true ∧
    isTexel (scratchLoc 5 191 0x2FFFF % keyUnit) = false := by decide +kernel
/-- What a store of another lane left, read by a load: little-endian, a signed byte extended (R238, R241). -/
theorem test_store_then_load :
    let st : Instr := .sts { base := .g 2, c := .num 0, data := .g 4 }
    let ld : Instr := .lds { dst := .g 8, base := .g 2, c := .num 3, ty := .s8 }
    let s := run st (rg (rg (win (at_ st) 0 0x30000) 0 2 0x100) 0 4 0xF1020304)
    vget ((run ld (gr s fun g => { g with run := (at_ ld).path.lanes |> fun m => some { lanes := m, hdr := 0x10000, hword := 0, words := [encode ld] } })).thread me 0).g 8 = 0xFFFFFFF1 := by decide +kernel
theorem test_stsr : ((run (stsI .stsr) (sp2 (stsI .stsr) 0x10 0x14)).seenByte me 0 (scratchLoc 0 0 0x10)) = 0 ∧ ((run (stsI .stsr) (rg (sp2 (stsI .stsr) 0x10 0x14) 0 4 7)).seenByte me 0 (scratchLoc 0 0 0x10)) = 7 := by decide +kernel
theorem test_ldsr_bounds : ((run (ldsI .ldsr) (cr (sp2 (ldsI .ldsr) 0x10 0x30000) .trapBase 0x800)).thread me 1).trapCause = 0x0D ∧ ((run (ldsI .ldsr) (cr (sp2 (ldsI .ldsr) 0x10 0x30000) .trapBase 0x800)).thread me 0).trapLanes = 2 := by decide +kernel
/-- ATOMG through the map, ATOMF on a surface. -/
def gl (i : Instr) (a : Nat) : State := rp (mp (at_ i)) 0 2 a
/-- A surface of context 0: linear, 16 × 16 of 4 bytes (format 0x07), its tiles resident (R50, R53). -/
def surfDesc : Vector DWord 4 := #v[0x80B07, 0, 0, 0]
theorem witness_atomics : ([Use.plain, .commute, .unpaired, .noorder, .spec].all fun u => (let i := atI .atoms u; (sp2 i 0 4).acts i && (sp2 i 0 4).acting i == [0, 1] && !((sp2 i 0 4).begun i).anyPoison &&
      ((sp2 i 0 4).begun i).poolClear me [0, 1])) = true ∧
    (let i := atI .atomg; let s := gl i 0x1FFFC
     s.acts i = true ∧ s.acting i = [0] ∧ (match (s.begun i).globalCheck me (MF.gaddr (mfOf i) (s.begun i) me 0 4) 4 .write with | .ok loc pg => loc == 0x1FFFC && !pg.snap && !isHost loc | _ => false) = true) ∧
    ((pooled (sp2 (atI .atoms) 0 4)).begun (atI .atoms)).poolClear me ((pooled (sp2 (atI .atoms) 0 4)).acting (atI .atoms)) = false := by decide +kernel
theorem test_atoms_add : vget ((run (atI .atoms) (rg (rg (sp2 (atI .atoms) 0 0) 0 4 5) 1 4 6)).thread me 1).g 8 = 5 ∧ (run (atI .atoms) (rg (rg (sp2 (atI .atoms) 0 0) 0 4 5) 1 4 6)).homeReadN (scratchLoc 0 0 0) 4 = 11 := by decide +kernel
theorem test_atomsr_pools : ((run (atI .atomsr .unpaired) (sp2 (atI .atomsr .unpaired) 0 4)).team 1).ord.pool.length = 2 ∧ ((run (atI .atomsr .unpaired) (sp2 (atI .atomsr .unpaired) 0 4)).group me).ldCnt = 1 := by decide +kernel
theorem test_atomg_exch : (run (.atomg { dst := .g 8, base := .g 2, c := .num 0, data := .g 4, op := .exch }) (rg (gl (.atomg { dst := .g 8, base := .g 2, c := .num 0, data := .g 4, op := .exch }) 0x10004) 0 4 9)).homeReadN 0x10004 4 = 9 := by decide +kernel
def pool1 : State := tm (at_ (.nop {})) fun t => { t with ord := { t.ord with pool := [{ no := 7, who := me, loc := scratchLoc 0 0 8, ty := .b32, v := 3, load := true, dst := .g 30 }] } }
def outq2 : State := State.reset.modCluster 5 fun c => { c with outq := [.update (2 ^ 48) .add .n32 1, .update (2 ^ 48) .add .n32 2] }
theorem witness_atomic_steps : (pool1.team 1).ord.pool[0]?.isSome = true ∧ ((pool1.team 1).ord.pool.take 0) = [] ∧ pool1.anyPoison = false ∧ (pending8.team 1).ord.pend[0]?.isSome = true ∧
    (pending8.thread me 0).life ≠ .ended ∧ ((th pending8 0 fun t => { t with life := .ended }).thread me 0).life = .ended ∧
    (vget outq2.clusters 5).outq = .update (2 ^ 48) .add .n32 1 :: .update (2 ^ 48) .add .n32 2 :: [] ∧ 8 ≤ Ty.n32.width ∧ State.reset.mem.wf = true ∧ scratchBase ≤ scratchLoc 5 191 0x2FFFC ∧
    scratchLoc 5 191 0x2FFFC + Ty.b32.width / 8 ≤ gddrBase := by decide +kernel
theorem test_pooled_lands : (run (.pooledAtomic 1 0) pool1).homeReadN (scratchLoc 0 0 8) 4 = 3 ∧ ((run (.pooledAtomic 1 0) pool1).team 1).ord.pend.length = 1 := by decide +kernel
theorem test_writeback_lands : vget ((run (.registerWriteback 1 0) pending8).thread me 0).g 8 = 1 := by decide +kernel
theorem test_combine_adds : (vget (run (.combine 5 0 true) outq2).clusters 5).outq = [.update (2 ^ 48) .add .n32 3] := by decide +kernel
theorem test_drain_home : (run (.drain 5 0 true) outq2).homeReadN (2 ^ 48) 4 = 1 := by decide +kernel
def hostAt : State := gl (atI .atomg) 0x40000
def hostWait : State := run (atI .atomg) (rg hostAt 0 4 5)
theorem witness_host_atomics : hostAt.acts (atI .atomg) = true ∧ hostAt.acting (atI .atomg) = [0] ∧ hostAtomic .add = true ∧
    (match (hostAt.begun (atI .atomg)).globalCheck me (MF.gaddr (mfOf (atI .atomg)) (hostAt.begun (atI .atomg)) me 0 4) 4 .write with | .ok loc _ => isHost (loc % keyUnit) | _ => false) = true ∧
    (hostWait.thread me 0).wait = some (.host (2 ^ 48) 0x40000) ∧ (hostWait.group me).run.map (fun r => r.word) = some (encode (atI .atomg)) ∧ hostWait.poolClear me [0] = true ∧
    (pooled hostWait).poolClear me [0] = false ∧ hostAt.poolClear me [0] = true := by decide +kernel
theorem test_host_completion : (run (.hostAtomicopCompletion me 0 true) hostWait).homeReadN (2 ^ 48) 4 = 5 ∧ ((run (.hostAtomicopCompletion me 0 false) (cr hostWait .trapBase 0x800)).thread me 0).trapCause = 0x0B := by decide +kernel

/-! ### Maps -/
def maprI : Instr := .mapr { base := .g 2, data := .g 4, c := .g 6, ty := .b64 }
def mapAt (w len va : Nat) : State := rg (rp (rg (win (at_ maprI) 0x100 0x2FF00) 0 2 w) 0 4 va) 0 6 len
/-- 0 for a good check, else its rank, cause, address and details. -/
def mapChk (s : State) : Nat × Nat × DWord × DWord :=
  let f : MF := { base := .g 2, data := .g 4, c := .g 6 }
  let a : MapAsk := { lane := 0, w := MF.base32 f (s.begun maprI) me 0, len := ((s.begun maprI).readOp me 0 false f.c).toNat, va := (s.begun maprI).readOp me 0 true f.data }
  match (s.team 1).mapCheck [a] 0 a with | .ok _ _ => (0, 0, 0, 0) | .bad r k x y => (r, k, x, y) | .xfault r _ _ _ => (r, 0, 0, 0) | _ => (9, 0, 0, 0)
def maps8 (s : State) : State := tm s fun t => { t with maps := List.replicate 8 { base := 0x1000, len := 256 } }
theorem witness_maps : (mapAt 0x100 0x2FF00 0).acts maprI = true ∧ (mapAt 0x100 0x2FF00 0).acting maprI = [0] ∧ mapChk (mapAt 0x100 0x2FF00 0x1_FFFF_0000) = (0, 0, 0, 0) ∧
    ((mapAt 0x100 0x2FF00 0).team 1).delivering 0x100 0x2FF00 = false ∧ mapChk (mapAt 0x40000 256 0) = (1, 0x13, 0x40000, Spw.aux 0x40000) ∧
    mapChk (mapAt 0x180 256 0) = (2, 0x0C, 0x180, 256) ∧ mapChk (mapAt 0x100 0 0) = (3, 0x0C, 0x100, 0) ∧ mapChk (mapAt 0 256 0) = (4, 0x0D, 0, 256) ∧
    mapChk (maps8 (mapAt 0x2000 256 0)) = (5, 0x0D, 0x2000, 256) ∧ mapChk (mapAt 0x100 256 (2 ^ 56)) = (6, 0, 0, 0) := by decide +kernel
theorem test_mapr_binds : ((run maprI (mapAt 0x200 512 0x10000)).team 1).maps = [{ base := 0x200, len := 512, va := 0x10000, lines := [{}, {}] }] := by decide +kernel
def wbI (drop : Bool) : Instr := if drop then .unmapr { base := .g 2, c := .num 0 } else .flushr { base := .g 2, c := .num 0 }
theorem witness_write_backs : ([true, false].all fun d => let s := dirtyMap 0x10000 (at_ (wbI d)); s.acts (wbI d) && s.acting (wbI d) == [0] && wbOk (s.begun (wbI d)) &&
      wbFail ((dirtyMap 0x50000 (at_ (wbI d))).begun (wbI d)) && !(s.team 1).delivering 0 256 && ((s.team 1).maps.getD 0 default).base == (MF.base32 { base := .g 2 } (s.begun (wbI d)) me 0).toNat) = true := by
  decide +kernel
theorem test_flush_writes_back :
    (run (wbI false) ((dirtyMap 0x10000 (at_ (wbI false))).homeWrite [(scratchLoc 0 0 0, 0x5A)])).homeRead 0x10000 = 0x5A ∧
    ((run (wbI true) (dirtyMap 0x10000 (at_ (wbI true)))).team 1).maps = [] := by decide +kernel
def fresh (mask : BitVec 256) (va : Nat) : State := tm (dirtyMap va (at_ (.nop {}))) fun t => { t with maps := t.maps.map fun m => { m with lines := [{ mask }] } }
theorem witness_fills : (fresh 2 0x10000).mem.wf = true ∧ ((fresh 2 0x10000).team? 1).isSome = true ∧ ((((fresh 2 0x10000).team 1).maps.getD 0 default).lines.getD 0 default).st = 0 ∧
    (match (fresh 2 0x10000).xlate (some ((fresh 2 0x10000).team 1).coreNo) 0 (((fresh 2 0x10000).team 1).lineVa 0 0) .read with | .ok (loc, _) => loc == 0x10000 | _ => false) = true ∧
    (match (fresh 0 0x50000).xlate (some ((fresh 0 0x50000).team 1).coreNo) 0 (((fresh 0 0x50000).team 1).lineVa 0 0) .read with | .error _ => true | _ => false) = true ∧
    ((((dirtyMap 0x10000 (at_ (.nop {}))).team 1).maps.getD 0 default).lines.getD 0 default).st ≠ 0 := by decide +kernel
theorem test_fill_keeps_written : let s := (fresh 2 0x10000).homeWrite [(0x10000, 9), (0x10001, 8)]
    (run (.mapLineFill 1 0 0) s).homeRead (scratchLoc 0 0 0) = 9 ∧ (run (.mapLineFill 1 0 0) s).homeRead (scratchLoc 0 0 1) = 0 ∧
    ((((run (.mapLineFill 1 0 0) s).team 1).maps.getD 0 default).lines.getD 0 default).st = 2 := by decide +kernel

/-! ### Surfaces and the raster pipeline -/
/-- Surface 1 of context 0: 16 × 16 texels of FP32 (format 0x07), blocks of 8 × 8, one frame a side, tile 0 resident and the others clear (R50 to R53). -/
def surf1 : Surface := { handle := 1, w := #v[0x07 * 2 ^ 56 + 15 * 2 ^ 42 + 15 * 2 ^ 28 + 0x800, 0, 0x20000, 0x30000], tiles := [(0, 0)] }
def surfOn (s : State) (u : Surface := surf1) : State :=
  let d := cr (s.modCtx 0 fun c => { c with surfaces := [u] }) .surfQuota (1 + 2 ^ 32)
  { d with dev := { d.dev with frameTab := .replicate 2 [{ ix := 0, x := 0, handle := 1, frame := some 3 }] } }
/-- The texel address of R246. -/
def txa (h x y boff : Nat) : Nat := h * 2 ^ 52 + x * 2 ^ 18 + y * 2 ^ 4 + boff
def tx2 (i : Instr) (a b : Nat) : State := rp (rp (surfOn (mp (lanes 2 (at_ i)))) 0 2 a) 1 2 b
def txIs : List Instr := [ldsI .sld, stsI .sst, atI .atomf]
def opOf (i : Instr) : SurfOp := match i with | .sld _ => .load | .sst _ => .store | _ => .atomic (mfOf i).op (mfOf i).ty
def txChk (i : Instr) (s : State) (l : Nat) : Chk := texAt (mfOf i) (opOf i) (s.begun i) l
theorem witness_texel_checks : (txIs.all fun i => [(txa 1 3 3 0 + 2 ^ 43, 1), (txa 1 3 3 1, 2), (txa 2 3 3 0, 3), (txa 1 16 3 0, 4), (txa 1 3 16 0, 4), (txa 1 3 3 4, 7)].all fun b =>
      failsIn1 i (txChk i) (tx2 i (txa 1 0 0 0) b.1) b.2) = true ∧
    (let s := surfOn State.reset
     (texelOf (BitVec.ofNat 64 (txa 1 0 0 0 + 2 ^ 32)) 0).rsv = true ∧ (texelOf (BitVec.ofNat 64 (txa 1 0 0 1)) 0).boff % 4 ≠ 0 ∧ (s.validSurf? 0 2).isNone = true ∧ (s.validSurf? 0 1).isSome = true ∧
     (texelOf (BitVec.ofNat 64 (txa 1 0 0 0)) (-1)).x < 0 ∧ (SurfOp.atomic .fadd .f16x2).bad (Surf.format surf1) 0 = true ∧ SurfOp.load.bad (Surf.format surf1) 0 = false ∧
     Surf.tile surf1 (Surf.place surf1 3 3 0).2.2.1 = 0 ∧ Surf.width surf1 = 16 ∧ Surf.height surf1 = 16 ∧ Surf.layers surf1 = 1) := by decide +kernel
theorem witness_texel_accesses : (txIs.all fun i => (tx2 i (txa 1 0 0 0) (txa 1 3 3 0)).acts i && okAt (txChk i (tx2 i (txa 1 0 0 0) (txa 1 3 3 0)) 0) == some (texelLoc 0 1 0 0 0 0) &&
      okAt (txChk i (tx2 i (txa 1 0 0 0) (txa 1 3 3 0)) 1) == some (texelLoc 0 1 0 3 3 0) && !(((tx2 i (txa 1 0 0 0) (txa 1 3 3 0)).begun i).touchLocs [texelLoc 0 1 0 0 0 0]).anyPoison) = true := by
  decide +kernel
theorem test_sst_then_home : ((run (stsI .sst) (rg (tx2 (stsI .sst) (txa 1 0 0 0) (txa 1 3 3 0)) 1 4 0x3F800000)).seenByte me 1 (texelLoc 0 1 0 3 3 3)) = 0x3F := by decide +kernel
theorem test_sld_out_of_bounds : ((run (ldsI .sld) (cr (tx2 (ldsI .sld) (txa 1 0 0 0) (txa 1 16 3 0)) .trapBase 0x800)).thread me 1).trapAux = 2 + 256 ∧
    ((run (ldsI .sld) (cr (tx2 (ldsI .sld) (txa 1 0 0 0) (txa 1 16 3 0)) .trapBase 0x800)).thread me 1).trapAddr = 16 + 3 * 2 ^ 16 := by decide +kernel
theorem test_atomf_adds : (run (atI .atomf) (rg (rg (tx2 (atI .atomf) (txa 1 0 0 0) (txa 1 0 0 0)) 0 4 5) 1 4 6)).homeReadN (texelLoc 0 1 0 0 0 0) 4 = 11 := by decide +kernel
def sall : Instr := .salloc { dst := .g 8, a := .g 2 }
def sfr : Instr := .sfree { a := .g 2 }
def spri : Instr := .sprio { a := .g 2, b := .g 4 }
/-- The descriptor of surface 1 as SALLOC reads it from the scratchpad. -/
def withDesc (s : State) : State := cr (((win s 0 0x30000).homeWriteN (scratchLoc 0 0 0) 8 (0x07 * 2 ^ 56 + 15 * 2 ^ 42 + 15 * 2 ^ 28)).homeWriteN (scratchLoc 0 0 16) 16 (0x20000 + 0x30000 * 2 ^ 64)) .surfQuota (1 + 2 ^ 32)
def descOf (s : State) : Vector DWord 4 := dwordsOf 4 ((List.range 32).map fun i => s.overlay 0 (scratchLoc 0 0 i))
def gotOf (r : AllocRes) : Option Nat := match r with | .got _ v => some v | .hold _ => none
theorem witness_allocation : ([sall, sfr, spri].all fun i => (rg (surfOn (at_ i)) 0 2 1).acts i && (rg (surfOn (at_ i)) 0 2 1).acting i == [0]) = true ∧
    okAt ((withDesc (mp (at_ sall))).ldsrRange ((withDesc (mp (at_ sall))).team 1) 1 0 32 32) = some (scratchLoc 0 0 0) ∧
    gotOf ((withDesc (mp (at_ sall))).allocSurf 0 (descOf (withDesc (mp (at_ sall))))) = some 1 ∧ (1 : Nat) < 0x10000 ∧ gotOf ((withDesc (mp (at_ sall))).allocSurf 0 (.replicate 4 0)) = some 0x30000 ∧
    surfDescBad (.replicate 4 0) = true ∧ surfDescBad (descOf (withDesc (mp (at_ sall)))) = false ∧ ((surfOn (at_ sfr)).validSurf? 0 1).isSome = true ∧ (7 : Nat) ≤ 7 ∧ (0 : Nat) < 64 := by decide +kernel
/-- Every handle up to `n` in use. -/
theorem handles_taken (n h : Nat) (k : h ≤ n) :
    (State.reset.modCtx 0 fun c => { c with surfaces := (List.range (n + 1)).map fun i => { handle := i } }).surf? 0 h ≠ none := fun e => by
  rw [State.surf?, List.find?_eq_none] at e
  exact e ({ handle := h } : Surface) (List.mem_map.mpr ⟨h, List.mem_range.mpr (by omega), rfl⟩) (beq_self_eq_true h)
theorem witness_no_handle : ∃ s : State, ∀ h, 1 ≤ h → h ≤ 4095 → s.surf? 0 h ≠ none := ⟨_, fun h _ k => handles_taken 4095 h k⟩
theorem test_salloc_answers : vget ((run sall (withDesc (mp (at_ sall)))).thread me 0).g 8 = 1 ∧ ((run sall (withDesc (mp (at_ sall)))).validSurf? 0 1).map Surf.width = some 16 := by decide +kernel
theorem test_sfree_drains : (((run sfr (rg (surfOn (at_ sfr)) 0 2 1)).surf? 0 1).map fun u => (u.draining, Surf.valid u)) = some (true, false) := by decide +kernel
theorem test_sprio_sets : (((run spri (rg (rg (surfOn (at_ spri)) 0 2 1) 0 4 7)).surf? 0 1).map Surf.prio) = some 7 := by decide +kernel
/-- Over its quota, no tile resident. -/
def overQ : State := cr (surfOn State.reset { surf1 with tiles := [] }) .surfQuota 0
def gone1 : State := surfOn State.reset { surf1 with w := vset surf1.w 0 0, draining := true }
/-- Over its quota with tile 0 resident: its tile map mapped, unmapped, and on a page under migration. -/
def overR (s : State) : State := cr (surfOn s) .surfQuota 0
def overM : State := let s := overR (mp State.reset); { s with mem := s.mem.write (gddrBase + 0x8018) 0x4D }
def spillOf (s : State) : Nat := match s.spillTile 0 1 0 with | .ok v => if (v.surf? 0 1).isSome then 0 else 3 | .fail _ _ => 1 | .hold => 2
theorem witness_spills : ([overR (mp State.reset), overR State.reset, overM].map fun s =>
      (s.victimOf 0 0, (vget (s.ctx 0).victims 0).isNone, s.presentFrames 0 0 surf1, decide (s.quota 0 (s.stackOf 0) < s.used 0 (s.stackOf 0)), spillOf s)) =
        [(some 1, true, [0], true, 0), (some 1, true, [0], true, 1), (some 1, true, [0], true, 2)] ∧
    (frameTiles surf1 0 0).reverse.find? (fun t => Surf.tile surf1 (spillIx surf1 0 t) == 0) = some 0 ∧ spillIx surf1 0 0 = 0 ∧
    -- a frame mid-spill, and a victim that is no longer needed
    ((surfOn State.reset).setVictim 0 0 (some { h := 1, frame := some 0 })).victimOf 0 0 = some 1 ∧ ((surfOn State.reset).setVictim 0 0 (some { h := 1 })).victimOf 0 0 = some 1 ∧
    ((surfOn State.reset).setVictim 0 0 (some { h := 1 })).used 0 0 ≤ (surfOn State.reset).quota 0 0 := by decide +kernel
theorem witness_eviction : (match (surfOn State.reset).makeResident 0 1 0 with | .ok _ => true | _ => false) = true ∧ State.reset.used 0 0 ≤ State.reset.quota 0 (State.reset.stackOf 0) ∧
    overQ.quota 0 (overQ.stackOf 0) < overQ.used 0 (overQ.stackOf 0) ∧ overQ.victimOf 0 0 = some 1 ∧ overQ.presentFrames 0 0 { surf1 with tiles := [] } = [0] ∧
    (frameTiles { surf1 with tiles := [] } 0 0).all (fun t => Surf.tile { surf1 with tiles := [] } (spillIx surf1 0 t) != 0) = true ∧
    ((gone1.surf? 0 1).map fun u => (u.draining, Surf.valid u)) = some (true, false) ∧ gone1.surfBusy 0 1 = false := by decide +kernel
theorem test_spill_frees : (vget (run (.spillTile 0 1 0) overQ).dev.frameTab 0).map (·.frame) = [none] := by decide +kernel
theorem test_refill : ((run (.tileRefill 0 1 5) (surfOn (mp State.reset))).surf? 0 1).map (fun u => Surf.tile u 5) = some 0 := by decide +kernel
theorem test_frames_freed : ((run (.surfaceFramesFreed 0 1) gone1).surf? 0 1).isNone = true ∧ (vget (run (.surfaceFramesFreed 0 1) gone1).dev.frameTab 1) = [] := by decide +kernel

/-- A vertex record at scratchpad 0, a raster state record at 0x10000 and a descriptor at 0x20000 for fragment teams (R68, R277, R279, R307):
the triangle (0, 0), (4, 0), (0, 4). -/
def primI : Instr := .prim { dst := .p 1, a := .g 2, b := .g 4 }
def v3 : Vector DWord 8 := #v[0, 4 * 256, 4 * 256 * 2 ^ 32, 0, 0, 0x20000, 0, 0]
def rs1 : Vector DWord 4 := #v[2 ^ 52 + 7 * 2 ^ 37, 0xF * 2 ^ 45, 0, 0]
def fdesc : Vector DWord 16 := vset (vset (.replicate 16 0) 1 0x10000) 8 (2 ^ 60 + 2 * 2 ^ 48 + 1)
def bytes (a : Nat) (l : List DWord) : List Host.Cell :=
  ((List.range (8 * l.length)).map fun i => (a + i, BitVec.ofNat 8 ((l.getD (i / 8) 0).toNat >>> (8 * (i % 8))))).filter (·.2 != 0)
def raster (s : State) : State :=
  let d := cr (cr (surfOn (mp (win s 0 0x30000))) .rsBase 0x10000) .surfQuota (1 + 2 ^ 32)
  { d with mem := bytes (scratchLoc 0 0 0) v3.toList ++ d.mem ++ bytes (gddrBase + 0x10000) rs1.toList ++ bytes (gddrBase + 0x20000) fdesc.toList }
theorem witness_primitives : (raster (at_ primI)).acts primI = true ∧ (raster (at_ primI)).acting primI = [0] ∧ (raster (at_ primI)).poolClear me [0] = true ∧ (raster (at_ primI)).anyPoison = false ∧
    (let u := ((raster (at_ primI)).begun primI).release me 0 .cluster
     okAt (u.primCheck ((raster (at_ primI)).team 1) 0 0) = some 0 ∧ u.anyPoison = false ∧ (u.team 1).id = ((raster (at_ primI)).team 1).id ∧
     screenArea (u.vtxAt 0 (((raster (at_ primI)).team 1).spLoc 0)) = 2048 ∧ fld (u.creg 0 .rastThr) 0 24 = 256) := by decide +kernel
theorem test_prim_accepts : (fun t : State => ((t.thread me 0).p.toNat, (t.ctx 0).raster.prims.length)) (run primI (raster (at_ primI))) = (0, 1) := by decide +kernel
/-- The primitive accepted. -/
def prim1 : Prim := { seq := 0, vtx := v3, state := rs1, desc := fdesc, id := { uid := 1 } }
def rast (q : Prim) (s : State) : State := (surfOn s).modCtx 0 fun c => { c with raster := { seq := 1, prims := [q] } }
def frag1 : Prim := { prim1 with done := [0, 1], frags := [(0, 0, 0)] }
/-- More tickets of one tile than its queue holds. -/
def crowded : State := rast { prim1 with done := [0], frags := List.replicate 65 (0, 0, 0) } State.reset |>.modCtx 0 fun c => { c with raster := { c.raster with prims := c.raster.prims ++ [{ prim1 with seq := 1 }] } }
theorem witness_sequencer : (((rast prim1 State.reset).ctx 0).raster.prims.find? fun q => !q.done.contains 0).isSome = true ∧
    (((rast prim1 State.reset).primPixels 0 0 prim1).any fun p => decide (64 < (((rast prim1 State.reset).tickets 0 1).filter fun t => sameTile t.2 p).length +
      (((rast prim1 State.reset).primPixels 0 0 prim1).filter (sameTile p)).length)) = false ∧
    ((crowded.ctx 0).raster.prims.find? fun q => !q.done.contains 0).map (·.seq) = some 1 ∧
    ((crowded.primPixels 0 0 { prim1 with seq := 1 }).any fun p => decide (64 < ((crowded.tickets 0 1).filter fun t => sameTile t.2 p).length + ((crowded.primPixels 0 0 { prim1 with seq := 1 }).filter (sameTile p)).length)) = true ∧
    (((rast frag1 State.reset).ctx 0).raster.prims.find? fun q => q.frags.any (·.1 == 0)).isSome = true ∧ (frag1.frags.filter (·.1 == 0)).map (·.2) = [(0, 0)] ∧
    ((rast frag1 State.reset).bestCore 2 frag1.desc).isSome = true ∧ 2 / 3 = 0 := by decide +kernel
/-- The pixels of the triangle whose centres lie inside, by R67: x + y < 3 and the diagonal’s pixels, which lie on no top or left edge, not. -/
theorem test_coverage : (List.range 16).map (fun i => covers v3 (i % 4) (i / 4)) =
    [true, true, true, false, true, true, false, false, true, false, false, false, false, false, false, false] := by decide +kernel
theorem test_rasterise : (((run (.rasterise 0 0) (rast prim1 State.reset)).ctx 0).raster.prims.map fun q => (q.done, q.frags.length)) = [([0], 6)] := by decide +kernel
theorem test_fragment_team : ((run (.fragmentTeamLaunch 0 0 2) (rast frag1 State.reset)).teams.map fun t => (vget (t.groups.getD 0 default).threads 0).ticket.map fun k => (k.px, k.py)) = [some (0, 0)] := by decide +kernel
def exI (kill : Bool) : Instr := .exprt { a := .g 8 } kill
def ticketed (s : State) : State := th (rast frag1 s) 0 fun t => { t with ticket := some { x := 0, surf := 1, px := 0, py := 0, seq := 0 } }
theorem witness_exports : ([true, false].all fun k => (ticketed (at_ (exI k))).acts (exI k) && (ticketed (at_ (exI k))).acting (exI k) == [0] && okAt (((ticketed (at_ (exI k))).begun (exI k)).exprtCheck me k 0) == some 0 &&
      ((ticketed (at_ (exI k))).thread me 0).ticket.isSome && (ticketed (at_ (exI k))).poolClear me [0]) = true ∧ ((at_ (exI true)).thread me 0).ticket = none := by decide +kernel
theorem test_export_without_ticket : ((run (exI true) (hnd (exI true))).thread me 0).trapAux = 6 ∧ (((run (exI false) (ticketed (at_ (exI false)))).ctx 0).raster.exports.map (·.kill)) = [false] := by decide +kernel
def exported (kill : Bool) : State := (rast { prim1 with done := [0, 1] } State.reset).modCtx 0 fun c =>
  { c with raster := { c.raster with exports := [{ ticket := { surf := 1 }, kill, col := #v[0x3F800000, 0, 0, 0], state := rs1 }] } }
theorem witness_applies : ([true, false].all fun k => (exported k).exportReady (((exported k).ctx 0).raster.exports.getD 0 default)) = true ∧
    (match (exported false).makeResident 0 1 (Surf.place surf1 0 0 0).2.2.1 with | .ok v => !v.exportPoison (((exported false).ctx 0).raster.exports.getD 0 default) | _ => false) = true ∧
    (match (exported false).exportTiles (((exported false).ctx 0).raster.exports.getD 0 default) with | .ok v => !v.exportPoison (((exported false).ctx 0).raster.exports.getD 0 default) | _ => false) = true ∧ 0 < area2 v3 := by decide +kernel
theorem test_export_applies : (run (.exportApply 0 1 0 0) (exported false)).homeReadN (texelLoc 0 1 0 0 0 0) 4 = 0x3F800000 ∧ ((run (.exportApply 0 1 0 0) (exported true)).ctx 0).raster.exports = [] := by decide +kernel

/-! ### The managed heap -/
/-- A heap of one region at virtual 0x200000, on physical page 2: its table at 0x10000 (state 1, top 2), forwarding at 0x11000, and one object of
32 bytes at granule 1, pinned `pins` times (R130 to R133). -/
def heap (pins : Byte) (s : State) : State :=
  let d := cr (cr (cr (cr (mp (win s 0 0x30000)) .heapVbase 0x200000) .heapNreg 1) .hrtBase 0x10000) .heapAlloc 0x80000000
  { d with mem := d.mem ++ bytes (gddrBase + 0x8100) [0x2008D] ++ bytes (gddrBase + 0x10000) [2 + 2 ^ 48, 0x11000] ++ bytes (gddrBase + 0x20040) [32, pins.setWidth 64, 0, 0x5A] }
theorem test_heap_canonical : (heap 1 (at_ (.nop {}))).mem.wf = true := by decide +kernel
/-- The reference of the object, in colour 0 (R132). -/
def ref1 : Nat := 2 ^ 63 + 64
def hI (f : MF → Instr) : Instr := f { dst := .g 8, base := .h 3, c := .num 6, data := .none }
def hS (f : MF → Instr) : Instr := f { base := .h 3, c := .num 6, data := .g 4 }
def hAt (i : Instr) (r : Nat) : State := hr (heap 0 (at_ i)) 0 3 r
def resolved (i : Instr) (w : Bool) (o : Operand) (s : State) : Option (List (Nat × DWord)) := match (s.begun i).resolveAll me w (refsOf (s.begun i) me (s.acting i) o) with | .inr l => some l | _ => none
theorem witness_resolution : (let s := heap 0 State.reset
    (5 : DWord) ≠ 0 ∧ fld (5 : DWord) 62 2 ≠ 2 ∧ fld (0x8000000000000044 : DWord) 2 4 ≠ 0 ∧ fld (0x8000000000000001 : DWord) 6 54 = 0 ∧ 32768 * s.heapCount 0 ≤ fld (0x8000000000200000 : DWord) 6 54 ∧
    fld (BitVec.ofNat 64 ref1) 6 54 < 32768 * s.heapCount 0 ∧ fld (BitVec.ofNat 64 ref1) 60 2 = s.goodCol 0 ∧ s.flipBusy 0 = false ∧ fld (BitVec.ofNat 64 ref1) 62 2 = 2 ∧ fld (BitVec.ofNat 64 ref1) 6 54 ≠ 0 ∧
    fld (BitVec.ofNat 64 ref1) 2 4 = 0) := by decide +kernel
theorem witness_fields : ([(hI .ldh, false), (hS .sth, true)].all fun x => (hAt x.1 ref1).acts x.1 && (mfOf x.1).op == .add && resolved x.1 x.2 (.h 3) (hAt x.1 ref1) == some [(0, BitVec.ofNat 64 ref1)] &&
      okAt (((hAt x.1 ref1).begun x.1).fieldCheck me (BitVec.ofNat 64 ref1) 24 4 (if x.2 then .write else .read)) == some 0x20058) = true ∧
    okAt (((hAt (hI .ldh) 0).begun (hI .ldh)).fieldCheck me 0x8000000000000001 24 4 .read) = some 0 := by decide +kernel
theorem test_ldh : vget ((run (hI .ldh) (hAt (hI .ldh) ref1)).thread me 0).g 8 = 0x5A ∧ ((run (hI .ldh) (cr (hAt (hI .ldh) 0) .trapBase 0x800)).thread me 0).trapAux = 4 := by decide +kernel
theorem test_sth_writes : (run (hS .sth) (rg (hAt (hS .sth) ref1) 0 4 7)).seenByte me 0 0x20058 = 7 := by decide +kernel
/-- ATOMH through the reference (with the clause of the atomics). -/
def hA : Instr := .atomh { dst := .g 8, base := .h 3, c := .num 6, data := .g 4 }
theorem witness_atomh : (hAt hA ref1).acts hA = true ∧ resolved hA true (.h 3) (hAt hA ref1) = some [(0, BitVec.ofNat 64 ref1)] ∧ Ref.gi (BitVec.ofNat 64 ref1) ≠ 0 ∧
    (match ((hAt hA ref1).begun hA).fieldCheck me (BitVec.ofNat 64 ref1) 24 4 .write with | .ok loc pg => loc == 0x20058 && !pg.snap && !isHost loc | _ => false) = true ∧
    (((hAt hA ref1).begun hA).writeBackRef me (.h 3) [(0, BitVec.ofNat 64 ref1)] [(0, BitVec.ofNat 64 ref1)]).anyPoison = false := by decide +kernel
theorem test_atomh_adds : vget ((run hA (rg (hAt hA ref1) 0 4 1)).thread me 0).g 8 = 0x5A ∧ (run hA (rg (hAt hA ref1) 0 4 1)).homeReadN 0x20058 4 = 0x5B := by decide +kernel
/-- A slot in the scratchpad and one in the object. -/
def ldr : Instr := .ldref { dst := .h 8, base := .g 2, c := .num 0, ty := .b32 }
def strf : Instr := .stref { base := .h 3, c := .num 2, data := .h 4, ty := .b64 }
def req : Instr := .refeq { dst := .p 1, base := .h 3, data := .h 4, c := .num 0, ty := .b64 }
def slotsOf (i : Instr) (w : Bool) (s : State) : Option (State × List (Nat × DWord) × List (Nat × Nat × Page)) := match (s.begun i).slots8 me (mfOf i) (s.acting i) w with | .inr x => some x | _ => none
theorem witness_slots : ([ldr, strf, req].all fun i => (hAt i ref1).acts i && !((hAt i ref1).begun i).anyPoison) = true ∧ ((slotsOf ldr false (hAt ldr ref1)).map (·.2.2.map (·.2.1))) = some [scratchLoc 0 0 0] ∧
    ((slotsOf strf true (hAt strf ref1)).map (·.2.2.map (·.2.1))) = some [0x20050] ∧ resolved strf false (.h 4) (hAt strf ref1) = some [(0, 0)] ∧
    resolved req false (.h 3) (hAt req ref1) = some [(0, BitVec.ofNat 64 ref1)] ∧ resolved req false (.h 4) (hAt req ref1) = some [(0, 0)] := by decide +kernel
theorem test_ldref_empty_slot : vget ((run ldr (hr (hAt ldr ref1) 0 8 5)).thread me 0).h 8 = 0 := by decide +kernel
theorem test_stref_stores : ((List.range 8).map fun k => (run strf (hr (hAt strf ref1) 0 4 ref1)).seenByte me 0 (0x20050 + k)) = [0x40, 0, 0, 0, 0, 0, 0, 0x80] := by decide +kernel
theorem test_refeq : ((run req (hr (hAt req ref1) 0 4 ref1)).thread me 0).p = 2 ∧ ((run req (hAt req ref1)).thread me 0).p = 0 := by decide +kernel
theorem witness_heal : (BitVec.ofNat 64 ref1 : DWord) ≠ 0 ∧ (hAt ldr ref1).inSteep me = false ∧ isScratch (scratchLoc 0 0 0 % keyUnit) = true ∧ ({} : Page).snap = false := by decide +kernel
def newo : Instr := .newobj { dst := .h 8, base := .g 2, c := .p 2, data := .g 4 }
def newAt (n : Nat) : State := rg (heap 0 (at_ newo)) 0 2 n
def allocated (s : State) (n : Nat) : Option DWord := match (s.begun newo).alloc me 0 n 0 with | .ok (r, _) => some r | _ => none
theorem witness_new_objects : (newAt 16).acts newo = true ∧ (newAt 16).acting newo = [0] ∧ 17 % 8 ≠ 0 ∧ (8 : Nat) < 16 ∧ 2097152 < 2097160 ∧ (newAt 16).tableOk ((newAt 16).hrtAddr 0 0) = true ∧
    allocated (newAt 16) 16 = some (BitVec.ofNat 64 (2 ^ 63 + 128)) ∧ allocated (rg (at_ newo) 0 2 16) 16 = some 0 ∧ (rg (at_ newo) 0 2 16).heapCount 0 = 0 ∧
    ((newAt 16).creg 0 .heapAlloc).getLsbD 31 = true ∧ (newAt 16).rgTop 0 0 + ceilDiv 16 64 ≤ 32768 := by decide +kernel
theorem test_newobj : vget ((run newo (newAt 16)).thread me 0).h 8 = BitVec.ofNat 64 (2 ^ 63 + 128) ∧ ((run newo (newAt 16)).thread me 0).p = 4 ∧ ((run newo (cr (newAt 20) .trapBase 0x800)).thread me 0).trapCause = 0x11 := by
  decide +kernel
def pinI : Instr := .pin { dst := .g 8, base := .h 3, c := .num 0, ty := .b64 }
def unpinI : Instr := .unpin { base := .h 3, c := .num 0, ty := .b64 }
def pinAt (i : Instr) (n : Byte) : State := hr (heap n (at_ i)) 0 3 ref1
def headOf (i : Instr) (s : State) : Option (Nat × Nat × Nat × Nat) :=
  match (s.begun i).header (some (s.team 1).coreNo) 0 1 .write with | .ok h => some (h.loc, h.size, h.hst, h.pinc) | _ => none
theorem witness_pins : ([(pinI, (254 : Byte)), (unpinI, 1)].all fun x => (pinAt x.1 x.2).acts x.1 && (pinAt x.1 x.2).acting x.1 == [0] && resolved x.1 true (.h 3) (pinAt x.1 x.2) == some [(0, BitVec.ofNat 64 ref1)] &&
      !((pinAt x.1 x.2).begun x.1).anyPoison && (pinAt x.1 x.2).poolClear me [0] && headOf x.1 (pinAt x.1 x.2) == some (0x20040, 32, 0, x.2.toNat) &&
      (pinAt x.1 x.2).tableOk ((pinAt x.1 x.2).hrtAddr 0 0)) = true := by decide +kernel
theorem test_pin_counts : vget ((run pinI (pinAt pinI 0)).thread me 0).g 8 = 0x200040 ∧ (run pinI (pinAt pinI 0)).homeRead 0x20048 = 1 ∧ (run pinI (pinAt pinI 0)).rgPins 0 0 = 1 := by decide +kernel
theorem test_unpin_counts : (run unpinI (pinAt unpinI 2)).homeRead 0x20048 = 1 ∧ ((run unpinI (cr (pinAt unpinI 0) .trapBase 0x800)).thread me 0).trapCause = 0x12 := by decide +kernel
def hev : Instr := .hevac { dst := .g 8, a := .g 2, b := .g 4, c := .g 6 }
def hevAt (n col : Nat) : State := rg (rg (heap 0 (at_ hev)) 0 4 (n - 1)) 0 6 col
theorem witness_evacuation : (hevAt 1 1).acts hev = true ∧ (hevAt 1 1).acting hev = [0] ∧ ([(Instr.hevac {}).fv.a].all fun _ => Operand.still (.g 2)) = true ∧ (hevAt 1 1).poolClear me [0] = true ∧
    ((cr (hevAt 1 1) .relStat 1).creg 0 .relStat).getLsbD 0 = true ∧ ((hevAt 1 1).creg 0 .relStat).getLsbD 0 = false ∧ (hevAt 1 0).goodCol 0 = 0 ∧ (1 : Nat) < 4 ∧ 256 < 257 ∧
    okAt (((hevAt 1 1).begun hev).ldsrRange ((hevAt 1 1).team 1) 1 0 2 2) = some (scratchLoc 0 0 0) ∧ (0 : Nat) < (hevAt 1 1).heapCount 0 ∧ ((0 : Word).getLsbD 0 = false ∧ (1 : Word).getLsbD 0 = true) ∧
    (heap 0 State.reset).evacRefusal 0 1 [0] = none ∧ (heap 0 State.reset).evacRefusal 0 0 [0] = some 2 := by decide +kernel
theorem test_hevac_answers : vget ((run hev (hevAt 1 0)).thread me 0).g 8 = 2 ∧ vget ((run hev (hevAt 257 1)).thread me 0).g 8 = 3 ∧ vget ((run hev (hevAt 1 1)).thread me 0).g 8 = 0 ∧ (run hev (hevAt 1 1)).flipBusy 0 = true := by
  decide +kernel
theorem test_rel_ctl_refused : fld ((run (.relCtlStart 0 1) (heap 0 State.reset)).creg 0 .relStat) 2 1 = 1 := by decide +kernel
/-- A flip that waits for one core, and copying under way. -/
def flipping : State := (cr State.reset .heapCol 4).modCtx 0 fun c => { c with reloc := { c.reloc with acks := [coreNo 5 191] } }
def copying (asked : List Nat) : State := (heap 0 State.reset).modCtx 0 fun c => { c with reloc := { c.reloc with copying := true, asked } }
theorem witness_flip : flipping.flipBusy 0 = true ∧ (flipping.ctx 0).reloc.acks = [coreNo 5 191] ∧ (flipping.teams.filter fun t => t.id.ctx == 0 && t.coreNo == coreNo 5 191 && t.phase != .saved) = [] ∧
    State.reset.flipBusy 0 = false ∧ (State.reset.ctx 0).reloc.copying = false ∧ ((copying [1]).ctx 0).reloc.copying = true ∧ (copying [1]).flipBusy 0 = false ∧ vget ((copying [1]).ctx 0).reloc.batch 0 = none ∧
    (((copying [1]).ctx 0).reloc.asked.find? fun g => g / 32768 % 2 == 0) = some 1 ∧ fld ((copying [1]).fwd 0 1) 62 2 = 0 := by decide +kernel
theorem test_flip_completes : fld ((run (.flipAck 0 5 191) flipping).creg 0 .heapCol) 32 32 = 1 ∧ (run (.flipAck 0 5 191) flipping).flipBusy 0 = false := by decide +kernel
/-- With no region free of the parity the object stays where it is (R137 step 1: FST 3). -/
theorem test_relocate_stays : fld ((run (.relocateObject 0 0) (copying [1])).fwd 0 1) 62 2 = 3 := by decide +kernel

/-! ### Copy records -/
def cpIs : List Instr := [.cpy { dst := .g 8, a := .g 2 } 3, .cpyg { dst := .g 8, a := .g 2 } 3, .cpys { dst := .g 8, a := .g 2 } 3, .cpyw { dst := .g 8, a := .g 2 } 3, .cpyx { dst := .g 8, a := .g 2 } 3,
  .coll { dst := .g 8, a := .g 2 } 3]
def cpAt (i : Instr) : State := rg (win (at_ i) 0 0x30000) 0 2 0x2FFC0
def fullCopy (s : State) : State := tm s fun t => t.modCopy 3 fun c => { c with recs := List.replicate 16 { src := .pushed 0 } }
theorem witness_pushes : (cpIs.all fun i => i.wf && (cpAt i).acts i && (cpAt i).acting i == [0] && ((cpAt i).group me).pushed == 0 && (cpAt i).poolClear me [0] &&
      okAt (((cpAt i).begun i).spCheck me true ((((cpAt i).begun i).readOp me 0 false (.g 2)).setWidth 32) 0 64) == some (scratchLoc 0 0 0x2FFC0) &&
      !(vget ((cpAt i).team 1).copy 3).full && (vget ((fullCopy (cpAt i)).team 1).copy 3).full) = true ∧ Operand.still (.g 2) = true ∧ Operand.own (.g 8) = true := by decide +kernel
theorem test_pushes_number : (cpIs.all fun i => (vget ((run i (cpAt i)).thread me 0).g 8).toNat == 1 && (vget ((run i (cpAt i)).team 1).copy 3).recs.length == 1 && ((run i (cpAt i)).group me).cpCnt == 1) = true := by
  decide +kernel
def chI : Instr := .chain { a := .g 2 } 0
def chAt (v : Nat) : State := rp (at_ chI) 0 2 v
def chainOn (parked : Bool) (s : State) : State := tm s fun t => t.modCopy 0 fun c => { c with chan := 0x10000, parked }
theorem witness_chains : (chAt 0x40).acts chI = true ∧ (chAt 0x40).acting chI = [0] ∧ fld (2 : DWord) 1 5 ≠ 0 ∧ fld (0x100000001 : DWord) 1 5 = 0 ∧ (0x100000001 : DWord).getLsbD 0 = true ∧
    fld (0x100000001 : DWord) 32 32 ≠ 0 ∧ fld (0x40 : DWord) 1 5 = 0 ∧ (0x40 : DWord).getLsbD 0 = false ∧ (chAt 0x40).poolClear me [0] = true ∧ (vget ((chainOn false (chAt 0x40)).team 1).copy 0).chan ≠ 0 ∧
    (vget ((chAt 0x40).team 1).copy 0).chan = 0 ∧ (vget ((chainOn true (chAt 0x40)).team 1).copy 0).parked = true := by decide +kernel
theorem test_chain_sets : (vget ((run chI (chAt 0x40)).team 1).copy 0).chan = 0x40 ∧ ((run chI (cr (chAt 2) .trapBase 0x800)).thread me 0).trapCause = 0x0C := by decide +kernel
/-- A record of 16 bytes from scratchpad 0 to scratchpad 0x100 with its counter at 0x200, and one whose reserved bits are not zero (R84). -/
def rec16 : Vector DWord 8 := #v[2 ^ 58 + 2 ^ 56 + 2 ^ 49 + 16, 0, 0x100, 0x200, 0, 0, 0, 0]
def recBad : Vector DWord 8 := vset rec16 0 (2 ^ 40 + 16)
def copyOf (r : CopyRec) (s : State) : State := tm (win s 0 0x30000) fun t => { (t.modCopy 0 fun c => { c with recs := [r], next := 1 }) with tl := vset t.tl 0 { given := 1 } }
def base0 : State := at_ (.nop {})
def fresh16 : CopyRec := { no := 1, w := rec16, src := .pushed 0x300 }
theorem witness_acceptance : State.reset.copyOpen 1 0 = false ∧ (copyOf fresh16 base0).copyOpen 1 0 = true ∧ ((vget ((copyOf fresh16 base0).team 1).copy 0).recs.find? (fun r => !r.accepted)) = some fresh16 ∧
    fresh16.src ≠ .queue ∧ ((vget (base0.team 1).copy 0).recs.find? (fun r => !r.accepted)) = none ∧ (vget (base0.team 1).copy 0).parked = false ∧
    (vget ((chainOn true base0).team 1).copy 0).parked = true ∧ (base0.team? 1).isSome = true ∧ Rec.kind rec16 = 0 ∧ Rec.kind recBad = 0 ∧
    (copyOf { fresh16 with w := recBad } base0).recCheck ((copyOf { fresh16 with w := recBad } base0).team 1) { fresh16 with w := recBad } [] = some (3, 0, 0, 0) ∧
    (copyOf fresh16 base0).recCheck ((copyOf fresh16 base0).team 1) fresh16 [] = none ∧ ((copyOf fresh16 base0).recProbe ((copyOf fresh16 base0).team 1) rec16 []).isNone = true := by decide +kernel
theorem test_accept_or_fail : (vget ((run (.recordAccept 1 0) (copyOf fresh16 base0)).team 1).copy 0).recs.map (·.accepted) = [true] ∧
    (vget ((run (.recordAccept 1 0) (copyOf { fresh16 with w := recBad } base0)).team 1).copy 0).fstat = 3 := by decide +kernel
theorem test_poll_unparks : (vget ((run (.chainRecordPoll 1 0) (tm (chainOn true (win base0 0 0x30000)) fun t => t.modCopy 0 fun c => { c with chan := 1 })).team 1).copy 0).parked = true := by decide +kernel
def took (n : Nat) : CopyRec := { fresh16 with accepted := true, delivered := n }
def wordsOf (s : State) (r : CopyRec) (e : Bool) : Option State := match s.wordsReady (s.team 1) r e with | .go s _ => some s | _ => none
def chunkOf (s : State) (r : CopyRec) : Option Nat := (wordsOf s r false).bind fun q => match q.chunk (s.team 1) r r.delivered (min 4096 (s.recTotal 0 r.w - r.delivered)) with | .go _ n => some n | _ => none
theorem witness_delivery : ((vget ((copyOf (took 0) base0).team 1).copy 0).recs.find? (·.no == 1)) = some (took 0) ∧ (vget ((copyOf (took 0) base0).team 1).copy 0).batch = none ∧ Rec.dsp rec16 ≠ 3 ∧ Rec.kind rec16 ≠ 5 ∧
    (took 0).delivered < (copyOf (took 0) base0).recTotal 0 rec16 ∧ chunkOf (copyOf (took 0) base0) (took 0) = some 16 ∧ (wordsOf (copyOf (took 16) base0) (took 16) true).isSome = true ∧ (copyOf (took 16) base0).recTotal 0 rec16 ≤ (took 16).delivered ∧ Rec.kind rec16 ≠ 4 ∧ Rec.tba rec16 = false := by
  decide +kernel
theorem test_chunk_arrives : let s := copyOf (took 0) base0
    (run (.recordChunkDelivered 1 0 1) { s with mem := [(scratchLoc 0 0 3, 7)] }).homeRead (scratchLoc 0 0 0x103) = 7 ∧ (run (.recordChunkDelivered 1 0 1) s).homeReadN (scratchLoc 0 0 0x200) 8 = 16 := by decide +kernel
theorem test_record_completes : (vget ((run (.recordComplete 1 0 1) (copyOf (took 16) base0)).team 1).tl 0).done = 1 ∧ (vget ((run (.recordComplete 1 0 1) (copyOf (took 16) base0)).team 1).copy 0).recs = [] := by decide +kernel
theorem witness_timelines : ({ done := 4 } : Timeline).above = [] ∧ (4 : Nat) ≤ ({ done := 4 } : Timeline).done ∧ 5 = ({ done := 4 } : Timeline).done + 1 ∧ ({ done := 4 } : Timeline).done + 1 < 6 := by decide +kernel
def failed1 (k : Nat) : State := tm base0 fun t => { (t.modCopy 0 fun c => { c with stopped := true, fstat := 3, recs := [{ no := 1, w := rec16, accepted := true, status := k }] }) with tl := vset t.tl 0 { given := 2 } }
theorem witness_skip_and_abort : (vget (base0.team 1).copy 0).stopped = false ∧ (base0.team 1).killed = false ∧ (vget ((failed1 3).team 1).copy 0).stopped = true ∧
    ((vget ((failed1 3).team 1).copy 0).recs.find? (fun r => r.status != 0)).isSome = true := by decide +kernel
theorem test_skip_and_abort : (vget ((run (.skip 1 0) (failed1 3)).team 1).tl 0).done = 1 ∧ (vget ((run (.abort 1 0) (failed1 3)).team 1).tl 0).done = 2 ∧ (vget ((run (.skip 1 0) (failed1 3)).team 1).copy 0).stopped = false := by decide +kernel

/-! ### Caddy streams, the matrix engine and the near-bank arrays -/
/-- A plain reservation of FP16 elements at 256-byte places (R118). -/
def cdw (base len : Nat) : Nat := Ty.f16.code.toNat * 2 ^ 59 + base * 2 ^ 40 + len * 2 ^ 31 + len * 2 ^ 22
def caddy (s : State) : State := tm s fun t => { t with regs := { t.regs with cdBase := 256, cdSize := 0x8000, accq := 1, repro := true } }
/-- A stream with bytes entered up to TAIL, and the tag 1 beside it. -/
def stream0 (tail : Nat) (s : State) : State :=
  tm (caddy s) fun t => { t with streams := vset (vset t.streams 0 { w0 := BitVec.ofNat 64 (cdw 1 1 + 1), tail }) 1 { w0 := BitVec.ofNat 64 (cdw 2 1 + 1), tail } }
def resI : Instr := .cdres { a := .g 2 } 7
def relI : Instr := .cdrel {} 0
def pshI : Instr := .cdpush { a := .g 2 } 1 0
theorem witness_reservations : resI.wf = true ∧ (caddy (at_ resI)).acts resI = true ∧ (caddy (at_ resI)).acting resI = [0] ∧ ((caddy (at_ resI)).team 1).cdresBad 7 (BitVec.ofNat 64 (cdw 1 1)) = none ∧
    ((caddy (at_ resI)).team 1).cdresBad 7 (BitVec.ofNat 64 (cdw 0 1)) = some 3 ∧ Cds.valid (vget ((stream0 0 (at_ resI)).team 1).streams 0).w0 = true ∧ Cds.valid (vget ((stream0 0 (at_ resI)).team 1).streams 1).w0 = true := by
  decide +kernel
theorem test_cdres : Cds.valid (vget ((run resI (rp (caddy (at_ resI)) 0 2 (cdw 1 1))).team 1).streams 7).w0 = true ∧
    ((run resI (rp (cr (caddy (at_ resI)) .trapBase 0x800) 0 2 (cdw 0 1))).thread me 0).trapAux = 3 * 256 + 7 * 2 ^ 16 := by decide +kernel
def tiled (o : TileOp) (s : State) : State := s.modCore 0 fun c => { c with tiles := [o] }
def mmaOp (k done : Nat) : TileOp := .mma me 1 2 0 1 2 2 k done false
theorem witness_releases_of_tags : relI.wf = true ∧ (stream0 0 (at_ relI)).acts relI = true ∧ (stream0 0 (at_ relI)).acting relI ≠ [] ∧ Cds.valid (vget ((at_ relI).team 1).streams 0).w0 = false ∧
    ((tiled (mmaOp 1 0) (stream0 0 (at_ relI))).tilesOf ((tiled (mmaOp 1 0) (stream0 0 (at_ relI))).team 1)).any (·.names 0) = true ∧
    ((stream0 0 (at_ relI)).tilesOf ((stream0 0 (at_ relI)).team 1)).any (·.names 0) = false ∧ (vget ((stream0 0 (at_ relI)).team 1).streams 0).pend = [] ∧ ((stream0 0 (at_ relI)).team 1).recordsTo 0 = false := by decide +kernel
theorem test_cdrel : Cds.valid (vget ((run relI (stream0 0 (at_ relI))).team 1).streams 0).w0 = false := by decide +kernel
theorem witness_entering : pshI.wf = true ∧ (lanes 2 (stream0 0 (at_ pshI))).acts pshI = true ∧ (lanes 2 (stream0 0 (at_ pshI))).acting pshI = [0, 1] ∧ (at_ pshI).acts pshI = true ∧
    (lanes 2 (stream0 0 (at_ pshI))).poolClear me [0, 1] = true ∧ (vget ((stream0 0 (at_ pshI)).team 1).streams 0).cap ((stream0 0 (at_ pshI)).team 1).regs.fmt = 128 := by decide +kernel
theorem test_cdpush : (fun t : State => ((vget (t.team 1).streams 0).tail, t.mem)) (run pshI (rg (rg (lanes 2 (stream0 0 (at_ pshI))) 0 2 0x1234) 1 2 0x5678)) =
    (2, [(caddyKey 0 0 256, 0x34), (caddyKey 0 0 257, 0x12), (caddyKey 0 0 258, 0x78), (caddyKey 0 0 259, 0x56)]) := by decide +kernel
def appending (tail : Nat) (bs : List Byte) : State := tm (stream0 tail base0) fun t => { t with streams := vmod t.streams 0 fun st => { st with pend := [(none, bs)] } }
theorem witness_stream_appends : (let t := (appending 127 [1, 2]).team 1; let st := vget t.streams 0
      st.pend = [(none, [1, 2])] ∧ (st.unit t.regs.fmt) = (2, 1) ∧ st.tail + 1 = st.head + st.cap t.regs.fmt ∧ st.raw.length + 2 = 2 ∧ Cds.blk st.w0 = 0 ∧ (appending 127 [1, 2]).mem.wf = true) ∧
    (let t := (appending 128 [1, 2]).team 1; let st := vget t.streams 0; st.cap t.regs.fmt < st.tail + 1 - st.head) := by decide +kernel
theorem test_stream_append : (vget ((run (.streamAppend 1 0) (tm (stream0 127 base0) fun t => { t with streams := vmod t.streams 0 fun st => { st with pend := [(none, [1, 2, 3, 4])] } })).team 1).streams 0).tail = 128 := by decide +kernel
def mmaI : Instr := .mma { a := .q 0, b := .q 1, c := .g 4 } 2 none none
def mmaAt (m n k : Nat) (s : State) : State := rg (rg (rg (stream0 64 s) 0 4 m) 0 5 n) 0 6 k
theorem witness_multiplies : mmaI.wf = true ∧ (mmaAt 32 32 65535 (at_ mmaI)).acts mmaI = true ∧ (mmaAt 32 32 65535 (at_ mmaI)).acting mmaI = [0] ∧
    ((mmaAt 32 32 65535 (at_ mmaI)).begun mmaI).mnk me 0 (.g 4) = (32, 32, 65535) ∧ ((mmaAt 1 1 1 (at_ mmaI)).team 1).mmaBad 0 1 none none 32 32 65535 = none ∧
    ((mmaAt 1 1 1 (at_ mmaI)).team 1).mmaBad 0 1 none none 33 1 1 = some (5, 0) ∧ ((at_ mmaI).team 1).mmaBad 0 1 none none 1 1 1 = some (1, 0) ∧
    (match (mmaAt 1 1 1 (at_ mmaI)).bindAcc 1 2 with | .ok _ => true | _ => false) = true ∧ (match (at_ mmaI).bindAcc 1 2 with | .quota => true | _ => false) = true ∧
    (match ((mmaAt 1 1 1 (at_ mmaI)).modCore 0 fun c => { c with slots := .replicate 16 { clearing := true } }).bindAcc 1 2 with | .wait => true | _ => false) = true ∧
    vget ((mmaAt 1 1 1 (at_ mmaI)).team 1).accs 2 = none ∧ ((mmaAt 1 1 1 (at_ mmaI)).team 1).bound < ((mmaAt 1 1 1 (at_ mmaI)).team 1).regs.accq ∧ ((at_ mmaI).team 1).coreNo < 1152 ∧
    (vget (vget (at_ mmaI).cores 0).slots 0).bound = false ∧ (vget (vget (at_ mmaI).cores 0).slots 0).clearing = false := by decide +kernel
theorem test_mma_joins : (vget (run mmaI (mmaAt 2 2 1 (at_ mmaI))).cores 0).tiles = [.mma me 1 2 0 1 2 2 1 0 false] ∧ ((run mmaI (mmaAt 2 2 1 (at_ mmaI))).group me).tlCnt = 1 := by decide +kernel
def magI : Instr := .mmag { a := .q 0, b := .q 1, c := .g 4 } 2 none none
def gang (m : Word) (l : List GangArr) (s : State) : State := tm (two (mmaAt 1 1 1 s)) fun t => { t with regs := { t.regs with gang := m, accq := 16 }, latch := l }
theorem witness_gang_multiplies : magI.wf = true ∧ (gang 3 [] (at_ magI)).acts magI = true ∧ (gang 3 [] (at_ magI)).acting magI = [0] ∧ ((gang 3 [] (at_ magI)).begun magI).mnk me 0 (.g 4) = (1, 1, 1) ∧
    ((gang 3 [] (at_ magI)).team 1).mmaBad 0 1 none none 1 1 1 = none ∧ ((gang 2 [] (at_ magI)).team 1).regs.gang.getLsbD 0 = false ∧ ((gang 3 [] (at_ magI)).team 1).regs.gang.getLsbD 0 = true ∧
    ((gang 3 [] (at_ magI)).team 1).gangMissing = false ∧ (1 : Nat) ∈ bitsOf (3 : Word) ∧ ((gang 3 [] (at_ magI)).team 1).latch.any (·.group == 1) = false ∧
    (let l : List GangArr := [{ group := 1, acc := 3, a := 2, b := 1, m := 1, n := 1, k := 1 }, { group := 0, acc := 2, a := 0, b := 1, m := 1, n := 1, k := 1 }]
     (bitsOf (3 : Word)).all (fun h => l.any (·.group == h)) = true ∧ gangBad l = none ∧ gangBad (l.map fun g => { g with k := g.group }) = some 1 ∧
     (match (gang 3 [] (at_ magI)).bindGang 1 l with | .ok _ => true | _ => false) = true) := by decide +kernel
theorem test_mmag_waits : ((run magI (gang 3 [] (at_ magI))).thread me 0).wait = some .gang ∧ ((run magI (gang 2 [] (hnd magI))).thread me 0).trapAux = 6 := by decide +kernel
/-- The multiply at the head of the engine: two rows of one FP16 element a side, 1.0 and 2.0 against 2.0 and −0.5, over the slot’s values. -/
def bound2 (s : State) : State := (tm s fun t => { t with accs := vset t.accs 2 (some 0) }).modCore 0 fun c => { c with slots := vset c.slots 0 { bound := true, elems := [(0, 0x3F800000)] } }
def heads (k done : Nat) : State :=
  { bound2 (tiled (mmaOp k done) (stream0 2 base0)) with mem := [(caddyKey 0 0 257, 0x3C), (caddyKey 0 0 259, 0x40), (caddyKey 0 0 513, 0x40), (caddyKey 0 0 515, 0xB8)] }
theorem witness_slices : (vget (heads 1 0).cores 0).tiles = [mmaOp 1 0] ∧ (vget ((heads 1 0).team 1).streams 0).sliceReady 2 1 0 = true ∧ (vget ((heads 2 0).team 1).streams 0).sliceReady 2 2 0 = false ∧
    ceilDiv (max ((vget ((heads 1 0).team 1).streams 0).kc 1) ((vget ((heads 1 0).team 1).streams 1).kc 1)) 32 = 1 ∧ (heads 1 1).mmaPoison ((heads 1 1).team 1) 2 0 1 2 2 1 = false ∧ (vget (heads 1 1).cores 0).upset = [] ∧
    ((heads 1 1).team? 1).isSome = true ∧ ((heads 1 1).team 1).coreNo = 0 ∧ vget ((heads 1 1).team 1).accs 2 = some 0 ∧ ((heads 1 1).team 1).regs.repro = true := by decide +kernel
theorem test_slice_taken : (vget (run (.mmaSlice 0 0) (heads 1 0)).cores 0).tiles = [mmaOp 1 1] := by decide +kernel
/-- 1 + 1·2, 1·−0.5; 2·2, 2·−0.5 (R111, R128). -/
theorem test_multiply : (vget (vget (run (.tileOpComplete 0 0) (heads 1 1)).cores 0).slots 0).elems = [(0, 0x40400000), (1, 0xBF000000), (32, 0x40800000), (33, 0xBF800000)] ∧
    (vget ((run (.tileOpComplete 0 0) (heads 1 1)).team 1).tl 4).done = 1 := by decide +kernel
def ardI : Instr := .accrd { dst := .g 8, a := .g 2 } 2 .f16 .rn
def awrI : Instr := .accwr { a := .g 2, b := .g 4 } 2 .f16
def astI : Instr := .accst { a := .g 2, b := .g 4 } 2 .f16 false
def arlI : Instr := .accrel {} 2
/-- q0 bound to a copy context with no room, and a slot with a poisoned element. -/
def tagQ (s : State) : State := tm (qs s) fun t => t.modCopy 0 fun c => { c with compq := List.replicate 16 0, partialRec := List.replicate 15 0 }
def spoilt (s : State) : State := s.modCore 0 fun c => { c with slots := vmod c.slots 0 fun x => { x with poison := [32 * 31] } }
def accAt (i : Instr) (row : Nat) : State := rg (bound2 (win (caddy (at_ i)) 0 0x30000)) 0 2 row
theorem witness_accumulators : ([ardI, awrI, astI, arlI].all fun i => i.wf && (accAt i 31).acts i && (accAt i 31).acting i == [0]) = true ∧ (31 : Nat) < 32 ∧ (32 : Nat) ≤ ((accAt ardI 32).readOp me 0 false (.g 2)).toNat ∧
    (tiled (mmaOp 1 0) (accAt ardI 31)).tagBusy me 2 = true ∧ (accAt ardI 31).tagBusy me 2 = false ∧ (((accAt ardI 31).slotOf ((accAt ardI 31).team 1) 2).getD {}).poison = [] ∧
    (accAt ardI 31).queueTakes me (.g 8) 1 = true ∧ ((tagQ (accAt ardI 31)).queueTakes me (.q 0) 1) = false ∧ (((spoilt (accAt ardI 31)).slotOf ((spoilt (accAt ardI 31)).team 1) 2).getD {}).poison = [32 * 31] ∧ (match (accAt awrI 31).bindAcc 1 2 with | .ok _ => true | _ => false) = true ∧
    (match (at_ awrI).bindAcc 1 2 with | .quota => true | _ => false) = true ∧ fld (33 : DWord) 0 6 = 33 ∧ (32 * 2 ≤ 64 ∧ 64 % 2 = 0) ∧
    (match (accAt astI 0).spRange ((accAt astI 0).team 1) 0 0 (31 * 64 + 32 * 2) with | .ok loc => loc == scratchLoc 0 0 0 | _ => false) = true ∧ (accAt astI 0).fillsFor [scratchLoc 0 0 0] = [] ∧
    vget ((at_ arlI).team 1).accs 2 = none ∧ vget ((accAt arlI 0).team 1).accs 2 ≠ none ∧ coreNo 5 191 < 1152 := by decide +kernel
theorem test_accrd : vget ((run ardI (accAt ardI 0)).thread me 0).g 8 = 0x3C00 ∧ ((run ardI (rg (cr (accAt ardI 0) .trapBase 0x800) 0 2 32)).thread me 0).trapAux = 5 * 256 + 2 * 2 ^ 24 := by decide +kernel
theorem test_accwr : (vget (run awrI (rg (accAt awrI 31) 0 4 0x4000)).cores 0).tiles = [.wr me 1 2 31 [(0, 0x40000000)]] := by decide +kernel
theorem test_accst : (vget (run astI (rg (accAt astI 0x10) 0 4 0x101)).cores 0).tiles = [.st me 0 1 2 .f16 [[scratchLoc 0 0 0x10]]] := by decide +kernel
theorem test_accrel_clears : (vget (vget (run arlI (accAt arlI 0)).cores 0).slots 0).clearing = true ∧ (vget (vget (run (.accSlotCleared 0 0 0) (run arlI (accAt arlI 0))).cores 0).slots 0) = {} := by decide +kernel
/-- E4M3 without special values (R105). -/
def e4m3 : Nat := 7 * 2 ^ 24 + 4 * 2 ^ 21 + 3 * 2 ^ 18 + 2 ^ 17 + 2 ^ 14
def vcfI : Instr := .vxmcfg { a := .g 2, b := .g 4, c := .g 6 } 7
def vxmI : Instr := .vxm { dst := .g 6, a := .g 2, b := .g 4 }
def vcfAt (k n c : Nat) : State := tm (rg (rg (rg (at_ vcfI) 0 2 k) 0 4 n) 0 6 c) fun t => { t with regs := { t.regs with fmt := .replicate 8 (BitVec.ofNat 32 e4m3) } }
/-- VXM over a weight surface of 8-bit elements (format 0x10), 16 columns and one row block a side (R74). -/
def wsurf : Surface := { handle := 1, w := #v[0x10 * 2 ^ 56 + 15 * 2 ^ 42 + 63 * 2 ^ 28 + 0x2800, 0, 0, 0] }
def vxmAt (s : State) : State :=
  gr (tm (win (surfOn s wsurf) 0 0x30000) fun t => { t with regs := { t.regs with fmt := .replicate 8 (BitVec.ofNat 32 e4m3) } }) fun g => { g with vxc := 0x2002 }
theorem witness_near_bank_config : vcfI.wf = true ∧ (vcfAt 4096 256 16383).acts vcfI = true ∧ (vcfAt 4096 256 16383).acting vcfI = [0] ∧ (4097 : Nat) > 4096 ∧ (0 : Nat) < 1 := by decide +kernel
theorem test_vxmcfg : ((run vcfI (vcfAt 4096 256 16383)).group me).vxc = BitVec.ofNat 64 (7 * 2 ^ 48 + 16383 * 2 ^ 32 + 256 * 2 ^ 13 + 4096) ∧ ((run vcfI (cr (vcfAt 0 1 0) .trapBase 0x800)).thread me 0).trapCause = 0x0F := by decide +kernel
/-- Its weights: block 0, column 0: rows 0 and 1 are 1.0 and 2.0, the scale 2^0; x is BF16 1.0 and 1.0. -/
def weights (s : State) : State :=
  { vxmAt s with mem := [(scratchLoc 0 0 0, 0x80), (scratchLoc 0 0 1, 0x3F), (scratchLoc 0 0 2, 0x80), (scratchLoc 0 0 3, 0x3F), (frameKey 0 3 0, 0x38), (frameKey 0 3 1, 0x40), (frameKey 0 3 512, 127)] }
def ptr1 : Nat := 2 ^ 20
def vxmGo (s : State) : State := rg (rg (weights s) 0 4 ptr1) 0 6 0x100
def queuedVxm : State := tm (vxmGo (at_ vxmI)) fun t => { t with vxms := [{ who := me, no := 1, rows := [(0, 0, 0x100, BitVec.ofNat 32 ptr1)], vxc := 0x2002 }], regs := { t.regs with repro := true } }
theorem witness_near_bank : vxmI.wf = true ∧ (vxmGo (at_ vxmI)).acts vxmI = true ∧ (vxmGo (at_ vxmI)).acting vxmI = [0] ∧ Vxc.k ((at_ vxmI).group me).vxc = 0 ∧ (vxmGo (at_ vxmI)).poolClear me [0] = true ∧
    okAt ((vxmGo (at_ vxmI)).vxmCheck ((vxmGo (at_ vxmI)).team 1) 0x2002 0 0x100 (BitVec.ofNat 32 ptr1)) = some 0 ∧ ((at_ vxmI).team 1).vxms = [] ∧ (queuedVxm.team 1).vxms.length = 1 ∧
    ((queuedVxm.team 1).vxms.all fun v => !queuedVxm.arrayOff 0 v && v.ptrs[v.done]? == some (BitVec.ofNat 32 ptr1) && !(queuedVxm.vxmRows (queuedVxm.team 1) v (BitVec.ofNat 32 ptr1)).2) = true ∧ (vget queuedVxm.cores 0).upset = [] := by
  decide +kernel
theorem test_vxm_joins : ((run vxmI (vxmGo (at_ vxmI))).team 1).vxms.map (·.rows) = [[(0, 0, 0x100, BitVec.ofNat 32 ptr1)]] := by decide +kernel
/-- 1·1 + 1·2 in reproducibility mode (R113, R114). -/
theorem test_vxm_pass : (run (.vxmPass 1) queuedVxm).homeReadN (scratchLoc 0 0 0x100) 4 = 0x40400000 ∧ (vget ((run (.vxmPass 1) queuedVxm).team 1).tl 5).done = 1 := by decide +kernel

/-! ### System registers and the front end -/
/-- MOVSR and MOVSW of the number in the literal. -/
def msr (n : Nat) (w : Bool := true) : Instr := .movsr { dst := .g 8, b := .lit (BitVec.ofNat 32 n), ty := if w then .b64 else .b32 }
def msw (n : Nat) (w : Bool := true) : Instr := .movsw { a := .g 2, b := .lit (BitVec.ofNat 32 n), ty := if w then .b64 else .b32 }
def hold0 (s : State) : State := { s with dev := { s.dev with hsem := vset s.dev.hsem 0 1 } }
def prv (s : State) : State := tm s fun t => { t with regs := { t.regs with priv := true } }
def badOf (i : Instr) (wr w : Bool) (n : Nat) (f : State → State := id) : Option Nat := ((f (at_ i)).begun i).sysBad me wr w n
def tla : Instr := .tlbinvAll {}
def tlp : Instr := .tlbinvPage { a := .g 2 }
def rngI (t : Ty) : Instr := .rng { dst := .g 8, ty := t }
def perfI : Instr := .perfc { dst := .g 8, a := .g 2 }
theorem witness_system_registers :
    ([msr 0x002, msw 0x002, msr 0x003 false, msw 0x189 false, msr 0x189 false, tla, tlp, rngI .b32, rngI .b64, rngI .f32, perfI].all fun i => (lanes 32 (at_ i)).acts i && !((lanes 32 (at_ i)).acting i).isEmpty) = true ∧
    badOf (msr 2) false true 2 = none ∧ badOf (msw 2) true true 2 = none ∧ badOf (msw 0x18A) true true 0x18A = some 1 ∧ badOf (msr 0x110) false true 0x110 = some 2 ∧ badOf (msr 0x110) false true 0x110 prv = none ∧
    badOf (msw 0x100) true true 0x100 = some 2 ∧ badOf (msw 0x100) true true 0x100 prv = none ∧ badOf (msw 0x184) true true 0x184 prv = some 2 ∧ badOf (msw 0x184) true true 0x184 (prv ∘ hold0) = none ∧
    ((at_ (msr 2)).acting (msr 2)).all (fun l => ((at_ (msr 2)).begun (msr 2)).sysNum me { dst := .g 8, b := .lit 2, ty := .b64 } l == 2) = true ∧ (at_ tlp).acting tlp = [0] := by decide +kernel
theorem test_movsr : vget ((run (msr 0x002) (th (at_ (msr 0x002)) 0 fun t => { t with trapPc := 0x123456789 })).thread me 0).g 9 = 1 ∧
    ((run (msr 0x110) (cr (at_ (msr 0x110)) .trapBase 0x800)).thread me 0).trapAux = 0x200 ∧ ((run (msr 0x110) (cr (at_ (msr 0x110)) .trapBase 0x800)).thread me 0).trapAddr = 0x110 := by decide +kernel
theorem test_movsw : ((run (msw 0x00C false) (rg (at_ (msw 0x00C false)) 0 2 0xFFFFFFFF)).thread me 0).en = 0x1F ∧ fld (run (msw 0x110) (at_ (msw 0x110))).dev.violInfo 31 1 = 1 ∧
    ((run (msw 0x124) (rp (prv (at_ (msw 0x124))) 0 2 0xFFFF0000FFFF0000)).creg 0 .rsBase) = 0xF0000FFFF0000 := by decide +kernel
theorem test_tlbinv : ((run tla (cr (at_ tla) .trapBase 0x800)).thread me 0).trapCause = 0x0B ∧ ((run tla (prv (at_ tla))).thread me 0).pc = 0x10010 ∧
    ((run tlp (prv (rg (at_ tlp) 0 2 0x10000))).thread me 0).pc = 0x10010 := by decide +kernel
theorem test_rng_counts : ((run (rngI .b32) (tm (at_ (rngI .b32)) fun t => { t with regs := { t.regs with repro := true } })).thread me 0).rngctr = 1 := by decide +kernel
theorem test_perfc : vget ((run perfI (rg (tm (at_ perfI) fun t => { t with regs := { t.regs with perf := vset t.regs.perf 11 7 } }) 0 2 11)).thread me 0).g 8 = 7 ∧
    vget ((run perfI (rg (at_ perfI) 0 2 12)).thread me 0).g 8 = 0 := by decide +kernel

/-! A path about to fetch the clause at 0x10000. -/
def fet (ws : List Nat) : State :=
  let s := gr (mp (at_ (.nop {}))) fun g => { g with run := some { lanes := 1, hdr := 0x10000 } }
  (List.range ws.length).foldl (fun s i => s.homeWriteN (0x10000 + 8 * i) 8 (ws.getD i 0)) s
def hd (ecls cnt role rsv : Nat) : Nat := ecls * 2 ^ 60 + cnt * 2 ^ 56 + role * 2 ^ 48 + 0xFFFFFF000000 + rsv
def fetW (s : State) : DWord := BitVec.ofNat 64 (((s.tlbTouch 1 0 0 0x10000 .fetch)).homeReadN (0x10000) 8)
theorem witness_fetch : ((fet []).group me).run.map (·.words) = some [] ∧ ((at_ (.nop {})).group me).run.any (fun r => !r.words.isEmpty) = true ∧ ((State.reset.placeWord 0).group { me with mem := .group 3 }).run = none ∧
    (fet []).inSteep me = false ∧ ((fet []).xlate (some 0) 0 0x10000 .fetch).toOption.map (fun r => (r.1, r.2.mig)) = some (0x10000, false) ∧
    fetW (fet []) = 0 ∧ clauseBad 0x10000 (fetW (fet [hd 0 0 255 1])) [] = some 2 ∧ clauseBad 0x10000 (fetW (fet [hd 9 0 255 0])) [] = some 1 ∧ clauseBad 0x10000 (fetW (fet [hd 0 1 254 0])) [] = none ∧
    (headerOf (fetW (fet [hd 0 1 254 0]))).role.getLsbD 0 = false ∧ (headerOf (fetW (fet [hd 0 1 255 0]))).role.getLsbD ((fet []).group me).role = true ∧
    clauseBad 0x10000 (fetW (fet [hd 0 0 255 0])) [encode (.tlbinvAll {})] = some 3 ∧ clauseBad 0x10000 (fetW (fet [hd 7 0 255 0])) [encode (msr 2)] = none := by decide +kernel
def next? (i : Instr) (s : State) : State := run i s
theorem test_fetch : ((run (.clauseFetch me) (fet [hd 7 0 255 0, (encode (msr 2)).toNat])).group me).run.map (·.words) = some [encode (msr 2)] ∧
    ((run (.clauseFetch me) (cr (fet []) .trapBase 0x800)).thread me 0).trapCause = 1 ∧ ((run (.clauseFetch me) (fet [hd 0 1 254 0])).thread me 0).pc = 0x10018 := by decide +kernel
def ahead (s : State) : State := gr (cr s .fltBase 0x20003) fun g => { g with steep := some { lanes := 1, saved := g.threads, pages := [{ page := 5 }], count := 1 } }
theorem witness_issue_clock_and_run_ahead : coreNo 5 191 < 1152 ∧ ((at_ (.nop {})).group me).steep = none ∧ (ahead (at_ (.nop {}))).has me = true ∧
    ((ahead (at_ (.nop {}))).group me).steep.isSome = true ∧ (((ahead (at_ (.nop {}))).group me).steep.map fun st =>
      ((ahead (at_ (.nop {}))).writeBatch ((ahead (at_ (.nop {}))).ctxOf me) st.pages ((ahead (at_ (.nop {}))).whereOf me) (some me) st.fault).isSome) = some true ∧
    (((cr (ahead (at_ (.nop {}))) .fltTail 8).group me).steep.map fun st =>
      ((cr (ahead (at_ (.nop {}))) .fltTail 8).writeBatch ((ahead (at_ (.nop {}))).ctxOf me) st.pages ((ahead (at_ (.nop {}))).whereOf me) (some me) st.fault).isSome) = some false := by decide +kernel
theorem test_steep_end : ((run (.steepEnd 1 0) (ahead (at_ (.nop {})))).thread me 0).wait = some (.batch 1) := by decide +kernel

/-! ### Launches, tasks and grids -/
def spn : Instr := .spawn { dst := .g 8, a := .g 2 }
def lch : Instr := .launch { dst := .g 8, a := .g 2 }
def loc0 (s : State) (l : Nat) : Option Nat := okAt (((s.begun spn).team 1) |> fun t => (s.begun spn).ldsrRange t 1 (((s.begun spn).readOp me l false (.g 2)).setWidth 32) 32 32)
def spnS : State := rg (rg (win (lanes 2 (at_ spn)) 0 0x200) 0 2 0x20) 1 2 0x40
def tasksOf (f : TaskQueue → TaskQueue) (s : State) : State := s.modCluster 0 fun c => { c with tasks := vmod c.tasks 0 f }
theorem witness_spawn : spnS.acts spn = true ∧ spnS.has me = true ∧ Operand.own (.g 8) = true ∧ ((spnS.begun spn).team 1).id.cluster < 6 ∧ ((spnS.begun spn).team 1).id.ctx < 64 ∧
    (spnS.begun spn).poolClear me (spnS.acting spn) = true ∧ spnS.acting spn = [0, 1] ∧ loc0 spnS 0 = some (scratchLoc 0 0 0x20) ∧ loc0 spnS 1 = some (scratchLoc 0 0 0x40) := by decide +kernel
theorem test_spawn_room : vget ((run spn (tasksOf (fun q => { q with recs := .replicate 511 {} }) spnS)).thread me 0).g 8 = 0 ∧
    vget ((run spn (tasksOf (fun q => { q with recs := .replicate 511 {} }) spnS)).thread me 1).g 8 = 1 := by decide +kernel
/-- A good packet at VA 0x10040, its descriptor at 0x10080. -/
def pkt1 : Vector DWord 8 := #v[2 ^ 60, 0, 0x10080, 0, 5, 0, 0, 0]
def lchS (va : Nat) (w : State → State := id) : State :=
  let s := rp (mp (at_ lch)) 0 2 va
  w { s with mem := s.mem ++ bytes (gddrBase + 0x10040) pkt1.toList ++ bytes (gddrBase + 0x10080) fdesc.toList }
def lrun (s : State) : State := s.release me 0 .device
def lread (s : State) (va : Nat) : Option (Vector DWord 8) := ((lrun (s.begun lch)).devRead 0 va 64).toOption.map (dwordsOf 8)
def lchk (s : State) (p : Vector DWord 8) (kid : Option Nat) (g : Nat) : Option (Nat × Bool) := (s.launchCheck 0 p kid g).map fun r => (r.1, r.2.1 == fdesc)
theorem witness_launch : (lchS 0x10040).acts lch = true ∧ (lchS 0x10040).acting lch = [0] ∧ (0 : Nat) ∉ (at_ (.launch { guard := { p := 0 }, a := .g 2 })).acting (.launch { guard := { p := 0 }, a := .g 2 }) ∧
    (((lchS 0x10040).begun lch).readOp me 0 true (.g 2)).toNat = 0x10040 ∧ 2 ^ 56 ≤ (((lchS (2 ^ 56)).begun lch).readOp me 0 true (.g 2)).toNat ∧
    (((lchS 0x10041).begun lch).readOp me 0 true (.g 2)).toNat % 64 ≠ 0 ∧ 10 ≤ ((tm (lchS 0x10040) fun t => { t with id := { t.id with depth := 10 } }).team 1).id.depth ∧
    ((lchS 0x10040).team 1).id.depth < 10 ∧ ((lchS 0x10040).begun lch).poolClear me [0] = true ∧ lread (lchS 0x10040) 0x10040 = some pkt1 ∧ lread (lchS 0) 0x50000 = none ∧
    lchk (lrun ((lchS 0).begun lch)) (vset pkt1 0 0) (some 0) 0 = none ∧ lchk (lrun ((lchS 0).begun lch)) pkt1 (some 0) 0 = some (1, true) := by decide +kernel
theorem test_launch_child : (fun t : State => (vget (t.thread me 0).g 8, (t.team 1).children, (t.launch? 0 1).map fun l => (l.depth, l.priv))) (run lch (lchS 0x10040)) = (1, 1, some (2, false)) := by decide +kernel
theorem test_launch_traps : ((run lch (cr (lchS 0x10041) .trapBase 0x800)).thread me 0).trapCause = 0x0C ∧
    ((run lch (cr (tm (lchS 0x10040) fun t => { t with id := { t.id with depth := 10 } }) .trapBase 0x800)).thread me 0).trapCause = 0x14 ∧
    ((run lch (cr (lchS (2 ^ 56)) .trapBase 0x800)).thread me 0).trapAux = 1 := by decide +kernel
theorem witness_generations : (cr State.reset .ctxGen 7).nextGen 0 0 = some 8 ∧ (7 : Nat) ≤ ((cr State.reset .ctxGen 7).creg 0 .ctxGen).toNat ∧ ((cr State.reset .ctxGen 7).creg 0 .ctxGen).toNat < 8 ∧
    ((cr State.reset .ctxGen 7).creg 0 .ctxGen).toNat + 1 < 2 ^ 64 := by decide +kernel
/-- A task record: code at slot 3, its join counter at FRAME + 0x40. -/
def rec1 (frame : Nat) (e : Bool := false) : TaskRec := { w := #v[0x40 * 2 ^ 32 + 3, BitVec.ofNat 64 frame, 0, 0], gen := 1, spawner := { uid := 1, entry := 0x10000 }, eligible := e }
/-- Every core but the first retired. -/
def few (s : State) : State := { s with cores := vset (.replicate 1152 { retired := true }) 0 {} }
def task (r : TaskRec) : State := tasksOf (fun q => { q with recs := [r] }) (few (mp State.reset))
def one40 (s : State) : State := { s with mem := s.mem ++ [(gddrBase + 0x10040, 1)] }
theorem witness_tasks : (task (rec1 0x10000)).taskMet 0 (rec1 0x10000) = some true ∧ (one40 (task (rec1 0x10000))).taskMet 0 (rec1 0x10000) = some false ∧ (task (rec1 0x50000)).taskMet 0 (rec1 0x50000) = none ∧
    (vget (vget (task (rec1 0x10000)).clusters 0).tasks 0).recs[0]? = some (rec1 0x10000) ∧ (task (rec1 0x10000 true)).taskCore 0 = some 0 ∧
    (vget (vget (task (rec1 0x10000 true)).clusters 0).tasks 0).recs.findIdx? (·.eligible) = some 0 ∧ (task (rec1 0x10000 true)).ctxRuns 0 = true := by decide +kernel
def lastTeam (s : State) : Team := s.teams.getLast?.getD {}
theorem test_task_runs : ((fun t : Team => ((vget (t.groups.getD 0 default).threads 31).pc, vget (vget (t.groups.getD 0 default).threads 31).g 0, (t.groups.getD 0 default).quota))
    (lastTeam (run (.taskRun 0 0) (task (rec1 0x20000 true))))) = (0x10018, 0x20000, 64) := by decide +kernel
/-- A launch of context 0 that waits at its start barrier with members 0 and 1. -/
def spread (f : Launch → Launch := id) (s : State := mp State.reset) : State := s.modCtx 0 fun c => { c with launches := [f { gen := 1, pkt := vset pkt1 6 3, desc := fdesc, queue := some 0 }] }
theorem witness_start_barrier : (spread id).pending? 0 2 = none ∧ ((spread id).pending? 0 1).map (fun l => (l.go, l.failed, l.queue, (Pkt.mask l.pkt).getLsbD 1, bitsOf (Pkt.mask l.pkt))) = some (false, false, some 0, true, [0, 1]) ∧
    ((spread fun l => { l with go := true }).pending? 0 1).map (·.go) = some true ∧ (∃ m ∈ [0, 1], m ∉ ([1] : List Nat)) ∧ (∀ m ∈ [0, 1], m ∈ ([0, 1] : List Nat)) := by decide +kernel
theorem test_start_barrier : (run (.ready 0 1 1) (spread fun l => { l with ready := [0] })).agenda.getLast? = some (.go 0 1 5000) ∧
    (run (.startBarrierTimeout 0 1) (spread id)).agenda.getLast? = some .trustDieBoot ∧ (run (.startAbort 0 1) (spread id)).launch? 0 1 = none ∧
    (vget (run (.startAbort 0 1) (spread id)).dev.fns 0).msix = [0] := by decide +kernel
def pktL (p : Vector DWord 8) : List DWord := p.toList
/-- Descriptor and packet of a good spread launch, the local package being its member 0. -/
def fwdS : State := let s := lchS 0
  { s with dev := { s.dev with ldt := vset s.dev.ldt 0 (BitVec.ofNat 32 (2 ^ 31 + Config.packageNumber)) } }
theorem witness_forwarded : Pkt.mask (vset pkt1 6 1) ≠ 0 ∧ (fwdS.launch? 0 9).isSome = false ∧ Desc.invalid fdesc = none ∧
    lchk (lchS 0) (vset pkt1 6 1) none 9 = none ∧ ((spread id).launch? 0 1).isSome = true := by decide +kernel
/-- A launch begun, with a part of two units on cluster 0. -/
def parted (cls n cl : Nat) : State := (spread (fun l => { l with pkt := vset pkt1 1 3, started := true, cls }) (few (mp State.reset))).modCluster cl fun c => { c with parts := [{ gen := 1, lo := 0, hi := n }] }
def part1 (n : Nat) : Part := { gen := 1, lo := 0, hi := n }
theorem witness_placement : (vget State.reset.clusters 0).parts = [] ∧ State.reset.taskReady 0 = none ∧
    ((((parted 4 4 0).partsInOrder 0).filter fun q => (parted 4 4 0).partClass q == 4).findSome? ((parted 4 4 0).tryPart 0)).isSome = true ∧
    ((((parted 1 4 0).partsInOrder 0).filter fun q => (parted 1 4 0).partClass q == 4).findSome? ((parted 1 4 0).tryPart 0)).isNone = true ∧
    ((((parted 1 4 0).partsInOrder 0).filter fun q => (parted 1 4 0).partClass q != 4).findSome? ((parted 1 4 0).tryPart 0)).isSome = true ∧ (parted 1 4 0).taskReady 0 = none ∧
    (task (rec1 0x10000 true)).taskReady 0 = some 0 ∧ ((parted 1 4 0).tryPart 0 (part1 4)).isSome = true ∧ (((parted 1 4 0).launch? 0 1).map fun l => Desc.rect l.desc) = some false := by decide +kernel
theorem test_unit_place : (lastTeam (run (.unitPlace 0) (parted 1 4 0))).id.x = 0 ∧ (vget (run (.unitPlace 0) (parted 1 4 0)).clusters 0).parts = [{ gen := 1, lo := 1, hi := 4 }] := by decide +kernel
theorem test_unit_steal : (vget (run (.unitSteal 0) (parted 1 5 1)).clusters 0).parts = [{ gen := 1, lo := 3, hi := 5 }] ∧
    (vget (run (.unitSteal 0) (parted 1 5 1)).clusters 1).parts = [{ gen := 1, lo := 0, hi := 3 }] := by decide +kernel
/-- R343: hot after three samples above T, cool after ten below T − 4 °C. -/
def hotS (hot : Bool) (n : Nat) : State := State.reset.modCore 0 fun c => { c with hot, hotRuns := n }
theorem test_thermal : (vget (run (.thermalSample 0 0 361 0) (hotS false 2)).cores 0).hot = true ∧ (vget (run (.thermalSample 0 0 361 0) (hotS false 1)).cores 0).hot = false ∧
    (vget (run (.thermalSample 0 0 343 0) (hotS true 9)).cores 0).hot = false ∧ (vget (run (.thermalSample 0 0 344 0) (hotS true 9)).cores 0).hot = true := by decide +kernel
def gone (f : Team → Team := id) : State := tm (gr (at_ (.nop {})) fun g => { g with run := none, threads := .replicate 32 { life := .ended } }) f
theorem witness_team_end : State.reset.team? 1 = none ∧ ((gone).team? 1).map (fun t => (t.allEnded, t.phase == .saved, t.children, (gone).teamBusy t)) = some (true, false, 0, false) ∧
    ((at_ (.nop {})).team? 1).map (·.allEnded) = some false ∧ ((gone).team? 1).map (fun t => match (gone).writeBack 1 t.allMaps with | .ok _ => true | _ => false) = some true := by decide +kernel
theorem test_team_end : (run (.teamEnd 1) gone).team? 1 = none ∧ (run (.teamEnd 1) (gone fun t => { t with children := 1 })).team? 1 ≠ none := by decide +kernel
def begun1 (done : Nat) (f : Launch → Launch := id) : State := spread (fun l => f { l with pkt := vset pkt1 7 (BitVec.ofNat 64 done), started := true }) (mp State.reset)
theorem witness_retirement : State.reset.launch? 0 1 = none ∧ ((begun1 0x10000).launch? 0 1).map (fun l => (l.started, l.failed, Pkt.done l.pkt, l.parent)) = some (true, false, 0x10000, none) ∧
    (begun1 0x10000).launchBusy 0 1 = false ∧ (parted 1 4 0).launchBusy 0 1 = true ∧ Pkt.done pkt1 = 0 ∧
    ((begun1 0x10000).engLocs none 0 0x10000 8 .engine).toOption.map List.head? = some (some 0x10000) ∧ ((begun1 0x10000).engLocs none 0 0x10008 16 .engine).toOption.map List.length = some 16 := by decide +kernel
theorem test_grid_retires : (run (.gridRetire 0 1) (begun1 0x10000)).homeReadN 0x10000 8 = 1 ∧ (run (.gridRetire 0 1) (begun1 0x10000)).launch? 0 1 = none := by decide +kernel
theorem test_error_report : (run (.errorReport 0 1 4) (begun1 0x10000)).homeReadN 0x10000 8 = 2 ^ 63 + 1 ∧ (run (.errorReport 0 1 4) (begun1 0x10000)).homeReadN 0x10008 8 = 1 ∧
    (run (.errorReport 0 1 4) (begun1 0x10000)).homeReadN 0x10010 8 = 4 ∧ (vget (run (.errorReport 0 1 4) (begun1 0x10000)).dev.fns 0).msix = [0] := by decide +kernel

/-! ### Registers written from outside, and the command queues -/
def bank (e : RtEntry) (s : State := State.reset) : State := { s with dev := { s.dev with bankB := vset s.dev.bankB 0 e } }
/-- Two entries that map the same 2 MiB, and a good one: 32 units of stack 0 from unit 0 (R40, R43). -/
def twice : State := { bank { w0 := 0x200200000 } with dev := { (bank { w0 := 0x200200000 }).dev with bankB := vset (bank { w0 := 0x200200000 }).dev.bankB 1 { w0 := 0x200200000 } } }
theorem witness_shared_state : (hold0 State.reset).hsemHeld 0 = true ∧ State.reset.hsemHeld 0 = false ∧ ({ State.reset with dev := { State.reset.dev with violInfo := 0x80000001 } } : State).dev.violInfo.getLsbD 31 = true ∧
    State.reset.dev.violInfo.getLsbD 31 = false ∧ ((dv State.reset .rtStat 2).dreg .rtStat).getLsbD 1 = true ∧ (State.reset.dreg .rtStat).getLsbD 1 = false ∧ bankBad twice.shadowBank = true ∧
    bankBad (bank { w0 := 0x200200000 }).shadowBank = false ∧ (State.reset.dreg (carveReg 1)).getLsbD 31 = false ∧ vget State.reset.dev.frameTab 1 = [] ∧ (1 : Nat) < (dv State.reset .srfCarve1 2).carve 1 := by decide +kernel
/-- R42: with one changed entry, the new bank is active, the entry under the next generation, and the commit drains. -/
theorem test_commit : (run (.rtCtlCommit 0) (hold0 (bank { w0 := 0x200200000 }))).dreg .rtStat = 0x20003 ∧ (vget (run (.rtCtlCommit 0) (hold0 (bank { w0 := 0x200200000 }))).activeBank 0).w0 = 0x0002000200200000 ∧
    (run (.rtCtlCommit 0) (hold0 twice)).dreg .rtStat = 0x10008 ∧ (run (.rtCtlCommit 0) twice).dev.viol = 0x1004 := by decide +kernel
theorem test_carve : (run (.srfCarveWrite 0 0 17) (hold0 State.reset)).dreg .srfCarve0 = 0x40000001 ∧ (run (.srfCarveWrite 0 0 16) (hold0 State.reset)).dreg .srfCarve0 = 16 ∧
    (run (.srfCarveWrite 0 1 1) (hold0 (dv State.reset .srfCarve1 2))).dreg .srfCarve1 = 0x80000001 := by decide +kernel
theorem witness_quotas : (∃ n, n < 2 ∧ 131072 - 4096 * State.reset.carve n < fld (0x1F001 : DWord) (32 * n) 18 + 0) ∧ (∀ n, n < 2 → fld (0x1F000 : DWord) (32 * n) 18 ≤ 131072 - 4096 * State.reset.carve n) ∧
    (4 : Nat) ≤ ((cr State.reset .ptGen 4).creg 0 .ptGen).toNat ∧ ((cr State.reset .ptGen 4).creg 0 .ptGen).toNat < 5 ∧ (3 : Nat) < 4 ∧ (4 : Nat) ≤ 4 := by decide +kernel
theorem test_quota : (run (.surfQuotaWrite 0 0x1F001) State.reset).creg 0 .surfStat = 1 ∧ (run (.surfQuotaWrite 0 0x1F000) State.reset).creg 0 .surfQuota = 0x1F000 := by decide +kernel
theorem witness_register_map : (0x1001 : Nat) % 4 ≠ 0 ∧ wideAt 0x1000 = false ∧ wideAt 0x1010 = true ∧ (0x0, true, CReg.ptRoot) ∉ ctxRegs ∧ (0x40, true, CReg.ptRoot) ∈ ctxRegs ∧ (0x1034, false, Shared.reg .lbCfg) ∈ sharedMap ∧
    fnOf 32 = 1 ∧ fnOf 31 = 0 ∧ (vget (hold0 State.reset).dev.hsem 0 = 1 ∧ vget State.reset.dev.hsem 15 = 0) := by decide +kernel
theorem test_register_write : (run (.registerWrite 0 0x120040 true 0xFFFFFFFFFFFFFFFF) State.reset).creg 2 .ptRoot = 0xFC0FFFFFFFFFE001 ∧
    (run (.registerWrite 0 0x1034 false 7) (hold0 State.reset)).dreg .lbCfg = 7 ∧ (run (.registerWrite 1 0x120040 true 1) State.reset).dev.violInfo = 0x94000001 := by decide +kernel
theorem test_semaphores : vget (run (.hsemTake 1 3) State.reset).dev.hsem 3 = 2 ∧ vget (run (.hsemTake 1 0) (hold0 State.reset)).dev.hsem 0 = 1 ∧ vget (run (.hsemGive 0 0) (hold0 State.reset)).dev.hsem 0 = 0 := by decide +kernel
/-- Queue 0 of context 0, enabled, with one entry at VA 0x10000. -/
def ring (e : List DWord) (s : State := mp State.reset) : State :=
  let s := s.modQueue 0 fun k => { k with cfg := 0x80040000, tail := 1, base := 0x10000 }
  { s with mem := s.mem ++ bytes (gddrBase + 0x10000) e }
def entry0 (s : State) : Option (Nat × Option Instr) := (s.headEntry 0).toOption.map fun e => (fld (vget e 0) 60 4, s.cpEntry 0)
def pktBadL : List DWord := (vset pkt1 1 (2 ^ 64 - 1)).toList
def et (n : Nat) (w1 w2 : DWord := 0) : List DWord := [BitVec.ofNat 64 (n * 2 ^ 60), w1, w2]
theorem witness_queues : (State.reset.queue 0).en = false ∧ (State.reset.queue 0).head = (State.reset.queue 0).tail ∧ ((ring []).queue 0).en = true ∧ ((ring []).queue 0).stopped = false ∧ ((ring []).queue 0).head ≠ ((ring []).queue 0).tail ∧
    (ring []).ctxRuns ((ring []).queue 0).ctx = true ∧ ((ring []).queueIdle 0) = true ∧ (cr (ring []) .preStat 2).ctxRuns 0 = false ∧ fnOf 33 ≠ 0 ∧ fnOf 0 = 0 := by decide +kernel
def dry (s : State) : State := s.modQueue 0 fun k => { k with base := 0x50000 }
theorem witness_ring_fault : (match (dry (ring [])).headEntry 0 with | .error e => some e.1 | .ok _ => none) = some 0x50000 ∧ (dry (ring [])).cpEntry 0 = some (.queueRingFault 0) ∧
    ((dry (ring [])).writeBatch 0 (missPages [] [0x50000] 2 0 3) {} none {}).isSome = true ∧
    ((cr (dry (ring [])) .fltTail 1024).writeBatch 0 (missPages [] [0x50000] 2 0 3) {} none {}).isSome = false := by decide +kernel
theorem test_ring_fault : ((run (.queueRingFault 0) (dry (ring []))).queue 0).stopped = true ∧ ((run (.queueRingFault 0) (dry (ring []))).queue 0).batch = some 1 := by decide +kernel
theorem witness_entry_nop : entry0 (ring []) = some (0, some (.queueEntryNop 0)) := by decide +kernel
theorem witness_entry_launch : entry0 (ring pktBadL) = some (1, some (.queueEntryLaunch 0)) ∧ ((ring pktBadL).took 0).launchCheck 0 (vset pkt1 1 (2 ^ 64 - 1)) none 0 = none ∧
    (lchS 0).launchCheck 0 pkt1 none 0 ≠ none := by decide +kernel
theorem witness_entry_invalidate : entry0 (ring (et 2 1)) = some (2, some (.queueEntryTlbInvalidate 0)) ∧ (ring (et 2 1)).cpEntryHeld 0 (vset (.replicate 8 0) 0 (BitVec.ofNat 64 (2 * 2 ^ 60))) = false ∧ (ring (et 2 1)).translatedLeft 0 ((ring (et 2 1)).queue 0).inval = false ∧
    outq2.translatedLeft 0 [2 ^ 48 % keyUnit / 2 ^ 16] = true := by decide +kernel
theorem witness_entry_replay : entry0 (ring (et 3 2)) = some (3, some (.queueEntryFaultReplay 0)) := by decide +kernel
theorem witness_entry_signal : entry0 (ring (et 4 0x10080 5)) = some (4, some (.queueEntrySignal 0)) ∧ (((ring (et 4 0x10080 5)).took 0).engLocs none 0 0x10080 8 .engine).toOption.map List.head? = some (some 0x10080) := by decide +kernel
theorem witness_entry_wait : entry0 (ring (et 5 0x10080 0)) = some (5, some (.queueEntryWait 0)) ∧ entry0 (ring (et 5 0x10080 1)) = some (5, none) := by decide +kernel
theorem witness_entry_reserved : entry0 (ring (et 6)) = some (6, some (.queueEntryReserved 0)) := by decide +kernel
theorem test_entry_signal : (fun s : State => (s.homeReadN 0x10080 8, (s.queue 0).head)) (run (.queueEntrySignal 0) (ring (et 4 0x10080 5))) = (5, 1) := by decide +kernel
theorem test_entry_reserved : (fun s : State => ((vget s.dev.fns 0).msix, (s.queue 0).head)) (run (.queueEntryReserved 0) (ring (et 6))) = ([0], 1) := by decide +kernel
def replayS (kill : Bool) : State := { at_ (.nop {}) with ctxs := vmod (at_ (.nop {})).ctxs 0 fun c => { c with batches := [{ no := 7, who := some me, pages := [{ page := 5 }] }], replays := [{ batch := 7, kill }, { batch := 7, need := 1 }] } }
theorem test_replay_releases : ((run (.replayRelease 0) (replayS false)).ctx 0).batches = [] ∧ ((run (.replayRelease 0) (replayS false)).ctx 0).replays = [{ batch := 7, need := 1 }] := by decide +kernel

/-! ### Halts, the cut and the restore -/
/-- The team of the tests parked: its path dropped at a clause boundary. -/
def atEdge (i : Instr := .nop {}) : State := gr (at_ i) fun g => { g with run := none, threads := g.threads.map fun t => { t with mid := none } }
def parkedS : State := tm (th atEdge 0 fun t => { t with parked := true }) fun t => { t with parking := true }
def stat (v : Nat) (s : State := atEdge) : State := cr s .preStat v
/-- A copy record accepted whose bytes wait on a batch. -/
def stuckRec (s : State) : State := tm s fun t => t.modCopy 0 fun c => { c with batch := some 1, recs := [{ no := 1, accepted := true }] }
def held (s : State) : State := (s.teamsOf 0).foldl (fun v t => v.holdTiles t.id.uid) s
theorem witness_halts : fnOf 40 ≠ 0 ∧ fnOf 0 = 0 ∧ (atEdge.teamsOf 0).any (fun t => !t.parking) = true ∧ (stat 1).preBit 0 0 = true ∧ (stat 2).preBit 0 1 = true ∧ (stat 4).preBit 0 2 = true ∧
    (atEdge.preBit 0 0 || atEdge.preBit 0 1 || atEdge.preBit 0 2) = false ∧ (parkedS.creg 0 .dbgStat).getLsbD 0 = false ∧ ((cr parkedS .dbgStat 1).creg 0 .dbgStat).getLsbD 0 = true ∧
    ((parkedS.teamsOf 0).all fun t => !t.parking || t.isParked) = true ∧ ((tm atEdge fun t => { t with parking := true }).teamsOf 0).any (fun t => t.parking && !t.isParked) = true := by decide +kernel
theorem test_halt_and_parked : ((run (.dbgHalt 0 0) atEdge).team 1).parking = true ∧ (run (.teamParked 0) parkedS).creg 0 .dbgStat = 1 ∧ (vget (run (.teamParked 0) parkedS).dev.fns 0).msix = [2] := by decide +kernel
theorem test_debug_resume : ((run (.dbgResume 0 0) parkedS).thread me 0).parked = false ∧ ((run (.dbgResume 0 0) parkedS).team 1).parking = false ∧ (run (.dbgHalt 1 0) atEdge).dev.viol = 0x100438 := by decide +kernel
theorem witness_cut : ((held (stat 1)).teamsOf 0).all (fun t => !(held (stat 1)).undrained t && !(held (stat 1)).openRecs t true) = true ∧ ((held (stat 1)).teamsOf 0).length = 1 ∧
    ((held (stuckRec (stat 1))).teamsOf 0).all (fun t => !(held (stuckRec (stat 1))).undrained t && (held (stuckRec (stat 1))).openRecs t true) = true ∧
    ((held (stat 1 pending8)).teamsOf 0).any (fun t => (held (stat 1 pending8)).undrained t) = true := by decide +kernel
theorem test_stop : (run (.preStop 0 0) atEdge).creg 0 .preStat = 1 ∧ (run (.preStop 0 0) atEdge).agenda.contains (.cutDrainDone 0) = true := by decide +kernel
theorem test_cut_error (s : State) (h1 : s.preBit 0 0 = true) (h2 : ((held s).teamsOf 0).any (held s).undrained = false)
    (h3 : (((held s).teamsOf 0).any fun t => (held s).openRecs t true) = true) :
    exec (.cutDrainDone 0) s = .next ((((held s).cutImage 0).2.setPre 0 3 true).setPre 0 0 false) := by
  simp only [held] at h2 h3
  simp [exec, execCutDrainDone, held, h1, h2, h3]
/-- Context 0 saved with its one team, being restored. -/
def savedS (v : Nat) (f : State → State := id) : State := f ((stat v { State.reset with nextUid := 2 }).modCtx 0 fun c => { c with saved := [{ atEdge.team 1 with phase := .saved }] })
theorem witness_restore : (savedS 4).preBit 0 2 = true ∧ (savedS 2).preBit 0 1 = true ∧ (savedS 2).preBit 0 2 = false ∧ ((savedS 4).ctx 0).saved.map (fun t => (t.id.rect, t.id.task, t.id.uid, t.groups.length)) = [(false, false, 1, 1)] ∧
    (savedS 4).fitsBack 0 ((savedS 4).ctx 0).saved.head! = true ∧ (∀ c ∈ List.range 3, ({ savedS 4 with clusters := .replicate 6 { offline := true } } : State).fitsBack (400 * c) ((savedS 4).ctx 0).saved.head! = false) ∧
    (stat 4).preBit 0 2 = true ∧ ((stat 4).ctx 0).saved = [] := by decide +kernel
theorem test_resume_restores : (run (.preResume 0 0) (savedS 2)).creg 0 .preStat = 4 ∧ (lastTeam (run (.restorePlace 0) (savedS 4))).phase = .running ∧ ((run (.restorePlace 0) (savedS 4)).ctx 0).saved = [] ∧
    (run (.restorePlace 0) (stat 4)).creg 0 .preStat = 0 := by decide +kernel

/-! ### Reliability -/
def rootS (f : Launch → Launch) (cfg : Nat := 3) : State := cr (spread f (mp State.reset)) .rasCfg cfg
def rb (f : Launch → Launch) (cfg : Nat := 3) : Option (List Bool × Nat) := let s := rootS f cfg
  (s.launch? 0 (s.rootGen 0 10 1)).map fun l => ([l.failed, decide (l.replays ≠ 0) && l.lostRead,
    l.rolling, (s.creg 0 .rasCfg).getLsbD 0 && !l.noReplay && decide (l.replays < fld (s.creg 0 .rasCfg) 1 3), l.dieLost], l.gen)
def deadStack (s : State) : State := { s with dies := vset s.dies 0 { lost := true } }
def cnt15 (u : TestUnit) : State := { mp State.reset with dev := { (mp State.reset).dev with errs := [(u, 15)] } }
theorem witness_storage_errors : (2 : Nat) ≤ 2 ∧ (2 : Nat) ≤ (if isGddrKey ((mp State.reset).storage 0x10000) then 3 else 2) ∧ (if isGddrKey (frameKey 0 0 0) then 3 else 2) < 3 ∧
    (((mp State.reset).dev.errs.find? (·.1 == unitOf (gddrBase + 0x10000))).map (·.2)).getD 0 ≠ 15 ∧ ((mp State.reset).storage 0x10000) = gddrBase + 0x10000 := by decide +kernel
theorem test_storage_errors : (run (.memoryError 0x10000 2) (mp State.reset)).homePoisoned 0x10000 = true ∧ (run (.memoryError 0x10000 1) (mp State.reset)).dev.errs = [(.gddr 0 16, 1)] ∧
    (run (.memoryError 0x10000 1) (cnt15 (.gddr 0 16))).agenda.contains (.selfTest (.gddr 0 16)) = true := by decide +kernel
theorem witness_rollback : ((mp State.reset).launch? 0 ((mp State.reset).rootGen 0 10 1)).isNone = true ∧ rb (fun l => { l with failed := true }) = some ([true, false, false, true, false], 1) ∧ rb id = some ([false, false, false, true, false], 1) ∧
    rb (fun l => { l with noReplay := true, dieLost := true }) = some ([false, false, false, false, true], 1) ∧ rb id 2 = some ([false, false, false, false, false], 1) ∧ (rootS id).rollbackSet 0 1 = [1] ∧
    rb (fun l => { l with replays := 1, lostRead := true }) = some ([false, true, false, false, false], 1) ∧ rb (fun l => { l with rolling := true }) = some ([false, false, true, true, false], 1) ∧
    (let s := rootS fun l => { l with rolling := true }
     (s.familyOf 0 [1]) = [1] ∧ s.teams.any (fun t => t.discard) = false ∧ ((tm { s with teams := (at_ (.nop {})).teams } fun t => { t with discard := true, id := { t.id with gen := 1 } }).teams.map fun t => (t.id.ctx, t.discard, t.id.gen)) = [(0, true, 1)]) := by decide +kernel
theorem test_rollback_reports : (run (.rollback 0 1) (rootS id 2)).agenda.contains (.errorReport 0 1 7) = true ∧ (run (.rollback 0 1) (rootS (fun l => { l with dieLost := true }) 2)).agenda.contains (.errorReport 0 1 8) = true ∧
    (run (.rollback 0 1) (rootS fun l => { l with replays := 1, lostRead := true })).agenda.contains (.errorReport 0 1 6) = true := by decide +kernel
theorem witness_tests_of_cores : coreNo 0 0 < 1152 ∧ (0 : Nat) < 6 ∧ (at_ (.nop {})).onCore 0 ≠ [] ∧ State.reset.onCore 0 = [] ∧ State.reset.hsemHeld 1 = false ∧ (hold0 State.reset).hsemHeld 0 = true ∧
    ((1 : BitVec 32).setWidth 64 : DWord).getLsbD 0 = true ∧ ((2 : BitVec 32).setWidth 64 : DWord).getLsbD 0 = false ∧ fld ((0xD : BitVec 32).setWidth 64 : DWord) 1 3 = 6 ∧ fld ((1 : BitVec 32).setWidth 64 : DWord) 1 3 = 0 ∧
    (State.reset.dreg .iftStat).getLsbD 0 = false ∧ ((dv State.reset .iftStat 1).dreg .iftStat).getLsbD 0 = true ∧ (vget State.reset.clusters 0).enabled = true ∧ State.reset.clusterOff 0 = false := by decide +kernel
theorem test_core_waits_for_its_test : (vget (run (.selfTest (.core 0 0)) (at_ (.nop {}))).cores 0).tainted = true := by decide +kernel
def due0 (s : State) : State := s.modCluster 0 fun c => { c with testDue := true }
theorem witness_in_field : (List.range 6).all (fun c => !(vget State.reset.clusters c).testDue) = true ∧ (vget (due0 State.reset).clusters 0).testDue = true ∧ (due0 (at_ (.nop {}))).teams.any (fun t => t.id.cluster == 0 && t.phase != .saved) = true ∧
    (due0 State.reset).teams.length = 0 := by decide +kernel
theorem test_in_field_start : (run (.iftStart 0 5) (hold0 State.reset)).dreg .iftStat = 0x43 ∧ (run (.iftStart 0 0xD) (hold0 State.reset)).dreg .iftStat = 0x10 ∧ (run (.iftStart 0 5) (hold0 State.reset)).agenda.contains .inFieldTest = true := by decide +kernel
theorem test_package_is_lost : exec (.dieLost 4) State.reset = .fault (.packageLost 4) := rfl
theorem witness_stacks : (4 : Nat) ≤ 5 ∧ (3 : Nat) < 4 ∧ (1 : Nat) < 2 ∧ ((State.reset.dieBit 6 || State.reset.dieBit 7 || (vget State.reset.dies 1).lost || State.reset.dieBit 0 || fld (State.reset.dreg (evacPool 1)) 0 16 == 0) = true) ∧
    (let s := dv State.reset .evacPool1 1; (s.dieBit 6 || s.dieBit 7 || (vget s.dies 1).lost || s.dieBit 0 || fld (s.dreg (evacPool 1)) 0 16 == 0) = false) ∧
    State.reset.dieBit 0 = false ∧ (dv State.reset .dieStat 0x41).dieBit 0 = true := by decide +kernel
theorem test_stack_off : (run (.dieCtlOff 0 1) (hold0 (dv State.reset .evacPool1 1))).dreg .dieStat = 0x41 ∧ (run (.dieCtlOff 0 1) (hold0 State.reset)).dreg .dieStat = 4 := by decide +kernel
theorem test_evacuation_ends : (run .evacuateStack (dv State.reset .dieStat 0x41)).dreg .dieStat = 0x42 ∧ (run .evacuateStack (dv State.reset .dieStat 0x41)).dreg .evacStat = 0 := by decide +kernel
def ckptS (n : Nat) : State := { hold0 (dv State.reset .ckptStat 1) with dev := { (hold0 (dv State.reset .ckptStat 1)).dev with ckpt := n } }
theorem witness_checkpoints : ((ckptS 1).dreg .ckptStat).getLsbD 0 = true ∧ ((hold0 State.reset).dreg .ckptStat).getLsbD 0 = false ∧ (at_ (.nop {})).teams.any (fun t => t.phase != .saved) = true ∧ State.reset.teams = [] ∧
    State.reset.dev.ckpt = 0 ∧ (ckptS 2).dev.ckpt ≠ 0 := by decide +kernel
theorem test_checkpoint : (run (.ckptFinish true) (ckptS 1)).dreg .ckptStat = 2 ∧ (run (.ckptFinish false) (ckptS 1)).dreg .ckptStat = 4 ∧ (run (.ckptStart 0) (hold0 State.reset)).dreg .ckptStat = 1 := by decide +kernel

/-! ### Links, peers, common time, frames, scan-out, the trust die -/
def linkS (up split : Bool) : State := { (State.reset.modFn 0 fun k => { k with linkUp := up }) with dev := { (State.reset.modFn 0 fun k => { k with linkUp := up }).dev with split }, dies := vset State.reset.dies 4 { released := true } }
theorem witness_links : (linkS true true).dev.split = true ∧ (vget (linkS false true).dev.fns 0).linkUp = false ∧ (vget (linkS true true).dev.fns 0).linkUp = true ∧ (hold0 (linkS true true)).hsemHeld 0 = true ∧
    (linkS true true).hsemHeld 0 = false ∧ (vget (linkS true true).dies 4).released = true ∧ (128 : Nat) ≤ 128 ∧ (8 : Nat) ≤ 8 := by decide +kernel
theorem test_link_down : (vget (run (.hostLinkDown 0) (hold0 (linkS true true))).dev.fns 0).downAt = some 0 ∧ (vget (run (.hostLinkTrained 0 128 8) (linkS false true)).dev.fns 0).width = 8 := by decide +kernel
def atTime (t : Nat) (s : State) : State := { s with dies := vset s.dies 4 { cnt := BitVec.ofNat 64 t } }
def downS (t : Nat) : State := atTime t ((hold0 State.reset).modFn 0 fun k => { k with downAt := some 0 })
theorem witness_link_release : (vget State.reset.dev.fns 0).downAt = none ∧ (vget (downS 1000000).dev.fns 0).downAt = some 0 ∧ 0 + 1000000 ≤ (downS 1000000).packTime ∧ (downS 999999).packTime < 0 + 1000000 ∧ (downS 1000000).hsemHeld 0 = true := by decide +kernel
theorem test_link_release : vget (run (.hsemLinkRelease 0) (downS 1000000)).dev.hsem 0 = 0 ∧ vget (run (.hsemLinkRelease 0) (downS 999999)).dev.hsem 0 = 1 := by decide +kernel
theorem witness_peers : (1 : Nat) ≠ Config.packageNumber ∧ 0x10040 + Ty.b64.width / 8 ≤ Config.gddrBytes ∧ ((mp State.reset).route 0x10040).isSome = true ∧ Config.gddrBytes < Config.gddrBytes + Ty.b32.width / 8 ∧
    State.reset.route 0x10040 = none := by decide +kernel
theorem test_peer : (run (.peerRequest 1 0x10040 true none .b32 0x12345678 0) (mp State.reset)).homeReadN 0x10040 4 = 0x12345678 ∧
    (run (.peerRequest 1 0x10040 true (some .add) .b64 7 0) (one40 (mp State.reset))).homeReadN 0x10040 8 = 8 := by decide +kernel
theorem test_port_down : vget (run (.burzilPortDown 15) State.reset).dev.portsUp 15 = false ∧ vget (run (.burzilPortDown 15) State.reset).dev.portsUp 14 = true := by decide +kernel
/-- Page 4 of context 0 on package 1's memory, the lane standing at a load. -/
def peerS : State :=
  let s := mp (at_ (atI .atomg))
  { s with mem := (s.mem.filter (·.1 < gddrBase + 0x8020)) ++ [(gddrBase + 0x8020, 13), (gddrBase + 0x8024, 0x40), (gddrBase + 0x8026, 8)] }
def peerLoc (s : State) : Option Bool := (s.xlate (some 0) 0 0x40000 .read).toOption.map fun r => isPeer (r.1 % keyUnit) && isRemote r.1
def blockedS : State := gr peerS fun g => { g with run := none, blocked := [{ lanes := 1, hdr := 0x10000, words := [0], idx := 0 }] }
theorem witness_undeliverable : peerLoc peerS = some true ∧ ((mp (at_ (atI .atomg))).xlate (some 0) 0 0x10000 .read).toOption.map (fun r => isPeer (r.1 % keyUnit) && isRemote r.1) = some false ∧
    (blockedS.blockedRun? me 0).isSome = true ∧ (peerS.blockedRun? me 0).isNone = true ∧ ((peerS.group me).run.map fun r => (r.lanes.getLsbD 0, (Mn.ofOp (r.word.extractLsb' 55 9)).bind Mn.cls)) = some (true, some .mem) := by decide +kernel
theorem test_undeliverable : ((run (.requestUndeliverable me 0 0x40000) (cr peerS .trapBase 0x800)).thread me 0).trapAux = 8 ∧ ((run (.requestUndeliverable me 0 0x40000) (cr peerS .trapBase 0x800)).thread me 0).trapAddr = 0x40000 := by
  decide +kernel
/-- Collective group 1 of context 0 at attempt 5 (R387). -/
def coll5 : State := let s := cr (mp State.reset) .cgBase 0x10000
  { s with mem := s.mem ++ [(gddrBase + 0x10014, 5)] }
theorem witness_collectives : fnOf 32 ≠ 0 ∧ (coll5.collGroup 0 1).2.2 = 5 ∧ (4 : Nat) < (coll5.collGroup 0 1).2.2 ∧ coll5.teams = [] ∧ (at_ (.nop {})).teams.all (fun t => t.copy.toList.all fun c => c.recs.all fun r => Rec.kind r.w != 5) = true := by decide +kernel
theorem test_abort : (run (.collAbort 0 0 1) coll5).agenda.contains (.abortToken 0 1 6) = true ∧ (run (.abortToken 0 1 6) coll5).homeReadN 0x10014 4 = 6 ∧ (run (.abortToken 0 1 4) coll5).homeReadN 0x10014 4 = 5 := by decide +kernel
def follower (v runs : Nat) (s : State := State.reset) : State := let d := dv (dv s .tsCfg 0x40000000) .tsStat v
  { d with dev := { d.dev with syncRuns := runs } }
theorem witness_sync : fld (State.reset.dreg .tsCfg) 30 2 ≠ 1 ∧ fld ((follower 0 15).dreg .tsCfg) 30 2 = 1 ∧ ((follower 1 3).dreg .tsStat).getLsbD 0 = true ∧ ((15 : BitVec 32)).toInt.natAbs ≤ 15 ∧ (15 : Nat) ≤ (follower 0 15).dev.syncRuns ∧
    (follower 0 15).teams = [] ∧ (follower 0 15 (at_ (.nop {}))).teams.any (fun t => t.phase != .saved) = true := by decide +kernel
theorem test_sync : (run (.syncMessage 0xFFFFFFF1) (follower 0 15)).dreg .tsStat = 0xFFFFFFF100000001 ∧ (vget (run (.syncMessage 0xFFFFFFF1) (follower 0 15)).dies 4).cnt = 15 ∧
    (run (.syncMessage 16) (follower 1 3)).dreg .tsStat = 0x1000000000 ∧ (run (.syncMessage 16) (follower 1 2)).dreg .tsStat = 0x1000000001 := by decide +kernel
def frames (on : Nat) (t : Nat) : State := atTime t (dv (dv (dv (hold0 (mp State.reset)) .flPer 25600) .flCtl on) .flWord 0x10080)
theorem witness_frames : (hold0 State.reset).hsemHeld 0 = true ∧ ((1 : BitVec 32)).getLsbD 0 = true ∧ ((frames 0 150).dreg .flCtl).getLsbD 0 = false ∧ fld ((frames 0 150).dreg .flPer) 0 40 ≠ 0 ∧ ((frames 1 0).dreg .flCtl).getLsbD 0 = true ∧
    (frames 1 0).frameStartAt (frames 1 0).dev.frame ≤ (frames 1 0).packTime ∧ ({ frames 1 50 with dev := { (frames 1 50).dev with frame := 1 } } : State).packTime < 100 ∧ (dv (frames 1 0) .soDesc0 0x10000).dreg .soDesc0 ≠ 0 := by decide +kernel
theorem test_frames : (run (.flCtlEnable 0 1) (frames 0 150)).dev.frame = 2 ∧ (run .frameStart { frames 1 250 with dev := { (frames 1 250).dev with frame := 2 } }).homeReadN 0x10080 8 = 2 ∧
    vget (run .frameStart (dv (frames 1 0) .soDesc0 0x10000)).dev.soDue 0 = [0] := by decide +kernel
/-- Stream 0: 16 × 16 in context 0, GUARD 200 µs, the present record at VA 0x10080: frame 0, handle 1, generation 0 (R391). -/
def stream0S (t : Nat) (frameRec : Nat) : State :=
  let u : Surface := { surf1 with w := vset surf1.w 0 (2 * 2 ^ 56 + 15 * 2 ^ 42 + 15 * 2 ^ 28 + 0x800) }
  let s := atTime t (dv (surfOn (mp State.reset) u) .soDesc0 0x10000)
  { s with mem := s.mem ++ bytes (gddrBase + 0x10000) [15 * 2 ^ 42 + 15 * 2 ^ 28 + 200, 0x10080] ++ bytes (gddrBase + 0x10080) [BitVec.ofNat 64 frameRec, 2 ^ 52, 0],
           dev := { s.dev with soDue := vset s.dev.soDue 0 [1] } }
theorem witness_scan_out : vget State.reset.dev.soDue 0 = [] ∧ vget (stream0S 200000 1).dev.soDue 0 = [1] ∧ ((stream0S 200000 1).soDesc 0).map (fun d => (fld (vget d 0) 0 18, fld (vget d 0) 18 6, (vget d 1).toNat)) = some (200, 0, 0x10080) ∧
    ((atTime 0 ({ State.reset with dev := { State.reset.dev with soDue := vset State.reset.dev.soDue 0 [1] } } : State)).soDesc 0).isNone = true ∧ (stream0S 199999 1).packTime < (stream0S 199999 1).frameStartAt 1 + 1000 * 200 ∧
    (((stream0S 200000 1).devRead 0 0x10080 24).toOption.map fun bs => ((vget (dwordsOf 3 bs) 0).toNat, fld (vget (dwordsOf 3 bs) 1) 52 12)) = some (1, 1) ∧ (stream0S 200000 1).presentable 0 1 16 16 = true ∧
    (stream0S 200000 1).genFailed 0 0 = false := by decide +kernel
theorem test_scan_out : vget (run (.scanOutFrame 0) (stream0S 200000 1)).dev.soSent 0 = some (1, 1, false) := by decide +kernel
theorem test_scan_out_late : vget (run (.scanOutFrame 0) (stream0S 200000 0)).dev.soSent 0 = some (1, 0, true) ∧ fld ((run (.scanOutFrame 0) (stream0S 200000 0)).dreg .soMiss0) 0 32 = 1 := by decide +kernel
theorem test_mailbox : (vget (run (.getVersion 1) State.reset).dev.fns 1).mailbox = some (.version 1 3) ∧ (vget (run (.getCapabilities 0) State.reset).dev.fns 0).mailbox = some (.capabilities false) := by decide +kernel
def slotS (o : Nat) : State := { State.reset with dev := { State.reset.dev with slotOwner := vset State.reset.dev.slotOwner 5 (some o) } }
theorem witness_key_slots : ((5 : Nat) % 64 == 0) = false ∧ ((64 : Nat) % 64 == 0) = true ∧ (slotS 40).slotBad 0 5 = true ∧ (slotS 3).slotBad 0 5 = false ∧ State.reset.slotBad 0 63 = false ∧ fnOf 31 = 0 := by decide +kernel
theorem test_slots : (run (.tmCmdGrant 0 3 5) State.reset).creg 3 .keyAllow = 0x21 ∧ (run (.tmCmdGrant 0 40 5) State.reset).creg 40 .keyAllow = 1 ∧ (vget (run (.tmCmdGrant 0 40 5) State.reset).dev.fns 0).tmStat = 2 ∧
    vget (run (.tmCmdRevoke 0 5) (slotS 3)).dev.slotGen 5 = 1 := by decide +kernel
theorem test_throttle : fld ((run .thermalThrottle State.reset).dreg .pwrStat) 0 16 = 1150 := by decide +kernel

/-! ### Instructions without an acting lane, fenced acquires, and faults and holds that try again -/
/-- p0 reads false: no lane acts. -/
def noG : Guard := { p := 0 }
def idle : List Instr := [.nop { guard := noG }, .exit { guard := noG }, .trap { guard := noG, b := .lit 7 }, .tret { guard := noG }, .trapf { guard := noG }, .brk { guard := noG, b := .lit 7 },
  .wait { guard := noG, dst := .num 0, a := .num 63, b := .num 63, c := .num 63 }, .waittl { guard := noG, dst := .num 6, b := .lit 1 }, .waitct { guard := noG, a := .g 2, b := .g 4, sub := 1, ty := .b64 },
  .tbwait { guard := noG, a := .g 2, b := .g 5 }, .roleq { guard := noG, dst := .g 4, a := .g 6 } 0 1, .gangset { guard := noG, b := .g 2 }, .driftset { guard := noG, b := .g 2 }]
theorem witness_no_acting_lane : (idle.all fun i => (at_ i).acts i && (at_ i).acting i == []) = true ∧
    (((at_ (.trap { guard := noG, b := .lit 7 })).begun (.trap { guard := noG, b := .lit 7 })).sources me (Instr.trap { guard := noG, b := .lit 7 }).fv []).isSome = true := by decide +kernel
/-- A satisfied wait with an acquire while an atomic is pooled, and TBARV. -/
theorem witness_pooled_waits : (pooled (at_ (.waittl { dst := .num 6, b := .lit 0 }))).poolClear me ((pooled (at_ (.waittl { dst := .num 6, b := .lit 0 }))).acting (.waittl { dst := .num 6, b := .lit 0 })) = false ∧
    ((pooled (at_ (.waittl { dst := .num 6, b := .lit 0 }))).begun (.waittl { dst := .num 6, b := .lit 0 })).waitOver me (.tl 6 0) = true ∧ (Wait.tl 6 0).scope.isSome = true ∧
    (pooled (tbAt 0 (tbi .tbarv))).poolClear me ((pooled (tbAt 0 (tbi .tbarv))).acting (tbi .tbarv)) = false ∧ (pooled (two (at_ (xf 0 1)))).poolClear me (pooled (two (at_ (xf 0 1)))).crew = false ∧
    (tbAt 0 (tbi .tbinit)).teams.all (·.maps == []) = true ∧ Spw.bad 0 0 = false ∧ (match (tbAt 0 (tbi .tbinit)).spRange ((tbAt 0 (tbi .tbinit)).team 1) 0 0 16 with | .ok loc => loc == scratchLoc 0 0 0 | _ => false) = true := by
  decide +kernel
/-- WAITCT of an address that does not translate, with demand faults on. -/
def wcg : Instr := .waitct { a := .g 2, b := .g 4, ty := .b64 }
theorem witness_waitct_fault : (let s := cr (rp (mp (at_ wcg)) 0 2 0x50008) .fltCfg 1
    s.acts wcg = true ∧ s.acting wcg = [0] ∧ (match (s.begun wcg).globalCheck me 0x50008 8 .read with | .xfault _ e va _ => !e.held && va == 0x50008 | _ => false) = true) := by decide +kernel
theorem test_waitct_is_no_demand_fault : ((run wcg (cr (cr (rp (mp (at_ wcg)) 0 2 0x50008) .fltCfg 1) .trapBase 0x800)).thread me 0).trapCause = 9 := by decide +kernel
/-- A stopped copy context whose failed record makes a wait a fault. -/
theorem witness_failed_record : (vget ((copyFault base0).team 1).copy 0).failed?.isSome = true ∧ ((vget ((copyFault base0).team 1).copy 0).waitFault 0).isSome = true := by decide +kernel
/-- A store to a page on host memory waits for the host; a map whose line lies on a page under migration, and one that a record still delivers to. -/
def heldMap (i : Instr) : State := let s := dirtyMap 0x20000 (at_ i); { s with mem := s.mem.write (gddrBase + 0x8010) 0x4D }
def delivering1 (s : State) : State := tm s fun t => t.modCopy 0 fun c => { c with recs := [{ no := 1, w := #v[2 ^ 58 + 2 ^ 56 + 16, 0, 0x10, 0, 0, 0, 0, 0], accepted := true }] }
theorem witness_held_maps : ([true, false].all fun d => (match (heldMap (wbI d)).begun (wbI d) |>.writeBack 1 [0] with | .hold u => !(u.team 1).parking | _ => false) &&
      ((delivering1 (dirtyMap 0x10000 (at_ (wbI d)))).team 1).delivering 0 256) = true ∧ ((delivering1 (mapAt 0x100 0x2FF00 0)).team 1).delivering 0 0x100 = true := by decide +kernel
/-- An undeliverable hand-over of an engine member: its clause arrives a word at a time. -/
def engP : Party := { team := 1, mem := .engine 2 }
def engine1 (s : State) : State := tm s fun t => { t with engines := [{ role := 2, kind := 2, threads := vset (.replicate 32 {}) 0 { life := .live }, run := some { lanes := 1, hdr := 0x10000 } }] }
def partly (n : Nat) (ws : List Nat) : State := (engine1 (fet ws)).modGroup engP fun g =>
  { g with run := g.run.map fun r => { r with hword := fetW (fet ws), part := some (0x10000, (List.range n).map fun i => BitVec.ofNat 64 (ws.getD (i + 1) 0)) } }
def nops (n : Nat) : List Nat := hd 2 (n - 1) 255 0 :: List.replicate n (encode (.nop {})).toNat
theorem witness_engine_fetch : (((engine1 (fet (nops 2))).group engP).run.map fun r => (r.words, r.part.isNone, (headerOf (fetW (fet (nops 2)))).role.getLsbD 2)) = some ([], true, true) ∧
    clauseBad 0x10000 (fetW (fet (nops 2))) [] = none ∧
    ([0, 1].map fun n => ((partly n (nops 2)).group engP).run.map fun r => (r.part.map (·.2.length), (headerOf r.hword).slots)) = [some (some 0, 2), some (some 1, 2)] := by decide +kernel
theorem test_engine_fetch : ((run (.clauseFetch engP) (partly 0 (nops 2))).group engP).run.map (fun r => (r.words.length, r.part.map (·.2.length))) = some (0, some 1) ∧
    ((run (.clauseFetch engP) (partly 1 (nops 2))).group engP).run.map (fun r => r.words.length) = some 2 := by decide +kernel
/-- LDREF of USE quantum reads the slot at its home, beside a newer buffered value. -/
theorem test_ldref_quantum : let i : Instr := .ldref { dst := .h 8, base := .g 2, c := .num 0, ty := .b32, use := .quantum }
    let s := (hr (hAt i ref1) 0 8 5).homeWriteN (scratchLoc 0 0 0) 8 ref1
    vget ((run i (s.bufWrite me 0 [(scratchLoc 0 0 7, 0)])).thread me 0).h 8 = BitVec.ofNat 64 ref1 := by decide +kernel
/-- The elements of a collective: one of another rank joins, a repeated one replaces it, an older attempt is dropped. -/
theorem test_packets : ((run (.collectivePacket 0 3 0 { seq := 1, rank := 2, off := 4 } 9) (run (.collectivePacket 0 3 0 { seq := 1, rank := 2, off := 4 } 8) State.reset)).ctx 0).packets.map (·.v) = [9] ∧
    ((run (.collectivePacket 0 3 0 { off := 2 } 8) State.reset).ctx 0).packets = [] := by decide +kernel
theorem test_boot_entry : (vget (run .trustDieBoot State.reset).dev.bankA 0).len = 0xF000 ∧
    ({ State.reset with dev := { State.reset.dev with bankA := vset State.reset.dev.bankA 0 bootEntry } } : State).route 0x1DFFFFF000 = some (1, 0xEFFFFF000) := by decide +kernel

/-! ### Stores that have still to perform, full copy queues, and waits that end -/
/-- An ACCST of lane 0 that has still to retire. -/
def storing (i : Instr) : State := tiled (.st me 0 1 2 .f16 [[scratchLoc 0 0 0x10]]) (at_ i)
theorem witness_pending_store : (let s := storing ld8
      s.storePending me (bitsOf s.path.lanes) = true ∧ s.dynBad me ld8.fv = none ∧ s.interlocked me (bitsOf s.path.lanes) ld8.fv = false ∧ s.counterFull me ld8.fv = false ∧ ld8.fv.mn.cls = some .mem) ∧
    (storing (phase 4)).poolClear me [0] = false ∧ poisoned2.storeHeld me (bitsOf poisoned2.path.lanes) add8.fv = false := by decide +kernel
theorem test_store_holds_load : ((run ld8 (storing ld8)).group me).ldCnt = 0 ∧ ((run ld8 (storing ld8)).thread me 0).pc = 0x10008 := by decide +kernel
/-- A link and a queue operand without room or entry. -/
def fullQ (s : State) : State := tagQ s
theorem witness_links_wait : store8 (.call {} (.q 0) 4) (fullQ (at_ (.call {} (.q 0) 4))) = false ∧ (fullQ (at_ (.call {} (.q 0) 4))).acts (.call {} (.q 0) 4) = true ∧
    (let i : Instr := .callx { dst := .q 0, a := .g 2, ty := .b64 }; store8 i (fullQ (at_ i)) = false ∧ (fullQ (at_ i)).acts i = true) ∧
    (let i : Instr := .sleep { b := .q 0 }; ((qs (at_ i)).begun i).sources me i.fv [0] = none ∧ (qs (at_ i)).acts i = true ∧ (qs (at_ i)).acting i = [0]) ∧
    (let i : Instr := .trap { b := .q 0 }; ((qs (at_ i)).begun i).sources me i.fv [0] = none ∧ (qs (at_ i)).acts i = true ∧ (qs (at_ i)).acting i = [0]) ∧
    (let s := th (hnd (.trapf {})) 0 fun t => { t with flags := 9, en := 8 }
     (s.thread me 0).life = .live ∧ (s.thread me 0).inh = false ∧ (s.thread me 0).flags &&& (s.thread me 0).en = 8 ∧ s.creg (s.ctxOf me) .trapBase ≠ 0 ∧ s.cur.mem = .group 0) := by decide +kernel
/-- A wait at a counter in a line of a map that has still to be filled, from a page that is mapped or not. -/
def unfilled (va : Nat) : State := waiting (.ct [scratchLoc 0 0 0] 1) (tm (dirtyMap va (at_ (.nop {}))) fun t => { t with maps := t.maps.map fun m => { m with lines := [{}] } })
def chunkEnd (c : Chunk) : Nat := match c with | .go _ _ => 0 | .wait _ => 1 | .fault _ _ f _ => if f.held then 2 else 3 | _ => 4
theorem witness_filled_waits : (((unfilled 0x10000).thread me 0).wait = some (.ct [scratchLoc 0 0 0] 1) ∧ ((unfilled 0x10000).blockedRun? me 0).isSome = true) ∧
    [0x10000, 0x50000].map (fun va => chunkEnd ((unfilled va).filled (Wait.ct [scratchLoc 0 0 0] 1).homes (.go (unfilled va) 0))) = [1, 3] ∧
    chunkEnd ((waiting (.ct [scratchLoc 0 0 0] 1) (at_ (.nop {}))).filled (Wait.ct [scratchLoc 0 0 0] 1).homes (.go (at_ (.nop {})) 0)) = 0 ∧
    (waiting (.tl 6 0) (at_ (.nop {}))).invalidLine (scratchLoc 0 0 0) = none ∧ (Wait.tl 6 0).homes = [] ∧ (Wait.bar 15 0).homes = [] := by decide +kernel
/-- Barrier 15 one phase on, and not. -/
def barred (n : Nat) : State := waiting (.bar 15 0) (tm (at_ bar15) fun t => { t with bars := vset t.bars 15 { phase := n } })
theorem witness_barrier_waits : (0 : Nat) < (vget (((barred 1).modTeam 1 fun t => t.barSettle 15).team 1).bars 15).phase ∧ (vget (((barred 0).modTeam 1 fun t => t.barSettle 15).team 1).bars 15).phase ≤ 0 ∧
    ((barred 1).modTeam 1 fun t => t.barSettle 15).poolClear me [0] = true := by decide +kernel
/-- A receiver at an entry that is there, and a quota move that is met. -/
def rcvI : Instr := xf 1 0
def received : State := waiting (.receiver 7 1) (chan (fun c => { c with entries := [(1, 9, false, [])] }) (two (at_ rcvI)))
def stand (i : Instr) (s : State) : State := gr s fun g => { g with blocked := g.blocked.map fun r => { r with words := [encode i] , idx := 0 } }
def rqI : Instr := rq 0 1
def moved : State := stand rqI (waiting (.roleq 0 1) (tm (two (at_ rqI)) fun t => { t with roleq := [{ group := 0, src := 0, dst := 1, status := some 3 }] }))
theorem witness_waiters_that_end : ((stand rcvI received).blockedRun? me 0).map (fun r => (match decodeWord r.word with | .ok (.xfer _ 7 1 0) => true | _ => false)) = some true ∧
    (((stand rcvI received).team 1).chans.toList.getD 7 default).entries.find? (fun e => e.1 == 1) = some (1, 9, false, []) ∧ (stand rcvI received).poolClear me [0] = true ∧ (stand rcvI received).queueTakes me (.g 4) 2 = true ∧
    (moved.blockedRun? me 0).map (fun r => (match decodeWord r.word with | .ok (.roleq _ 0 1) => true | _ => false)) = some true ∧
    ((((moved.roleqMeet 1 0 1).team 1).roleq.find? fun x => x.group == groupIx me && x.src == 0 && x.dst == 1).bind (·.status)) = some 3 := by decide +kernel
theorem test_receiver_ends : vget ((run (.waitEnd me 0) (stand rcvI received)).thread me 0).g 4 = 9 ∧ ((run (.waitEnd me 0) (stand rcvI received)).thread me 0).wait = none ∧
    vget ((run (.waitEnd me 0) moved).thread me 0).g 4 = 3 := by decide +kernel
/-- A write-back that the region table holds, and a record whose line cannot be filled. -/
def postS (va : Nat) : State := (tm (dirtyMap va (at_ (.nop {}))) fun t => { t with maps := t.maps.map fun m => { m with lines := [{}] } })
theorem witness_barrier_records : (postS 0x50000).invalidLine (scratchLoc 0 0 0) = some (1, 0, 0) ∧ (((postS 0x50000).fillLine 1 0 0).invalidLine (scratchLoc 0 0 0)).isSome = true ∧
    (at_ (.nop {})).invalidLine (scratchLoc 0 0 0) = none ∧ ((vget (at_ (.nop {})).clusters 0).tbars.any fun b => b.1 == scratchLoc 0 0 0 && b.2) = false ∧
    (match (heldMap (phase 6)).begun (phase 6) |>.writeBack 1 [0] with | .hold u => !(u.team 1).parking | _ => false) = true := by decide +kernel

/-! ### Quota moves that meet, atomics and entries that the region table or a tile holds -/
def arr1 : RoleqArr := { group := 1, src := 0, dst := 1 }
def meets (l : List RoleqArr) : State := tm (two (at_ rqI)) fun t => { t with roleq := l }
theorem witness_quota_meetings : (meets [arr1]).acts rqI = true ∧ (meets [arr1]).acting rqI = [0] ∧ ((meets [arr1]).group me).role = 0 ∧ ((meets [arr1]).team 1).groups.length ≤ 32 ∧
    (∀ q ∈ ((meets [arr1]).team 1).roleq, q.group ≠ groupIx me) ∧ ((meets [arr1]).team 1).liveGroups 0 ++ ((meets [arr1]).team 1).liveGroups 1 = [0, 1] ∧ ((meets [arr1]).team 1).ord.pend = [] ∧
    ((meets [arr1]).team 1).ord.pool = [] ∧ (vget (meets [arr1]).clusters 0).tbOps = [] ∧ ((meets []).team 1).roleq = [] := by decide +kernel
theorem test_roleq_moves : (let t := run rqI (rg (meets [arr1]) 0 6 192); (t.team 1).groups.map (·.quota)) = [64, 256] ∧ vget ((run rqI (rg (meets [arr1]) 0 6 200)).thread me 0).g 4 = 3 ∧
    ((run rqI (meets [])).thread me 0).wait = some (.roleq 0 1) := by decide +kernel
/-- The region table draining: what it maps is held. -/
def draining (s : State) : State := dv s .rtStat 2
theorem witness_held_homes : (draining (mp State.reset)).locHeld 0x10000 = true ∧ (mp State.reset).locHeld 0x10000 = false ∧ State.reset.atomStuck (scratchLoc 0 0 0) = false ∧
    (draining (mp outq2)).entryHeld (.plain [(0x10000, 1)]) = true ∧ outq2.entryHeld (.update (2 ^ 48) .add .n32 1) = false ∧ (draining (mp State.reset)).rtHeld 0x10000 = true := by decide +kernel
/-- Two lanes of ATOMG that wait for the host, and one. -/
def hostTwo : State := th hostWait 1 fun t => { t with wait := some (.host (2 ^ 48) 0x40000) }
theorem witness_host_completions : ((gr hostTwo fun g => { g with run := g.run.map fun r => { r with lanes := 3 } }).group me).run.map (fun r => r.lanes.getLsbD 1) = some true ∧ (hostTwo.thread me 1).wait = some (.host (2 ^ 48) 0x40000) ∧
    hostWait.has me = true ∧ (hostWait.thread me 1).wait = none ∧ (match decodeWord hostWait.path.word with | .ok (.atomg _) => true | _ => false) = true := by decide +kernel
/-- An atomic pooled at a place that MAPR is about to bind. -/
theorem witness_pooled_under_a_map : ((pooled (mapAt 0x100 256 0)).begun maprI).pooledAt 0 (fun x => isScratch x && scratchCore x == 0 && decide (0 ≤ scratchOff x) && decide (scratchOff x < 0x100)) = true ∧
    ((mapAt 0x100 256 0).begun maprI).pooledAt 0 (fun _ => true) = false := by decide +kernel

/-! ### Surfaces -/
/-- The quota met, so that tiles are made resident only by an eviction; the spill area mapped, unmapped, and held. -/
def endOf (r : TileRes) : Nat := match r with | .ok _ => 0 | .noFrame _ => 1 | .fault _ _ _ => 2 | .hold _ => 3
def clear1 : Surface := { surf1 with tiles := [] }
def spilt : Surface := { surf1 with tiles := [(0, 0), (5, 1)] }
/-- No frame is present, and none may be taken. -/
def noFr (s : State) : State := { cr s .surfQuota 0 with dev := { s.dev with frameTab := s.dev.frameTab.map fun l => l.map fun f => { f with frame := none } } }
theorem witness_residence : [(surfOn (mp State.reset) spilt, 5), (noFr (surfOn (mp State.reset) clear1), 0), (surfOn State.reset spilt, 5), (draining (surfOn (mp State.reset) spilt), 5)].map (fun q => endOf (q.1.makeResident 0 1 q.2)) = [0, 1, 2, 3] ∧
    (surfOn (mp State.reset) spilt).surf? 0 1 = some spilt ∧ Surf.tile spilt 5 ≠ 0 ∧ Surf.tile spilt 0 = 0 ∧ (surfOn (mp State.reset) spilt).mem.wf = true ∧
    ((surfOn (mp State.reset) spilt).frameAt 0 1 (Surf.side spilt 5).1 (Surf.home surf1 (Surf.side spilt 5).1 + (Surf.side spilt 5).2 * (16 * Surf.bytes surf1) / 4096)).isSome = true ∧
    0 < (((surfOn (mp State.reset) spilt).tileData 0 spilt 5).getD []).length ∧ ((surfOn (mp State.reset) spilt).surfKey 0 spilt (Surf.side spilt 5).1 ((Surf.side spilt 5).2 * (16 * Surf.bytes surf1))).isSome = true ∧
    (noFr (surfOn (mp State.reset) clear1)).atomStuck (texelLoc 0 1 0 0 0 0) = true := by decide +kernel
theorem witness_stray_victim : (gone1.setVictim 0 0 (some { h := 1 })).victimOf 0 0 = some 1 ∧ (gone1.setVictim 0 0 (some { h := 1 })).validSurf? 0 1 = none := by decide +kernel
def allocEnd (r : AllocRes) : Nat := match r with | .got _ _ => 0 | .hold _ => 1
theorem witness_allocation_waits : allocEnd ((draining (withDesc (mp (at_ sall)))).allocSurf 0 (descOf (withDesc (mp (at_ sall))))) = 1 ∧ (draining (withDesc (mp (at_ sall)))).acts sall = true := by decide +kernel
def exp1 (s : State) (u : Surface) : State := (surfOn s u).modCtx 0 fun c => { c with raster := { seq := 1, prims := [{ prim1 with done := [0, 1] }], exports := [{ ticket := { surf := 1 }, kill := false, col := #v[0x3F800000, 0, 0, 0], state := rs1 }] } }
def blank : Surface := { surf1 with tiles := (List.range 16).map fun i => (i, 1) }
theorem witness_export_waits : [noFr (exp1 (mp State.reset) clear1), exp1 State.reset blank, draining (exp1 (mp State.reset) blank)].map (fun s => endOf (s.exportTiles ((s.ctx 0).raster.exports.getD 0 default))) = [1, 2, 3] := by decide +kernel

/-! ### Heals at the host, pins there, and copy records -/
def ldh8 : Instr := .ldref { dst := .h 8, base := .g 2, c := .num 0, ty := .b64 }
/-- A slot in host memory with a reference of another colour. -/
def placed8 (s : State) (loc v : Nat) : State := { s with mem := (List.range 8).foldl (fun m i => m.write (loc + i) (BitVec.ofNat 8 (v >>> (8 * i)))) s.mem }
def stale (i : Instr) : State := placed8 (rp (heap 0 (at_ i)) 0 2 0x40000) (2 ^ 48) (ref1 + 2 ^ 60)
def healed (i : Instr) (s : State) : Option (List (Nat × DWord × DWord × Bool)) := match (s.begun i).slots8 me (mfOf i) (s.acting i) false with
  | .inr (_, rs, locs) =>
    let vals := (live rs locs).map fun x => (x.1, BitVec.ofNat 64 ((s.begun i).seenN me x.1 x.2.1 8))
    (match (s.begun i).resolveAll me false vals with
     | .inr out => some ((live rs locs).map fun x =>
        (x.2.1, laneVal vals x.1, laneVal out x.1, healOut ((s.begun i).healSlot me ((s.begun i).slotVa me (mfOf i) rs x.1) x) (laneVal vals x.1) (laneVal out x.1)))
     | _ => none)
  | _ => none
theorem witness_heals : healed ldh8 (stale ldh8) = some [(2 ^ 48, BitVec.ofNat 64 (ref1 + 2 ^ 60), BitVec.ofNat 64 ref1, true)] ∧
    healed ldr (placed8 (hAt ldr ref1) (scratchLoc 0 0 0) (ref1 + 2 ^ 60)) = some [(scratchLoc 0 0 0, BitVec.ofNat 64 (ref1 + 2 ^ 60), BitVec.ofNat 64 ref1, false)] ∧
    (stale ldh8).acts ldh8 = true ∧ (healCheck (0, 2 ^ 48, { w := true }) (BitVec.ofNat 64 (ref1 + 2 ^ 60)) (BitVec.ofNat 64 ref1)).rank = none ∧
    (stale ldh8).healPoison me (0, 2 ^ 48, { w := true }) (BitVec.ofNat 64 (ref1 + 2 ^ 60)) (BitVec.ofNat 64 ref1) = false := by decide +kernel
theorem test_heal_waits_for_the_host : ((run ldh8 (stale ldh8)).thread me 0).wait = some (.host (2 ^ 48) 0x40000 (BitVec.ofNat 64 (ref1 + 2 ^ 60)) (BitVec.ofNat 64 ref1)) ∧
    (let s := run (.hostAtomicopCompletion me 0 true) (run ldh8 (stale ldh8)); (s.homeReadN (2 ^ 48) 8 = ref1 ∧ vget (s.thread me 0).h 8 = BitVec.ofNat 64 ref1)) ∧
    (run ldr (placed8 (hAt ldr ref1) (scratchLoc 0 0 0) (ref1 + 2 ^ 60))).homeReadN (scratchLoc 0 0 0) 8 = ref1 := by decide +kernel
/-- The object’s header in host memory. -/
def pinHost : State := let s := pinAt pinI 0
  { s with mem := (((s.mem.write (gddrBase + 0x8102) 0).write (gddrBase + 0x8106) 1).write (2 ^ 48 + 0x40) 32) }
theorem witness_pin_at_host : (headOf pinI pinHost).map (fun h => isHost (h.1 % keyUnit)) = some true ∧ pinHost.acts pinI = true := by decide +kernel
theorem test_pin_at_host : ((run pinI (cr pinHost .trapBase 0x800)).thread me 0).trapCause = 0x0B ∧ ((run pinI (cr pinHost .trapBase 0x800)).thread me 0).trapAux = 9 := by decide +kernel
/-- A record of a global chain, and one whose barrier record lies in no window. -/
def chained : CopyRec := { no := 1, w := recBad, src := .chain 0x10040 }
def recTb (n : Nat) : CopyRec := { took 16 with w := vset (vset rec16 0 (vget rec16 0 ||| 2 ^ 59)) 4 (BitVec.ofNat 64 n) }
def goes (c : Chunk) : Bool := match c with | .go _ _ => true | _ => false
theorem witness_statuses : chained.statusWord = [0x10040] ∧ goes ((mp (copyOf chained base0)).engWords ((mp (copyOf chained base0)).team 1) [0x10040]) = true ∧ fresh16.statusWord = [] ∧
    (mp (copyOf chained base0)).recCheck ((mp (copyOf chained base0)).team 1) chained [] = some (3, 0, 0, 0) ∧
    (vget ((chainOn false (chAt 0x40)).team 1).copy 0).idle = false ∧ (vget ((chainOn false (chAt 0x40)).team 1).copy 0).parked = false ∧ (vget ((chAt 0x40).team 1).copy 0).idle = true ∧
    (∃ r ∈ (vget ((mp (copyOf chained base0)).team 1).copy 0).recs, r.statusWord ≠ []) := by decide +kernel

/-! ### Launches, forwarded packets, units, teams that end, entries, blocks, errors, checkpoints, peers and frames -/
theorem witness_held_launch : (let s := draining (lchS 0x10040); let w := lrun (s.begun lch); w.cpHeld 0 0x10040 64 .read = true ∧ s.acts lch = true) ∧
    (let w := lrun ((lchS 0x10040).begun lch); w.cpHeld 0 0x10040 64 .read = false ∧ w.launchHeld 0 pkt1 (some 0) = false) ∧
    (spread id).doneHeld 0 0x10000 = false ∧ (draining (spread id)).doneHeld 0 0x10000 = true ∧ (draining (ring pktBadL)).cpEntryHeld 0 pkt1 = true ∧ (ring pktBadL).cpEntryHeld 0 pkt1 = false := by decide +kernel
def openQ (s : State) : State := s.modQueue 0 fun k => { k with cfg := 0x80040000 }
theorem witness_forwarded_packets : ((openQ fwdS).openQueue? 0).isSome = true ∧ (fwdS.openQueue? 0).isNone = true ∧ lchk (openQ fwdS) (vset pkt1 6 1) none 9 = some (9, true) ∧ Desc.invalid (.replicate 16 0) ≠ none := by decide +kernel
theorem test_forwarded_packet : ((run (.forwardedLaunchPacket 0 9 ((vset pkt1 6 1).toList ++ [3])) (openQ fwdS)).launch? 0 9).map (·.cls) = some 3 ∧
    ((run (.forwardedLaunchPacket 0 9 ((vset pkt1 6 1).toList ++ [3])) fwdS).launch? 0 9).map (·.failed) = some true := by decide +kernel
theorem witness_unit_steals : (let s := parted 1 5 1
      (s.ctx 0).launches.map (fun l => (l.gen, l.started, l.failed, l.cls)) = [(1, true, false, 1)] ∧ s.ctxRuns 0 = true ∧ (vget s.clusters 0).parts = [] ∧
      ((s.launch? 0 1).bind fun l => s.placeFor 0 l.desc (l.cls == 4)).isSome = true ∧ s.victimPart 0 0 1 = some (1, { part1 5 with }) ∧ s.victimPart 1 0 1 = none) := by decide +kernel
/-- Teams that end: killed with a store that waits for bytes no one brings, discarded, held by the region table. -/
theorem witness_ends : ((gone fun t => { t with discard := true }).team? 1).map (·.discard) = some true ∧ ((gone).team? 1).map (fun t => (t.killed, t.discard, (gone).flushHeld 1)) = some (false, false, false) ∧
    (let s := draining (dirtyMap 0x10000 gone); match s.writeBack 1 (s.team 1).allMaps with | .hold _ => true | _ => false) = true ∧
    (let s := dirtyMap 0x50000 gone; match s.writeBack 1 (s.team 1).allMaps with | .fail _ _ _ => true | _ => false) = true ∧
    ((begun1 0x10000 fun l => { l with rolling := true }).launch? 0 1).map (fun l => (l.rolling, l.failed)) = some (true, false) := by decide +kernel
theorem witness_error_words : ErrWord.of (if 0x10000 < Config.gddrBytes then (mp State.reset).storage 0x10000 else 0x10000) = .key (gddrBase + 0x10000) ∧ isGddrKey (gddrBase + 0x10000) = true ∧ (254 : Nat) < 256 ∧ (31 : Nat) < 32 := by decide +kernel
theorem test_register_poison : ((run (.memoryError (regBase + 2 ^ 20 + 8) 2) (at_ (.nop {}))).thread me 0).gPoison = 2 ^ 8 := by decide +kernel
/-- A checkpoint whose pool holds what was written since START, and one whose pool does not; peers while the region table drains; a copy context’s
request that cannot be delivered; streams that passed to a backup. -/
theorem witness_checkpoint_pool : (ckptS 1).ckptDirty.length ≤ (ckptS 1).ckptPool.2 ∧ (ckptS 1).dev.ckpt = 1 ∧ (ckptS 1).ckptDesc.isSome = true ∧
    (let s := { mp State.reset with dev := { (mp State.reset).dev with ckpt := 1 } }; s.ckptPool.2 < s.ckptDirty.length) ∧
    (let s := dv (ring [7 * 2 ^ 10]) .ckptDesc 0x10000; s.ckptDesc.isNone = true) := by decide +kernel
def peerCopy : State := tm peerS fun t => t.modCopy 0 fun c => { c with recs := [{ no := 1, accepted := true }] }
theorem witness_peer_requests : (draining (mp State.reset)).rtHeld 0x10040 = true ∧ (mp State.reset).rtHeld 0x10040 = false ∧ (0 : Nat) ∈ peerS.guarded me peerS.path (bitsOf peerS.path.lanes) ∧ peerS.path.words ≠ [] ∧
    (gr peerS fun g => { g with run := none, blocked := [peerS.path] }).blockedRun? me 0 = some peerS.path ∧
    (vget (peerCopy.team 1).copy 0).batch = none ∧ (vget (peerCopy.team 1).copy 0).aborting = false ∧ (∃ q ∈ (vget (peerCopy.team 1).copy 0).recs, q.accepted = true ∧ q.status = 0) := by decide +kernel
theorem test_copy_undeliverable : (vget ((run (.requestUndeliverable { team := 1, mem := .engine 64 } 0 0x40000) (cr peerCopy .fltBase 0x20003)).team 1).copy 0).batch.isSome = true := by decide +kernel
theorem test_frame_skips : (run .frameStart (frames 1 250)).dev.frame = 3 ∧ (vget (run .frameStart (let s := dv (frames 1 0) .soDesc0 0x10000; { s with dev := { s.dev with soAway := .replicate 4 true } })).dev.soDue 0) = [] := by decide +kernel
theorem test_sync_dies : (vget (run (.syncMessage 0xFFFFFFF1) (follower 0 15)).dies 0).off = 15 ∧ (vget (run (.syncMessage 0xFFFFFFF1) (follower 0 15)).dies 0).cnt = 0 := by decide +kernel
/-- The last good frame of a stream, held in another context, or of a surface that is gone, is black. -/
theorem test_last_good : let s (x h : Nat) : State := { stream0S 200000 0 with dev := { (stream0S 200000 0).dev with soGood := vset (stream0S 200000 0).dev.soGood 0 (x, h) } }
    [(0, 1), (1, 1), (0, 2)].map (fun q => vget (run (.scanOutFrame 0) (s q.1 q.2)).dev.soSent 0) = [some (1, 1, true), some (1, 0, true), some (1, 0, true)] := by decide +kernel
theorem test_compute_die_lost : ((run (.dieLost 0) State.reset).dreg .dieStat).getLsbD 8 = true ∧ ((run (.dieLost 0) State.reset).dreg .dieStat).getLsbD 10 = true ∧ (run (.dieLost 0) State.reset).agenda.contains .evacuateStack = true := by decide +kernel
/-- A reserved code in an operand field that a CTRL word does not use is a wrong unused field (R190, R192). -/
theorem test_unused_fields : (why (word 0x001 7 0x1FF 0x172 0x1FF 0x1FF 0)).map (·.1) = some 7 ∧ (why (word 0x007 7 0x1FE 0x1FF 0x1FF 0x1FF 0)).map (·.1) = some 7 ∧
    (why (word 0x001 7 0x1FF 0x1FF 0x1FF 0x1FF 1)).map (·.1) = some 7 := by decide +kernel
/-- CPY_CHAN reads back whole (R93). -/
theorem test_copy_channel_keeps_sp : (vget ((run (msw 0x040) (rp (at_ (msw 0x040)) 0 2 0x41)).team 1).copy 0).chan = 0x41 ∧ (vget ((run (msw 0x040) (rp (at_ (msw 0x040)) 0 2 1)).team 1).copy 0).chan = 1 := by decide +kernel

end Sys2Proof.Tests
end

section
/-!
PROOFS. Facts about registers and bit fields, and about what bytes arriving at homes leave as it was, that the statements about the device read.
-/
namespace Sys2Proof.Machine

/-! ## Bit fields -/

/-- A bit of a word after one of its fields was set. -/
theorem getLsbD_setFld {w : Nat} (x : BitVec w) (lo len v i : Nat) (hi : i < w) :
    (setFld x lo len v).getLsbD i = if lo ≤ i ∧ i < lo + len then v.testBit (i - lo) else x.getLsbD i := by
  simp only [setFld, BitVec.getLsbD_or, BitVec.getLsbD_and, BitVec.getLsbD_not, BitVec.getLsbD_ofNat, Nat.testBit_shiftLeft,
    Nat.testBit_two_pow_sub_one, Nat.testBit_mod_two_pow, hi, decide_true, Bool.true_and]
  by_cases h1 : lo ≤ i
  · by_cases h2 : i < lo + len
    · simp [h1, h2, show i - lo < len by omega]
    · simp [h1, h2, show ¬ i - lo < len by omega]
  · simp [h1]
/-- A field reads back as the value that it was set to. -/
theorem fld_setFld_same {w : Nat} (x : BitVec w) (lo len v : Nat) (h : lo + len ≤ w) : fld (setFld x lo len v) lo len = v % 2 ^ len := by
  apply Nat.eq_of_testBit_eq
  intro i
  simp only [fld, BitVec.testBit_toNat, BitVec.getLsbD_extractLsb', Nat.testBit_mod_two_pow]
  by_cases hi : i < len
  · rw [getLsbD_setFld _ _ _ _ _ (by omega)]
    simp [hi]
  · simp [hi]
theorem getLsbD_setBit {w : Nat} (x : BitVec w) (i j : Nat) (b : Bool) (hj : j < w) : (setBit x i b).getLsbD j = if i = j then b else x.getLsbD j := by
  rw [setBit, getLsbD_setFld _ _ _ _ _ hj]
  by_cases e : i = j
  · subst e; cases b <;> simp
  · rw [if_neg e, if_neg (by omega)]
/-- Setting further bits leaves a set bit set. -/
theorem getLsbD_setBit_true {w : Nat} (x : BitVec w) (i j : Nat) (hj : j < w) (h : x.getLsbD j = true) : (setBit x i true).getLsbD j = true := by
  rw [getLsbD_setBit _ _ _ _ hj, h, ite_self]
theorem fld_ofNat_low {w : Nat} (n len : Nat) (hl : len ≤ w) (h : n < 2 ^ len) : fld (BitVec.ofNat w n) 0 len = n := by
  have hw : n < 2 ^ w := Nat.lt_of_lt_of_le h (Nat.pow_le_pow_right (by omega) hl)
  simp only [fld, BitVec.extractLsb'_toNat, BitVec.toNat_ofNat, Nat.shiftRight_zero, Nat.mod_eq_of_lt hw, Nat.mod_eq_of_lt h]

/-! ## Registers of the device and of a context -/

theorem DReg.ctorIdx_lt (r : DReg) : r.ctorIdx < 33 := by cases r <;> decide
theorem CReg.ctorIdx_lt (r : CReg) : r.ctorIdx < 33 := by cases r <;> decide
theorem DReg.ctorIdx_injective {q r : DReg} (h : q.ctorIdx = r.ctorIdx) : q = r := by
  rw [← DReg.ofNat_ctorIdx q, h, DReg.ofNat_ctorIdx]
/-- A device register that was set reads as it was set, another as before. -/
theorem State.dreg_setDreg (s : State) (r q : DReg) (v : DWord) : (s.setDreg r v).dreg q = if r = q then v else s.dreg q := by
  simp only [State.dreg, State.setDreg, vget_vset _ _ _ _ r.ctorIdx_lt]
  by_cases e : r = q
  · rw [if_pos (by rw [e]), if_pos e]
  · rw [if_neg fun h => e (DReg.ctorIdx_injective h), if_neg e]
theorem State.creg_setCreg_same (s : State) (x : Nat) (r : CReg) (v : DWord) (hx : x < 64) : (s.setCreg x r v).creg x r = v := by
  simp only [State.creg, State.setCreg, State.modCtx, State.setCtx, vget_vset_same _ _ _ hx, vget_vset_same _ _ _ r.ctorIdx_lt]
/-- A register of another context stays as it was. -/
theorem State.creg_setCreg_ctx_ne (s : State) (x y : Nat) (r q : CReg) (v : DWord) (h : x ≠ y) : (s.setCreg x r v).creg y q = s.creg y q := by
  simp only [State.creg, State.setCreg, State.modCtx, State.setCtx, vget_vset_ne _ _ _ _ h]

/-! ## Vectors and dies -/

theorem vget_map {α β : Type} [Inhabited α] [Inhabited β] {n : Nat} (v : Vector α n) (f : α → β) (i : Nat) (h : i < n) :
    vget (v.map f) i = f (vget v i) := by simp [vget, h]
theorem vget_ofFn {α : Type} [Inhabited α] {n : Nat} (f : Fin n → α) (i : Nat) (h : i < n) : vget (Vector.ofFn f) i = f ⟨i, h⟩ := by
  simp [vget, h]
theorem State.modDie_same (s : State) (d : Nat) (f : Die → Die) (h : d < 6) : vget (s.modDie d f).dies d = f (vget s.dies d) := vget_vmod_same _ _ _ h
theorem State.modDie_ne (s : State) (d e : Nat) (f : Die → Die) (h : d ≠ e) : vget (s.modDie d f).dies e = vget s.dies e := vget_vmod_ne _ _ _ _ h
theorem State.dies_modDie (s : State) (d e : Nat) (f : Die → Die) (hd : d < 6) : vget (s.modDie d f).dies e = if d = e then f (vget s.dies e) else vget s.dies e := by
  by_cases h : d = e
  · rw [if_pos h, ← h, State.modDie_same _ _ _ hd]
  · rw [if_neg h, State.modDie_ne _ _ _ _ h]

/-! ## What bytes arriving at homes leave as it was -/

/-- A change of the device that touches only which blocks are written under a key and which sectors are poisoned. -/
def Device.SameButStorage (d e : Device) : Prop := ∃ keyed poison, e = { d with keyed, poison }
theorem Device.SameButStorage.refl (d : Device) : d.SameButStorage d := ⟨d.keyed, d.poison, rfl⟩
theorem Device.SameButStorage.trans {d e f : Device} (h : d.SameButStorage e) (k : e.SameButStorage f) : d.SameButStorage f := by
  obtain ⟨ky, po, rfl⟩ := h
  obtain ⟨ky', po', rfl⟩ := k
  exact ⟨ky', po', rfl⟩
/-- A fold over states keeps a relation that each step keeps. -/
theorem State.foldl_rel {α : Type} (R : State → State → Prop) (refl : ∀ s, R s s) (trans : ∀ s t u, R s t → R t u → R s u)
    (f : State → α → State) (hf : ∀ s a, R s (f s a)) (l : List α) (s : State) : R s (l.foldl f s) := by
  induction l generalizing s with
  | nil => exact refl s
  | cons a l ih => exact trans _ _ _ (hf s a) (ih _)

theorem State.physWrite_dev (s : State) (tag a : Nat) (b : Byte) : s.dev.SameButStorage (s.physWrite tag a b).dev := by
  simp only [State.physWrite, State.rekey]
  split
  · split
    · exact .refl _
    · exact ⟨_, _, rfl⟩
  · exact .refl _
theorem State.markMap_dev (s : State) (a : Nat) : (s.markMap a).dev = s.dev := by
  simp only [State.markMap]; split <;> rfl
theorem State.ite_modCluster_dev (s : State) (c : Bool) (cl : Nat) (f : Cluster → Cluster) : (if c = true then s.modCluster cl f else s).dev = s.dev := by
  cases c <;> rfl
theorem State.breakBar_dev (s : State) (a : Nat) : (s.breakBar a).dev = s.dev := s.ite_modCluster_dev _ _ _
theorem State.putByte_dev (s : State) (loc : Nat) (b : Byte) : s.dev.SameButStorage (s.putByte loc b).dev := by
  have h := s.physWrite_dev (loc / keyUnit) (loc % keyUnit) b
  simp only [State.putByte]
  split
  · rw [State.breakBar_dev, State.markMap_dev]; exact h
  · exact h
theorem State.cleanKeys_dev (s : State) (ks : List Nat) : s.dev.SameButStorage (s.cleanKeys ks).dev := by
  simp only [State.cleanKeys]
  split
  · exact .refl _
  · exact ⟨_, _, rfl⟩
theorem State.writePa_dev (s : State) (pa n v : Nat) : s.dev.SameButStorage (s.writePa pa n v).dev := by
  simp only [State.writePa, State.putPlain, State.keepSnaps]
  exact (State.foldl_rel (fun s t => s.dev.SameButStorage t.dev) (fun _ => .refl _) (fun _ _ _ => .trans) _ (fun s c => s.putByte_dev _ _) _ s).trans
    (State.cleanKeys_dev _ _)

/-- Every team of the later state is one of the earlier state with the same name and the same copy contexts. -/
def State.KeepsCopies (s t : State) : Prop := ∀ a ∈ t.teams, ∃ b ∈ s.teams, a.id = b.id ∧ a.copy = b.copy
theorem State.KeepsCopies.of_teams {s t : State} (h : t.teams = s.teams) : s.KeepsCopies t := fun a ha => ⟨a, h ▸ ha, rfl, rfl⟩
theorem State.KeepsCopies.trans {s t u : State} (h : s.KeepsCopies t) (k : t.KeepsCopies u) : s.KeepsCopies u := by
  intro a ha
  obtain ⟨b, hb, ib, cb⟩ := k a ha
  obtain ⟨c, hc, ic, cc⟩ := h b hb
  exact ⟨c, hc, ib.trans ic, cb.trans cc⟩
theorem State.KeepsCopies.of_map {s t : State} (f : Team → Team) (h : t.teams = s.teams.map f) (hf : ∀ a, (f a).id = a.id ∧ (f a).copy = a.copy) :
    s.KeepsCopies t := by
  intro a ha
  rw [h] at ha
  obtain ⟨b, hb, rfl⟩ := List.mem_map.mp ha
  exact ⟨b, hb, hf b⟩
theorem State.physWrite_teams (s : State) (tag a : Nat) (b : Byte) : (s.physWrite tag a b).teams = s.teams := by
  simp only [State.physWrite, State.rekey]
  split
  · split <;> rfl
  · rfl
theorem State.markMap_keepsCopies (s : State) (a : Nat) : s.KeepsCopies (s.markMap a) := by
  simp only [State.markMap]
  split
  · refine .of_map _ rfl fun t => ?_
    split
    · split <;> exact ⟨rfl, rfl⟩
    · exact ⟨rfl, rfl⟩
  · exact .of_teams rfl
theorem State.ite_modCluster_teams (s : State) (c : Bool) (cl : Nat) (f : Cluster → Cluster) :
    (if c = true then s.modCluster cl f else s).teams = s.teams := by
  cases c <;> rfl
theorem State.breakBar_teams (s : State) (a : Nat) : (s.breakBar a).teams = s.teams := s.ite_modCluster_teams _ _ _
theorem State.putByte_keepsCopies (s : State) (loc : Nat) (b : Byte) : s.KeepsCopies (s.putByte loc b) := by
  have h := State.KeepsCopies.of_teams (s.physWrite_teams (loc / keyUnit) (loc % keyUnit) b)
  simp only [State.putByte]
  split
  · exact (h.trans (State.markMap_keepsCopies _ _)).trans (.of_teams (State.breakBar_teams _ _))
  · exact h
theorem State.cleanKeys_teams (s : State) (ks : List Nat) : (s.cleanKeys ks).teams = s.teams := by
  simp only [State.cleanKeys]; split <;> rfl
/-- Bytes that the device writes leave the copy contexts of every team as they were. -/
theorem State.writePa_keepsCopies (s : State) (pa n v : Nat) : s.KeepsCopies (s.writePa pa n v) := by
  simp only [State.writePa, State.putPlain]
  have h := State.foldl_rel State.KeepsCopies (fun _ => .of_teams rfl) (fun _ _ _ => .trans) (fun s (c : Host.Cell) => s.putByte c.1 c.2)
    (fun s c => s.putByte_keepsCopies _ _) ((List.range n).map fun i => (pa + i, BitVec.ofNat 8 (v >>> (8 * i)))) s
  exact (h.trans (.of_teams (State.cleanKeys_teams _ _))).trans (.of_map _ rfl fun _ => ⟨rfl, rfl⟩)

/-! ## The reliability ring -/

theorem State.writePa_fold_dev (s : State) (l : List Nat) (pa v : Nat → Nat) :
    s.dev.SameButStorage (l.foldl (fun (s : State) i => s.writePa (pa i) 8 (v i)) s).dev :=
  State.foldl_rel (fun s t => s.dev.SameButStorage t.dev) (fun _ => .refl _) (fun _ _ _ => .trans) _ (fun s _ => s.writePa_dev _ _ _) l s
/-- A record leaves the semaphores. -/
theorem State.rasRecord_hsem (s : State) (kind utype unit gen time data : Nat) : (s.rasRecord kind utype unit gen time data).dev.hsem = s.dev.hsem := by
  obtain ⟨ky, po, h⟩ := s.writePa_fold_dev (List.range 4) _ _
  simp only [State.rasRecord, State.msix, State.setDreg]
  rw [h]
theorem State.msix_downAt (s : State) (fn v n : Nat) : (vget (s.msix fn v).dev.fns n).downAt = (vget s.dev.fns n).downAt := by
  simp only [State.msix, vmod]
  by_cases h : fn < 2
  · rw [vget_vset _ _ _ _ h]
    split
    · rename_i e; rw [e]
    · rfl
  · rw [vset_out _ _ _ (by omega)]
/-- A record leaves the time at which a function's link went down. -/
theorem State.rasRecord_downAt (s : State) (kind utype unit gen time data n : Nat) :
    (vget (s.rasRecord kind utype unit gen time data).dev.fns n).downAt = (vget s.dev.fns n).downAt := by
  simp only [State.rasRecord, State.msix_downAt, State.setDreg]
  obtain ⟨ky, po, h⟩ := s.writePa_fold_dev (List.range 4) _ _
  rw [h]

end Sys2Proof.Machine
end

section
/-!
PROOFS. Links, the fabric, collectives, common time, frames, scan-out, boot, the mailbox, key slots and the clock (R20 to R22, R266, R383 to R397):
what each of these device steps does, and from it the statement O60.
-/
namespace Sys2Proof.Machine

/-! ## Host links (R383) -/

/-- A link that carries one function goes down for that function only. -/
theorem hostLinkDown_split (s : State) (fn : Nat) (h : s.dev.split = true) :
    exec (.hostLinkDown fn) s = .next (if (vget s.dev.fns fn).linkUp = false then s
      else if s.hsemHeld fn = true then s.modFn fn fun k => { k with linkUp := false, downAt := some s.packTime }
      else (s.modFn fn fun k => { k with linkUp := false }).rasNow 11 4 fn 0 0) := by
  show execHostLinkDown fn s = _
  simp only [execHostLinkDown, State.linkFns, h, if_true, List.foldl_cons, List.foldl_nil, Bool.not_eq_true']
/-- A link of eight lanes trains within its limits where the I/O die is there. -/
theorem hostLinkTrained_split (s : State) (fn rate width : Nat) (h : s.dev.split = true) :
    exec (.hostLinkTrained fn rate width) s = .next (if (vget s.dies 4).released = false ∨ 128 < rate ∨ rate = 0 ∨ 8 < width ∨ width = 0 then s
      else s.modFn fn fun k => { k with linkUp := true, rate, width }) := by
  show execHostLinkTrained fn rate width s = _
  simp only [execHostLinkTrained, State.linkFns, h, if_true, List.foldl_cons, List.foldl_nil, Bool.or_eq_true, Bool.not_eq_true', decide_eq_true_eq,
    beq_iff_eq, or_assoc]
  split <;> rfl
theorem hsemLinkRelease_up (s : State) (fn : Nat) (h : (vget s.dev.fns fn).downAt = none) : exec (.hsemLinkRelease fn) s = .next s := by
  show execHsemLinkRelease fn s = _
  simp only [execHsemLinkRelease, h]
theorem hsemLinkRelease_early (s : State) (fn t0 : Nat) (h : (vget s.dev.fns fn).downAt = some t0) (ht : s.packTime < t0 + 1000000) :
    exec (.hsemLinkRelease fn) s = .next s := by
  show execHsemLinkRelease fn s = _
  simp only [execHsemLinkRelease, h, ht, if_true]
/-- A millisecond after the link went down HSEM0 is free again. -/
theorem hsemLinkRelease_due (s : State) (fn t0 : Nat) (hf : fn < 2) (h : (vget s.dev.fns fn).downAt = some t0) (ht : t0 + 1000000 ≤ s.packTime)
    (hh : s.hsemHeld fn = true) :
    ∃ t : State, exec (.hsemLinkRelease fn) s = .next t ∧ vget t.dev.hsem 0 = 0 ∧ (vget t.dev.fns fn).downAt = none := by
  have e : exec (.hsemLinkRelease fn) s = .next (State.rasNow { s.modFn fn fun k => { k with downAt := none } with
      dev := { (s.modFn fn fun k => { k with downAt := none }).dev with hsem := vset s.dev.hsem 0 0 } } 11 4 fn 0 1) := by
    show execHsemLinkRelease fn s = _
    simp only [execHsemLinkRelease, h, Nat.not_lt.mpr ht, if_false, hh, if_true]
    rfl
  refine ⟨_, e, ?_, ?_⟩
  · rw [State.rasNow, State.rasRecord_hsem]
    exact vget_vset_same _ _ _ (by decide)
  · rw [State.rasNow, State.rasRecord_downAt]
    simp only [State.modFn, vget_vmod_same _ _ _ hf]

/-! ## The fabric (R384) -/

/-- A request from this package, beyond its GDDR7, or at an unrouted address does nothing. -/
theorem peerRequest_refused (s : State) (src a : Nat) (wr : Bool) (o : Option AtomOp) (ty : Ty) (v c : DWord)
    (h : src = Config.packageNumber ∨ Config.gddrBytes < a + ty.width / 8 ∨ s.route a = none) : exec (.peerRequest src a wr o ty v c) s = .next s := by
  show execPeerRequest src a wr o ty v c s = _
  simp only [execPeerRequest, Option.isNone_iff_eq_none, h, if_true]
/-- Another performs at the home, once the requests routed under an older generation have completed. -/
theorem peerRequest_performs (s : State) (src a : Nat) (wr : Bool) (o : Option AtomOp) (ty : Ty) (v c : DWord)
    (hs : src ≠ Config.packageNumber) (ha : a + ty.width / 8 ≤ Config.gddrBytes) (hr : (s.route a).isSome = true) :
    exec (.peerRequest src a wr o ty v c) s = .next (
      let h := if s.rtHeld a then s.drained else s
      match o with
      | some op => (h.homeAtomic op ty a v c).2
      | none => if wr then h.homeWriteN a (ty.width / 8) v.toNat else h) := by
  show execPeerRequest src a wr o ty v c s = _
  have hn : s.route a ≠ none := Option.isSome_iff_ne_none.mp hr
  simp only [execPeerRequest, Option.isNone_iff_eq_none, hs, Nat.not_lt.mpr ha, hn, or_false, if_false]
  cases o <;> rfl

/-- Whether a path stands at a MEM instruction. -/
def Run.atMem (r : Run) : Bool := !r.words.isEmpty && (Mn.ofOp (r.word.extractLsb' 55 9)).bind Mn.cls == some .mem
theorem Run.atMem_of (r : Run) (h : r.words ≠ []) (hm : (Mn.ofOp (r.word.extractLsb' 55 9)).bind Mn.cls = some .mem) : r.atMem = true := by
  simp [Run.atMem, h, hm]

section
variable {s : State} {p : Party} {l loc : Nat} {a : DWord} {pg : Page}

theorem undeliverable_local (hx : s.xlate (some (s.team p.team).coreNo) (s.team p.team).id.ctx a.toNat .read = .ok (loc, pg))
    (hr : (isPeer (loc % keyUnit) && isRemote loc) = false) : exec (.requestUndeliverable p l a) s = .next s := by
  show execRequestUndeliverable p l a s = _
  simp only [execRequestUndeliverable, hx, hr, Bool.not_false, if_true]
/-- A lane that waits at a MEM instruction takes the fault with the lanes of its run. -/
theorem undeliverable_blocked {r : Run} {g : Nat} (hp : p.mem = .group g)
    (hx : s.xlate (some (s.team p.team).coreNo) (s.team p.team).id.ctx a.toNat .read = .ok (loc, pg))
    (hr : (isPeer (loc % keyUnit) && isRemote loc) = true) (hm : r.atMem = true) (hb : s.blockedRun? p l = some r) :
    exec (.requestUndeliverable p l a) s = .next (s.trapLanes p r (bitsOf r.lanes) [l] 0x0B a 8) := by
  show execRequestUndeliverable p l a s = _
  simp only [Run.atMem] at hm
  simp only [execRequestUndeliverable, hx, hr, Bool.not_true, Bool.false_eq_true, if_false, hp, hb, hm, if_true]
/-- The guarded lanes of an issue group at a MEM instruction take the fault. -/
theorem undeliverable_running {r : Run} {g : Nat} (hp : p.mem = .group g)
    (hx : s.xlate (some (s.team p.team).coreNo) (s.team p.team).id.ctx a.toNat .read = .ok (loc, pg))
    (hr : (isPeer (loc % keyUnit) && isRemote loc) = true) (hm : r.atMem = true) (hb : s.blockedRun? p l = none) (hg : (s.group p).run = some r)
    (hl : l ∈ s.guarded p r (bitsOf r.lanes)) :
    exec (.requestUndeliverable p l a) s = .next ((s.wake p (bitsOf r.lanes)).trapAt p (s.guarded p r (bitsOf r.lanes))
      { cause := 0x0B, addr := a, aux := 8, lanes := ofBits 32 [l], pc := r.slotPc, mid := r.here.2 }) := by
  show execRequestUndeliverable p l a s = _
  simp only [Run.atMem] at hm
  simp only [execRequestUndeliverable, hx, hr, Bool.not_true, Bool.false_eq_true, if_false, hp, hb, hg, hm, List.contains_iff_mem.mpr hl, Bool.or_self]
/-- A copy context with a record under way waits on a fault batch. -/
theorem undeliverable_copy {c : Nat} (hp : p.mem = .engine (64 + c))
    (hx : s.xlate (some (s.team p.team).coreNo) (s.team p.team).id.ctx a.toNat .read = .ok (loc, pg))
    (hr : (isPeer (loc % keyUnit) && isRemote loc) = true) (hb : (vget (s.team p.team).copy c).batch = none)
    (ha : (vget (s.team p.team).copy c).aborting = false) (hq : ∃ q ∈ (vget (s.team p.team).copy c).recs, q.accepted = true ∧ q.status = 0) :
    exec (.requestUndeliverable p l a) s = .next (s.copyFault p.team c a.toNat { sub := 8 } .engine) := by
  show execRequestUndeliverable p l a s = _
  have any : ((vget (s.team p.team).copy c).recs.any fun q => q.accepted && q.status == 0) = true := by
    simpa only [List.any_eq_true, Bool.and_eq_true, beq_iff_eq] using hq
  simp only [execRequestUndeliverable, hx, hr, Bool.not_true, Bool.false_eq_true, if_false, hp, Nat.add_sub_cancel_left, hb, ha, any,
    Nat.not_lt.mpr (Nat.le_add_right 64 c), decide_false, Option.isSome_none, Bool.or_self]
end

/-! ## Collectives (R266, R386) -/

theorem collAbort_foreign (s : State) (fn x g : Nat) (h : fnOf x ≠ fn) : exec (.collAbort fn x g) s = .next (s.violate (ctxOffset x 0x468) fn 1) := by
  show execCollAbort fn x g s = _
  simp only [execCollAbort, State.ctxPort, h, if_false]
theorem collAbort_own (s : State) (fn x g : Nat) (h : fnOf x = fn) :
    exec (.collAbort fn x g) s = .next (s.due (.abortToken x g ((s.collGroup x g).2.2 + 1))) := by
  show execCollAbort fn x g s = _
  simp only [execCollAbort, State.ctxPort, h, if_true, State.collAbort]
/-- Without a collective record in the context a token only raises ATTEMPT and drops the older elements. -/
theorem abortToken_without_records (s : State) (x g n : Nat)
    (h : ∀ t ∈ s.teams, t.id.ctx = x → ∀ c, c < 4 → ∀ r ∈ (vget t.copy c).recs, Rec.kind r.w ≠ 5) :
    exec (.abortToken x g n) s = .next ((s.writePa (fld (s.creg x .cgBase) 4 48 * 16 + 16 * g + 4) 4 (max (s.collGroup x g).2.2 n)).modCtx x fun c =>
      { c with packets := c.packets.filter fun k => k.grp != g || decide (max (s.collGroup x g).2.2 n ≤ k.attempt) }) := by
  show execAbortToken x g n s = _
  have keeps := s.writePa_keepsCopies (fld (s.creg x .cgBase) 4 48 * 16 + 16 * g + 4) 4 (max (s.collGroup x g).2.2 n)
  unfold execAbortToken
  dsimp only
  generalize s.writePa _ _ _ = q at keeps ⊢
  generalize hu : q.modCtx x _ = u
  have none_stale : ((u.teams.filter fun t => t.id.ctx == x).flatMap fun t => (List.range 4).flatMap fun c =>
      ((vget t.copy c).recs.filter fun r => u.stale t r && Rec.grp r.w == g && (vget t.copy c).batch.isNone).map fun r => (t.id.uid, c, r)) = [] := by
    simp only [List.flatMap_eq_nil_iff, List.map_eq_nil_iff, List.filter_eq_nil_iff, List.mem_filter, List.mem_range, beq_iff_eq]
    intro t ⟨ht, hx⟩ c hc r hr
    obtain ⟨b, hb, ib, cb⟩ := keeps t (by rw [← hu] at ht; exact ht)
    have hk : Rec.kind r.w ≠ 5 := h b hb (ib ▸ hx) c hc r (cb ▸ hr)
    simp [State.stale, hk]
  rw [none_stale, List.foldl_nil]

/-- An element of an older attempt, or a misaligned one, is dropped. -/
theorem collectivePacket_dropped (s : State) (x g n : Nat) (a : PacketPlace) (v : BitVec 32) (h : n < (s.collGroup x g).2.2 ∨ a.off % 4 ≠ 0) :
    exec (.collectivePacket x g n a v) s = .next s := by
  show execCollectivePacket x g n a v s = _
  have : (decide (n < (s.collGroup x g).2.2) || a.off % 4 != 0) = true := by simpa using h
  simp only [execCollectivePacket, this, if_true]
/-- The element that a packet brings. -/
def CollPacket.brought (g n : Nat) (a : PacketPlace) (v : BitVec 32) : CollPacket := { grp := g, attempt := n, seq := a.seq, rank := a.rank, addr := a.off, v }
/-- The elements of a context once one more has joined them: it takes the place of what came for the same element before. -/
def State.joined (s : State) (x : Nat) (k : CollPacket) : List CollPacket := (s.ctx x).packets.filter (fun q => { q with v := k.v } != k) ++ [k]
theorem collectivePacket_joins (s : State) (x g n : Nat) (a : PacketPlace) (v : BitVec 32) (h : (s.collGroup x g).2.2 ≤ n) (ha : a.off % 4 = 0) :
    exec (.collectivePacket x g n a v) s = .next (s.modCtx x fun c => { c with packets := s.joined x (CollPacket.brought g n a v) }) := by
  show execCollectivePacket x g n a v s = _
  have : (decide (n < (s.collGroup x g).2.2) || a.off % 4 != 0) = false := by simpa using ⟨h, ha⟩
  simp only [execCollectivePacket, this, Bool.false_eq_true, if_false]
  rfl
theorem mem_joined (s : State) (x g n : Nat) (a : PacketPlace) (v : BitVec 32) (k : CollPacket) :
    k ∈ s.joined x (CollPacket.brought g n a v) ↔ k = CollPacket.brought g n a v ∨
      (k ∈ (s.ctx x).packets ∧ ¬ (k.grp = g ∧ k.attempt = n ∧ k.seq = a.seq ∧ k.rank = a.rank ∧ k.addr = a.off)) := by
  obtain ⟨grp, attempt, seq, rank, addr, w⟩ := k
  simp only [State.joined, CollPacket.brought, List.mem_append, List.mem_filter, List.mem_singleton, bne_iff_ne, ne_eq, CollPacket.mk.injEq, and_true,
    or_comm (a := CollPacket.mk _ _ _ _ _ _ ∈ _ ∧ _)]

/-! ## Common time and frames (R22, R389, R390) -/

theorem syncMessage_other_role (s : State) (o : BitVec 32) (h : fld (s.dreg .tsCfg) 30 2 ≠ 1) : exec (.syncMessage o) s = .next s := by
  show execSyncMessage o s = _
  simp only [execSyncMessage, ne_eq, h, not_false_eq_true, if_true]
/-- A follower that has taken a Sync's offset: OFFS, LOCKED and the readings that speak against it. -/
def State.syncTaken (s : State) (o : BitVec 32) : State :=
  let locked := (s.dreg .tsStat).getLsbD 0
  let against := if decide (o.toInt.natAbs ≤ 15) != locked then s.dev.syncRuns + 1 else 0
  let flip := if locked then 4 ≤ against else 16 ≤ against
  let t := s.setDreg .tsStat (o ++ BitVec.ofNat 32 (if locked != decide flip then 1 else 0) : BitVec 64)
  { t with dev := { t.dev with syncRuns := if flip then 0 else against } }
/-- The counters after a step: the I/O die's by the offset, the other dies' sums by their OFFSET. -/
def State.stepped (s : State) (o : BitVec 32) : State :=
  [0, 1, 2, 3, 5].foldl (fun (s : State) i => s.modDie i fun d => { d with off := d.off - o.signExtend 64 })
    (s.modDie 4 fun d => { d with cnt := d.cnt - o.signExtend 64 })
theorem syncMessage_resident (s : State) (o : BitVec 32) (h : fld (s.dreg .tsCfg) 30 2 = 1) (ht : ∃ tm ∈ s.teams, tm.phase ≠ .saved) :
    exec (.syncMessage o) s = .next { s.syncTaken o with
      freeCtr := s.freeCtr + 1
      dev := { (s.syncTaken o).dev with slew := ((Config.freeValue s.freeCtr).toNat % (2 * slewMax + 1) : Nat) - (slewMax : Int) } } := by
  show execSyncMessage o s = _
  have any : (s.teams.any (·.phase != .saved)) = true := by simpa using ht
  simp only [execSyncMessage, ne_eq, h, not_true_eq_false, if_false, State.setDreg_teams, any, if_true]
  rfl
theorem syncMessage_idle (s : State) (o : BitVec 32) (h : fld (s.dreg .tsCfg) 30 2 = 1) (ht : ∀ tm ∈ s.teams, tm.phase = .saved) :
    exec (.syncMessage o) s = .next (
      let u := (s.syncTaken o).stepped o
      if (u.dreg .flCtl).getLsbD 0 then { u with dev := { u.dev with frame := max u.dev.frame u.nextFrame } } else u) := by
  show execSyncMessage o s = _
  have any : (s.teams.any (·.phase != .saved)) = false := by simpa using ht
  simp only [execSyncMessage, ne_eq, h, not_true_eq_false, if_false, State.setDreg_teams, any, Bool.false_eq_true]
  rfl

/-- LOCKED after a Sync: it takes 4 consecutive readings outside the bound to clear it and 16 inside it to set it. -/
def State.locks (s : State) (o : BitVec 32) : Prop :=
  ((s.dreg .tsStat).getLsbD 0 = true ∧ (o.toInt.natAbs ≤ 15 ∨ s.dev.syncRuns < 3)) ∨
    ((s.dreg .tsStat).getLsbD 0 = false ∧ o.toInt.natAbs ≤ 15 ∧ 15 ≤ s.dev.syncRuns)
theorem State.syncTaken_tsStat (s : State) (o : BitVec 32) :
    ∃ b : Bool, (s.syncTaken o).dreg .tsStat = o ++ BitVec.ofNat 32 (if b then 1 else 0) ∧ (b = true ↔ s.locks o) := by
  refine ⟨_, (State.dreg_setDreg s .tsStat .tsStat _).trans (if_pos rfl), ?_⟩
  unfold State.locks
  cases (s.dreg .tsStat).getLsbD 0 with
  | true => by_cases inside : o.toInt.natAbs ≤ 15 <;> simp [inside]
  | false => by_cases inside : o.toInt.natAbs ≤ 15 <;> simp [inside]
theorem State.syncTaken_offs (s : State) (o : BitVec 32) : fld ((s.syncTaken o).dreg .tsStat) 32 32 = o.toNat := by
  obtain ⟨b, hb, -⟩ := s.syncTaken_tsStat o
  rw [hb, fld]
  exact congrArg BitVec.toNat ((Laws.extract_append_high o _ 32 32 (Nat.le_refl _)).trans (BitVec.extractLsb'_eq_self))
theorem State.syncTaken_locked (s : State) (o : BitVec 32) : ((s.syncTaken o).dreg .tsStat).getLsbD 0 = true ↔ s.locks o := by
  obtain ⟨b, hb, hl⟩ := s.syncTaken_tsStat o
  rw [hb, ← hl, Laws.getLsbD_append_low (n := 32) (m := 32) o _ 0 (by decide)]
  cases b <;> decide
theorem State.syncTaken_flCtl (s : State) (o : BitVec 32) : (s.syncTaken o).dreg .flCtl = s.dreg .flCtl := by
  refine (State.dreg_setDreg s .tsStat .flCtl _).trans (if_neg (by decide))

theorem State.stepped_mem (s : State) (o : BitVec 32) : (s.stepped o).mem = s.mem := by
  simp only [State.stepped, List.foldl_cons, List.foldl_nil, State.modDie_mem]
theorem State.stepped_dev (s : State) (o : BitVec 32) : (s.stepped o).dev = s.dev := by
  simp only [State.stepped, List.foldl_cons, List.foldl_nil, State.modDie_dev]
theorem State.stepped_io (s : State) (o : BitVec 32) : (vget (s.stepped o).dies 4).cnt = (vget s.dies 4).cnt - o.signExtend 64 := by
  simp [State.stepped, State.modDie_ne, State.modDie_same]
theorem State.stepped_other (s : State) (o : BitVec 32) (d : Nat) (h : d < 6) (hd : d ≠ 4) :
    vget (s.stepped o).dies d = { vget s.dies d with off := (vget s.dies d).off - o.signExtend 64 } := by
  have : d = 0 ∨ d = 1 ∨ d = 2 ∨ d = 3 ∨ d = 5 := by omega
  rcases this with rfl | rfl | rfl | rfl | rfl <;> simp [State.stepped, State.modDie_ne, State.modDie_same]

/-- The frames whose instants a step has passed are skipped. -/
theorem syncMessage_steps (s : State) (o : BitVec 32) (h : fld (s.dreg .tsCfg) 30 2 = 1) (ht : ∀ tm ∈ s.teams, tm.phase = .saved) :
    ∃ t : State, exec (.syncMessage o) s = .next t ∧ t.mem = s.mem ∧ t.dreg .tsStat = (s.syncTaken o).dreg .tsStat ∧
      t.dies = ((s.syncTaken o).stepped o).dies ∧ t.dev.frame = if (s.dreg .flCtl).getLsbD 0 then max s.dev.frame t.nextFrame else s.dev.frame := by
  refine ⟨_, syncMessage_idle s o h ht, ?_⟩
  have hm : ((s.syncTaken o).stepped o).mem = s.mem := State.stepped_mem _ _
  have hd := (s.syncTaken o).stepped_dev o
  have hc := s.syncTaken_flCtl o
  generalize (s.syncTaken o).stepped o = u at hm hd ⊢
  have hs : u.dreg .tsStat = (s.syncTaken o).dreg .tsStat := by rw [State.dreg, hd]; rfl
  have hf : u.dev.frame = s.dev.frame := by rw [hd]; rfl
  have hu : u.dreg .flCtl = s.dreg .flCtl := by rw [State.dreg, hd]; exact hc
  dsimp only
  rw [hu]
  cases (s.dreg .flCtl).getLsbD 0 with
  | true => exact ⟨hm, hs, rfl, congrArg (max · u.nextFrame) hf⟩
  | false => exact ⟨hm, hs, rfl, hf⟩

/-- Frame `⌈256 d / per⌉` does not start before `d` (R390), and every earlier frame does. -/
theorem le_mul_div_ceilDiv (d per : Nat) (h : per ≠ 0) : d ≤ ceilDiv (256 * d) per * per / 256 := by
  rw [Nat.le_div_iff_mul_le (by decide), ceilDiv, if_neg h]
  have := Nat.div_add_mod (256 * d + per - 1) per
  have := Nat.mod_lt (256 * d + per - 1) (Nat.pos_of_ne_zero h)
  rw [Nat.mul_comm _ per]
  omega
theorem mul_div_lt_of_lt_ceilDiv (d per k : Nat) (h : per ≠ 0) (hk : k < ceilDiv (256 * d) per) : k * per / 256 < d := by
  rw [Nat.div_lt_iff_lt_mul (by decide)]
  rw [ceilDiv, if_neg h, Nat.lt_div_iff_mul_lt (Nat.pos_of_ne_zero h)] at hk
  omega
/-- The next frame is the first one that does not start before now. -/
theorem State.nextFrame_due (s : State) (h : fld (s.dreg .flPer) 0 40 ≠ 0) : s.packTime ≤ s.frameStartAt s.nextFrame := by
  have := le_mul_div_ceilDiv (s.packTime - (s.dreg .flT0).toNat) _ h
  simp only [State.frameStartAt, State.nextFrame]
  omega
theorem State.before_nextFrame (s : State) (k : Nat) (h : fld (s.dreg .flPer) 0 40 ≠ 0) (hk : k < s.nextFrame) : s.frameStartAt k < s.packTime := by
  have := mul_div_lt_of_lt_ceilDiv (s.packTime - (s.dreg .flT0).toNat) _ k h hk
  simp only [State.frameStartAt]
  omega

theorem flCtlEnable_held (s : State) (fn : Nat) (v : BitVec 32) (h : s.hsemHeld fn = true) : exec (.flCtlEnable fn v) s = .next (s.flCtlWrite (v.setWidth 64)) := by
  show execFlCtlEnable fn v s = _
  simp only [execFlCtlEnable, State.shared, h, if_true]
theorem flCtlEnable_refused (s : State) (fn : Nat) (v : BitVec 32) (h : s.hsemHeld fn = false) :
    exec (.flCtlEnable fn v) s = .next (s.violate 0x1210 fn 0) := by
  show execFlCtlEnable fn v s = _
  simp only [execFlCtlEnable, State.shared, h, Bool.false_eq_true, if_false]
  rfl
theorem setWidth_bit0 (v : BitVec 32) : (v.setWidth 64).getLsbD 0 = v.getLsbD 0 := by rw [BitVec.getLsbD_setWidth]; rfl
/-- Frames start with the first one that does not start before now. -/
theorem flCtlEnable_starts (s : State) (fn : Nat) (v : BitVec 32) (h : s.hsemHeld fn = true) (hv : v.getLsbD 0 = true)
    (hc : (s.dreg .flCtl).getLsbD 0 = false) (hp : fld (s.dreg .flPer) 0 40 ≠ 0) :
    ∃ t : State, exec (.flCtlEnable fn v) s = .next t ∧ t.dreg .flCtl = 1 ∧ s.packTime ≤ s.frameStartAt t.dev.frame ∧
      ∀ k, k < t.dev.frame → s.frameStartAt k < s.packTime := by
  have e : s.flCtlWrite (v.setWidth 64) = { s.setDreg .flCtl 1 with dev := { (s.setDreg .flCtl 1).dev with frame := s.nextFrame } } := by
    simp only [State.flCtlWrite, setWidth_bit0, hv, hc, beq_eq_false_iff_ne.mpr hp, Bool.not_true, Bool.false_eq_true, if_false, Bool.or_self]
  refine ⟨_, flCtlEnable_held s fn v h, ?_⟩
  rw [e]
  exact ⟨(State.dreg_setDreg s .flCtl .flCtl 1).trans (if_pos rfl), s.nextFrame_due hp, fun k hk => s.before_nextFrame k hp hk⟩
/-- Frames stop, and no stream has one left to send. -/
theorem flCtlEnable_stops (s : State) (fn : Nat) (v : BitVec 32) (h : s.hsemHeld fn = true) (hv : v.getLsbD 0 = false) :
    ∃ t : State, exec (.flCtlEnable fn v) s = .next t ∧ t.dreg .flCtl = 0 ∧ ∀ n, n < 4 → vget t.dev.soDue n = [] := by
  have e : s.flCtlWrite (v.setWidth 64) = { s.setDreg .flCtl 0 with dev := { (s.setDreg .flCtl 0).dev with soDue := .replicate 4 [] } } := by
    simp only [State.flCtlWrite, setWidth_bit0, hv, Bool.not_false, if_true]
  refine ⟨_, flCtlEnable_held s fn v h, ?_⟩
  rw [e]
  exact ⟨(State.dreg_setDreg s .flCtl .flCtl 0).trans (if_pos rfl), fun n hn => by simp [vget, hn]⟩

theorem frameStart_waits (s : State) (h : (s.dreg .flCtl).getLsbD 0 = false ∨ s.packTime < s.frameStartAt s.dev.frame) : exec .frameStart s = .next s := by
  show execFrameStart s = _
  have : (!(s.dreg .flCtl).getLsbD 0 || decide (s.packTime < s.frameStartAt s.dev.frame)) = true := by simpa using h
  simp only [execFrameStart, this, if_true]
/-- A frame under way: the frames whose instants have passed are left out, and the streams have learnt of this one. -/
def State.frameBegun (s : State) : State :=
  let s1 := { s with dev := { s.dev with frame := max (s.dev.frame + 1) s.nextFrame } }
  let on (n : Nat) : Bool := !vget s.dev.soAway n && s.dreg ([DReg.soDesc0, .soDesc1, .soDesc2, .soDesc3].getD n .soDesc0) != 0
  { s1 with dev := { s1.dev with soDue := Vector.ofFn fun n => let q := vget s1.dev.soDue n.val; if on n.val then q ++ [s.dev.frame] else q } }
theorem State.frameBegun_soDue (s : State) :
    vget s.frameBegun.dev.soDue 0 = vget s.dev.soDue 0 ++ (if s.dreg .soDesc0 ≠ 0 ∧ vget s.dev.soAway 0 = false then [s.dev.frame] else []) := by
  have e : vget s.frameBegun.dev.soDue 0 =
      if (!vget s.dev.soAway 0 && s.dreg .soDesc0 != 0) = true then vget s.dev.soDue 0 ++ [s.dev.frame] else vget s.dev.soDue 0 := by
    rw [vget, State.frameBegun, Vector.getElem?_ofFn]; rfl
  rw [e]
  by_cases h : s.dreg .soDesc0 = 0#64 <;> cases vget s.dev.soAway 0 <;> simp [h]
theorem frameStart_starts (s : State) (hc : (s.dreg .flCtl).getLsbD 0 = true) (ht : s.frameStartAt s.dev.frame ≤ s.packTime) :
    exec .frameStart s = .next (s.frameBegun.homeWriteN (fld (s.dreg .flWord) 3 49 * 8) 8 s.dev.frame) := by
  show execFrameStart s = _
  have run : (!(s.dreg .flCtl).getLsbD 0 || decide (s.packTime < s.frameStartAt s.dev.frame)) = false := by
    simp only [hc, Bool.not_true, Bool.false_or, decide_eq_false_iff_not, Nat.not_lt.mpr ht, not_false_eq_true]
  simp only [execFrameStart, run, Bool.false_eq_true, if_false]
  rfl

/-! ## Scan-out (R391, R392) -/

theorem scanOut_nothing_due (s : State) (n : Nat) (h : vget s.dev.soDue n = []) : exec (.scanOutFrame n) s = .next s := by
  show execScanOutFrame n s = _
  simp only [execScanOutFrame, h]
/-- A stream's oldest frame leaves its queue. -/
def State.frameTaken (s : State) (n : Nat) (rest : List Nat) : State := { s with dev := { s.dev with soDue := vset s.dev.soDue n rest } }
theorem State.frameTaken_soDue (s : State) (n : Nat) (rest : List Nat) (hn : n < 4) : vget (s.frameTaken n rest).dev.soDue n = rest :=
  vget_vset_same _ _ _ hn
/-- Whether the surface that a present record names is shown as frame `k` of a stream: it is meant for that frame, fits, and its drawing has not failed. -/
def State.shows (s : State) (k : Nat) (d : Vector DWord 8) (bs : List Byte) : Prop :=
  k ≤ (vget (dwordsOf 3 bs) 0).toNat ∧
  s.presentable (fld (vget d 0) 18 6) (fld (vget (dwordsOf 3 bs) 1) 52 12) (fld (vget d 0) 42 14 + 1) (fld (vget d 0) 28 14 + 1) = true ∧
  s.genFailed (fld (vget d 0) 18 6) (vget (dwordsOf 3 bs) 2).toNat = false
/-- The handle that a stream repeats: its last good one, 0 where that lies in another context or is gone. -/
def State.repeated (s : State) (n x : Nat) : Nat :=
  if (vget s.dev.soGood n).1 = x ∧ (s.surf? x (vget s.dev.soGood n).2).isSome then (vget s.dev.soGood n).2 else 0

section
variable {s : State} {n k : Nat} {rest : List Nat} (hq : vget s.dev.soDue n = k :: rest)
include hq

theorem scanOut_disabled (hd : s.soDesc n = none) : exec (.scanOutFrame n) s = .next (s.frameTaken n rest) := by
  show execScanOutFrame n s = _
  simp only [execScanOutFrame, hq, hd]
  rfl

variable {d : Vector DWord 8} (hd : s.soDesc n = some d)
include hd

theorem scanOut_early (ht : s.packTime < s.frameStartAt k + 1000 * fld (vget d 0) 0 18) : exec (.scanOutFrame n) s = .next s := by
  show execScanOutFrame n s = _
  simp only [execScanOutFrame, hq, hd, ht, if_true]

variable (ht : s.frameStartAt k + 1000 * fld (vget d 0) 0 18 ≤ s.packTime)
  {bs : List Byte} (hb : s.devRead (fld (vget d 0) 18 6) (vget d 1).toNat 24 = .ok bs)
include ht hb

theorem scanOut_shows (hg : s.shows k d bs) : exec (.scanOutFrame n) s = .next { s.frameTaken n rest with
    dev := { (s.frameTaken n rest).dev with
      soGood := vset s.dev.soGood n (fld (vget d 0) 18 6, fld (vget (dwordsOf 3 bs) 1) 52 12)
      soSent := vset s.dev.soSent n (some (k, fld (vget (dwordsOf 3 bs) 1) 52 12, false)) } } := by
  obtain ⟨hk, hp, hf⟩ := hg
  show execScanOutFrame n s = _
  simp only [execScanOutFrame, hq, hd, Nat.not_lt.mpr ht, if_false, hb, hk, hp, hf, Bool.not_false, and_self, if_true]
  rfl
/-- A frame that is not shown repeats the last good one and is counted. -/
theorem scanOut_repeats (hg : ¬ s.shows k d bs) : exec (.scanOutFrame n) s = .next (State.setDreg { s.frameTaken n rest with
    dev := { (s.frameTaken n rest).dev with soSent := vset s.dev.soSent n (some (k, s.repeated n (fld (vget d 0) 18 6), true)) } }
      (soMiss n) (BitVec.ofNat 64 ((fld (s.dreg (soMiss n)) 0 32 + 1) % 2 ^ 32))) := by
  show execScanOutFrame n s = _
  simp only [State.shows, ← Bool.not_eq_true'] at hg
  simp only [execScanOutFrame, hq, hd, Nat.not_lt.mpr ht, if_false, hb, hg, State.repeated, Bool.and_eq_true, decide_eq_true_eq]
  rfl
end

/-- A frame's sending, whether the presented surface or the last good one goes out. -/
theorem scanOut_presents (s : State) (n : Nat) (hn : n < 4) (k : Nat) (rest : List Nat) (hq : vget s.dev.soDue n = k :: rest) (d : Vector DWord 8)
    (hd : s.soDesc n = some d) (bs : List Byte) (ht : s.frameStartAt k + 1000 * fld (vget d 0) 0 18 ≤ s.packTime)
    (hb : s.devRead (fld (vget d 0) 18 6) (vget d 1).toNat 24 = .ok bs) :
    ∃ t : State, exec (.scanOutFrame n) s = .next t ∧ vget t.dev.soDue n = rest ∧ t.mem = s.mem ∧
      (s.shows k d bs → vget t.dev.soSent n = some (k, fld (vget (dwordsOf 3 bs) 1) 52 12, false) ∧
        vget t.dev.soGood n = (fld (vget d 0) 18 6, fld (vget (dwordsOf 3 bs) 1) 52 12)) ∧
      (¬ s.shows k d bs → vget t.dev.soGood n = vget s.dev.soGood n ∧
        vget t.dev.soSent n = some (k, s.repeated n (fld (vget d 0) 18 6), true) ∧
        fld (t.dreg (soMiss n)) 0 32 = (fld (s.dreg (soMiss n)) 0 32 + 1) % 2 ^ 32) := by
  by_cases hg : s.shows k d bs
  · exact ⟨_, scanOut_shows hq hd ht hb hg, s.frameTaken_soDue n rest hn, rfl, fun _ => ⟨vget_vset_same _ _ _ hn, vget_vset_same _ _ _ hn⟩,
      fun h => absurd hg h⟩
  · refine ⟨_, scanOut_repeats hq hd ht hb hg, s.frameTaken_soDue n rest hn, rfl, fun h => absurd h hg, fun _ => ⟨rfl, vget_vset_same _ _ _ hn, ?_⟩⟩
    rw [State.dreg_setDreg, if_pos rfl, fld_ofNat_low _ _ (by decide) (Nat.mod_lt _ (by decide))]

/-! ## The trust die (R394) -/

/-- A die was released, or stays in reset and its BOOT_STAT bit says so. -/
def State.measured (s : State) (d : Nat) : Prop := (vget s.dies d).released = true ∨ ((vget s.dies d).lost = true ∧ (s.dreg .bootStat).getLsbD d = true)

/-- Measuring leaves memory, the clusters, the counters, releases, and what the device holds beside its registers; what was measured stays so. -/
structure State.BootKeeps (s t : State) : Prop where
  mem : t.mem = s.mem
  dev : ∃ regs, t.dev = { s.dev with regs }
  cnt : ∀ e, (vget t.dies e).cnt = (vget s.dies e).cnt
  released : ∀ e, (vget s.dies e).released = true → (vget t.dies e).released = true
  measured : ∀ e, e < 6 → s.measured e → t.measured e
theorem State.BootKeeps.refl (s : State) : s.BootKeeps s := ⟨rfl, ⟨_, rfl⟩, fun _ => rfl, fun _ => id, fun _ _ => id⟩
theorem State.BootKeeps.trans {s t u : State} (h : s.BootKeeps t) (k : t.BootKeeps u) : s.BootKeeps u := by
  obtain ⟨r, hr⟩ := h.dev
  obtain ⟨q, hq⟩ := k.dev
  exact ⟨k.mem.trans h.mem, ⟨q, by rw [hq, hr]⟩, fun e => (k.cnt e).trans (h.cnt e), fun e he => k.released e (h.released e he),
    fun e he hm => k.measured e he (h.measured e he hm)⟩
/-- A die that measures good leaves reset. -/
def State.releaseDie (s : State) (d : Nat) : State := s.modDie d fun k => { k with released := true }
/-- One that does not stays in it. -/
def State.holdDie (s : State) (d : Nat) : State :=
  (s.setDreg .bootStat (setBit (s.dreg .bootStat) d true)).modDie d fun k => { k with lost := true }
theorem State.bootDie_cases (s : State) (d : Nat) : s.bootDie d = s.flip.2.releaseDie d ∨ s.bootDie d = s.flip.2.holdDie d := by
  by_cases h : Config.chance s.freeCtr = true
  · exact .inl (if_pos h)
  · exact .inr (if_neg h)
theorem State.flip_keeps (s : State) : s.BootKeeps s.flip.2 := ⟨rfl, ⟨_, rfl⟩, fun _ => rfl, fun _ => id, fun _ _ => id⟩
theorem State.releaseDie_keeps (s : State) (d : Nat) (hd : d < 6) : s.BootKeeps (s.releaseDie d) where
  mem := rfl
  dev := ⟨_, rfl⟩
  cnt e := by rw [State.releaseDie, State.dies_modDie _ _ _ _ hd]; split <;> rfl
  released e he := by
    rw [State.releaseDie, State.dies_modDie _ _ _ _ hd]; split
    · rfl
    · exact he
  measured e _ he := by
    rw [State.measured, State.releaseDie, State.dies_modDie _ _ _ _ hd]; split
    · exact .inl rfl
    · exact he
theorem State.holdDie_bootStat (s : State) (d : Nat) : (s.holdDie d).dreg .bootStat = setBit (s.dreg .bootStat) d true :=
  (State.dreg_setDreg s .bootStat .bootStat _).trans (if_pos rfl)
theorem State.holdDie_dies (s : State) (d e : Nat) (hd : d < 6) :
    vget (s.holdDie d).dies e = if d = e then { vget s.dies e with lost := true } else vget s.dies e := State.dies_modDie _ _ _ _ hd
theorem State.holdDie_keeps (s : State) (d : Nat) (hd : d < 6) : s.BootKeeps (s.holdDie d) where
  mem := rfl
  dev := ⟨_, rfl⟩
  cnt e := by rw [State.holdDie_dies _ _ _ hd]; split <;> rfl
  released e he := by rw [State.holdDie_dies _ _ _ hd]; split <;> exact he
  measured e he hm := by
    rw [State.measured, State.holdDie_bootStat, State.holdDie_dies _ _ _ hd]
    refine hm.imp (fun hr => ?_) fun ⟨hl, hb⟩ => ⟨?_, getLsbD_setBit_true _ _ _ (by omega) hb⟩
    · split <;> exact hr
    · split
      · rfl
      · exact hl
theorem State.bootDie_keeps (s : State) (d : Nat) (hd : d < 6) : s.BootKeeps (s.bootDie d) := by
  rcases s.bootDie_cases d with h | h <;> rw [h]
  · exact s.flip_keeps.trans (State.releaseDie_keeps _ d hd)
  · exact s.flip_keeps.trans (State.holdDie_keeps _ d hd)
theorem State.bootDie_measured (s : State) (d : Nat) (hd : d < 6) : (s.bootDie d).measured d := by
  rcases s.bootDie_cases d with h | h <;> rw [h]
  · exact .inl (by rw [State.releaseDie, State.modDie_same _ _ _ hd])
  · refine .inr ⟨?_, ?_⟩
    · rw [State.holdDie_dies _ _ _ hd, if_pos rfl]
    · rw [State.holdDie_bootStat, getLsbD_setBit _ _ _ _ (by omega), if_pos rfl]
/-- Every die of the boot order has been measured at its end. -/
theorem State.boot_measured (l : List Nat) (hl : ∀ d ∈ l, d < 6) (s : State) :
    s.BootKeeps (l.foldl State.bootDie s) ∧ ∀ d ∈ l, (l.foldl State.bootDie s).measured d := by
  induction l generalizing s with
  | nil => exact ⟨.refl s, fun _ h => nomatch h⟩
  | cons d l ih =>
    have hd := hl d List.mem_cons_self
    obtain ⟨keeps, meas⟩ := ih (fun e he => hl e (List.mem_cons_of_mem _ he)) (s.bootDie d)
    refine ⟨(s.bootDie_keeps d hd).trans keeps, fun e he => ?_⟩
    rcases List.mem_cons.mp he with rfl | he
    · exact keeps.measured e hd (s.bootDie_measured e hd)
    · exact meas e he

/-- The boot: the dies measured, time aligned, the clusters of the released dies present, region table entry 0 and fresh keys. -/
def State.booted (s : State) : State :=
  { s.flip.2 with
    dies := s.dies.map fun (d : Die) => { d with off := (vget s.dies 4).cnt - d.cnt, rate := 0 }
    clusters := Vector.ofFn fun c =>
      { vget s.clusters c.val with leftOut := Vector.ofFn fun i => Config.leftOutRow c.val i.val, enabled := !(vget s.dies (c.val / 3)).lost }
    dev := { s.dev with
      split := s.flip.1, bankA := Vector.ofFn fun i => if i.val = 0 then bootEntry else {}
      slotGen := Vector.ofFn fun n => if n.val = 0 then 0 else vget s.dev.slotGen n.val + 1 } }
theorem trustDieBoot_boots (s : State) : exec .trustDieBoot s = .next (bootOrder.foldl State.bootDie (s.releaseDie 5)).booted := rfl
theorem State.booted_dies (s : State) (d : Nat) (hd : d < 6) :
    vget s.booted.dies d = { vget s.dies d with off := (vget s.dies 4).cnt - (vget s.dies d).cnt, rate := 0 } := vget_map _ _ _ hd
theorem State.booted_measured (s : State) (d : Nat) (hd : d < 6) (h : s.measured d) : s.booted.measured d := by
  rw [State.measured, State.booted_dies s d hd]; exact h
theorem State.booted_time (s : State) (d : Nat) (hd : d < 6) :
    (vget s.booted.dies d).cnt + (vget s.booted.dies d).off = (vget s.booted.dies 4).cnt := by
  rw [State.booted_dies s d hd, State.booted_dies s 4 (by decide)]
  exact (BitVec.add_comm _ _).trans (BitVec.sub_add_cancel _ _)
theorem State.booted_clusters (s : State) (c : Nat) (hc : c < 6) : (vget s.booted.clusters c).enabled = !(vget s.booted.dies (c / 3)).lost := by
  rw [State.booted_dies s _ (by omega)]
  exact congrArg Cluster.enabled (vget_ofFn _ c hc)
theorem State.booted_entry0 (s : State) : vget s.booted.dev.bankA 0 = bootEntry := vget_ofFn _ 0 (by decide)
theorem State.booted_slotGen (s : State) (n : Nat) (hn : n < 64) : vget s.booted.dev.slotGen n = if n = 0 then 0 else vget s.dev.slotGen n + 1 :=
  vget_ofFn _ n hn
theorem trustDieBoot_releases (s : State) : ∃ t : State, exec .trustDieBoot s = .next t ∧ (vget t.dies 5).released = true ∧ t.mem = s.mem ∧
    (∀ d, d < 5 → t.measured d) ∧
    (∀ d, d < 6 → (vget t.dies d).cnt + (vget t.dies d).off = (vget t.dies 4).cnt) ∧
    (∀ c, c < 6 → (vget t.clusters c).enabled = !(vget t.dies (c / 3)).lost) ∧
    vget t.dev.bankA 0 = bootEntry ∧
    vget t.dev.slotGen 0 = 0 ∧ ∀ n, 0 < n → n < 64 → vget t.dev.slotGen n = vget s.dev.slotGen n + 1 := by
  obtain ⟨keeps, meas⟩ := State.boot_measured bootOrder (by decide) (s.releaseDie 5)
  refine ⟨_, trustDieBoot_boots s, ?_⟩
  generalize bootOrder.foldl State.bootDie (s.releaseDie 5) = u at keeps meas ⊢
  obtain ⟨regs, hdev⟩ := keeps.dev
  refine ⟨?_, keeps.mem, fun d hd => u.booted_measured d (by omega) (meas d ?_), u.booted_time, u.booted_clusters, u.booted_entry0,
    u.booted_slotGen 0 (by decide), fun n h0 hn => ?_⟩
  · rw [State.booted_dies u 5 (by decide)]
    exact keeps.released 5 (congrArg Die.released (State.modDie_same s 5 _ (by decide)))
  · have : d = 0 ∨ d = 1 ∨ d = 2 ∨ d = 3 ∨ d = 4 := by omega
    rcases this with rfl | rfl | rfl | rfl | rfl <;> decide
  · rw [u.booted_slotGen n hn, if_neg (by omega), hdev]; rfl

/-! ## The mailbox (R395) -/

/-- The response of a mailbox request, in a state that differs from the one before in the mailbox and the free values taken. -/
theorem answer_tells (s : State) (fn c : Nat) (a : Answer) (hf : fn < 2) : ∃ t : State, ({ s with freeCtr := c } : State).answer fn a = .next t ∧
    (vget t.dev.fns fn).mailbox = some a ∧ t.mem = s.mem ∧ t.teams = s.teams :=
  ⟨_, rfl, congrArg Function.mailbox (vget_vmod_same _ _ _ hf), rfl, rfl⟩

/-! ## Key slots (R396) -/

theorem tmCmdGrant_refused (s : State) (fn x slot : Nat) (h : s.slotBad fn slot = true ∨ fnOf x ≠ fn) :
    exec (.tmCmdGrant fn x slot) s = .next (s.setTm fn true) := by
  show Host.Outcome.next (s.keyGrant fn x slot) = _
  have : (s.slotBad fn slot || fnOf x != fn) = true := by simpa using h
  simp only [State.keyGrant, this, if_true]
theorem tmCmdGrant_grants (s : State) (fn x slot : Nat) (hx : x < 64) (h : s.slotBad fn slot = false) (hf : fnOf x = fn) :
    ∃ t : State, exec (.tmCmdGrant fn x slot) s = .next t ∧ vget t.dev.slotOwner (slot % 64) = some x ∧ (t.creg x .keyAllow).getLsbD (slot % 64) = true := by
  have hn : slot % 64 < 64 := Nat.mod_lt _ (by decide)
  have e : exec (.tmCmdGrant fn x slot) s = .next (State.setCreg { s with dev := { s.dev with slotOwner := vset s.dev.slotOwner (slot % 64) (some x) } }
      x .keyAllow (setBit (s.creg x .keyAllow) (slot % 64) true)) := by
    show Host.Outcome.next (s.keyGrant fn x slot) = _
    simp only [State.keyGrant, h, hf, bne_self_eq_false, Bool.or_self, Bool.false_eq_true, if_false]
  refine ⟨_, e, vget_vset_same _ _ _ hn, ?_⟩
  rw [State.creg_setCreg_same _ _ _ _ hx, getLsbD_setBit _ _ _ _ hn, if_pos rfl]
/-- A slot taken out of every context's KEY_ALLOW. -/
def State.disallow (s : State) (n : Nat) (l : List Nat) : State :=
  l.foldl (fun (s : State) x => s.setCreg x .keyAllow (setBit (s.creg x .keyAllow) n false)) s
theorem State.disallow_dev (s : State) (n : Nat) (l : List Nat) : (s.disallow n l).dev = s.dev := by
  induction l generalizing s with
  | nil => rfl
  | cons x l ih => exact (ih _).trans (State.setCreg_dev _ _ _ _)
theorem State.disallow_clear (s : State) (n : Nat) (l : List Nat) (y : Nat) (hn : n < 64) (hl : ∀ x ∈ l, x < 64)
    (h : y ∈ l ∨ (s.creg y .keyAllow).getLsbD n = false) : ((s.disallow n l).creg y .keyAllow).getLsbD n = false := by
  induction l generalizing s with
  | nil => exact h.resolve_left List.not_mem_nil
  | cons x l ih =>
    refine ih _ (fun z hz => hl z (List.mem_cons_of_mem _ hz)) ?_
    by_cases e : x = y
    · subst e
      exact .inr (by rw [State.creg_setCreg_same _ _ _ _ (hl x List.mem_cons_self), getLsbD_setBit _ _ _ _ hn, if_pos rfl])
    · rw [State.creg_setCreg_ctx_ne _ _ _ _ _ _ e]
      exact h.imp_left fun hy => (List.mem_cons.mp hy).resolve_left fun k => e k.symm
theorem tmCmdRevoke_refused (s : State) (fn slot : Nat) (h : s.slotBad fn slot = true) : exec (.tmCmdRevoke fn slot) s = .next (s.setTm fn true) := by
  show Host.Outcome.next (s.keyRevoke fn slot) = _
  simp only [State.keyRevoke, h, if_true]
/-- A slot without an owner, and with a fresh key. -/
def State.freshSlot (s : State) (n : Nat) : State :=
  { s with dev := { s.dev with slotOwner := vset s.dev.slotOwner n none, slotGen := vmod s.dev.slotGen n (· + 1) } }
theorem State.freshSlot_creg (s : State) (n y : Nat) (r : CReg) : (s.freshSlot n).creg y r = s.creg y r := rfl
theorem State.freshSlot_owner (s : State) (n : Nat) (hn : n < 64) : vget (s.freshSlot n).dev.slotOwner n = none := vget_vset_same _ _ _ hn
theorem State.freshSlot_gen (s : State) (n : Nat) (hn : n < 64) : vget (s.freshSlot n).dev.slotGen n = vget s.dev.slotGen n + 1 := vget_vmod_same _ _ _ hn
theorem State.keyRevoke_own (s : State) (fn slot : Nat) (h : s.slotBad fn slot = false) :
    s.keyRevoke fn slot = (s.disallow (slot % 64) (List.range 64)).freshSlot (slot % 64) := by
  simp only [State.keyRevoke, h, Bool.false_eq_true, if_false, State.disallow, State.freshSlot]
theorem tmCmdRevoke_revokes (s : State) (fn slot : Nat) (h : s.slotBad fn slot = false) :
    ∃ t : State, exec (.tmCmdRevoke fn slot) s = .next t ∧ vget t.dev.slotOwner (slot % 64) = none ∧
      (∀ y, y < 64 → (t.creg y .keyAllow).getLsbD (slot % 64) = false) ∧ vget t.dev.slotGen (slot % 64) = vget s.dev.slotGen (slot % 64) + 1 := by
  have hn : slot % 64 < 64 := Nat.mod_lt _ (by decide)
  refine ⟨_, congrArg Host.Outcome.next (s.keyRevoke_own fn slot h), State.freshSlot_owner _ _ hn, fun y hy => ?_, ?_⟩
  · rw [State.freshSlot_creg]
    exact s.disallow_clear _ _ y hn (fun x hx => List.mem_range.mp hx) (.inl (List.mem_range.mpr hy))
  · rw [State.freshSlot_gen _ _ hn, State.disallow_dev]

/-! ## The clock (R397) -/

theorem thermalThrottle_lowers (s : State) : ∃ t : State, exec .thermalThrottle s = .next t ∧
    fld (t.dreg .pwrStat) 0 16 = (if 50 < fld (s.dreg .pwrStat) 0 16 then fld (s.dreg .pwrStat) 0 16 - 50 else fld (s.dreg .pwrStat) 0 16) := by
  refine ⟨_, rfl, ?_⟩
  have hf : fld (s.dreg .pwrStat) 0 16 < 2 ^ 16 := BitVec.isLt _
  split
  · rw [State.dreg_setDreg, if_pos rfl, fld_setFld_same _ _ _ _ (by decide), Nat.mod_eq_of_lt (by omega)]
  · rfl

/-! ## O60 -/

/-- Settles O60, each device step by the lemmas above that say what it does in each of its cases; the boot by what the measuring of a die keeps, the
next frame by the bounds of a rounded-up quotient. -/
theorem linksPeersFramesAndTrust : Obligations.LinksPeersFramesAndTrust := by
  unfold Obligations.LinksPeersFramesAndTrust
  refine ⟨?links, ?release, ?peers, fun _ _ => rfl, ?groups, ?copies, ?aborts, fun s x g n h => abortToken_without_records s x g n h, ?packets, ?sync, ?flCtl,
    ?frames, ?scanOut, ?boot, ?mailbox, ?keys, thermalThrottle_lowers⟩
  case links =>
    intro s fn rate width _ hs
    refine ⟨fun hu => ?_, fun hu hh => ?_, fun hu hh => ?_, fun hd h1 h2 h3 h4 => ?_, fun h => ?_⟩
    · rw [hostLinkDown_split s fn hs, if_pos hu]
    · rw [hostLinkDown_split s fn hs, if_neg (by simp [hu]), if_pos hh]
    · rw [hostLinkDown_split s fn hs, if_neg (by simp [hu]), if_neg (by simp [hh])]
    · rw [hostLinkTrained_split s fn rate width hs, if_neg (by simp [hd]; omega)]
    · rw [hostLinkTrained_split s fn rate width hs, if_pos (by omega)]
  case release =>
    exact fun s fn hf => ⟨hsemLinkRelease_up s fn, fun t0 h => ⟨hsemLinkRelease_early s fn t0 h, hsemLinkRelease_due s fn t0 hf h⟩⟩
  case peers =>
    intro s src a wr ty v c
    refine ⟨fun h o => peerRequest_refused s src a wr o ty v c h, fun hs ha hr => ?_⟩
    exact ⟨peerRequest_performs s src a false none ty v c hs ha hr, peerRequest_performs s src a true none ty v c hs ha hr,
      fun o => peerRequest_performs s src a wr (some o) ty v c hs ha hr⟩
  case groups =>
    intro s p g l a loc pg hp hx
    refine ⟨undeliverable_local hx, fun r hr hw hm => ?_⟩
    have atMem := r.atMem_of hw hm
    exact ⟨undeliverable_blocked hp hx hr atMem, undeliverable_running hp hx hr atMem⟩
  case copies => exact fun s p c l a loc pg hp hx hr hb ha hq => undeliverable_copy hp hx hr hb ha hq
  case aborts => exact fun s fn x g => ⟨collAbort_foreign s fn x g, collAbort_own s fn x g⟩
  case packets =>
    intro s x g n a v
    refine ⟨collectivePacket_dropped s x g n a v, fun h ha => ⟨_, collectivePacket_joins s x g n a v h ha, ?_, mem_joined s x g n a v⟩⟩
    exact (mem_joined s x g n a v _).mpr (.inl rfl)
  case sync =>
    intro s o
    refine ⟨syncMessage_other_role s o, fun h => ?_⟩
    by_cases idle : ∀ tm ∈ s.teams, tm.phase = .saved
    · obtain ⟨t, e, hm, hs, hd, hf⟩ := syncMessage_steps s o h idle
      refine ⟨t, e, hm, hs ▸ s.syncTaken_offs o, hs ▸ s.syncTaken_locked o, fun _ => ⟨?_, fun d h6 h4 => ?_, hf⟩, fun ⟨tm, ht, hn⟩ => absurd (idle tm ht) hn⟩
      · rw [hd, State.stepped_io]; rfl
      · rw [hd, State.stepped_other _ _ _ h6 h4]; rfl
    · have resident : ∃ tm ∈ s.teams, tm.phase ≠ .saved := by simpa using idle
      refine ⟨_, syncMessage_resident s o h resident, rfl, s.syncTaken_offs o, s.syncTaken_locked o, fun hi => absurd hi idle, fun _ => ⟨rfl, ?_⟩⟩
      dsimp only [slewMax]
      omega
  case flCtl =>
    exact fun s fn v => ⟨flCtlEnable_refused s fn v, flCtlEnable_starts s fn v, flCtlEnable_stops s fn v⟩
  case frames => exact fun s => ⟨frameStart_waits s, fun hc ht => ⟨s.frameBegun, frameStart_starts s hc ht, rfl, rfl, rfl, s.frameBegun_soDue⟩⟩
  case scanOut =>
    intro s n hn
    refine ⟨scanOut_nothing_due s n, fun k rest hq => ⟨fun hd => ?_, fun d hd => ⟨scanOut_early hq hd, fun bs ht hb => ?_⟩⟩⟩
    · exact ⟨_, scanOut_disabled hq hd, s.frameTaken_soDue n rest hn, rfl⟩
    · exact scanOut_presents s n hn k rest hq d hd bs ht hb
  case boot =>
    intro s
    obtain ⟨t, e, h5, hm, hd, ht, hc, hb, h0, hg⟩ := trustDieBoot_releases s
    refine ⟨t, e, h5, hm, hd, ht, hc, ?_, ?_, ?_, ?_, ?_, h0, hg⟩
    all_goals (rw [hb]; decide)
  case mailbox =>
    intro s fn hf
    exact ⟨answer_tells s fn _ _ hf, answer_tells s fn _ _ hf, answer_tells s fn _ _ hf, answer_tells s fn _ _ hf, answer_tells s fn _ _ hf,
      ⟨_, answer_tells s fn _ _ hf⟩, ⟨_, _, answer_tells s fn _ _ hf⟩⟩
  case keys =>
    intro s fn x slot hx _
    exact ⟨tmCmdGrant_refused s fn x slot, tmCmdGrant_grants s fn x slot hx, tmCmdRevoke_refused s fn slot, tmCmdRevoke_revokes s fn slot⟩

end Sys2Proof.Machine
end
